-- ==== Sys2Proof/Word.lean ====
section
/-! DEFINITION. The word types of the hardware: 32-bit registers and addresses, 32-bit ARM words and
16-bit THUMB halfwords, bytes (00_scope.md R8, R10). Arithmetic on them is `BitVec`'s, modulo a power of two. -/

namespace Sys2Proof

/-- A 32-bit register value, address or ARM instruction word (R8). -/
abbrev Word := BitVec 32

/-- A 16-bit THUMB instruction halfword (R8). -/
abbrev Half := BitVec 16

/-- The addressable unit (R8). -/
abbrev Byte := BitVec 8

/-- A general register index, 0 to 15; 15 is the program counter (10_state.md R35). -/
abbrev RegIdx := BitVec 4

/-- A THUMB low-register field, naming R0 to R7 (10_state.md R37). -/
abbrev LowIdx := BitVec 3

end Sys2Proof
end

