-- ==== Sys2Proof/Config.lean ====
section
/-! DEFINITION. What is fixed for the machine: the start address (10_state.md R53) and the free values,
which nothing in Lean can evaluate (00_scope.md R13 "draw"; 60_exceptions.md R604). -/

namespace Sys2Proof

/-- `START_PC`, the start of the ROM window (10_state.md R53; 92_eei_decisions.md D27). -/
def Config.startPc : Word := 0x08000000#32

/-- The free value of draw number `n`: any word, under no law (R13, R604). The step reads it at the
counter `State.draws` and advances the counter, so two draws of a run are unrelated. Log entry 7. -/
opaque Config.freeWord : Nat → Word

/-- The byte at a mapped address for which `MEMORY_IMAGE` gives no value and to which nothing was
written: any byte, the same at every read (20_memory.md R74, R83). Log entry 6. -/
opaque Config.imageByte : Nat → Byte

end Sys2Proof
end

