-- ==== Sys2Proof/Syntax.lean ====
section
/-! DEFINITION. Instructions as syntax: one constructor per row of spec/opcode_table.json, in the table's
order (30_encoding.md R190), carrying the decoded fields of R110 and R150. Fields an ARM7TDMI requires to be
zero or one, which no decoder checks (R182), are carried too (`sbz`), so that `SBZ_CHECK` can see them and an
instruction determines its word. -/

namespace Sys2Proof

/-- `ConditionCode`, the fifteen codes in the order of their 4-bit encodings 0 to 14 (10_state.md R34). -/
inductive Cond where
  | eq | ne | cs | cc | mi | pl | vs | vc | hi | ls | ge | lt | gt | le | al
  deriving DecidableEq, Repr

/-- The shift types, numbered 0 to 3 (30_encoding.md R121). -/
inductive ShiftType where
  | lsl | lsr | asr | ror
  deriving DecidableEq, Repr

/-- The second operand of an ARM data-processing instruction (R121). -/
inductive Operand2 where
  | imm (rot : BitVec 4) (imm8 : BitVec 8)
  | regImm (rm : RegIdx) (ty : ShiftType) (amount : BitVec 5)
  | regReg (rm : RegIdx) (ty : ShiftType) (rs : RegIdx)
  deriving DecidableEq, Repr

/-- The offset of an ARM single data transfer (R124). -/
inductive Offset where
  | imm (off12 : BitVec 12)
  | reg (rm : RegIdx) (ty : ShiftType) (amount : BitVec 5)
  deriving DecidableEq, Repr

/-- The offset of an ARM halfword transfer (R106, R123); `sbz` is w[11:8] of the register form (R182). -/
inductive HalfOffset where
  | imm (off8 : BitVec 8)
  | reg (sbz : BitVec 4) (rm : RegIdx)
  deriving DecidableEq, Repr

/-- The source of an MSR (R108, R120); `sbz` is w[11:4] of the register form (R182). -/
inductive MsrSource where
  | imm (rot : BitVec 4) (imm8 : BitVec 8)
  | reg (sbz : BitVec 8) (rm : RegIdx)
  deriving DecidableEq, Repr

/-- The decoded instructions: `ArmDecoded` (R110) and `ThumbDecoded` (R150), one constructor per row of the
opcode table. Constructors with a `raw` word are the Invalid, Undefined and Unsupported rows (R180). -/
inductive Instr where
  /-- w[31:28] = 15 (R101, R385). -/
  | armInvalidNvCondition (raw : Word)
  /-- MUL; rn should be zero (R300, R182). -/
  | armMul (cond : Cond) (s : Bool) (rd rn rs rm : RegIdx)
  /-- MLA (R301). -/
  | armMla (cond : Cond) (s : Bool) (rd rn rs rm : RegIdx)
  /-- Undefined: multiply space, w[24:22] = 001 (R105, R311). -/
  | armUndefinedMultiply (raw : Word)
  /-- UMULL (R302). -/
  | armUmull (cond : Cond) (s : Bool) (rdHi rdLo rs rm : RegIdx)
  /-- UMLAL (R303). -/
  | armUmlal (cond : Cond) (s : Bool) (rdHi rdLo rs rm : RegIdx)
  /-- SMULL (R304). -/
  | armSmull (cond : Cond) (s : Bool) (rdHi rdLo rs rm : RegIdx)
  /-- SMLAL (R305). -/
  | armSmlal (cond : Cond) (s : Bool) (rdHi rdLo rs rm : RegIdx)
  /-- SWP; sbz is w[11:8] (R306, R182). -/
  | armSwp (cond : Cond) (rn rd : RegIdx) (sbz : BitVec 4) (rm : RegIdx)
  /-- SWPB; sbz is w[11:8] (R307, R182). -/
  | armSwpb (cond : Cond) (rn rd : RegIdx) (sbz : BitVec 4) (rm : RegIdx)
  /-- Undefined: multiply space with bit 24 set that is no swap (R105, R311). -/
  | armUndefinedSwap (raw : Word)
  /-- Invalid SignedStore: halfword space, L = 0, S = 1 (R106, R345). -/
  | armInvalidSignedStore (raw : Word)
  /-- STRH (R342). -/
  | armStrh (cond : Cond) (p u w : Bool) (rn rd : RegIdx) (off : HalfOffset)
  /-- LDRH (R341). -/
  | armLdrh (cond : Cond) (p u w : Bool) (rn rd : RegIdx) (off : HalfOffset)
  /-- LDRSB (R343). -/
  | armLdrsb (cond : Cond) (p u w : Bool) (rn rd : RegIdx) (off : HalfOffset)
  /-- LDRSH (R344). -/
  | armLdrsh (cond : Cond) (p u w : Bool) (rn rd : RegIdx) (off : HalfOffset)
  /-- BX (R107, R310). -/
  | armBx (cond : Cond) (rn : RegIdx)
  /-- MRS; i is w[25], sbz is w[11:0] (R108, R280, R182). -/
  | armMrs (cond : Cond) (i p : Bool) (rd : RegIdx) (sbz : BitVec 12)
  /-- MSR, flags only; sbo is w[15:12], which should be ones (R108, R281, R182). -/
  | armMsr (cond : Cond) (p : Bool) (sbo : BitVec 4) (src : MsrSource)
  /-- Invalid MsrFull: transfer type 41 (R108, R282). -/
  | armInvalidMsrFull (raw : Word)
  /-- Invalid PsrType: any other transfer type (R108, R282). -/
  | armInvalidPsrType (raw : Word)
  /-- AND (R262). -/
  | armAnd (cond : Cond) (s : Bool) (rn rd : RegIdx) (op2 : Operand2)
  /-- EOR (R263). -/
  | armEor (cond : Cond) (s : Bool) (rn rd : RegIdx) (op2 : Operand2)
  /-- SUB (R264). -/
  | armSub (cond : Cond) (s : Bool) (rn rd : RegIdx) (op2 : Operand2)
  /-- RSB (R265). -/
  | armRsb (cond : Cond) (s : Bool) (rn rd : RegIdx) (op2 : Operand2)
  /-- ADD (R266). -/
  | armAdd (cond : Cond) (s : Bool) (rn rd : RegIdx) (op2 : Operand2)
  /-- ADC (R267). -/
  | armAdc (cond : Cond) (s : Bool) (rn rd : RegIdx) (op2 : Operand2)
  /-- SBC (R268). -/
  | armSbc (cond : Cond) (s : Bool) (rn rd : RegIdx) (op2 : Operand2)
  /-- RSC (R269). -/
  | armRsc (cond : Cond) (s : Bool) (rn rd : RegIdx) (op2 : Operand2)
  /-- TST; S is always 1, rd is not used (R113, R270). -/
  | armTst (cond : Cond) (rn rd : RegIdx) (op2 : Operand2)
  /-- TEQ; S is always 1, rd is not used (R113, R271). -/
  | armTeq (cond : Cond) (rn rd : RegIdx) (op2 : Operand2)
  /-- CMP; S is always 1, rd is not used (R113, R272). -/
  | armCmp (cond : Cond) (rn rd : RegIdx) (op2 : Operand2)
  /-- CMN; S is always 1, rd is not used (R113, R273). -/
  | armCmn (cond : Cond) (rn rd : RegIdx) (op2 : Operand2)
  /-- ORR (R274). -/
  | armOrr (cond : Cond) (s : Bool) (rn rd : RegIdx) (op2 : Operand2)
  /-- MOV (R275); rn is not used (R113). -/
  | armMov (cond : Cond) (s : Bool) (rn rd : RegIdx) (op2 : Operand2)
  /-- BIC (R276). -/
  | armBic (cond : Cond) (s : Bool) (rn rd : RegIdx) (op2 : Operand2)
  /-- MVN (R277); rn is not used (R113). -/
  | armMvn (cond : Cond) (s : Bool) (rn rd : RegIdx) (op2 : Operand2)
  /-- Undefined: group 3 with w[4] = 1 (R109, R386). -/
  | armUndefinedTransfer (raw : Word)
  /-- STRT: P = 0, W = 1 (R335). -/
  | armStrt (cond : Cond) (u : Bool) (rn rd : RegIdx) (off : Offset)
  /-- LDRT: P = 0, W = 1 (R335). -/
  | armLdrt (cond : Cond) (u : Bool) (rn rd : RegIdx) (off : Offset)
  /-- STRBT: P = 0, W = 1 (R335). -/
  | armStrbt (cond : Cond) (u : Bool) (rn rd : RegIdx) (off : Offset)
  /-- LDRBT: P = 0, W = 1 (R335). -/
  | armLdrbt (cond : Cond) (u : Bool) (rn rd : RegIdx) (off : Offset)
  /-- STR (R332). -/
  | armStr (cond : Cond) (p u w : Bool) (rn rd : RegIdx) (off : Offset)
  /-- LDR (R331). -/
  | armLdr (cond : Cond) (p u w : Bool) (rn rd : RegIdx) (off : Offset)
  /-- STRB (R334). -/
  | armStrb (cond : Cond) (p u w : Bool) (rn rd : RegIdx) (off : Offset)
  /-- LDRB (R333). -/
  | armLdrb (cond : Cond) (p u w : Bool) (rn rd : RegIdx) (off : Offset)
  /-- STM (R127, R352). -/
  | armStm (cond : Cond) (p u s w : Bool) (rn : RegIdx) (rlist : BitVec 16)
  /-- LDM (R127, R351). -/
  | armLdm (cond : Cond) (p u s w : Bool) (rn : RegIdx) (rlist : BitVec 16)
  /-- B; the signed word offset, unscaled (R129, R380). -/
  | armB (cond : Cond) (offset : BitVec 24)
  /-- BL (R129, R381). -/
  | armBl (cond : Cond) (offset : BitVec 24)
  /-- Unsupported CoprocessorDataTransfer (R131, R383). -/
  | armUnsupportedDataTransfer (raw : Word)
  /-- Unsupported CoprocessorOperation (R131, R384). -/
  | armUnsupportedOperation (raw : Word)
  /-- SWI (R130, R382). -/
  | armSwi (cond : Cond) (imm24 : BitVec 24)
  /-- T1 LSL (R151, R411). -/
  | thumbLslImm (off5 : BitVec 5) (rs rd : LowIdx)
  /-- T1 LSR (R151, R412). -/
  | thumbLsrImm (off5 : BitVec 5) (rs rd : LowIdx)
  /-- T1 ASR (R151, R413). -/
  | thumbAsrImm (off5 : BitVec 5) (rs rd : LowIdx)
  /-- T2 ADD, register (R152, R414). -/
  | thumbAddReg (rn rs rd : LowIdx)
  /-- T2 SUB, register (R152, R415). -/
  | thumbSubReg (rn rs rd : LowIdx)
  /-- T2 ADD, 3-bit immediate (R152, R416). -/
  | thumbAddImm3 (imm3 : BitVec 3) (rs rd : LowIdx)
  /-- T2 SUB, 3-bit immediate (R152, R417). -/
  | thumbSubImm3 (imm3 : BitVec 3) (rs rd : LowIdx)
  /-- T3 MOV (R153, R418). -/
  | thumbMovImm8 (rd : LowIdx) (imm8 : BitVec 8)
  /-- T3 CMP (R153, R419). -/
  | thumbCmpImm8 (rd : LowIdx) (imm8 : BitVec 8)
  /-- T3 ADD (R153, R420). -/
  | thumbAddImm8 (rd : LowIdx) (imm8 : BitVec 8)
  /-- T3 SUB (R153, R421). -/
  | thumbSubImm8 (rd : LowIdx) (imm8 : BitVec 8)
  /-- T4 AND (R154, R430). -/
  | thumbAnd (rs rd : LowIdx)
  /-- T4 EOR (R154, R431). -/
  | thumbEor (rs rd : LowIdx)
  /-- T4 LSL (R154, R432). -/
  | thumbLslReg (rs rd : LowIdx)
  /-- T4 LSR (R154, R433). -/
  | thumbLsrReg (rs rd : LowIdx)
  /-- T4 ASR (R154, R434). -/
  | thumbAsrReg (rs rd : LowIdx)
  /-- T4 ADC (R154, R435). -/
  | thumbAdc (rs rd : LowIdx)
  /-- T4 SBC (R154, R436). -/
  | thumbSbc (rs rd : LowIdx)
  /-- T4 ROR (R154, R437). -/
  | thumbRorReg (rs rd : LowIdx)
  /-- T4 TST (R154, R438). -/
  | thumbTst (rs rd : LowIdx)
  /-- T4 NEG (R154, R439). -/
  | thumbNeg (rs rd : LowIdx)
  /-- T4 CMP (R154, R440). -/
  | thumbCmpReg (rs rd : LowIdx)
  /-- T4 CMN (R154, R441). -/
  | thumbCmn (rs rd : LowIdx)
  /-- T4 ORR (R154, R442). -/
  | thumbOrr (rs rd : LowIdx)
  /-- T4 MUL (R154, R443). -/
  | thumbMul (rs rd : LowIdx)
  /-- T4 BIC (R154, R444). -/
  | thumbBic (rs rd : LowIdx)
  /-- T4 MVN (R154, R445). -/
  | thumbMvn (rs rd : LowIdx)
  /-- Invalid HiRegNone: T5 ADD with H1 = H2 = 0 (R141, R426). -/
  | thumbInvalidHiAdd (raw : Half)
  /-- Invalid HiRegNone: T5 CMP with H1 = H2 = 0 (R141, R426). -/
  | thumbInvalidHiCmp (raw : Half)
  /-- Invalid HiRegNone: T5 MOV with H1 = H2 = 0 (R141, R426). -/
  | thumbInvalidHiMov (raw : Half)
  /-- Invalid BxH1: T5 BX with H1 = 1 (R141, R426). -/
  | thumbInvalidBxH1 (raw : Half)
  /-- T5 ADD; the 4-bit registers after the +8 (R155, R422). -/
  | thumbAddHi (rs rd : RegIdx)
  /-- T5 CMP; the 4-bit registers after the +8 (R155, R423). -/
  | thumbCmpHi (rs rd : RegIdx)
  /-- T5 MOV; the 4-bit registers after the +8 (R155, R424). -/
  | thumbMovHi (rs rd : RegIdx)
  /-- T5 BX; sbz is h[2:0] (R155, R425, R182). -/
  | thumbBx (rs : RegIdx) (sbz : BitVec 3)
  /-- T6 LDR, PC-relative; off is the scaled byte offset (R156, R461). -/
  | thumbLdrPc (rd : LowIdx) (off : BitVec 10)
  /-- T7 STR, register offset (R157, R462). -/
  | thumbStrReg (ro rb rd : LowIdx)
  /-- T7 STRB, register offset (R157, R463). -/
  | thumbStrbReg (ro rb rd : LowIdx)
  /-- T7 LDR, register offset (R157, R464). -/
  | thumbLdrReg (ro rb rd : LowIdx)
  /-- T7 LDRB, register offset (R157, R465). -/
  | thumbLdrbReg (ro rb rd : LowIdx)
  /-- T8 STRH (R158, R466). -/
  | thumbStrhReg (ro rb rd : LowIdx)
  /-- T8 LDRH (R158, R467). -/
  | thumbLdrhReg (ro rb rd : LowIdx)
  /-- T8 LDSB (R158, R468). -/
  | thumbLdsbReg (ro rb rd : LowIdx)
  /-- T8 LDSH (R158, R469). -/
  | thumbLdshReg (ro rb rd : LowIdx)
  /-- T9 STR; off is the scaled byte offset (R159, R470). -/
  | thumbStrImm (off : BitVec 7) (rb rd : LowIdx)
  /-- T9 LDR; off is the scaled byte offset (R159, R471). -/
  | thumbLdrImm (off : BitVec 7) (rb rd : LowIdx)
  /-- T9 STRB; off is the scaled byte offset (R159, R472). -/
  | thumbStrbImm (off : BitVec 5) (rb rd : LowIdx)
  /-- T9 LDRB; off is the scaled byte offset (R159, R473). -/
  | thumbLdrbImm (off : BitVec 5) (rb rd : LowIdx)
  /-- T10 STRH; off is the scaled byte offset (R160, R474). -/
  | thumbStrhImm (off : BitVec 6) (rb rd : LowIdx)
  /-- T10 LDRH; off is the scaled byte offset (R160, R475). -/
  | thumbLdrhImm (off : BitVec 6) (rb rd : LowIdx)
  /-- T11 STR, SP-relative; off is the scaled byte offset (R161, R476). -/
  | thumbStrSp (rd : LowIdx) (off : BitVec 10)
  /-- T11 LDR, SP-relative; off is the scaled byte offset (R161, R477). -/
  | thumbLdrSp (rd : LowIdx) (off : BitVec 10)
  /-- T12 ADD Rd,PC; off is the scaled byte offset (R162, R450). -/
  | thumbAddPc (rd : LowIdx) (off : BitVec 10)
  /-- T12 ADD Rd,SP; off is the scaled byte offset (R162, R451). -/
  | thumbAddSp (rd : LowIdx) (off : BitVec 10)
  /-- T13 ADD SP; m = h[6:0] * 4, the offset is m or, with s, -m (R163, R452). -/
  | thumbAdjustSp (s : Bool) (m : BitVec 9)
  /-- T14 PUSH (R164, R480). -/
  | thumbPush (r : Bool) (rlist : BitVec 8)
  /-- T14 POP (R164, R481). -/
  | thumbPop (r : Bool) (rlist : BitVec 8)
  /-- Undefined: 1011 with h[11:8] outside T13 and T14 (R142). -/
  | thumbUndefined1011 (raw : Half)
  /-- T15 STMIA (R165, R482). -/
  | thumbStmia (rb : LowIdx) (rlist : BitVec 8)
  /-- T15 LDMIA (R165, R483). -/
  | thumbLdmia (rb : LowIdx) (rlist : BitVec 8)
  /-- T17 SWI (R167, R502). -/
  | thumbSwi (imm8 : BitVec 8)
  /-- Undefined: condition 1110 of the conditional branch format (R142, R501). -/
  | thumbUndefinedCond14 (raw : Half)
  /-- T16 BEQ; off is the signed byte offset (R166, R500). -/
  | thumbBeq (off : BitVec 9)
  /-- T16 BNE; off is the signed byte offset (R166, R500). -/
  | thumbBne (off : BitVec 9)
  /-- T16 BCS; off is the signed byte offset (R166, R500). -/
  | thumbBcs (off : BitVec 9)
  /-- T16 BCC; off is the signed byte offset (R166, R500). -/
  | thumbBcc (off : BitVec 9)
  /-- T16 BMI; off is the signed byte offset (R166, R500). -/
  | thumbBmi (off : BitVec 9)
  /-- T16 BPL; off is the signed byte offset (R166, R500). -/
  | thumbBpl (off : BitVec 9)
  /-- T16 BVS; off is the signed byte offset (R166, R500). -/
  | thumbBvs (off : BitVec 9)
  /-- T16 BVC; off is the signed byte offset (R166, R500). -/
  | thumbBvc (off : BitVec 9)
  /-- T16 BHI; off is the signed byte offset (R166, R500). -/
  | thumbBhi (off : BitVec 9)
  /-- T16 BLS; off is the signed byte offset (R166, R500). -/
  | thumbBls (off : BitVec 9)
  /-- T16 BGE; off is the signed byte offset (R166, R500). -/
  | thumbBge (off : BitVec 9)
  /-- T16 BLT; off is the signed byte offset (R166, R500). -/
  | thumbBlt (off : BitVec 9)
  /-- T16 BGT; off is the signed byte offset (R166, R500). -/
  | thumbBgt (off : BitVec 9)
  /-- T16 BLE; off is the signed byte offset (R166, R500). -/
  | thumbBle (off : BitVec 9)
  /-- T18 B; off is the signed byte offset (R168, R503). -/
  | thumbB (off : BitVec 12)
  /-- Undefined: 1110 1xxx xxxx xxxx (R142). -/
  | thumbUndefined11101 (raw : Half)
  /-- T19 BL, high half; off = sint(h[10:0]) << 12 (R169, R504). -/
  | thumbBlHigh (off : BitVec 23)
  /-- T19 BL, low half; off = h[10:0] << 1 (R169, R505). -/
  | thumbBlLow (off : BitVec 12)
  deriving DecidableEq, Repr

end Sys2Proof
end

