-- ==== Sys2Proof/WellFormed.lean ====
section
/-! DEFINITION. Which instructions are well formed: the ones some word of 30_encoding.md decodes to. Almost every
field is bounded by its type; what is left is checked here. -/

namespace Sys2Proof

/-- `(w AND mask) = pat`, the table's test of a word (R190). -/
abbrev matches32 (w mask pat : Word) : Bool := w &&& mask == pat

/-- `(h AND mask) = pat` for a halfword (R190). -/
abbrev matches16 (h mask pat : Half) : Bool := h &&& mask == pat

/-- A condition field that is a `ConditionCode` (R101). -/
abbrev condOk (w : Word) : Bool := !matches32 w 0xF0000000#32 0xF0000000#32

/-- Group 0 with `w[7] = w[4] = 1`: the multiply, swap and halfword space, tested before BX and the PSR
transfers (R104). -/
abbrev inMultiplySpace (w : Word) : Bool := matches32 w 0x0E000090#32 0x00000090#32

/-- The source field of a register-form MSR lies outside the multiply space (R104): not both w[7] and w[4]. -/
def MsrSource.wf : MsrSource → Bool
  | .imm _ _ => true
  | .reg sbz _ => !(sbz.getLsbD 3 && sbz.getLsbD 0)

/-- An ARM single data transfer that is not a T form has not P = 0 with W = 1 (R330, R335). -/
abbrev transferBitsOk (p w : Bool) : Bool := p || !w

/-- The two registers of a T5 ADD, CMP or MOV are not both low: that word is Invalid HiRegNone (R141). -/
abbrev notBothLow (rs rd : RegIdx) : Bool := rs.getLsbD 3 || rd.getLsbD 3

/-- The low `k` bits of a pre-scaled offset are zero (R150). -/
abbrev scaled {n : Nat} (off : BitVec n) (k : Nat) : Bool := off.extractLsb' 0 k == 0#k

/-- Some word decodes to the instruction. -/
def Instr.WellFormed : Instr → Bool
  | .armInvalidNvCondition raw => matches32 raw 0xF0000000#32 0xF0000000#32
  | .armUndefinedMultiply raw => condOk raw && matches32 raw 0x0FC000F0#32 0x00400090#32
  | .armUndefinedSwap raw => condOk raw && matches32 raw 0x0F0000F0#32 0x01000090#32 &&
      !matches32 raw 0x0FF000F0#32 0x01000090#32 && !matches32 raw 0x0FF000F0#32 0x01400090#32
  | .armInvalidSignedStore raw => condOk raw && matches32 raw 0x0E1000D0#32 0x000000D0#32
  | .armInvalidMsrFull raw => condOk raw && matches32 raw 0x0DBF0000#32 0x01290000#32 && !inMultiplySpace raw
  | .armInvalidPsrType raw => condOk raw && matches32 raw 0x0D900000#32 0x01000000#32 && !inMultiplySpace raw &&
      !matches32 raw 0x0FFFFFF0#32 0x012FFF10#32 && !matches32 raw 0x0DBF0000#32 0x010F0000#32 &&
      !matches32 raw 0x0DBF0000#32 0x01280000#32 && !matches32 raw 0x0DBF0000#32 0x01290000#32
  | .armUndefinedTransfer raw => condOk raw && matches32 raw 0x0E000010#32 0x06000010#32
  | .armUnsupportedDataTransfer raw => condOk raw && matches32 raw 0x0E000000#32 0x0C000000#32
  | .armUnsupportedOperation raw => condOk raw && matches32 raw 0x0F000000#32 0x0E000000#32
  | .armMrs _ i _ _ sbz => i || !(sbz.getLsbD 7 && sbz.getLsbD 4)
  | .armMsr _ _ _ src => src.wf
  | .armStr _ p _ w _ _ _ | .armLdr _ p _ w _ _ _ | .armStrb _ p _ w _ _ _ | .armLdrb _ p _ w _ _ _ =>
      transferBitsOk p w
  | .thumbInvalidHiAdd raw => matches16 raw 0xFFC0#16 0x4400#16
  | .thumbInvalidHiCmp raw => matches16 raw 0xFFC0#16 0x4500#16
  | .thumbInvalidHiMov raw => matches16 raw 0xFFC0#16 0x4600#16
  | .thumbInvalidBxH1 raw => matches16 raw 0xFF80#16 0x4780#16
  | .thumbAddHi rs rd | .thumbCmpHi rs rd | .thumbMovHi rs rd => notBothLow rs rd
  | .thumbLdrPc _ off | .thumbStrSp _ off | .thumbLdrSp _ off | .thumbAddPc _ off | .thumbAddSp _ off => scaled off 2
  | .thumbStrImm off _ _ | .thumbLdrImm off _ _ => scaled off 2
  | .thumbStrhImm off _ _ | .thumbLdrhImm off _ _ => scaled off 1
  | .thumbAdjustSp _ m => scaled m 2
  | .thumbUndefined1011 raw => matches16 raw 0xF000#16 0xB000#16 && !matches16 raw 0x0F00#16 0x0000#16 &&
      !matches16 raw 0x0600#16 0x0400#16
  | .thumbUndefinedCond14 raw => matches16 raw 0xFF00#16 0xDE00#16
  | .thumbBeq off | .thumbBne off | .thumbBcs off | .thumbBcc off | .thumbBmi off | .thumbBpl off | .thumbBvs off
  | .thumbBvc off | .thumbBhi off | .thumbBls off | .thumbBge off | .thumbBlt off | .thumbBgt off | .thumbBle off =>
      scaled off 1
  | .thumbB off | .thumbBlLow off => scaled off 1
  | .thumbUndefined11101 raw => matches16 raw 0xF800#16 0xE800#16
  | .thumbBlHigh off => scaled off 12
  | _ => true

end Sys2Proof
end

