-- ==== Sys2Proof/Decode.lean ====
section
/-! DEFINITION. The two decoders (30_encoding.md), total on every word and halfword (R100), and on any bytes; and
after them the encoder, written from the same tables. A word no instruction claims decodes to an Invalid, Undefined
or Unsupported constructor by name (R180). -/

namespace Sys2Proof

/-- `w[lo + len - 1 : lo]` (00_scope.md R9). -/
abbrev field {n : Nat} (w : BitVec n) (lo len : Nat) : BitVec len := w.extractLsb' lo len

/-- The one-bit field `b` (00_scope.md R10: true is 1). -/
abbrev bit (b : Bool) : BitVec 1 := BitVec.ofBool b

/-- The 4-bit encoding of a condition code (30_encoding.md R114). -/
def Cond.code : Cond → BitVec 4
  | .eq => 0 | .ne => 1 | .cs => 2 | .cc => 3 | .mi => 4 | .pl => 5 | .vs => 6 | .vc => 7
  | .hi => 8 | .ls => 9 | .ge => 10 | .lt => 11 | .gt => 12 | .le => 13 | .al => 14

/-- The condition code of a 4-bit field: none for 15, NV (R101, R114). -/
def condOf (c : BitVec 4) : Option Cond :=
  match c.toNat with
  | 0 => some .eq | 1 => some .ne | 2 => some .cs | 3 => some .cc | 4 => some .mi | 5 => some .pl
  | 6 => some .vs | 7 => some .vc | 8 => some .hi | 9 => some .ls | 10 => some .ge | 11 => some .lt
  | 12 => some .gt | 13 => some .le | 14 => some .al | _ => none

/-- The 2-bit number of a shift type (R121). -/
def ShiftType.code : ShiftType → BitVec 2
  | .lsl => 0 | .lsr => 1 | .asr => 2 | .ror => 3

/-- The shift type of a 2-bit field (R121). -/
def shiftTypeOf (t : BitVec 2) : ShiftType :=
  match t.toNat with
  | 0 => .lsl | 1 => .lsr | 2 => .asr | _ => .ror

/-- `operand2(w, imm)` (R121). -/
def operand2Of (w : Word) (imm : Bool) : Operand2 :=
  if imm then .imm (field w 8 4) (field w 0 8)
  else if w.getLsbD 4 then .regReg (field w 0 4) (shiftTypeOf (field w 5 2)) (field w 8 4)
  else .regImm (field w 0 4) (shiftTypeOf (field w 5 2)) (field w 7 5)

/-- The offset of a single data transfer; `w[25] = 1` selects the register form (R124). -/
def offsetOf (w : Word) : Offset :=
  if w.getLsbD 25 then .reg (field w 0 4) (shiftTypeOf (field w 5 2)) (field w 7 5) else .imm (field w 0 12)

/-- The offset of a halfword transfer; `w[22] = 1` selects the immediate form (R106). -/
def halfOffsetOf (w : Word) : HalfOffset :=
  if w.getLsbD 22 then .imm (field w 8 4 ++ field w 0 4) else .reg (field w 8 4) (field w 0 4)

/-- `decode_multiply_family(w)` (R105). -/
def decodeMultiplyFamily (c : Cond) (w : Word) : Instr :=
  let s := w.getLsbD 20
  let hi := field w 16 4
  let lo := field w 12 4
  let rs := field w 8 4
  let rm := field w 0 4
  match (field w 23 2).toNat with
  | 0 =>
    if w.getLsbD 22 then .armUndefinedMultiply w
    else if w.getLsbD 21 then .armMla c s hi lo rs rm
    else .armMul c s hi lo rs rm
  | 1 =>
    match (field w 21 2).toNat with
    | 0 => .armUmull c s hi lo rs rm
    | 1 => .armUmlal c s hi lo rs rm
    | 2 => .armSmull c s hi lo rs rm
    | _ => .armSmlal c s hi lo rs rm
  | 2 =>
    if field w 20 2 == 0 then
      if w.getLsbD 22 then .armSwpb c hi lo rs rm else .armSwp c hi lo rs rm
    else .armUndefinedSwap w
  | _ => .armUndefinedSwap w

/-- `decode_halfword(w)` (R106). -/
def decodeHalfword (c : Cond) (w : Word) : Instr :=
  let p := w.getLsbD 24
  let u := w.getLsbD 23
  let wb := w.getLsbD 21
  let rn := field w 16 4
  let rd := field w 12 4
  let off := halfOffsetOf w
  if w.getLsbD 20 then
    if w.getLsbD 6 then
      if w.getLsbD 5 then .armLdrsh c p u wb rn rd off else .armLdrsb c p u wb rn rd off
    else .armLdrh c p u wb rn rd off
  else if w.getLsbD 6 then .armInvalidSignedStore w
  else .armStrh c p u wb rn rd off

/-- The PSR transfers, op in TST to CMN with S = 0, by the transfer type `w[21:16]` (R108, R120). -/
def decodePsr (c : Cond) (w : Word) (imm : Bool) : Instr :=
  if field w 16 6 == 15#6 then .armMrs c imm (w.getLsbD 22) (field w 12 4) (field w 0 12)
  else if field w 16 6 == 40#6 then
    .armMsr c (w.getLsbD 22) (field w 12 4)
      (if imm then .imm (field w 8 4) (field w 0 8) else .reg (field w 4 8) (field w 0 4))
  else if field w 16 6 == 41#6 then .armInvalidMsrFull w
  else .armInvalidPsrType w

/-- The sixteen operations by `op = w[24:21]` (R112). -/
def decodeDataProcessing (c : Cond) (w : Word) (imm : Bool) : Instr :=
  let s := w.getLsbD 20
  let rn := field w 16 4
  let rd := field w 12 4
  let op2 := operand2Of w imm
  match (field w 21 4).toNat with
  | 0 => .armAnd c s rn rd op2
  | 1 => .armEor c s rn rd op2
  | 2 => .armSub c s rn rd op2
  | 3 => .armRsb c s rn rd op2
  | 4 => .armAdd c s rn rd op2
  | 5 => .armAdc c s rn rd op2
  | 6 => .armSbc c s rn rd op2
  | 7 => .armRsc c s rn rd op2
  | 8 => .armTst c rn rd op2
  | 9 => .armTeq c rn rd op2
  | 10 => .armCmp c rn rd op2
  | 11 => .armCmn c rn rd op2
  | 12 => .armOrr c s rn rd op2
  | 13 => .armMov c s rn rd op2
  | 14 => .armBic c s rn rd op2
  | _ => .armMvn c s rn rd op2

/-- `decode_dp_or_psr(w, imm)` (R108): a PSR transfer when op is TST, TEQ, CMP or CMN and S = 0. -/
def decodeDpOrPsr (c : Cond) (w : Word) (imm : Bool) : Instr :=
  if field w 23 2 == 2#2 && !w.getLsbD 20 then decodePsr c w imm else decodeDataProcessing c w imm

/-- A single data transfer (R124); P = 0 with W = 1 is the T form (R335). -/
def decodeSingleTransfer (c : Cond) (w : Word) : Instr :=
  let p := w.getLsbD 24
  let u := w.getLsbD 23
  let wb := w.getLsbD 21
  let rn := field w 16 4
  let rd := field w 12 4
  let off := offsetOf w
  if !p && wb then
    if w.getLsbD 22 then
      if w.getLsbD 20 then .armLdrbt c u rn rd off else .armStrbt c u rn rd off
    else if w.getLsbD 20 then .armLdrt c u rn rd off else .armStrt c u rn rd off
  else if w.getLsbD 22 then
    if w.getLsbD 20 then .armLdrb c p u wb rn rd off else .armStrb c p u wb rn rd off
  else if w.getLsbD 20 then .armLdr c p u wb rn rd off else .armStr c p u wb rn rd off

/-- A block data transfer (R127). -/
def decodeBlockTransfer (c : Cond) (w : Word) : Instr :=
  if w.getLsbD 20 then
    .armLdm c (w.getLsbD 24) (w.getLsbD 23) (w.getLsbD 22) (w.getLsbD 21) (field w 16 4) (field w 0 16)
  else .armStm c (w.getLsbD 24) (w.getLsbD 23) (w.getLsbD 22) (w.getLsbD 21) (field w 16 4) (field w 0 16)

/-- Group 0 (R103, R104). -/
def decodeGroup0 (c : Cond) (w : Word) : Instr :=
  if w.getLsbD 7 && w.getLsbD 4 then
    if field w 5 2 == 0#2 then decodeMultiplyFamily c w else decodeHalfword c w
  else if field w 4 24 == 0x12FFF1#24 then .armBx c (field w 0 4)
  else decodeDpOrPsr c w false

/-- `decode_arm(w)` (R103): the condition first (R101), then the format group `w[27:25]`. -/
def decodeArm (w : Word) : Instr :=
  match condOf (field w 28 4) with
  | none => .armInvalidNvCondition w
  | some c =>
    match (field w 25 3).toNat with
    | 0 => decodeGroup0 c w
    | 1 => decodeDpOrPsr c w true
    | 2 => decodeSingleTransfer c w
    | 3 => if w.getLsbD 4 then .armUndefinedTransfer w else decodeSingleTransfer c w
    | 4 => decodeBlockTransfer c w
    | 5 => if w.getLsbD 24 then .armBl c (field w 0 24) else .armB c (field w 0 24)
    | 6 => .armUnsupportedDataTransfer w
    | _ => if w.getLsbD 24 then .armSwi c (field w 0 24) else .armUnsupportedOperation w

/-- T4 by `op = h[9:6]` (R154). -/
def decodeT4 (h : Half) : Instr :=
  let rs := field h 3 3
  let rd := field h 0 3
  match (field h 6 4).toNat with
  | 0 => .thumbAnd rs rd
  | 1 => .thumbEor rs rd
  | 2 => .thumbLslReg rs rd
  | 3 => .thumbLsrReg rs rd
  | 4 => .thumbAsrReg rs rd
  | 5 => .thumbAdc rs rd
  | 6 => .thumbSbc rs rd
  | 7 => .thumbRorReg rs rd
  | 8 => .thumbTst rs rd
  | 9 => .thumbNeg rs rd
  | 10 => .thumbCmpReg rs rd
  | 11 => .thumbCmn rs rd
  | 12 => .thumbOrr rs rd
  | 13 => .thumbMul rs rd
  | 14 => .thumbBic rs rd
  | _ => .thumbMvn rs rd

/-- T5 and its illegal combinations (R141, R155): a register is its 3-bit field plus 8 when its flag is set. -/
def decodeT5 (h : Half) : Instr :=
  let rs : RegIdx := field h 6 1 ++ field h 3 3
  let rd : RegIdx := field h 7 1 ++ field h 0 3
  let none := field h 6 2 == 0#2
  match (field h 8 2).toNat with
  | 0 => if none then .thumbInvalidHiAdd h else .thumbAddHi rs rd
  | 1 => if none then .thumbInvalidHiCmp h else .thumbCmpHi rs rd
  | 2 => if none then .thumbInvalidHiMov h else .thumbMovHi rs rd
  | _ => if h.getLsbD 7 then .thumbInvalidBxH1 h else .thumbBx rs (field h 0 3)

/-- T7 and T8, by `h[11:9]` (R157, R158). -/
def decodeT7T8 (h : Half) : Instr :=
  let ro := field h 6 3
  let rb := field h 3 3
  let rd := field h 0 3
  match (field h 9 3).toNat with
  | 0 => .thumbStrReg ro rb rd
  | 1 => .thumbStrhReg ro rb rd
  | 2 => .thumbStrbReg ro rb rd
  | 3 => .thumbLdsbReg ro rb rd
  | 4 => .thumbLdrReg ro rb rd
  | 5 => .thumbLdrhReg ro rb rd
  | 6 => .thumbLdrbReg ro rb rd
  | _ => .thumbLdshReg ro rb rd

/-- T16, T17 and the Undefined condition 1110, by `h[11:8]` (R166, R167, R142). The offset is scaled by 2. -/
def decodeT16T17 (h : Half) : Instr :=
  let off : BitVec 9 := field h 0 8 ++ 0#1
  match (field h 8 4).toNat with
  | 0 => .thumbBeq off
  | 1 => .thumbBne off
  | 2 => .thumbBcs off
  | 3 => .thumbBcc off
  | 4 => .thumbBmi off
  | 5 => .thumbBpl off
  | 6 => .thumbBvs off
  | 7 => .thumbBvc off
  | 8 => .thumbBhi off
  | 9 => .thumbBls off
  | 10 => .thumbBge off
  | 11 => .thumbBlt off
  | 12 => .thumbBgt off
  | 13 => .thumbBle off
  | 14 => .thumbUndefinedCond14 h
  | _ => .thumbSwi (field h 0 8)

/-- Group 0b000: T1 and T2 (R151, R152). -/
def decodeThumb0 (h : Half) : Instr :=
  let rs := field h 3 3
  let rd := field h 0 3
  match (field h 11 2).toNat with
  | 0 => .thumbLslImm (field h 6 5) rs rd
  | 1 => .thumbLsrImm (field h 6 5) rs rd
  | 2 => .thumbAsrImm (field h 6 5) rs rd
  | _ =>
    match (field h 9 2).toNat with
    | 0 => .thumbAddReg (field h 6 3) rs rd
    | 1 => .thumbSubReg (field h 6 3) rs rd
    | 2 => .thumbAddImm3 (field h 6 3) rs rd
    | _ => .thumbSubImm3 (field h 6 3) rs rd

/-- Group 0b001: T3 (R153). -/
def decodeThumb1 (h : Half) : Instr :=
  match (field h 11 2).toNat with
  | 0 => .thumbMovImm8 (field h 8 3) (field h 0 8)
  | 1 => .thumbCmpImm8 (field h 8 3) (field h 0 8)
  | 2 => .thumbAddImm8 (field h 8 3) (field h 0 8)
  | _ => .thumbSubImm8 (field h 8 3) (field h 0 8)

/-- Group 0b010: T4 to T8 (R140). -/
def decodeThumb2 (h : Half) : Instr :=
  match (field h 10 3).toNat with
  | 0 => decodeT4 h
  | 1 => decodeT5 h
  | 2 | 3 => .thumbLdrPc (field h 8 3) (field h 0 8 ++ 0#2)
  | _ => decodeT7T8 h

/-- Group 0b011: T9 (R159); the word offset is scaled by 4. -/
def decodeThumb3 (h : Half) : Instr :=
  let rb := field h 3 3
  let rd := field h 0 3
  match (field h 11 2).toNat with
  | 0 => .thumbStrImm (field h 6 5 ++ 0#2) rb rd
  | 1 => .thumbLdrImm (field h 6 5 ++ 0#2) rb rd
  | 2 => .thumbStrbImm (field h 6 5) rb rd
  | _ => .thumbLdrbImm (field h 6 5) rb rd

/-- Group 0b100: T10 and T11 (R160, R161). -/
def decodeThumb4 (h : Half) : Instr :=
  match (field h 11 2).toNat with
  | 0 => .thumbStrhImm (field h 6 5 ++ 0#1) (field h 3 3) (field h 0 3)
  | 1 => .thumbLdrhImm (field h 6 5 ++ 0#1) (field h 3 3) (field h 0 3)
  | 2 => .thumbStrSp (field h 8 3) (field h 0 8 ++ 0#2)
  | _ => .thumbLdrSp (field h 8 3) (field h 0 8 ++ 0#2)

/-- Group 0b101: T12, T13, T14 and the Undefined words of R142. -/
def decodeThumb5 (h : Half) : Instr :=
  if !h.getLsbD 12 then
    if h.getLsbD 11 then .thumbAddSp (field h 8 3) (field h 0 8 ++ 0#2)
    else .thumbAddPc (field h 8 3) (field h 0 8 ++ 0#2)
  else if field h 8 4 == 0#4 then .thumbAdjustSp (h.getLsbD 7) (field h 0 7 ++ 0#2)
  else if field h 9 2 == 2#2 then
    if h.getLsbD 11 then .thumbPop (h.getLsbD 8) (field h 0 8) else .thumbPush (h.getLsbD 8) (field h 0 8)
  else .thumbUndefined1011 h

/-- Group 0b110: T15, T16 and T17 (R165 to R167). -/
def decodeThumb6 (h : Half) : Instr :=
  if !h.getLsbD 12 then
    if h.getLsbD 11 then .thumbLdmia (field h 8 3) (field h 0 8) else .thumbStmia (field h 8 3) (field h 0 8)
  else decodeT16T17 h

/-- Group 0b111: T18, T19 and the Undefined words between them (R168, R169, R142). -/
def decodeThumb7 (h : Half) : Instr :=
  match (field h 11 2).toNat with
  | 0 => .thumbB (field h 0 11 ++ 0#1)
  | 1 => .thumbUndefined11101 h
  | 2 => .thumbBlHigh (field h 0 11 ++ 0#12)
  | _ => .thumbBlLow (field h 0 11 ++ 0#1)

/-- `decode_thumb(h)` (R140), by the primary group `h[15:13]`. -/
def decodeThumb (h : Half) : Instr :=
  match (field h 13 3).toNat with
  | 0 => decodeThumb0 h
  | 1 => decodeThumb1 h
  | 2 => decodeThumb2 h
  | 3 => decodeThumb3 h
  | 4 => decodeThumb4 h
  | 5 => decodeThumb5 h
  | 6 => decodeThumb6 h
  | _ => decodeThumb7 h

/-- An instruction as the hardware stores it: an ARM word or a THUMB halfword (R102). -/
inductive Encoding where
  | arm (w : Word)
  | thumb (h : Half)
  deriving DecidableEq, Repr

/-- The decoder the caller's choice of instruction set selects (R102; 10_state.md R49). -/
def decode : Encoding → Instr
  | .arm w => decodeArm w
  | .thumb h => decodeThumb h

/-- Why bytes hold no instruction: fewer than the instruction set's width are given (R102). -/
inductive DecodeError where
  | truncatedArm
  | truncatedThumb
  deriving DecidableEq, Repr

/-- The instruction at the front of `bs` and the bytes after it, little-endian (20_memory.md R76, R77);
`t` selects the THUMB decoder. -/
def decodeBytes (t : Bool) (bs : List Byte) : Except DecodeError (Instr × List Byte) :=
  match t, bs with
  | true, b0 :: b1 :: rest => .ok (decodeThumb (b1 ++ b0), rest)
  | true, _ => .error .truncatedThumb
  | false, b0 :: b1 :: b2 :: b3 :: rest => .ok (decodeArm (b3 ++ b2 ++ b1 ++ b0), rest)
  | false, _ => .error .truncatedArm

/-- The `n` bytes of the number `w`, least significant first (20_memory.md R76). -/
def bytesOf : Nat → Nat → List Byte
  | 0, _ => []
  | n + 1, w => BitVec.ofNat 8 w :: bytesOf n (w / 256)

/-- The instruction the decoder reads from a table row's bits: 16 bits are a THUMB halfword, 32 an ARM word. -/
def decodeTableWord (nbits w : Nat) : Option Instr :=
  if nbits = 16 then
    match decodeBytes true (bytesOf 2 w) with
    | .ok (i, _) => some i
    | .error _ => none
  else if nbits = 32 then
    match decodeBytes false (bytesOf 4 w) with
    | .ok (i, _) => some i
    | .error _ => none
  else none

/-- `w[11:0]` of an operand 2 (R121). -/
def Operand2.bits : Operand2 → BitVec 12
  | .imm rot imm8 => rot ++ imm8
  | .regImm rm ty amount => amount ++ ty.code ++ 0#1 ++ rm
  | .regReg rm ty rs => rs ++ 0#1 ++ ty.code ++ 1#1 ++ rm

/-- `w[25]` of an operand 2: 1 for an immediate (R111). -/
def Operand2.isImm : Operand2 → Bool
  | .imm _ _ => true
  | _ => false

/-- `w[11:0]` of a single-transfer offset (R124). -/
def Offset.bits : Offset → BitVec 12
  | .imm off12 => off12
  | .reg rm ty amount => amount ++ ty.code ++ 0#1 ++ rm

/-- `w[25]` of a single-transfer offset: 1 for a register (R124). -/
def Offset.isReg : Offset → Bool
  | .imm _ => false
  | .reg _ _ _ => true

/-- `w[22]` of a halfword-transfer offset: 1 for an immediate (R106). -/
def HalfOffset.isImm : HalfOffset → Bool
  | .imm _ => true
  | .reg _ _ => false

/-- `w[11:8]` of a halfword-transfer offset. -/
def HalfOffset.high : HalfOffset → BitVec 4
  | .imm off8 => field off8 4 4
  | .reg sbz _ => sbz

/-- `w[3:0]` of a halfword-transfer offset. -/
def HalfOffset.low : HalfOffset → BitVec 4
  | .imm off8 => field off8 0 4
  | .reg _ rm => rm

/-- `w[25]` of an MSR source. -/
def MsrSource.isImm : MsrSource → Bool
  | .imm _ _ => true
  | .reg _ _ => false

/-- `w[11:0]` of an MSR source (R120). -/
def MsrSource.bits : MsrSource → BitVec 12
  | .imm rot imm8 => rot ++ imm8
  | .reg sbz rm => sbz ++ rm

/-- The word of a data-processing instruction (R111). -/
def encodeDp (c : Cond) (op : BitVec 4) (s : Bool) (rn rd : RegIdx) (op2 : Operand2) : Word :=
  c.code ++ 0#2 ++ bit op2.isImm ++ op ++ bit s ++ rn ++ rd ++ op2.bits

/-- The word of a multiply (R122); `k` is w[27:21]. -/
def encodeMultiply (c : Cond) (k : BitVec 7) (s : Bool) (hi lo rs rm : RegIdx) : Word :=
  c.code ++ k ++ bit s ++ hi ++ lo ++ rs ++ 9#4 ++ rm

/-- The word of a swap (R123). -/
def encodeSwap (c : Cond) (b : Bool) (rn rd : RegIdx) (sbz : BitVec 4) (rm : RegIdx) : Word :=
  c.code ++ 2#5 ++ bit b ++ 0#2 ++ rn ++ rd ++ sbz ++ 9#4 ++ rm

/-- The word of a halfword transfer (R123); `sh` is w[6:5]. -/
def encodeHalfword (c : Cond) (p u w l : Bool) (sh : BitVec 2) (rn rd : RegIdx) (off : HalfOffset) : Word :=
  c.code ++ 0#3 ++ bit p ++ bit u ++ bit off.isImm ++ bit w ++ bit l ++ rn ++ rd ++ off.high ++ 1#1 ++ sh ++ 1#1 ++
    off.low

/-- The word of a single data transfer (R124). -/
def encodeSingle (c : Cond) (p u b w l : Bool) (rn rd : RegIdx) (off : Offset) : Word :=
  c.code ++ 1#2 ++ bit off.isReg ++ bit p ++ bit u ++ bit b ++ bit w ++ bit l ++ rn ++ rd ++ off.bits

/-- The word of a block data transfer (R127). -/
def encodeBlock (c : Cond) (p u s w l : Bool) (rn : RegIdx) (rlist : BitVec 16) : Word :=
  c.code ++ 4#3 ++ bit p ++ bit u ++ bit s ++ bit w ++ bit l ++ rn ++ rlist

/-- The halfword of a format whose three low fields are 3-bit registers or a 3-bit immediate; `k` is h[15:9]. -/
def encodeThree (k : BitVec 7) (a b c : BitVec 3) : Half := k ++ a ++ b ++ c

/-- The halfword of a T4 operation (R154). -/
def encodeT4 (op : BitVec 4) (rs rd : LowIdx) : Half := 0x10#6 ++ op ++ rs ++ rd

/-- The halfword of a T5 operation (R155). -/
def encodeT5 (op : BitVec 2) (rs : RegIdx) (h1 : BitVec 1) (low : BitVec 3) : Half :=
  0x11#6 ++ op ++ h1 ++ rs ++ low

/-- The halfword of a conditional branch (R166). -/
def encodeT16 (c : BitVec 4) (off : BitVec 9) : Half := 0xD#4 ++ c ++ field off 1 8

/-- The halfword of a format with a 5-bit opcode, a 5-bit field and two registers (T1, T9, T10). -/
def encodeFive (k f : BitVec 5) (rb rd : LowIdx) : Half := k ++ f ++ rb ++ rd

/-- The halfword of a format with a 5-bit opcode, a register and a byte (T3, T6, T11, T12, T15). -/
def encodeByte (k : BitVec 5) (rd : LowIdx) (b : BitVec 8) : Half := k ++ rd ++ b

/-- The word or halfword of an instruction (30_encoding.md sections 3 and 5). -/
def encode : Instr → Encoding
  | .armInvalidNvCondition raw => .arm raw
  | .armMul c s rd rn rs rm => .arm (encodeMultiply c 0#7 s rd rn rs rm)
  | .armMla c s rd rn rs rm => .arm (encodeMultiply c 1#7 s rd rn rs rm)
  | .armUndefinedMultiply raw => .arm raw
  | .armUmull c s hi lo rs rm => .arm (encodeMultiply c 4#7 s hi lo rs rm)
  | .armUmlal c s hi lo rs rm => .arm (encodeMultiply c 5#7 s hi lo rs rm)
  | .armSmull c s hi lo rs rm => .arm (encodeMultiply c 6#7 s hi lo rs rm)
  | .armSmlal c s hi lo rs rm => .arm (encodeMultiply c 7#7 s hi lo rs rm)
  | .armSwp c rn rd sbz rm => .arm (encodeSwap c false rn rd sbz rm)
  | .armSwpb c rn rd sbz rm => .arm (encodeSwap c true rn rd sbz rm)
  | .armUndefinedSwap raw => .arm raw
  | .armInvalidSignedStore raw => .arm raw
  | .armStrh c p u w rn rd off => .arm (encodeHalfword c p u w false 1#2 rn rd off)
  | .armLdrh c p u w rn rd off => .arm (encodeHalfword c p u w true 1#2 rn rd off)
  | .armLdrsb c p u w rn rd off => .arm (encodeHalfword c p u w true 2#2 rn rd off)
  | .armLdrsh c p u w rn rd off => .arm (encodeHalfword c p u w true 3#2 rn rd off)
  | .armBx c rn => .arm (c.code ++ 0x12FFF1#24 ++ rn)
  | .armMrs c i p rd sbz => .arm (c.code ++ 0#2 ++ bit i ++ 2#2 ++ bit p ++ 0xF#6 ++ rd ++ sbz)
  | .armMsr c p sbo src => .arm (c.code ++ 0#2 ++ bit src.isImm ++ 2#2 ++ bit p ++ 0x28#6 ++ sbo ++ src.bits)
  | .armInvalidMsrFull raw => .arm raw
  | .armInvalidPsrType raw => .arm raw
  | .armAnd c s rn rd op2 => .arm (encodeDp c 0#4 s rn rd op2)
  | .armEor c s rn rd op2 => .arm (encodeDp c 1#4 s rn rd op2)
  | .armSub c s rn rd op2 => .arm (encodeDp c 2#4 s rn rd op2)
  | .armRsb c s rn rd op2 => .arm (encodeDp c 3#4 s rn rd op2)
  | .armAdd c s rn rd op2 => .arm (encodeDp c 4#4 s rn rd op2)
  | .armAdc c s rn rd op2 => .arm (encodeDp c 5#4 s rn rd op2)
  | .armSbc c s rn rd op2 => .arm (encodeDp c 6#4 s rn rd op2)
  | .armRsc c s rn rd op2 => .arm (encodeDp c 7#4 s rn rd op2)
  | .armTst c rn rd op2 => .arm (encodeDp c 8#4 true rn rd op2)
  | .armTeq c rn rd op2 => .arm (encodeDp c 9#4 true rn rd op2)
  | .armCmp c rn rd op2 => .arm (encodeDp c 10#4 true rn rd op2)
  | .armCmn c rn rd op2 => .arm (encodeDp c 11#4 true rn rd op2)
  | .armOrr c s rn rd op2 => .arm (encodeDp c 12#4 s rn rd op2)
  | .armMov c s rn rd op2 => .arm (encodeDp c 13#4 s rn rd op2)
  | .armBic c s rn rd op2 => .arm (encodeDp c 14#4 s rn rd op2)
  | .armMvn c s rn rd op2 => .arm (encodeDp c 15#4 s rn rd op2)
  | .armUndefinedTransfer raw => .arm raw
  | .armStrt c u rn rd off => .arm (encodeSingle c false u false true false rn rd off)
  | .armLdrt c u rn rd off => .arm (encodeSingle c false u false true true rn rd off)
  | .armStrbt c u rn rd off => .arm (encodeSingle c false u true true false rn rd off)
  | .armLdrbt c u rn rd off => .arm (encodeSingle c false u true true true rn rd off)
  | .armStr c p u w rn rd off => .arm (encodeSingle c p u false w false rn rd off)
  | .armLdr c p u w rn rd off => .arm (encodeSingle c p u false w true rn rd off)
  | .armStrb c p u w rn rd off => .arm (encodeSingle c p u true w false rn rd off)
  | .armLdrb c p u w rn rd off => .arm (encodeSingle c p u true w true rn rd off)
  | .armStm c p u s w rn rlist => .arm (encodeBlock c p u s w false rn rlist)
  | .armLdm c p u s w rn rlist => .arm (encodeBlock c p u s w true rn rlist)
  | .armB c offset => .arm (c.code ++ 0xA#4 ++ offset)
  | .armBl c offset => .arm (c.code ++ 0xB#4 ++ offset)
  | .armUnsupportedDataTransfer raw => .arm raw
  | .armUnsupportedOperation raw => .arm raw
  | .armSwi c imm24 => .arm (c.code ++ 0xF#4 ++ imm24)
  | .thumbLslImm off5 rs rd => .thumb (encodeFive 0#5 off5 rs rd)
  | .thumbLsrImm off5 rs rd => .thumb (encodeFive 1#5 off5 rs rd)
  | .thumbAsrImm off5 rs rd => .thumb (encodeFive 2#5 off5 rs rd)
  | .thumbAddReg rn rs rd => .thumb (encodeThree 12#7 rn rs rd)
  | .thumbSubReg rn rs rd => .thumb (encodeThree 13#7 rn rs rd)
  | .thumbAddImm3 imm3 rs rd => .thumb (encodeThree 14#7 imm3 rs rd)
  | .thumbSubImm3 imm3 rs rd => .thumb (encodeThree 15#7 imm3 rs rd)
  | .thumbMovImm8 rd imm8 => .thumb (encodeByte 4#5 rd imm8)
  | .thumbCmpImm8 rd imm8 => .thumb (encodeByte 5#5 rd imm8)
  | .thumbAddImm8 rd imm8 => .thumb (encodeByte 6#5 rd imm8)
  | .thumbSubImm8 rd imm8 => .thumb (encodeByte 7#5 rd imm8)
  | .thumbAnd rs rd => .thumb (encodeT4 0#4 rs rd)
  | .thumbEor rs rd => .thumb (encodeT4 1#4 rs rd)
  | .thumbLslReg rs rd => .thumb (encodeT4 2#4 rs rd)
  | .thumbLsrReg rs rd => .thumb (encodeT4 3#4 rs rd)
  | .thumbAsrReg rs rd => .thumb (encodeT4 4#4 rs rd)
  | .thumbAdc rs rd => .thumb (encodeT4 5#4 rs rd)
  | .thumbSbc rs rd => .thumb (encodeT4 6#4 rs rd)
  | .thumbRorReg rs rd => .thumb (encodeT4 7#4 rs rd)
  | .thumbTst rs rd => .thumb (encodeT4 8#4 rs rd)
  | .thumbNeg rs rd => .thumb (encodeT4 9#4 rs rd)
  | .thumbCmpReg rs rd => .thumb (encodeT4 10#4 rs rd)
  | .thumbCmn rs rd => .thumb (encodeT4 11#4 rs rd)
  | .thumbOrr rs rd => .thumb (encodeT4 12#4 rs rd)
  | .thumbMul rs rd => .thumb (encodeT4 13#4 rs rd)
  | .thumbBic rs rd => .thumb (encodeT4 14#4 rs rd)
  | .thumbMvn rs rd => .thumb (encodeT4 15#4 rs rd)
  | .thumbInvalidHiAdd raw => .thumb raw
  | .thumbInvalidHiCmp raw => .thumb raw
  | .thumbInvalidHiMov raw => .thumb raw
  | .thumbInvalidBxH1 raw => .thumb raw
  | .thumbAddHi rs rd => .thumb (encodeT5 0#2 rs (field rd 3 1) (field rd 0 3))
  | .thumbCmpHi rs rd => .thumb (encodeT5 1#2 rs (field rd 3 1) (field rd 0 3))
  | .thumbMovHi rs rd => .thumb (encodeT5 2#2 rs (field rd 3 1) (field rd 0 3))
  | .thumbBx rs sbz => .thumb (encodeT5 3#2 rs 0#1 sbz)
  | .thumbLdrPc rd off => .thumb (encodeByte 9#5 rd (field off 2 8))
  | .thumbStrReg ro rb rd => .thumb (encodeThree 0x28#7 ro rb rd)
  | .thumbStrbReg ro rb rd => .thumb (encodeThree 0x2a#7 ro rb rd)
  | .thumbLdrReg ro rb rd => .thumb (encodeThree 0x2c#7 ro rb rd)
  | .thumbLdrbReg ro rb rd => .thumb (encodeThree 0x2e#7 ro rb rd)
  | .thumbStrhReg ro rb rd => .thumb (encodeThree 0x29#7 ro rb rd)
  | .thumbLdrhReg ro rb rd => .thumb (encodeThree 0x2d#7 ro rb rd)
  | .thumbLdsbReg ro rb rd => .thumb (encodeThree 0x2b#7 ro rb rd)
  | .thumbLdshReg ro rb rd => .thumb (encodeThree 0x2f#7 ro rb rd)
  | .thumbStrImm off rb rd => .thumb (encodeFive 12#5 (field off 2 5) rb rd)
  | .thumbLdrImm off rb rd => .thumb (encodeFive 13#5 (field off 2 5) rb rd)
  | .thumbStrbImm off rb rd => .thumb (encodeFive 14#5 off rb rd)
  | .thumbLdrbImm off rb rd => .thumb (encodeFive 15#5 off rb rd)
  | .thumbStrhImm off rb rd => .thumb (encodeFive 16#5 (field off 1 5) rb rd)
  | .thumbLdrhImm off rb rd => .thumb (encodeFive 17#5 (field off 1 5) rb rd)
  | .thumbStrSp rd off => .thumb (encodeByte 18#5 rd (field off 2 8))
  | .thumbLdrSp rd off => .thumb (encodeByte 19#5 rd (field off 2 8))
  | .thumbAddPc rd off => .thumb (encodeByte 20#5 rd (field off 2 8))
  | .thumbAddSp rd off => .thumb (encodeByte 21#5 rd (field off 2 8))
  | .thumbAdjustSp s m => .thumb (0xB0#8 ++ bit s ++ field m 2 7)
  | .thumbPush r rlist => .thumb (0x5A#7 ++ bit r ++ rlist)
  | .thumbPop r rlist => .thumb (0x5E#7 ++ bit r ++ rlist)
  | .thumbUndefined1011 raw => .thumb raw
  | .thumbStmia rb rlist => .thumb (encodeByte 24#5 rb rlist)
  | .thumbLdmia rb rlist => .thumb (encodeByte 25#5 rb rlist)
  | .thumbSwi imm8 => .thumb (0xDF#8 ++ imm8)
  | .thumbUndefinedCond14 raw => .thumb raw
  | .thumbBeq off => .thumb (encodeT16 0#4 off)
  | .thumbBne off => .thumb (encodeT16 1#4 off)
  | .thumbBcs off => .thumb (encodeT16 2#4 off)
  | .thumbBcc off => .thumb (encodeT16 3#4 off)
  | .thumbBmi off => .thumb (encodeT16 4#4 off)
  | .thumbBpl off => .thumb (encodeT16 5#4 off)
  | .thumbBvs off => .thumb (encodeT16 6#4 off)
  | .thumbBvc off => .thumb (encodeT16 7#4 off)
  | .thumbBhi off => .thumb (encodeT16 8#4 off)
  | .thumbBls off => .thumb (encodeT16 9#4 off)
  | .thumbBge off => .thumb (encodeT16 10#4 off)
  | .thumbBlt off => .thumb (encodeT16 11#4 off)
  | .thumbBgt off => .thumb (encodeT16 12#4 off)
  | .thumbBle off => .thumb (encodeT16 13#4 off)
  | .thumbB off => .thumb (0x1C#5 ++ field off 1 11)
  | .thumbUndefined11101 raw => .thumb raw
  | .thumbBlHigh off => .thumb (0x1E#5 ++ field off 12 11)
  | .thumbBlLow off => .thumb (0x1F#5 ++ field off 1 11)

end Sys2Proof
end

