-- ==== Sys2Proof/Machine/Flags.lean ====
section
/-! DEFINITION. The three arithmetic components of the block: the shifter, the condition evaluator and the ALU flag
engine (40_shifter_condition_alu.md). Every function is total on its input types and reads no state. -/

namespace Sys2Proof.Machine

/-- `StatusFlags` (10_state.md R32). -/
structure StatusFlags where
  n : Bool
  z : Bool
  c : Bool
  v : Bool
  deriving DecidableEq, Repr

/-- `ShiftedOperand` (10_state.md R33). -/
structure ShiftedOperand where
  value : Word
  carryOut : Bool
  deriving DecidableEq, Repr

/-- The two sources of a register-form shift amount, which differ at amount 0 (R203). -/
inductive ShiftAmount where
  | imm (n : BitVec 5)
  | reg (b : Byte)
  deriving DecidableEq, Repr

/-- `ROR(x, n)`, the 32-bit rotate right (00_scope.md R10). -/
def ror (x : Word) (n : Nat) : Word := x >>> (n % 32) ||| x <<< (32 - n % 32)

/-- `ASR(x, n)` for 0 to 31 (00_scope.md R10). -/
def asr (x : Word) (n : Nat) : Word := x.sshiftRight n

/-- All ones when bit 31 of `x` is set, else zero: the sign fill (R206, R208). -/
def signFill (x : Word) : Word := if x.msb then 0xFFFFFFFF#32 else 0#32

/-- The immediate form: `imm8` rotated right by twice `rot` (R200), with its carry out (R201). -/
def shifterImm (imm8 : BitVec 8) (rot : BitVec 4) (cIn : Bool) : ShiftedOperand :=
  let value := ror (imm8.setWidth 32) (2 * rot.toNat)
  { value := value, carryOut := if rot = 0#4 then cIn else value.msb }

/-- A shift by `n` from 1 to 31, the common part of both amount forms (R204 to R208). -/
def shiftBy (value : Word) (ty : ShiftType) (n : Nat) : ShiftedOperand :=
  match ty with
  | .lsl => { value := value <<< n, carryOut := value.getLsbD (32 - n) }
  | .lsr => { value := value >>> n, carryOut := value.getLsbD (n - 1) }
  | .asr => { value := asr value n, carryOut := value.getLsbD (n - 1) }
  | .ror => { value := ror value n, carryOut := value.getLsbD (n - 1) }

/-- An immediate amount of 0: LSL is the identity, LSR and ASR shift by 32, ROR is RRX (R204 to R207). -/
def shiftImmZero (value : Word) (ty : ShiftType) (cIn : Bool) : ShiftedOperand :=
  match ty with
  | .lsl => { value := value, carryOut := cIn }
  | .lsr => { value := 0#32, carryOut := value.msb }
  | .asr => { value := signFill value, carryOut := value.msb }
  | .ror => { value := (BitVec.ofBool cIn).setWidth 32 <<< 31 ||| value >>> 1, carryOut := value.getLsbD 0 }

/-- A register amount of 32 or more (R208). -/
def shiftRegBig (value : Word) (ty : ShiftType) (b : Nat) : ShiftedOperand :=
  match ty with
  | .lsl => { value := 0#32, carryOut := if b = 32 then value.getLsbD 0 else false }
  | .lsr => { value := 0#32, carryOut := if b = 32 then value.msb else false }
  | .asr => { value := signFill value, carryOut := value.msb }
  | .ror =>
    if b % 32 = 0 then { value := value, carryOut := value.msb }
    else { value := ror value (b % 32), carryOut := value.getLsbD (b % 32 - 1) }

/-- The register form (R203 to R208). -/
def shifterReg (value : Word) (ty : ShiftType) (amount : ShiftAmount) (cIn : Bool) : ShiftedOperand :=
  match amount with
  | .imm n => if n = 0#5 then shiftImmZero value ty cIn else shiftBy value ty n.toNat
  | .reg b =>
    if b = 0#8 then { value := value, carryOut := cIn }
    else if b.toNat < 32 then shiftBy value ty b.toNat
    else shiftRegBig value ty b.toNat

/-- `evaluate(code, flags)` (R215). -/
def evaluate (code : Cond) (f : StatusFlags) : Bool :=
  match code with
  | .eq => f.z
  | .ne => !f.z
  | .cs => f.c
  | .cc => !f.c
  | .mi => f.n
  | .pl => !f.n
  | .vs => f.v
  | .vc => !f.v
  | .hi => f.c && !f.z
  | .ls => !f.c || f.z
  | .ge => f.n == f.v
  | .lt => f.n != f.v
  | .gt => !f.z && f.n == f.v
  | .le => f.z || f.n != f.v
  | .al => true

/-- The sixteen data-processing operations, in the order of their 4-bit numbers (30_encoding.md R112). -/
inductive AluOp where
  | and | eor | sub | rsb | add | adc | sbc | rsc | tst | teq | cmp | cmn | orr | mov | bic | mvn
  deriving DecidableEq, Repr

/-- What the ALU flag engine returns (R220). -/
structure AluResult where
  result : Word
  flags : StatusFlags
  writesResult : Bool
  deriving DecidableEq, Repr

/-- `writes_result` (R222): false for TST, TEQ, CMP and CMN. -/
def AluOp.writes : AluOp → Bool
  | .tst | .teq | .cmp | .cmn => false
  | _ => true

/-- An integer is no 32-bit two's-complement number: the signed overflow test of R225 to R230. -/
def overflows (x : Int) : Bool := decide (x < -2147483648) || decide (2147483647 < x)

/-- A carry bit as a number (R10: true is 1). -/
abbrev carryNat (c : Bool) : Nat := if c then 1 else 0

/-- The result of an operation with its carry and overflow: `a` is op1, `b` op2's value, `sc` op2's carry out and
`f` the flags in (R224 to R230). -/
def aluCore (op : AluOp) (a b : Word) (sc : Bool) (f : StatusFlags) : Word × Bool × Bool :=
  let ci := carryNat f.c
  match op with
  | .and | .tst => (a &&& b, sc, f.v)
  | .eor | .teq => (a ^^^ b, sc, f.v)
  | .orr => (a ||| b, sc, f.v)
  | .bic => (a &&& ~~~b, sc, f.v)
  | .mov => (b, sc, f.v)
  | .mvn => (~~~b, sc, f.v)
  | .sub | .cmp => (a - b, decide (b.toNat ≤ a.toNat), overflows (a.toInt - b.toInt))
  | .rsb => (b - a, decide (a.toNat ≤ b.toNat), overflows (b.toInt - a.toInt))
  | .add | .cmn => (a + b, decide (2 ^ 32 ≤ a.toNat + b.toNat), overflows (a.toInt + b.toInt))
  | .adc => (a + b + BitVec.ofNat 32 ci, decide (2 ^ 32 ≤ a.toNat + b.toNat + ci), overflows (a.toInt + b.toInt + ci))
  | .sbc => (a - b + BitVec.ofNat 32 ci - 1#32, decide (b.toNat + 1 ≤ a.toNat + ci), overflows (a.toInt - b.toInt + ci - 1))
  | .rsc => (b - a + BitVec.ofNat 32 ci - 1#32, decide (a.toNat + 1 ≤ b.toNat + ci), overflows (b.toInt - a.toInt + ci - 1))

/-- `alu(op, op1, op2, flags_in, set_flags)` (R220 to R223). -/
def alu (op : AluOp) (op1 : Word) (op2 : ShiftedOperand) (f : StatusFlags) (setFlags : Bool) : AluResult :=
  let r := aluCore op op1 op2.value op2.carryOut f
  { result := r.1
    flags := if setFlags then { n := r.1.msb, z := r.1 == 0#32, c := r.2.1, v := r.2.2 } else f
    writesResult := op.writes }

end Sys2Proof.Machine
end

