-- ==== Sys2Proof/Machine/State.lean ====
section
/-! DEFINITION. The machine's state, why a step can stop, and the state at reset (10_state.md; 70_reset_and_hazards.md
R641). -/

namespace Sys2Proof.Machine

/-- The seven processor modes (10_state.md R48; 60_exceptions.md R621). -/
inductive Mode where
  | user | fiq | irq | supervisor | abort | undefined | system
  deriving DecidableEq, Repr

/-- A program status register, CPSR or SPSR (10_state.md R48). Bits 27:8 are reserved and hold nothing. -/
structure Psr where
  flags : StatusFlags
  /-- I, bit 7: IRQ disable. -/
  irqDisable : Bool
  /-- F, bit 6: FIQ disable. -/
  fiqDisable : Bool
  /-- T, bit 5: THUMB state. -/
  thumb : Bool
  /-- M, bits 4:0. -/
  mode : Mode
  deriving DecidableEq, Repr

/-- The model's own parameter, log entry 1: what the refusals of 60_exceptions.md R611 do whose ARM7TDMI effect the
spec describes. `executorReference` refuses them as R611 says; `arm7tdmi` gives them the described effect. -/
inductive Profile where
  | executorReference
  | arm7tdmi
  deriving DecidableEq, Repr

/-- Which operand combination is unpredictable: the `what` of `Unpredictable(what)` (60_exceptions.md R603). -/
inductive Unpredictable where
  /-- R15 as the shift register of a data-processing instruction (R261). -/
  | shiftByPc
  /-- R15 as the source of MSR (R281). -/
  | msrFromPc
  /-- MUL or MLA with R15 as an operand, or Rd = Rm (R300, R301). -/
  | mulOperands
  /-- A long multiply with R15 as an operand, RdHi = RdLo, or RdHi or RdLo = Rm (R302 to R305). -/
  | longMulOperands
  /-- SWP or SWPB with R15 as an operand, or Rn = Rd, or Rn = Rm (R306, R307). -/
  | swapOperands
  /-- BX R15 in ARM state (R310). -/
  | bxPc
  /-- R15 as a register offset (R330, R340). -/
  | offsetPc
  /-- LDM or STM with Rn = 15 (R350). -/
  | blockBasePc
  /-- THUMB MUL with Rd = Rs (R443). -/
  | thumbMulOperands
  deriving DecidableEq, Repr

/-- The faults of 60_exceptions.md R603, each with the value it records. All are safe: the step stops where the chip
may go on. A register or flag that nothing has written holds a value here, so R603's two faults for unwritten state
do not exist (log entries 2 and 3). -/
inductive Fault where
  /-- A fetch (R79) or a data access (R80) at an address not aligned to its width. Safe. -/
  | alignmentViolation (addr : Word)
  /-- A fetch outside the ROM window (R78) or a data access outside every region (R72, R75). Safe. -/
  | outOfRange (addr : Word)
  /-- A store to the BIOS or the ROM (R75). Safe. -/
  | writeToReadOnly (addr : Word)
  /-- An operand combination the ARM7TDMI calls unpredictable; raised by the rules of files 41 to 45 that name it.
  Safe. -/
  | unpredictable (what : Unpredictable)
  deriving DecidableEq, Repr

/-- The reasons of an `Invalid{raw, reason}` word (30_encoding.md R180). -/
inductive InvalidReason where
  | nvCondition | msrFull | psrType | signedStore | bxH1 | hiRegNone
  deriving DecidableEq, Repr

/-- The classes of an `Unsupported{raw, class}` word (30_encoding.md R131). -/
inductive CoprocessorClass where
  | coprocessorDataTransfer | coprocessorOperation
  deriving DecidableEq, Repr

/-- The refusals of 60_exceptions.md R611: the step has no meaning. All are safe. -/
inductive Refusal where
  /-- An instruction that has no meaning yet; raised by `exec` alone. Safe. -/
  | notModelled (mnemonic : String)
  /-- An Invalid word, ARM or THUMB, whatever its condition field holds (R607). Safe. -/
  | invalid (reason : InvalidReason)
  /-- An Undefined word, in profile executorReference. Safe. -/
  | undefinedWord
  /-- A coprocessor word, in profile executorReference. Safe. -/
  | unsupported (c : CoprocessorClass)
  /-- SWI, in profile executorReference. Safe. -/
  | softwareInterrupt
  /-- MRS, in profile executorReference (R280). Safe. -/
  | mrs
  /-- MSR to an SPSR, in profile executorReference (R281). Safe. -/
  | msrSpsr
  /-- A PSR transfer or an exception return in User or System mode, which have no SPSR (10_state.md R48). Safe. -/
  | noSpsr
  /-- Data processing with S = 1 and Rd = R15, in profile executorReference (R261). Safe. -/
  | spsrCopy
  /-- LDRT, STRT, LDRBT and STRBT, in profile executorReference (R335). Safe. -/
  | userAccess
  /-- Write-back with Rn = 15 or Rn = Rd in a single or halfword transfer (R330, R340). Safe. -/
  | writeBackConflict
  /-- A store of R15, in profile executorReference (R330, R342, R350). Safe. -/
  | storePc
  /-- A halfword transfer with P = 0 and W = 1 (R340). Safe. -/
  | halfwordPostWriteBack
  /-- LDM or STM with S = 1, in profile executorReference (R353). Safe. -/
  | userBankTransfer
  /-- LDM, STM, PUSH, POP, LDMIA or STMIA with an empty list (R350, R480 to R483). Safe. -/
  | emptyList
  /-- LDM or STM with write-back and the base in the list, THUMB LDMIA and STMIA with the base in the list (R350,
  R482, R483). Safe. -/
  | baseInList
  /-- A write to IO: the device's behaviour is not given (20_memory.md R75). Safe. -/
  | ioWrite
  /-- A byte write to Palette RAM, VRAM or OAM (20_memory.md R75). Safe. -/
  | videoByteWrite
  /-- A should-be-zero or should-be-one field that is wrong, when `SBZ_CHECK` = 1 (30_encoding.md R182). Safe. -/
  | shouldBeZero
  deriving DecidableEq, Repr

/-- The executor's state. -/
structure State where
  /-- The thirty general registers but R15, every bank; `physIndex` says which is which (10_state.md R35, R38;
  60_exceptions.md R621). -/
  regs : Vector Word 30
  /-- R15: the address of the instruction being executed (R40). -/
  pc : Word
  /-- N, Z, C, V, I, F, T and the mode (R47 to R49). -/
  cpsr : Psr
  /-- SPSR_fiq, SPSR_irq, SPSR_svc, SPSR_abt, SPSR_und, in that order (R48). -/
  spsr : Vector Psr 5
  /-- The bytes that the image gives or a store wrote, by rising address (20_memory.md R71, R74). -/
  mem : List Host.Cell
  /-- The parameter `SBZ_CHECK` (30_encoding.md R182). -/
  sbzCheck : Bool
  /-- The model's own parameter, log entry 1. -/
  profile : Profile
  /-- The model's own counter of the draws made, log entry 7. -/
  draws : Nat
  deriving DecidableEq, Repr

/-- All four flags clear (log entry 3). -/
def StatusFlags.clear : StatusFlags := { n := false, z := false, c := false, v := false }

/-- The value of an SPSR at reset, which the spec leaves unpredictable (log entry 3). -/
def Psr.initialSpsr : Psr :=
  { flags := .clear, irqDisable := false, fiqDisable := false, thumb := false, mode := .user }

/-- The CPSR at reset: ARM state (70_reset_and_hazards.md R641); I = F = 1 and System mode, which the spec does not
model, are log entry 4, and the flags log entry 3. -/
def Psr.initialCpsr : Psr :=
  { flags := .clear, irqDisable := true, fiqDisable := true, thumb := false, mode := .system }

/-- The default launch (70_reset_and_hazards.md R641): pc at `START_PC`, T = 0, no byte listed; the registers hold
the values of log entries 2 and 3. -/
def State.reset : State :=
  { regs := .replicate 30 0#32
    pc := Config.startPc
    cpsr := .initialCpsr
    spsr := .replicate 5 .initialSpsr
    mem := []
    sbzCheck := false
    profile := .arm7tdmi
    draws := 0 }

end Sys2Proof.Machine
end

