-- ==== Sys2Proof/Machine/Ops.lean ====
section
/-! DEFINITION. The named operations over registers, the PSRs, memory and the free values, the fetch, and taking an
exception with the return from it beside it. -/

namespace Sys2Proof.Machine

/-- Why an instruction rule ends without a next state (00_scope.md R13). -/
inductive Stop where
  | fault (f : Fault)
  | refuse (r : Refusal)
  deriving DecidableEq, Repr

/-- The outcome of a step. -/
abbrev Out := Host.Outcome State Fault Refusal

/-- The outcome of an instruction rule: a stop leaves the state before the instruction (60_exceptions.md R603). -/
def finish : Except Stop State → Out
  | .ok s => .next s
  | .error (.fault f) => .fault f
  | .error (.refuse r) => .refused r

/-- A line of a rule that refuses when its test holds. -/
def refuseIf (b : Bool) (r : Refusal) : Except Stop Unit := if b then .error (.refuse r) else .ok ()

/-- A line of a rule that faults when its test holds. -/
def faultIf (b : Bool) (f : Fault) : Except Stop Unit := if b then .error (.fault f) else .ok ()

/-! ### Registers -/

/-- Where register `i` (0 to 14) of mode `m` is kept (10_state.md R38; 60_exceptions.md R621): 0 to 14 are R0 to R14
of User and System mode, 15 to 21 R8 to R14 of FIQ, then R13 and R14 of IRQ (22, 23), Supervisor (24, 25),
Abort (26, 27) and Undefined (28, 29). -/
def physIndex (m : Mode) (i : RegIdx) : Fin 30 :=
  let k := i.toNat
  Fin.ofNat 30 <|
    match m with
    | .user | .system => k
    | .fiq => if 8 ≤ k then k + 7 else k
    | .irq => if 13 ≤ k then k + 9 else k
    | .supervisor => if 13 ≤ k then k + 11 else k
    | .abort => if 13 ≤ k then k + 13 else k
    | .undefined => if 13 ≤ k then k + 15 else k

/-- Register `i` (0 to 14) as mode `m` sees it. -/
def State.regIn (s : State) (m : Mode) (i : RegIdx) : Word := s.regs.get (physIndex m i)

/-- `s` with register `i` (0 to 14) of mode `m` written. -/
def State.setRegIn (s : State) (m : Mode) (i : RegIdx) (v : Word) : State :=
  { s with regs := s.regs.set (physIndex m i).val v (physIndex m i).isLt }

/-- `x[i]` for i from 0 to 14, in the current mode's bank (00_scope.md R11). -/
def State.reg (s : State) (i : RegIdx) : Word := s.regIn s.cpsr.mode i

/-- `x[i] <- v` for i from 0 to 14, in the current mode's bank (00_scope.md R11). -/
def State.setReg (s : State) (i : RegIdx) (v : Word) : State := s.setRegIn s.cpsr.mode i v

/-- `rd(i)`: an operand read; R15 reads as the pc plus `off` (10_state.md R41). -/
def State.readReg (s : State) (off : Word) (i : RegIdx) : Word := if i = 15#4 then s.pc + off else s.reg i

/-- A THUMB low register's 4-bit index (10_state.md R37). -/
def low (r : LowIdx) : RegIdx := 0#1 ++ r

/-- The pc of the next ARM instruction (10_state.md R42). -/
def State.nextArm (s : State) : State := { s with pc := s.pc + 4#32 }

/-- The pc of the next THUMB instruction (10_state.md R42). -/
def State.nextThumb (s : State) : State := { s with pc := s.pc + 2#32 }

/-- The end of an ARM rule that writes `v` to `rd`: R15 takes it unchanged, any other register takes it and the pc
advances (10_state.md R42, R43). -/
def State.writeArm (s : State) (rd : RegIdx) (v : Word) : State :=
  if rd = 15#4 then { s with pc := v } else (s.setReg rd v).nextArm

/-- The end of a THUMB rule that writes `v` to a 4-bit register: R15 takes it with bit 0 clear (45_thumb_alu.md R422,
R424). -/
def State.writeThumb (s : State) (rd : RegIdx) (v : Word) : State :=
  if rd = 15#4 then { s with pc := v &&& ~~~1#32 } else (s.setReg rd v).nextThumb

/-- The status flags (10_state.md R47). -/
abbrev State.flags (s : State) : StatusFlags := s.cpsr.flags

/-- `s` with the status flags written. -/
def State.setFlags (s : State) (f : StatusFlags) : State := { s with cpsr := { s.cpsr with flags := f } }

/-- The executor refuses what R611 lists (log entry 1). -/
def State.isReference (s : State) : Bool := s.profile == .executorReference

/-- The should-be-zero line of a rule (30_encoding.md R182). -/
def State.checkSbz (s : State) (bad : Bool) : Except Stop Unit := refuseIf (s.sbzCheck && bad) .shouldBeZero

/-! ### Free values -/

/-- `draw`: a fresh free word (00_scope.md R13). -/
def State.draw (s : State) : Word × State := (Config.freeWord s.draws, { s with draws := s.draws + 1 })

/-! ### The program status registers -/

/-- The mode's five bits (10_state.md R48). -/
def Mode.code : Mode → BitVec 5
  | .user => 0b10000#5
  | .fiq => 0b10001#5
  | .irq => 0b10010#5
  | .supervisor => 0b10011#5
  | .abort => 0b10111#5
  | .undefined => 0b11011#5
  | .system => 0b11111#5

/-- Bits 31 to 28 of a PSR (10_state.md R48). -/
def StatusFlags.bits (f : StatusFlags) : BitVec 4 := bit f.n ++ bit f.z ++ bit f.c ++ bit f.v

/-- The flags in bits 31 to 28 of a word (41_arm_data_processing.md R281). -/
def flagsOf (v : Word) : StatusFlags :=
  { n := v.getLsbD 31, z := v.getLsbD 30, c := v.getLsbD 29, v := v.getLsbD 28 }

/-- A PSR as a word; `reserved` is what bits 27:8 read as (10_state.md R48). -/
def Psr.toWord (p : Psr) (reserved : BitVec 20) : Word :=
  p.flags.bits ++ reserved ++ bit p.irqDisable ++ bit p.fiqDisable ++ bit p.thumb ++ p.mode.code

/-- Which SPSR a mode has; User and System have none (10_state.md R48). -/
def spsrIndex : Mode → Option (Fin 5)
  | .user | .system => none
  | .fiq => some 0
  | .irq => some 1
  | .supervisor => some 2
  | .abort => some 3
  | .undefined => some 4

/-- The current mode's SPSR. -/
def State.spsrNow (s : State) : Option Psr := (spsrIndex s.cpsr.mode).map s.spsr.get

/-- `s` with mode `m`'s SPSR written, where it has one. -/
def State.setSpsr (s : State) (m : Mode) (p : Psr) : State :=
  match spsrIndex m with
  | none => s
  | some k => { s with spsr := s.spsr.set k.val p k.isLt }

/-- The current mode's SPSR, or the refusal of a mode that has none. -/
def State.needSpsr (s : State) : Except Stop Psr :=
  match s.spsrNow with
  | none => .error (.refuse .noSpsr)
  | some p => .ok p

/-! ### Exceptions -/

/-- The ARM7TDMI's exceptions but Reset, which is an input of the chip (60_exceptions.md R612). -/
inductive ExceptionKind where
  | undefinedInstruction | softwareInterrupt | prefetchAbort | dataAbort | irq | fiq
  deriving DecidableEq, Repr

/-- The vector of an exception (R612). -/
def ExceptionKind.vector : ExceptionKind → Word
  | .undefinedInstruction => 0x04#32
  | .softwareInterrupt => 0x08#32
  | .prefetchAbort => 0x0C#32
  | .dataAbort => 0x10#32
  | .irq => 0x18#32
  | .fiq => 0x1C#32

/-- The mode an exception enters (R612). -/
def ExceptionKind.mode : ExceptionKind → Mode
  | .undefinedInstruction => .undefined
  | .softwareInterrupt => .supervisor
  | .prefetchAbort | .dataAbort => .abort
  | .irq => .irq
  | .fiq => .fiq

/-- What an exception's R14 holds (R614): `instr` is the address of the instruction concerned, `next` that of the
next one. -/
def ExceptionKind.link (e : ExceptionKind) (instr next : Word) : Word :=
  match e with
  | .undefinedInstruction | .softwareInterrupt => next
  | .prefetchAbort => instr + 4#32
  | .dataAbort => instr + 8#32
  | .irq | .fiq => next + 4#32

/-- Taking an exception (R614): R14 of the new mode holds the return link, its SPSR the CPSR; the mode is entered in
ARM state with IRQs masked, FIQs too for FIQ, and the pc goes to the vector. -/
def State.takeException (s : State) (e : ExceptionKind) (link : Word) : State :=
  let s1 := (s.setRegIn e.mode 14#4 link).setSpsr e.mode s.cpsr
  { s1 with
    cpsr :=
      { flags := s.cpsr.flags
        irqDisable := true
        fiqDisable := if e = .fiq then true else s.cpsr.fiqDisable
        thumb := false
        mode := e.mode }
    pc := e.vector }

/-- Return from an exception (R615): the CPSR takes the current mode's SPSR and the pc the target. -/
def State.returnFromException (s : State) (target : Word) : Except Stop State :=
  match s.needSpsr with
  | .error e => .error e
  | .ok p => .ok { s with cpsr := p, pc := target }

/-! ### Memory -/

/-- The byte listed at an address. -/
def Memory.get : List Host.Cell → Nat → Option Byte
  | [], _ => none
  | (k, b) :: rest, a => if k = a then some b else Memory.get rest a

/-- The list with the byte at `a` set, kept in rising order. -/
def Memory.set : List Host.Cell → Nat → Byte → List Host.Cell
  | [], a, v => [(a, v)]
  | (k, b) :: rest, a, v =>
    if a < k then (a, v) :: (k, b) :: rest
    else if a = k then (a, v) :: rest
    else (k, b) :: Memory.set rest a v

/-- Every address of the list is above `a`. -/
def Memory.above (a : Nat) : List Host.Cell → Bool
  | [] => true
  | (k, _) :: rest => decide (a < k) && Memory.above a rest

/-- The canonical form: addresses strictly rising. An unlisted address reads as no listed byte at all (it reads as a
free value), so no entry can equal what an unlisted address reads as. -/
def Memory.wf : List Host.Cell → Bool
  | [] => true
  | (k, _) :: rest => Memory.above k rest && Memory.wf rest

/-- The regions of the memory map (20_memory.md R71). -/
inductive Region where
  | bios | wram1 | wram2 | io | palette | vram | oam | rom
  deriving DecidableEq, Repr

/-- The region an address lies in: both bounds inclusive, none outside every region (R71, R73). -/
def regionOf (a : Nat) : Option Region :=
  if a ≤ 0x00003FFF then some .bios
  else if 0x02000000 ≤ a ∧ a ≤ 0x0203FFFF then some .wram1
  else if 0x03000000 ≤ a ∧ a ≤ 0x03007FFF then some .wram2
  else if 0x04000000 ≤ a ∧ a ≤ 0x040003FE then some .io
  else if 0x05000000 ≤ a ∧ a ≤ 0x050003FF then some .palette
  else if 0x06000000 ≤ a ∧ a ≤ 0x06017FFF then some .vram
  else if 0x07000000 ≤ a ∧ a ≤ 0x070003FF then some .oam
  else if 0x08000000 ≤ a ∧ a ≤ 0x09FFFFFF then some .rom
  else none

/-- The byte an address outside IO reads as: the one listed, or the image's free byte (R74). -/
def State.byteAt (s : State) (a : Nat) : Byte := (Memory.get s.mem a).getD (Config.imageByte a)

/-- `read_byte` (R70, R72 to R74): a read of IO is a draw each time. -/
def State.readByte (s : State) (a : Word) : Except Stop (Byte × State) :=
  match regionOf a.toNat with
  | none => .error (.fault (.outOfRange a))
  | some .io => .ok (s.draw.1.setWidth 8, s.draw.2)
  | some _ => .ok (s.byteAt a.toNat, s)

/-- `MemRead(addr, n)` (R72): the byte at the lowest address is the least significant. -/
def State.readLe (s : State) (a : Word) : Nat → Except Stop (Word × State)
  | 0 => .ok (0#32, s)
  | n + 1 =>
    match s.readByte a with
    | .error e => .error e
    | .ok (b, s1) =>
      match s1.readLe (a + 1#32) n with
      | .error e => .error e
      | .ok (hi, s2) => .ok (hi <<< 8 ||| b.setWidth 32, s2)

/-- The access widths (R81). -/
inductive Width where
  | byte | half | word
  deriving DecidableEq, Repr

/-- The bytes of a width (R81). -/
def Width.bytes : Width → Nat
  | .byte => 1
  | .half => 2
  | .word => 4

/-- An address aligned to a width (R80). -/
def aligned (a : Word) (w : Width) : Bool := a.toNat % w.bytes == 0

/-- A data read (R72, R80): misaligned, it faults before any byte is read (log entry 16). -/
def State.load (s : State) (a : Word) (w : Width) : Except Stop (Word × State) :=
  if aligned a w then s.readLe a w.bytes else .error (.fault (.alignmentViolation a))

/-- Whether one byte at `a` of a write of `n` bytes at `addr` may be written (R75). -/
def checkWriteByte (addr a : Word) (n : Nat) : Except Stop Unit :=
  match regionOf a.toNat with
  | none => .error (.fault (.outOfRange a))
  | some .bios | some .rom => .error (.fault (.writeToReadOnly addr))
  | some .io => .error (.refuse .ioWrite)
  | some .wram1 | some .wram2 => .ok ()
  | some .palette | some .vram | some .oam => if n = 1 then .error (.refuse .videoByteWrite) else .ok ()

/-- The check of a whole write, `left` bytes from `a` on: the first byte barred decides (R75, log entry 16). -/
def checkWrite (addr : Word) (n : Nat) (a : Word) : Nat → Except Stop Unit
  | 0 => .ok ()
  | left + 1 =>
    match checkWriteByte addr a n with
    | .error e => .error e
    | .ok () => checkWrite addr n (a + 1#32) left

/-- The low `n` bytes of `v` written little-endian at `a` (R75, R76). -/
def writeLe (mem : List Host.Cell) (a : Word) (v : Word) : Nat → List Host.Cell
  | 0 => mem
  | n + 1 => writeLe (Memory.set mem a.toNat (v.setWidth 8)) (a + 1#32) (v >>> 8) n

/-- `MemWrite(addr, n, v)` (R75, R80): checked whole before any byte is written. -/
def State.store (s : State) (a : Word) (w : Width) (v : Word) : Except Stop State :=
  if aligned a w then
    match checkWrite a w.bytes a w.bytes with
    | .error e => .error e
    | .ok () => .ok { s with mem := writeLe s.mem a v w.bytes }
  else .error (.fault (.alignmentViolation a))

/-- A loaded value extended to 32 bits (R81). -/
def extend (signed : Bool) (w : Width) (v : Word) : Word :=
  match signed, w with
  | true, .byte => (v.setWidth 8).signExtend 32
  | true, .half => (v.setWidth 16).signExtend 32
  | _, _ => v

/-! ### Fetch -/

/-- The width of an instruction of the current set (30_encoding.md R102). -/
def State.instrWidth (s : State) : Width := if s.cpsr.thumb then .half else .word

/-- A fetch address lies, with all its bytes, in the ROM window (20_memory.md R78). -/
def inRomWindow (a : Nat) (n : Nat) : Bool := decide (0x08000000 ≤ a) && decide (a + n ≤ 0x0A000000)

/-- The instruction word at an address, as the current set's fetch reads it (20_memory.md R77). -/
def State.wordAt (s : State) (t : Bool) (a : Nat) : Encoding :=
  if t then .thumb (s.byteAt (a + 1) ++ s.byteAt a)
  else .arm (s.byteAt (a + 3) ++ s.byteAt (a + 2) ++ s.byteAt (a + 1) ++ s.byteAt a)

/-- A fetch at `a` (R77 to R79): alignment before range (60_exceptions.md R606). -/
def State.fetchAt (s : State) (t : Bool) (a : Word) : Except Stop Encoding :=
  let w : Width := if t then .half else .word
  if aligned a w then
    if inRomWindow a.toNat w.bytes then .ok (s.wordAt t a.toNat) else .error (.fault (.outOfRange a))
  else .error (.fault (.alignmentViolation a))

/-- The instruction at the pc, by the decoder T selects (10_state.md R49). -/
def State.fetch (s : State) : Except Stop Instr :=
  match s.fetchAt s.cpsr.thumb s.pc with
  | .error e => .error e
  | .ok e => .ok (decode e)

/-! ### Conditional execution and the non-instruction words -/

/-- An ARM instruction whose condition fails only advances the pc (41_arm_data_processing.md R260). -/
def conditional (c : Cond) (s : State) (body : Except Stop State) : Out :=
  if evaluate c s.flags then finish body else .next s.nextArm

/-- The Undefined Instruction exception, or its refusal as `r` (60_exceptions.md R611, R612; log entry 12). -/
def undefinedTrap (r : Refusal) (width : Word) (s : State) : Out :=
  if s.isReference then .refused r
  else .next (s.takeException .undefinedInstruction (ExceptionKind.link .undefinedInstruction s.pc (s.pc + width)))

/-- The Software Interrupt exception, or its refusal (R611, R612; log entry 12). -/
def softwareInterrupt (width : Word) (s : State) : Except Stop State := do
  refuseIf s.isReference .softwareInterrupt
  pure (s.takeException .softwareInterrupt (ExceptionKind.link .softwareInterrupt s.pc (s.pc + width)))

/-! ### The block's address helpers -/

/-- `thumb_pc_base(addr)` (10_state.md R45). -/
def thumbPcBase (addr : Word) : Word := (addr + 4#32) &&& ~~~2#32

/-- `arm_branch_target(addr, off24)` (10_state.md R46). -/
def armBranchTarget (addr : Word) (off : BitVec 24) : Word := addr + 8#32 + off.signExtend 32 <<< 2

/-- `thumb_branch_target(addr, off)`, `off` the scaled signed byte offset (10_state.md R46). -/
def thumbBranchTarget (addr : Word) {n : Nat} (off : BitVec n) : Word := addr + 4#32 + off.signExtend 32

end Sys2Proof.Machine
end

