-- ==== Sys2Proof/Machine/ArmBranch.lean ====
section
/-! DEFINITION. ARM branches, software interrupt, coprocessor classes and the NV words
(44_arm_branch_swi_coproc.md). -/

namespace Sys2Proof.Machine

/-- A word with condition field 15 (R385). -/
def execArmInvalidNvCondition (_raw : Word) (_s : State) : Out := .refused (.invalid .nvCondition)

/-- B (R380). -/
def execArmB (c : Cond) (offset : BitVec 24) (s : State) : Out :=
  conditional c s (.ok { s with pc := armBranchTarget s.pc offset })

/-- BL (R381): R14 takes the address of the next instruction. -/
def execArmBl (c : Cond) (offset : BitVec 24) (s : State) : Out :=
  conditional c s (.ok { s.setReg 14#4 (s.pc + 4#32) with pc := armBranchTarget s.pc offset })

/-- A coprocessor data transfer: no coprocessor is attached (R383). -/
def execArmUnsupportedDataTransfer (_raw : Word) (s : State) : Out :=
  undefinedTrap (.unsupported .coprocessorDataTransfer) 4#32 s

/-- A coprocessor operation: no coprocessor is attached (R384). -/
def execArmUnsupportedOperation (_raw : Word) (s : State) : Out :=
  undefinedTrap (.unsupported .coprocessorOperation) 4#32 s

/-- SWI (R382); the immediate is for the handler, which reads it from memory. -/
def execArmSwi (c : Cond) (_imm24 : BitVec 24) (s : State) : Out := conditional c s (softwareInterrupt 4#32 s)

end Sys2Proof.Machine
end

