-- ==== Sys2Proof/Machine/Operands.lean ====
section
/-! DEFINITION. The operand forms: the second operand of data processing (40 R235, 41 R261), the transfer
addresses (43 R330, R340), register lists and block transfers (43 R350 to R352). -/

namespace Sys2Proof.Machine

/-- What R15 reads as in a data-processing instruction: pc + 12 with a register-specified shift, else pc + 8
(10_state.md R41). -/
def pcOffset : Operand2 → Word
  | .regReg _ _ _ => 12#32
  | _ => 8#32

/-- The ShiftedOperand of a second operand (40 R235, 41 R261). -/
def operand2Value (s : State) (op2 : Operand2) : Except Stop ShiftedOperand :=
  match op2 with
  | .imm rot imm8 => .ok (shifterImm imm8 rot s.flags.c)
  | .regImm rm ty n => .ok (shifterReg (s.readReg 8#32 rm) ty (.imm n) s.flags.c)
  | .regReg rm ty rs =>
    if rs = 15#4 then .error (.fault (.unpredictable .shiftByPc))
    else .ok (shifterReg (s.readReg 12#32 rm) ty (.reg ((s.reg rs).setWidth 8)) s.flags.c)

/-- The offset of a single data transfer (R330); the shifter's carry out is discarded. -/
def offsetValue (s : State) (off : Offset) : Except Stop Word :=
  match off with
  | .imm off12 => .ok (off12.setWidth 32)
  | .reg rm ty n =>
    if rm = 15#4 then .error (.fault (.unpredictable .offsetPc))
    else .ok (shifterReg (s.reg rm) ty (.imm n) s.flags.c).value

/-- The offset of a halfword transfer (R340). -/
def halfOffsetValue (s : State) (off : HalfOffset) : Except Stop Word :=
  match off with
  | .imm off8 => .ok (off8.setWidth 32)
  | .reg _ rm => if rm = 15#4 then .error (.fault (.unpredictable .offsetPc)) else .ok (s.reg rm)

/-- The should-be-zero field of a halfword offset is wrong (30_encoding.md R182). -/
def halfOffsetBadSbz : HalfOffset → Bool
  | .imm _ => false
  | .reg sbz _ => sbz != 0#4

/-- `ea`, the base with the offset added or subtracted (R330). -/
def effectiveAddress (u : Bool) (base off : Word) : Word := if u then base + off else base - off

/-- Whether a transfer writes its base back (R330). -/
def writesBack (p w : Bool) : Bool := !p || w

/-- The checks R330 and R340 share: write-back conflicts and stores of R15. -/
def transferChecks (s : State) (wb load : Bool) (rn rd : RegIdx) : Except Stop Unit := do
  refuseIf (wb && (rn == 15#4 || rn == rd)) .writeBackConflict
  refuseIf (!load && rd == 15#4 && s.isReference) .storePc

/-- The base written back after the access (R331, R332). -/
def State.writeBack (s : State) (wb : Bool) (rn : RegIdx) (ea : Word) : State := if wb then s.setReg rn ea else s

/-- The value a store takes from a register of mode `m`; R15's is implementation defined, a free value
(log entry 11). -/
def State.storeOperand (s : State) (m : Mode) (i : RegIdx) : Word × State :=
  if i = 15#4 then s.draw else (s.regIn m i, s)

/-- The load of an ARM transfer: read, write back, write Rd (R331). -/
def loadTransfer (s : State) (w : Width) (signed wb : Bool) (rn rd : RegIdx) (addr ea : Word) : Except Stop State := do
  let (v, s1) ← s.load addr w
  pure ((s1.writeBack wb rn ea).writeArm rd (extend signed w v))

/-- The store of an ARM transfer: write memory, write back (R332). -/
def storeTransfer (s : State) (w : Width) (wb : Bool) (rn rd : RegIdx) (addr ea : Word) : Except Stop State := do
  let (v, s1) := s.storeOperand s.cpsr.mode rd
  let s2 ← s1.store addr w v
  pure (s2.writeBack wb rn ea).nextArm

/-- A single data transfer whose condition passes (R330 to R335); P = 0 with W = 1 is the T form, an ordinary access
here, since the memory has no protection by mode (20_memory.md R89; log entry 15). -/
def singleTransfer (load : Bool) (width : Width) (p u w : Bool) (rn rd : RegIdx) (off : Offset) (s : State) :
    Except Stop State := do
  refuseIf (!p && w && s.isReference) .userAccess
  let wb := writesBack p w
  transferChecks s wb load rn rd
  let base := s.readReg 8#32 rn
  let o ← offsetValue s off
  let ea := effectiveAddress u base o
  let addr := if p then ea else base
  if load then loadTransfer s width false wb rn rd addr ea else storeTransfer s width wb rn rd addr ea

/-- A halfword or signed transfer whose condition passes (R340 to R344). -/
def halfwordTransfer (load : Bool) (width : Width) (signed p u w : Bool) (rn rd : RegIdx) (off : HalfOffset)
    (s : State) : Except Stop State := do
  s.checkSbz (halfOffsetBadSbz off)
  refuseIf (!p && w) .halfwordPostWriteBack
  let wb := writesBack p w
  transferChecks s wb load rn rd
  let base := s.readReg 8#32 rn
  let o ← halfOffsetValue s off
  let ea := effectiveAddress u base o
  let addr := if p then ea else base
  if load then loadTransfer s width signed wb rn rd addr ea else storeTransfer s width wb rn rd addr ea

/-- The registers of a list, in ascending order (R350). -/
def regList (rlist : BitVec 16) : List RegIdx :=
  ((List.range 16).filter fun i => rlist.getLsbD i).map (BitVec.ofNat 4)

/-- `4 * n` as a word. -/
def fourTimes (n : Nat) : Word := BitVec.ofNat 32 (4 * n)

/-- Consecutive words read from `a` on, lowest address first (R351). -/
def State.readMany (s : State) (a : Word) : Nat → Except Stop (List Word × State)
  | 0 => .ok ([], s)
  | n + 1 =>
    match s.load a .word with
    | .error e => .error e
    | .ok (v, s1) =>
      match s1.readMany (a + 4#32) n with
      | .error e => .error e
      | .ok (vs, s2) => .ok (v :: vs, s2)

/-- The registers of mode `m` written, in order; R15 is the pc (R351). -/
def State.writeMany (s : State) (m : Mode) : List (RegIdx × Word) → State
  | [] => s
  | (i, v) :: rest => (if i = 15#4 then { s with pc := v } else s.setRegIn m i v).writeMany m rest

/-- The registers of mode `m` stored at consecutive words from `a` on (R352). -/
def State.storeMany (s : State) (m : Mode) (a : Word) : List RegIdx → Except Stop State
  | [] => .ok s
  | i :: rest =>
    match (s.storeOperand m i).2.store a .word (s.storeOperand m i).1 with
    | .error e => .error e
    | .ok s1 => s1.storeMany m (a + 4#32) rest

/-- `start` of a block transfer of `n` registers (R350): IA, IB, DA, DB by P and U. -/
def blockStart (p u : Bool) (base : Word) (n : Nat) : Word :=
  match p, u with
  | false, true => base
  | true, true => base + 4#32
  | false, false => base - fourTimes n + 4#32
  | true, false => base - fourTimes n

/-- `new_base` of a block transfer (R350). -/
def blockNewBase (u : Bool) (base : Word) (n : Nat) : Word :=
  if u then base + fourTimes n else base - fourTimes n

/-- The checks of R350, in its order; an LDM that restores the CPSR needs a mode with an SPSR (log entry 13). -/
def blockChecks (s : State) (load sbit w : Bool) (rn : RegIdx) (rlist : BitVec 16) : Except Stop Unit := do
  refuseIf (rlist == 0#16) .emptyList
  refuseIf (sbit && s.isReference) .userBankTransfer
  refuseIf (sbit && load && rlist.getLsbD 15 && s.spsrNow.isNone) .noSpsr
  faultIf (rn == 15#4) (.unpredictable .blockBasePc)
  refuseIf (w && rlist.getLsbD rn.toNat) .baseInList
  refuseIf (!load && rlist.getLsbD 15 && s.isReference) .storePc
  faultIf (!aligned (s.reg rn) .word) (.alignmentViolation (s.reg rn))

/-- Whose registers a block transfer moves: with S = 1 the User bank's, but for an LDM of R15 (R353). -/
def blockMode (s : State) (load sbit : Bool) (rlist : BitVec 16) : Mode :=
  if sbit && !(load && rlist.getLsbD 15) then .user else s.cpsr.mode

/-- LDM whose condition passes (R350, R351, R353): with S = 1 and R15 in the list it is an exception return. -/
def loadMultiple (p u sbit w : Bool) (rn : RegIdx) (rlist : BitVec 16) (s : State) : Except Stop State := do
  blockChecks s true sbit w rn rlist
  let regs := regList rlist
  let base := s.reg rn
  let (vs, s1) ← s.readMany (blockStart p u base regs.length) regs.length
  let s2 := s1.writeMany (blockMode s true sbit rlist) (regs.zip vs)
  let s3 := s2.writeBack w rn (blockNewBase u base regs.length)
  if rlist.getLsbD 15 then
    if sbit then s3.returnFromException s3.pc else pure s3
  else pure s3.nextArm

/-- STM whose condition passes (R350, R352, R353). -/
def storeMultiple (p u sbit w : Bool) (rn : RegIdx) (rlist : BitVec 16) (s : State) : Except Stop State := do
  blockChecks s false sbit w rn rlist
  let regs := regList rlist
  let base := s.reg rn
  let s1 ← s.storeMany (blockMode s false sbit rlist) (blockStart p u base regs.length) regs
  pure (s1.writeBack w rn (blockNewBase u base regs.length)).nextArm

end Sys2Proof.Machine
end

