-- ==== Sys2Proof/Machine/ArmData.lean ====
section
/-! DEFINITION. ARM data processing and PSR transfer (41_arm_data_processing.md). -/

namespace Sys2Proof.Machine

/-- MOV and MVN do not read Rn (R261, R113). -/
def AluOp.readsRn : AluOp → Bool
  | .mov | .mvn => false
  | _ => true

/-- The unused register field of an operation, which should be zero (30_encoding.md R182): Rn of MOV and MVN, Rd of
TST, TEQ, CMP and CMN. -/
def dpBadSbz (op : AluOp) (rn rd : RegIdx) : Bool :=
  (!op.readsRn && rn != 0#4) || (!op.writes && rd != 0#4)

/-- The first operand (R261): 0 for MOV and MVN. -/
def dpOp1 (s : State) (op : AluOp) (rn : RegIdx) (op2 : Operand2) : Word :=
  if op.readsRn then s.readReg (pcOffset op2) rn else 0#32

/-- The end of a data-processing instruction (R261): with S = 1 and Rd = R15 the SPSR is copied to the CPSR (10_state.md
R43), and the pc takes the result (60_exceptions.md R615) or, after a compare, which has none, advances; else R15 as
destination takes the result, and any other destination takes it and the pc advances. -/
def dpWrite (s : State) (setFlags : Bool) (rd : RegIdx) (r : AluResult) : Except Stop State :=
  if setFlags && rd == 15#4 then s.returnFromException (if r.writesResult then r.result else s.pc + 4#32)
  else if r.writesResult then .ok ((s.setFlags r.flags).writeArm rd r.result)
  else .ok (s.setFlags r.flags).nextArm

/-- A data-processing instruction whose condition passes (R261). S = 1 with Rd = R15 is refused by the executor
reference; else it needs a mode with an SPSR (log entry 13). -/
def dataProcessing (op : AluOp) (setFlags : Bool) (rn rd : RegIdx) (op2 : Operand2) (s : State) :
    Except Stop State := do
  refuseIf (setFlags && rd == 15#4 && s.isReference) .spsrCopy
  refuseIf (setFlags && rd == 15#4 && s.spsrNow.isNone) .noSpsr
  s.checkSbz (dpBadSbz op rn rd)
  let sh ← operand2Value s op2
  dpWrite s setFlags rd (alu op (dpOp1 s op rn op2) sh s.flags setFlags)

/-- AND (R262). -/
def execArmAnd (c : Cond) (setFlags : Bool) (rn rd : RegIdx) (op2 : Operand2) (s : State) : Out :=
  conditional c s (dataProcessing .and setFlags rn rd op2 s)

/-- EOR (R263). -/
def execArmEor (c : Cond) (setFlags : Bool) (rn rd : RegIdx) (op2 : Operand2) (s : State) : Out :=
  conditional c s (dataProcessing .eor setFlags rn rd op2 s)

/-- SUB (R264). -/
def execArmSub (c : Cond) (setFlags : Bool) (rn rd : RegIdx) (op2 : Operand2) (s : State) : Out :=
  conditional c s (dataProcessing .sub setFlags rn rd op2 s)

/-- RSB (R265). -/
def execArmRsb (c : Cond) (setFlags : Bool) (rn rd : RegIdx) (op2 : Operand2) (s : State) : Out :=
  conditional c s (dataProcessing .rsb setFlags rn rd op2 s)

/-- ADD (R266). -/
def execArmAdd (c : Cond) (setFlags : Bool) (rn rd : RegIdx) (op2 : Operand2) (s : State) : Out :=
  conditional c s (dataProcessing .add setFlags rn rd op2 s)

/-- ADC (R267). -/
def execArmAdc (c : Cond) (setFlags : Bool) (rn rd : RegIdx) (op2 : Operand2) (s : State) : Out :=
  conditional c s (dataProcessing .adc setFlags rn rd op2 s)

/-- SBC (R268). -/
def execArmSbc (c : Cond) (setFlags : Bool) (rn rd : RegIdx) (op2 : Operand2) (s : State) : Out :=
  conditional c s (dataProcessing .sbc setFlags rn rd op2 s)

/-- RSC (R269). -/
def execArmRsc (c : Cond) (setFlags : Bool) (rn rd : RegIdx) (op2 : Operand2) (s : State) : Out :=
  conditional c s (dataProcessing .rsc setFlags rn rd op2 s)

/-- TST (R270): S is always 1 and no register is written. -/
def execArmTst (c : Cond) (rn rd : RegIdx) (op2 : Operand2) (s : State) : Out :=
  conditional c s (dataProcessing .tst true rn rd op2 s)

/-- TEQ (R271): S is always 1 and no register is written. -/
def execArmTeq (c : Cond) (rn rd : RegIdx) (op2 : Operand2) (s : State) : Out :=
  conditional c s (dataProcessing .teq true rn rd op2 s)

/-- CMP (R272): S is always 1 and no register is written. -/
def execArmCmp (c : Cond) (rn rd : RegIdx) (op2 : Operand2) (s : State) : Out :=
  conditional c s (dataProcessing .cmp true rn rd op2 s)

/-- CMN (R273): S is always 1 and no register is written. -/
def execArmCmn (c : Cond) (rn rd : RegIdx) (op2 : Operand2) (s : State) : Out :=
  conditional c s (dataProcessing .cmn true rn rd op2 s)

/-- ORR (R274). -/
def execArmOrr (c : Cond) (setFlags : Bool) (rn rd : RegIdx) (op2 : Operand2) (s : State) : Out :=
  conditional c s (dataProcessing .orr setFlags rn rd op2 s)

/-- MOV (R275). -/
def execArmMov (c : Cond) (setFlags : Bool) (rn rd : RegIdx) (op2 : Operand2) (s : State) : Out :=
  conditional c s (dataProcessing .mov setFlags rn rd op2 s)

/-- BIC (R276). -/
def execArmBic (c : Cond) (setFlags : Bool) (rn rd : RegIdx) (op2 : Operand2) (s : State) : Out :=
  conditional c s (dataProcessing .bic setFlags rn rd op2 s)

/-- MVN (R277). -/
def execArmMvn (c : Cond) (setFlags : Bool) (rn rd : RegIdx) (op2 : Operand2) (s : State) : Out :=
  conditional c s (dataProcessing .mvn setFlags rn rd op2 s)

/-- MRS whose condition passes (R280): Rd takes the CPSR or the SPSR, whose reserved bits read as free values
(10_state.md R48; log entry 10). -/
def moveFromPsr (p : Bool) (rd : RegIdx) (sbz : BitVec 12) (s : State) : Except Stop State := do
  refuseIf s.isReference .mrs
  let psr ← if p then s.needSpsr else .ok s.cpsr
  s.checkSbz (sbz != 0#12)
  let (free, s1) := s.draw
  pure (s1.writeArm rd (psr.toWord (free.setWidth 20)))

/-- MRS (R280); the immediate bit i is not used. -/
def execArmMrs (c : Cond) (_i p : Bool) (rd : RegIdx) (sbz : BitVec 12) (s : State) : Out :=
  conditional c s (moveFromPsr p rd sbz s)

/-- The value an MSR moves (R281): a rotated immediate without its carry, or Rm, which R15 may not be. -/
def msrValue (s : State) (src : MsrSource) : Except Stop Word :=
  match src with
  | .imm rot imm8 => .ok (shifterImm imm8 rot s.flags.c).value
  | .reg _ rm => if rm = 15#4 then .error (.fault (.unpredictable .msrFromPc)) else .ok (s.reg rm)

/-- The should-be-one and should-be-zero fields of an MSR are wrong (30_encoding.md R182). -/
def msrBadSbz (sbo : BitVec 4) (src : MsrSource) : Bool :=
  sbo != 0xF#4 ||
    match src with
    | .imm _ _ => false
    | .reg sbz _ => sbz != 0#8

/-- MSR whose condition passes (R281): the flags of the CPSR, or of the current mode's SPSR, take bits 31 to 28. -/
def moveToPsr (p : Bool) (sbo : BitVec 4) (src : MsrSource) (s : State) : Except Stop State := do
  refuseIf (p && s.isReference) .msrSpsr
  refuseIf (p && s.spsrNow.isNone) .noSpsr
  s.checkSbz (msrBadSbz sbo src)
  let v ← msrValue s src
  if p then
    let old ← s.needSpsr
    pure (s.setSpsr s.cpsr.mode { old with flags := flagsOf v }).nextArm
  else pure (s.setFlags (flagsOf v)).nextArm

/-- MSR, flags only (R281). -/
def execArmMsr (c : Cond) (p : Bool) (sbo : BitVec 4) (src : MsrSource) (s : State) : Out :=
  conditional c s (moveToPsr p sbo src s)

/-- A word of transfer type 41, "report, do not execute" (R282). -/
def execArmInvalidMsrFull (_raw : Word) (_s : State) : Out := .refused (.invalid .msrFull)

/-- A word of any other transfer type (R282). -/
def execArmInvalidPsrType (_raw : Word) (_s : State) : Out := .refused (.invalid .psrType)

end Sys2Proof.Machine
end

