-- ==== Sys2Proof/Machine/ArmMemory.lean ====
section
/-! DEFINITION. ARM single data transfer, halfword and signed transfer, and block data transfer
(43_arm_load_store.md). -/

namespace Sys2Proof.Machine

/-- A signed store, which has no meaning (R345). -/
def execArmInvalidSignedStore (_raw : Word) (_s : State) : Out := .refused (.invalid .signedStore)

/-- STRH (R342). -/
def execArmStrh (c : Cond) (p u w : Bool) (rn rd : RegIdx) (off : HalfOffset) (s : State) : Out :=
  conditional c s (halfwordTransfer false .half false p u w rn rd off s)

/-- LDRH (R341). -/
def execArmLdrh (c : Cond) (p u w : Bool) (rn rd : RegIdx) (off : HalfOffset) (s : State) : Out :=
  conditional c s (halfwordTransfer true .half false p u w rn rd off s)

/-- LDRSB (R343). -/
def execArmLdrsb (c : Cond) (p u w : Bool) (rn rd : RegIdx) (off : HalfOffset) (s : State) : Out :=
  conditional c s (halfwordTransfer true .byte true p u w rn rd off s)

/-- LDRSH (R344). -/
def execArmLdrsh (c : Cond) (p u w : Bool) (rn rd : RegIdx) (off : HalfOffset) (s : State) : Out :=
  conditional c s (halfwordTransfer true .half true p u w rn rd off s)

/-- STRT (R335): P = 0, W = 1. -/
def execArmStrt (c : Cond) (u : Bool) (rn rd : RegIdx) (off : Offset) (s : State) : Out :=
  conditional c s (singleTransfer false .word false u true rn rd off s)

/-- LDRT (R335): P = 0, W = 1. -/
def execArmLdrt (c : Cond) (u : Bool) (rn rd : RegIdx) (off : Offset) (s : State) : Out :=
  conditional c s (singleTransfer true .word false u true rn rd off s)

/-- STRBT (R335): P = 0, W = 1. -/
def execArmStrbt (c : Cond) (u : Bool) (rn rd : RegIdx) (off : Offset) (s : State) : Out :=
  conditional c s (singleTransfer false .byte false u true rn rd off s)

/-- LDRBT (R335): P = 0, W = 1. -/
def execArmLdrbt (c : Cond) (u : Bool) (rn rd : RegIdx) (off : Offset) (s : State) : Out :=
  conditional c s (singleTransfer true .byte false u true rn rd off s)

/-- STR (R332). -/
def execArmStr (c : Cond) (p u w : Bool) (rn rd : RegIdx) (off : Offset) (s : State) : Out :=
  conditional c s (singleTransfer false .word p u w rn rd off s)

/-- LDR (R331). -/
def execArmLdr (c : Cond) (p u w : Bool) (rn rd : RegIdx) (off : Offset) (s : State) : Out :=
  conditional c s (singleTransfer true .word p u w rn rd off s)

/-- STRB (R334). -/
def execArmStrb (c : Cond) (p u w : Bool) (rn rd : RegIdx) (off : Offset) (s : State) : Out :=
  conditional c s (singleTransfer false .byte p u w rn rd off s)

/-- LDRB (R333). -/
def execArmLdrb (c : Cond) (p u w : Bool) (rn rd : RegIdx) (off : Offset) (s : State) : Out :=
  conditional c s (singleTransfer true .byte p u w rn rd off s)

/-- An Undefined word of group 3 (44 R386). -/
def execArmUndefinedTransfer (_raw : Word) (s : State) : Out := undefinedTrap .undefinedWord 4#32 s

/-- STM (R352). -/
def execArmStm (c : Cond) (p u sbit w : Bool) (rn : RegIdx) (rlist : BitVec 16) (s : State) : Out :=
  conditional c s (storeMultiple p u sbit w rn rlist s)

/-- LDM (R351). -/
def execArmLdm (c : Cond) (p u sbit w : Bool) (rn : RegIdx) (rlist : BitVec 16) (s : State) : Out :=
  conditional c s (loadMultiple p u sbit w rn rlist s)

end Sys2Proof.Machine
end

