-- ==== Sys2Proof/Machine/ArmMultiply.lean ====
section
/-! DEFINITION. ARM multiply, swap and branch-exchange (42_arm_multiply_swap_bx.md). -/

namespace Sys2Proof.Machine

/-- N and Z of a multiply result and a free C (R300; log entry 9); V is unchanged. -/
def multiplyFlags (s : State) (r : Word) : State :=
  let (free, s1) := s.draw
  s1.setFlags { n := r.msb, z := r == 0#32, c := free.getLsbD 0, v := s.flags.v }

/-- N and Z of a long multiply result, free C and V (R302; log entry 9). -/
def longMultiplyFlags (s : State) (p : BitVec 64) : State :=
  let (freeC, s1) := s.draw
  let (freeV, s2) := s1.draw
  s2.setFlags { n := p.msb, z := p == 0#64, c := freeC.getLsbD 0, v := freeV.getLsbD 0 }

/-- MUL or MLA whose condition passes (R300, R301); `acc` says whether Rn is added. -/
def multiply (acc setFlags : Bool) (rd rn rs rm : RegIdx) (s : State) : Except Stop State := do
  s.checkSbz (!acc && rn != 0#4)
  faultIf (rd == 15#4 || rm == 15#4 || rs == 15#4 || rd == rm || (acc && rn == 15#4)) (.unpredictable .mulOperands)
  let r := s.reg rm * s.reg rs + (if acc then s.reg rn else 0#32)
  let s1 := if setFlags then multiplyFlags s r else s
  pure (s1.setReg rd r).nextArm

/-- A 32-bit operand of a long multiply at 64 bits (R302, R304). -/
def widen (signed : Bool) (x : Word) : BitVec 64 := if signed then x.signExtend 64 else x.setWidth 64

/-- A long multiply whose condition passes (R302 to R305). -/
def longMultiply (signed acc setFlags : Bool) (rdHi rdLo rs rm : RegIdx) (s : State) : Except Stop State := do
  faultIf (rdHi == 15#4 || rdLo == 15#4 || rm == 15#4 || rs == 15#4 || rdHi == rdLo || rdHi == rm || rdLo == rm)
    (.unpredictable .longMulOperands)
  let p := widen signed (s.reg rm) * widen signed (s.reg rs) + (if acc then s.reg rdHi ++ s.reg rdLo else 0#64)
  let s1 := if setFlags then longMultiplyFlags s p else s
  pure ((s1.setReg rdLo (p.setWidth 32)).setReg rdHi (p.extractLsb' 32 32)).nextArm

/-- MUL (R300). -/
def execArmMul (c : Cond) (setFlags : Bool) (rd rn rs rm : RegIdx) (s : State) : Out :=
  conditional c s (multiply false setFlags rd rn rs rm s)

/-- MLA (R301). -/
def execArmMla (c : Cond) (setFlags : Bool) (rd rn rs rm : RegIdx) (s : State) : Out :=
  conditional c s (multiply true setFlags rd rn rs rm s)

/-- An Undefined word of the multiply space (R311). -/
def execArmUndefinedMultiply (_raw : Word) (s : State) : Out := undefinedTrap .undefinedWord 4#32 s

/-- UMULL (R302). -/
def execArmUmull (c : Cond) (setFlags : Bool) (rdHi rdLo rs rm : RegIdx) (s : State) : Out :=
  conditional c s (longMultiply false false setFlags rdHi rdLo rs rm s)

/-- UMLAL (R303). -/
def execArmUmlal (c : Cond) (setFlags : Bool) (rdHi rdLo rs rm : RegIdx) (s : State) : Out :=
  conditional c s (longMultiply false true setFlags rdHi rdLo rs rm s)

/-- SMULL (R304). -/
def execArmSmull (c : Cond) (setFlags : Bool) (rdHi rdLo rs rm : RegIdx) (s : State) : Out :=
  conditional c s (longMultiply true false setFlags rdHi rdLo rs rm s)

/-- SMLAL (R305). -/
def execArmSmlal (c : Cond) (setFlags : Bool) (rdHi rdLo rs rm : RegIdx) (s : State) : Out :=
  conditional c s (longMultiply true true setFlags rdHi rdLo rs rm s)

/-- SWP or SWPB whose condition passes (R306, R307): one read and one write, indivisible. -/
def swap (width : Width) (rn rd : RegIdx) (sbz : BitVec 4) (rm : RegIdx) (s : State) : Except Stop State := do
  s.checkSbz (sbz != 0#4)
  faultIf (rn == 15#4 || rd == 15#4 || rm == 15#4 || rn == rd || rn == rm) (.unpredictable .swapOperands)
  let (old, s1) ← s.load (s.reg rn) width
  let s2 ← s1.store (s.reg rn) width (s.reg rm)
  pure (s2.setReg rd old).nextArm

/-- SWP (R306). -/
def execArmSwp (c : Cond) (rn rd : RegIdx) (sbz : BitVec 4) (rm : RegIdx) (s : State) : Out :=
  conditional c s (swap .word rn rd sbz rm s)

/-- SWPB (R307). -/
def execArmSwpb (c : Cond) (rn rd : RegIdx) (sbz : BitVec 4) (rm : RegIdx) (s : State) : Out :=
  conditional c s (swap .byte rn rd sbz rm s)

/-- An Undefined word of the swap space (R311). -/
def execArmUndefinedSwap (_raw : Word) (s : State) : Out := undefinedTrap .undefinedWord 4#32 s

/-- The effect of a branch to `t` with exchange (R310): T takes bit 0 and the pc the rest. -/
def State.exchange (s : State) (t : Word) : State :=
  { s with cpsr := { s.cpsr with thumb := t.getLsbD 0 }, pc := t &&& ~~~1#32 }

/-- BX whose condition passes (R310). -/
def branchExchange (rn : RegIdx) (s : State) : Except Stop State := do
  faultIf (rn == 15#4) (.unpredictable .bxPc)
  pure (s.exchange (s.reg rn))

/-- BX (R310). -/
def execArmBx (c : Cond) (rn : RegIdx) (s : State) : Out := conditional c s (branchExchange rn s)

end Sys2Proof.Machine
end

