-- ==== Sys2Proof/Machine/ThumbAlu.lean ====
section
/-! DEFINITION. THUMB shifts, arithmetic, logic, high-register operations and address arithmetic
(45_thumb_alu.md). -/

namespace Sys2Proof.Machine

/-- The end of a THUMB rule that writes the low register `rd`. -/
def State.writeLow (s : State) (rd : LowIdx) (v : Word) : State := (s.setReg (low rd) v).nextThumb

/-- The end of a flag-setting THUMB rule: the flags and, where the operation writes one, the low register `rd`
(R410). -/
def thumbAluWrite (s : State) (rd : LowIdx) (r : AluResult) : State :=
  if r.writesResult then (s.setFlags r.flags).writeLow rd r.result else (s.setFlags r.flags).nextThumb

/-- A flag-setting THUMB operation: `alu(op, a, (b, C), F, 1)` (R410, section 5). -/
def thumbAlu (op : AluOp) (a b : Word) (rd : LowIdx) (s : State) : State :=
  thumbAluWrite s rd (alu op a { value := b, carryOut := s.flags.c } s.flags true)

/-- A THUMB shift: the shifter, then `alu(MOV, 0, s, F, 1)` (R411, R432). -/
def thumbShift (ty : ShiftType) (value : Word) (amount : ShiftAmount) (rd : LowIdx) (s : State) : State :=
  thumbAluWrite s rd (alu .mov 0#32 (shifterReg value ty amount s.flags.c) s.flags true)

/-- T1 LSL (R411). -/
def execThumbLslImm (off5 : BitVec 5) (rs rd : LowIdx) (s : State) : Out :=
  .next (thumbShift .lsl (s.reg (low rs)) (.imm off5) rd s)

/-- T1 LSR (R412). -/
def execThumbLsrImm (off5 : BitVec 5) (rs rd : LowIdx) (s : State) : Out :=
  .next (thumbShift .lsr (s.reg (low rs)) (.imm off5) rd s)

/-- T1 ASR (R413). -/
def execThumbAsrImm (off5 : BitVec 5) (rs rd : LowIdx) (s : State) : Out :=
  .next (thumbShift .asr (s.reg (low rs)) (.imm off5) rd s)

/-- T2 ADD (R414). -/
def execThumbAddReg (rn rs rd : LowIdx) (s : State) : Out :=
  .next (thumbAlu .add (s.reg (low rs)) (s.reg (low rn)) rd s)

/-- T2 SUB (R415). -/
def execThumbSubReg (rn rs rd : LowIdx) (s : State) : Out :=
  .next (thumbAlu .sub (s.reg (low rs)) (s.reg (low rn)) rd s)

/-- T2 ADD (R416). -/
def execThumbAddImm3 (imm3 : BitVec 3) (rs rd : LowIdx) (s : State) : Out :=
  .next (thumbAlu .add (s.reg (low rs)) (imm3.setWidth 32) rd s)

/-- T2 SUB (R417). -/
def execThumbSubImm3 (imm3 : BitVec 3) (rs rd : LowIdx) (s : State) : Out :=
  .next (thumbAlu .sub (s.reg (low rs)) (imm3.setWidth 32) rd s)

/-- T3 MOV (R418). -/
def execThumbMovImm8 (rd : LowIdx) (imm8 : BitVec 8) (s : State) : Out :=
  .next (thumbAlu .mov 0#32 (imm8.setWidth 32) rd s)

/-- T3 CMP (R419). -/
def execThumbCmpImm8 (rd : LowIdx) (imm8 : BitVec 8) (s : State) : Out :=
  .next (thumbAlu .cmp (s.reg (low rd)) (imm8.setWidth 32) rd s)

/-- T3 ADD (R420). -/
def execThumbAddImm8 (rd : LowIdx) (imm8 : BitVec 8) (s : State) : Out :=
  .next (thumbAlu .add (s.reg (low rd)) (imm8.setWidth 32) rd s)

/-- T3 SUB (R421). -/
def execThumbSubImm8 (rd : LowIdx) (imm8 : BitVec 8) (s : State) : Out :=
  .next (thumbAlu .sub (s.reg (low rd)) (imm8.setWidth 32) rd s)

/-- T4 AND (R430). -/
def execThumbAnd (rs rd : LowIdx) (s : State) : Out :=
  .next (thumbAlu .and (s.reg (low rd)) (s.reg (low rs)) rd s)

/-- T4 EOR (R431). -/
def execThumbEor (rs rd : LowIdx) (s : State) : Out :=
  .next (thumbAlu .eor (s.reg (low rd)) (s.reg (low rs)) rd s)

/-- T4 LSL (R432): the amount is the low byte of Rs. -/
def execThumbLslReg (rs rd : LowIdx) (s : State) : Out :=
  .next (thumbShift .lsl (s.reg (low rd)) (.reg ((s.reg (low rs)).setWidth 8)) rd s)

/-- T4 LSR (R433): the amount is the low byte of Rs. -/
def execThumbLsrReg (rs rd : LowIdx) (s : State) : Out :=
  .next (thumbShift .lsr (s.reg (low rd)) (.reg ((s.reg (low rs)).setWidth 8)) rd s)

/-- T4 ASR (R434): the amount is the low byte of Rs. -/
def execThumbAsrReg (rs rd : LowIdx) (s : State) : Out :=
  .next (thumbShift .asr (s.reg (low rd)) (.reg ((s.reg (low rs)).setWidth 8)) rd s)

/-- T4 ADC (R435). -/
def execThumbAdc (rs rd : LowIdx) (s : State) : Out :=
  .next (thumbAlu .adc (s.reg (low rd)) (s.reg (low rs)) rd s)

/-- T4 SBC (R436). -/
def execThumbSbc (rs rd : LowIdx) (s : State) : Out :=
  .next (thumbAlu .sbc (s.reg (low rd)) (s.reg (low rs)) rd s)

/-- T4 ROR (R437): the amount is the low byte of Rs. -/
def execThumbRorReg (rs rd : LowIdx) (s : State) : Out :=
  .next (thumbShift .ror (s.reg (low rd)) (.reg ((s.reg (low rs)).setWidth 8)) rd s)

/-- T4 TST (R438). -/
def execThumbTst (rs rd : LowIdx) (s : State) : Out :=
  .next (thumbAlu .tst (s.reg (low rd)) (s.reg (low rs)) rd s)

/-- T4 NEG (R439): 0 - Rs; the old Rd is not read. -/
def execThumbNeg (rs rd : LowIdx) (s : State) : Out := .next (thumbAlu .rsb (s.reg (low rs)) 0#32 rd s)

/-- T4 CMP (R440). -/
def execThumbCmpReg (rs rd : LowIdx) (s : State) : Out :=
  .next (thumbAlu .cmp (s.reg (low rd)) (s.reg (low rs)) rd s)

/-- T4 CMN (R441). -/
def execThumbCmn (rs rd : LowIdx) (s : State) : Out :=
  .next (thumbAlu .cmn (s.reg (low rd)) (s.reg (low rs)) rd s)

/-- T4 ORR (R442). -/
def execThumbOrr (rs rd : LowIdx) (s : State) : Out :=
  .next (thumbAlu .orr (s.reg (low rd)) (s.reg (low rs)) rd s)

/-- T4 MUL (R443): C is a free value, V unchanged. -/
def thumbMultiply (rs rd : LowIdx) (s : State) : Except Stop State := do
  faultIf (rd == rs) (.unpredictable .thumbMulOperands)
  let r := s.reg (low rs) * s.reg (low rd)
  pure ((multiplyFlags s r).writeLow rd r)

/-- T4 MUL (R443). -/
def execThumbMul (rs rd : LowIdx) (s : State) : Out := finish (thumbMultiply rs rd s)

/-- T4 BIC (R444). -/
def execThumbBic (rs rd : LowIdx) (s : State) : Out :=
  .next (thumbAlu .bic (s.reg (low rd)) (s.reg (low rs)) rd s)

/-- T4 MVN (R445): the old Rd is not read. -/
def execThumbMvn (rs rd : LowIdx) (s : State) : Out := .next (thumbAlu .mvn 0#32 (s.reg (low rs)) rd s)

/-- T5 ADD with H1 = H2 = 0 (R426). -/
def execThumbInvalidHiAdd (_raw : Half) (_s : State) : Out := .refused (.invalid .hiRegNone)

/-- T5 CMP with H1 = H2 = 0 (R426). -/
def execThumbInvalidHiCmp (_raw : Half) (_s : State) : Out := .refused (.invalid .hiRegNone)

/-- T5 MOV with H1 = H2 = 0 (R426). -/
def execThumbInvalidHiMov (_raw : Half) (_s : State) : Out := .refused (.invalid .hiRegNone)

/-- T5 BX with H1 = 1 (R426). -/
def execThumbInvalidBxH1 (_raw : Half) (_s : State) : Out := .refused (.invalid .bxH1)

/-- T5 ADD (R422): no flag changes. -/
def execThumbAddHi (rs rd : RegIdx) (s : State) : Out :=
  .next (s.writeThumb rd (s.readReg 4#32 rd + s.readReg 4#32 rs))

/-- T5 CMP (R423): only the flags change. -/
def execThumbCmpHi (rs rd : RegIdx) (s : State) : Out :=
  .next (thumbAlu .cmp (s.readReg 4#32 rd) (s.readReg 4#32 rs) 0#3 s)

/-- T5 MOV (R424): no flag changes. -/
def execThumbMovHi (rs rd : RegIdx) (s : State) : Out := .next (s.writeThumb rd (s.readReg 4#32 rs))

/-- T5 BX (R425). -/
def thumbBranchExchange (rs : RegIdx) (sbz : BitVec 3) (s : State) : Except Stop State := do
  s.checkSbz (sbz != 0#3)
  pure (s.exchange (s.readReg 4#32 rs))

/-- T5 BX (R425). -/
def execThumbBx (rs : RegIdx) (sbz : BitVec 3) (s : State) : Out := finish (thumbBranchExchange rs sbz s)

/-- T12 ADD Rd,PC (R450). -/
def execThumbAddPc (rd : LowIdx) (off : BitVec 10) (s : State) : Out :=
  .next (s.writeLow rd (thumbPcBase s.pc + off.setWidth 32))

/-- T12 ADD Rd,SP (R451). -/
def execThumbAddSp (rd : LowIdx) (off : BitVec 10) (s : State) : Out :=
  .next (s.writeLow rd (s.reg 13#4 + off.setWidth 32))

/-- T13 ADD SP (R452). -/
def execThumbAdjustSp (sub : Bool) (m : BitVec 9) (s : State) : Out :=
  .next (s.setReg 13#4 (if sub then s.reg 13#4 - m.setWidth 32 else s.reg 13#4 + m.setWidth 32)).nextThumb

end Sys2Proof.Machine
end

