-- ==== Sys2Proof/Machine/ThumbBranch.lean ====
section
/-! DEFINITION. THUMB branches, the long branch with link, software interrupt and the Undefined halfwords
(47_thumb_branch_swi.md). -/

namespace Sys2Proof.Machine

/-- A conditional branch (R500). -/
def thumbBranchIf (c : Cond) (off : BitVec 9) (s : State) : State :=
  if evaluate c s.flags then { s with pc := thumbBranchTarget s.pc off } else s.nextThumb

/-- T16 BEQ (R500). -/
def execThumbBeq (off : BitVec 9) (s : State) : Out := .next (thumbBranchIf .eq off s)

/-- T16 BNE (R500). -/
def execThumbBne (off : BitVec 9) (s : State) : Out := .next (thumbBranchIf .ne off s)

/-- T16 BCS (R500). -/
def execThumbBcs (off : BitVec 9) (s : State) : Out := .next (thumbBranchIf .cs off s)

/-- T16 BCC (R500). -/
def execThumbBcc (off : BitVec 9) (s : State) : Out := .next (thumbBranchIf .cc off s)

/-- T16 BMI (R500). -/
def execThumbBmi (off : BitVec 9) (s : State) : Out := .next (thumbBranchIf .mi off s)

/-- T16 BPL (R500). -/
def execThumbBpl (off : BitVec 9) (s : State) : Out := .next (thumbBranchIf .pl off s)

/-- T16 BVS (R500). -/
def execThumbBvs (off : BitVec 9) (s : State) : Out := .next (thumbBranchIf .vs off s)

/-- T16 BVC (R500). -/
def execThumbBvc (off : BitVec 9) (s : State) : Out := .next (thumbBranchIf .vc off s)

/-- T16 BHI (R500). -/
def execThumbBhi (off : BitVec 9) (s : State) : Out := .next (thumbBranchIf .hi off s)

/-- T16 BLS (R500). -/
def execThumbBls (off : BitVec 9) (s : State) : Out := .next (thumbBranchIf .ls off s)

/-- T16 BGE (R500). -/
def execThumbBge (off : BitVec 9) (s : State) : Out := .next (thumbBranchIf .ge off s)

/-- T16 BLT (R500). -/
def execThumbBlt (off : BitVec 9) (s : State) : Out := .next (thumbBranchIf .lt off s)

/-- T16 BGT (R500). -/
def execThumbBgt (off : BitVec 9) (s : State) : Out := .next (thumbBranchIf .gt off s)

/-- T16 BLE (R500). -/
def execThumbBle (off : BitVec 9) (s : State) : Out := .next (thumbBranchIf .le off s)

/-- T17 SWI (R502); the link is the address of the next halfword. -/
def execThumbSwi (_imm8 : BitVec 8) (s : State) : Out := finish (softwareInterrupt 2#32 s)

/-- T18 B (R503). -/
def execThumbB (off : BitVec 12) (s : State) : Out := .next { s with pc := thumbBranchTarget s.pc off }

/-- T19, high half (R504). -/
def execThumbBlHigh (off : BitVec 23) (s : State) : Out :=
  .next (s.setReg 14#4 (thumbBranchTarget s.pc off)).nextThumb

/-- T19, low half (R505): R14 takes the address after this halfword with bit 0 set. -/
def execThumbBlLow (off : BitVec 12) (s : State) : Out :=
  .next { s.setReg 14#4 ((s.pc + 2#32) ||| 1#32) with pc := s.reg 14#4 + off.setWidth 32 }

/-- An Undefined halfword 1011 (R142). -/
def execThumbUndefined1011 (_raw : Half) (s : State) : Out := undefinedTrap .undefinedWord 2#32 s

/-- An Undefined halfword 1101 1110 (R501). -/
def execThumbUndefinedCond14 (_raw : Half) (s : State) : Out := undefinedTrap .undefinedWord 2#32 s

/-- An Undefined halfword 1110 1 (R142). -/
def execThumbUndefined11101 (_raw : Half) (s : State) : Out := undefinedTrap .undefinedWord 2#32 s

end Sys2Proof.Machine
end

