-- ==== Sys2Proof/Machine/ThumbMemory.lean ====
section
/-! DEFINITION. THUMB load, store, push, pop and multiple transfer (46_thumb_load_store.md). -/

namespace Sys2Proof.Machine

/-- A THUMB load of a low register (R460). -/
def thumbLoad (w : Width) (signed : Bool) (addr : Word) (rd : LowIdx) (s : State) : Except Stop State := do
  let (v, s1) ← s.load addr w
  pure (s1.writeLow rd (extend signed w v))

/-- A THUMB store of a low register (R460). -/
def thumbStore (w : Width) (addr : Word) (rd : LowIdx) (s : State) : Except Stop State := do
  let s1 ← s.store addr w (s.reg (low rd))
  pure s1.nextThumb

/-- The address of a register offset (R460). -/
def regAddress (s : State) (ro rb : LowIdx) : Word := s.reg (low rb) + s.reg (low ro)

/-- T6 LDR, PC-relative (R461). -/
def execThumbLdrPc (rd : LowIdx) (off : BitVec 10) (s : State) : Out :=
  finish (thumbLoad .word false (thumbPcBase s.pc + off.setWidth 32) rd s)

/-- T7 STR, register offset (R462). -/
def execThumbStrReg (ro rb rd : LowIdx) (s : State) : Out := finish (thumbStore .word (regAddress s ro rb) rd s)

/-- T7 STRB, register offset (R463). -/
def execThumbStrbReg (ro rb rd : LowIdx) (s : State) : Out := finish (thumbStore .byte (regAddress s ro rb) rd s)

/-- T7 LDR, register offset (R464). -/
def execThumbLdrReg (ro rb rd : LowIdx) (s : State) : Out := finish (thumbLoad .word false (regAddress s ro rb) rd s)

/-- T7 LDRB, register offset (R465). -/
def execThumbLdrbReg (ro rb rd : LowIdx) (s : State) : Out := finish (thumbLoad .byte false (regAddress s ro rb) rd s)

/-- T8 STRH (R466). -/
def execThumbStrhReg (ro rb rd : LowIdx) (s : State) : Out := finish (thumbStore .half (regAddress s ro rb) rd s)

/-- T8 LDRH (R467). -/
def execThumbLdrhReg (ro rb rd : LowIdx) (s : State) : Out := finish (thumbLoad .half false (regAddress s ro rb) rd s)

/-- T8 LDSB (R468). -/
def execThumbLdsbReg (ro rb rd : LowIdx) (s : State) : Out := finish (thumbLoad .byte true (regAddress s ro rb) rd s)

/-- T8 LDSH (R469). -/
def execThumbLdshReg (ro rb rd : LowIdx) (s : State) : Out := finish (thumbLoad .half true (regAddress s ro rb) rd s)

/-- T9 STR, immediate offset (R470). -/
def execThumbStrImm (off : BitVec 7) (rb rd : LowIdx) (s : State) : Out :=
  finish (thumbStore .word (s.reg (low rb) + off.setWidth 32) rd s)

/-- T9 LDR, immediate offset (R471). -/
def execThumbLdrImm (off : BitVec 7) (rb rd : LowIdx) (s : State) : Out :=
  finish (thumbLoad .word false (s.reg (low rb) + off.setWidth 32) rd s)

/-- T9 STRB, immediate offset (R472). -/
def execThumbStrbImm (off : BitVec 5) (rb rd : LowIdx) (s : State) : Out :=
  finish (thumbStore .byte (s.reg (low rb) + off.setWidth 32) rd s)

/-- T9 LDRB, immediate offset (R473). -/
def execThumbLdrbImm (off : BitVec 5) (rb rd : LowIdx) (s : State) : Out :=
  finish (thumbLoad .byte false (s.reg (low rb) + off.setWidth 32) rd s)

/-- T10 STRH, immediate offset (R474). -/
def execThumbStrhImm (off : BitVec 6) (rb rd : LowIdx) (s : State) : Out :=
  finish (thumbStore .half (s.reg (low rb) + off.setWidth 32) rd s)

/-- T10 LDRH, immediate offset (R475). -/
def execThumbLdrhImm (off : BitVec 6) (rb rd : LowIdx) (s : State) : Out :=
  finish (thumbLoad .half false (s.reg (low rb) + off.setWidth 32) rd s)

/-- T11 STR, SP-relative (R476). -/
def execThumbStrSp (rd : LowIdx) (off : BitVec 10) (s : State) : Out :=
  finish (thumbStore .word (s.reg 13#4 + off.setWidth 32) rd s)

/-- T11 LDR, SP-relative (R477). -/
def execThumbLdrSp (rd : LowIdx) (off : BitVec 10) (s : State) : Out :=
  finish (thumbLoad .word false (s.reg 13#4 + off.setWidth 32) rd s)

/-- PUSH (R480): the list's registers, then R14 if r, below R13. -/
def push (r : Bool) (rlist : BitVec 8) (s : State) : Except Stop State := do
  let regs := regList (rlist.setWidth 16) ++ (if r then [14#4] else [])
  refuseIf regs.isEmpty .emptyList
  let sp := s.reg 13#4
  faultIf (!aligned sp .word) (.alignmentViolation sp)
  let start := sp - fourTimes regs.length
  let s1 ← s.storeMany s.cpsr.mode start regs
  pure (s1.setReg 13#4 start).nextThumb

/-- T14 PUSH (R480). -/
def execThumbPush (r : Bool) (rlist : BitVec 8) (s : State) : Out := finish (push r rlist s)

/-- POP (R481): the list's registers, then the pc with bit 0 clear if r, from R13 up; every read precedes the
register writes and T does not change. -/
def pop (r : Bool) (rlist : BitVec 8) (s : State) : Except Stop State := do
  let regs := regList (rlist.setWidth 16)
  let n := regs.length + (if r then 1 else 0)
  refuseIf (n == 0) .emptyList
  let sp := s.reg 13#4
  faultIf (!aligned sp .word) (.alignmentViolation sp)
  let (vs, s1) ← s.readMany sp n
  let s2 := (s1.writeMany s.cpsr.mode (regs.zip vs)).setReg 13#4 (sp + fourTimes n)
  pure (if r then { s2 with pc := vs.getLastD 0#32 &&& ~~~1#32 } else s2.nextThumb)

/-- T14 POP (R481). -/
def execThumbPop (r : Bool) (rlist : BitVec 8) (s : State) : Out := finish (pop r rlist s)

/-- The checks STMIA and LDMIA share (R482, R483). -/
def thumbBlockChecks (s : State) (rb : LowIdx) (rlist : BitVec 8) : Except Stop Unit := do
  refuseIf (rlist == 0#8) .emptyList
  refuseIf (rlist.getLsbD rb.toNat) .baseInList
  faultIf (!aligned (s.reg (low rb)) .word) (.alignmentViolation (s.reg (low rb)))

/-- STMIA (R482). -/
def thumbStoreMultiple (rb : LowIdx) (rlist : BitVec 8) (s : State) : Except Stop State := do
  thumbBlockChecks s rb rlist
  let regs := regList (rlist.setWidth 16)
  let b := s.reg (low rb)
  let s1 ← s.storeMany s.cpsr.mode b regs
  pure (s1.setReg (low rb) (b + fourTimes regs.length)).nextThumb

/-- T15 STMIA (R482). -/
def execThumbStmia (rb : LowIdx) (rlist : BitVec 8) (s : State) : Out := finish (thumbStoreMultiple rb rlist s)

/-- LDMIA (R483). -/
def thumbLoadMultiple (rb : LowIdx) (rlist : BitVec 8) (s : State) : Except Stop State := do
  thumbBlockChecks s rb rlist
  let regs := regList (rlist.setWidth 16)
  let b := s.reg (low rb)
  let (vs, s1) ← s.readMany b regs.length
  pure ((s1.writeMany s.cpsr.mode (regs.zip vs)).setReg (low rb) (b + fourTimes regs.length)).nextThumb

/-- T15 LDMIA (R483). -/
def execThumbLdmia (rb : LowIdx) (rlist : BitVec 8) (s : State) : Out := finish (thumbLoadMultiple rb rlist s)

end Sys2Proof.Machine
end

