-- ==== Sys2Proof/Machine/Dispatch.lean ====
section
/-! DEFINITION. `exec`: one arm per instruction, each one direct call of its meaning. -/

namespace Sys2Proof.Machine

def exec (i : Instr) (s : State) : Host.Outcome State Fault Refusal :=
  match i with
  | .armInvalidNvCondition raw => Sys2Proof.Machine.execArmInvalidNvCondition raw s
  | .armMul cond sb rd rn rs rm => Sys2Proof.Machine.execArmMul cond sb rd rn rs rm s
  | .armMla cond sb rd rn rs rm => Sys2Proof.Machine.execArmMla cond sb rd rn rs rm s
  | .armUndefinedMultiply raw => Sys2Proof.Machine.execArmUndefinedMultiply raw s
  | .armUmull cond sb rdHi rdLo rs rm => Sys2Proof.Machine.execArmUmull cond sb rdHi rdLo rs rm s
  | .armUmlal cond sb rdHi rdLo rs rm => Sys2Proof.Machine.execArmUmlal cond sb rdHi rdLo rs rm s
  | .armSmull cond sb rdHi rdLo rs rm => Sys2Proof.Machine.execArmSmull cond sb rdHi rdLo rs rm s
  | .armSmlal cond sb rdHi rdLo rs rm => Sys2Proof.Machine.execArmSmlal cond sb rdHi rdLo rs rm s
  | .armSwp cond rn rd sbz rm => Sys2Proof.Machine.execArmSwp cond rn rd sbz rm s
  | .armSwpb cond rn rd sbz rm => Sys2Proof.Machine.execArmSwpb cond rn rd sbz rm s
  | .armUndefinedSwap raw => Sys2Proof.Machine.execArmUndefinedSwap raw s
  | .armInvalidSignedStore raw => Sys2Proof.Machine.execArmInvalidSignedStore raw s
  | .armStrh cond p u w rn rd off => Sys2Proof.Machine.execArmStrh cond p u w rn rd off s
  | .armLdrh cond p u w rn rd off => Sys2Proof.Machine.execArmLdrh cond p u w rn rd off s
  | .armLdrsb cond p u w rn rd off => Sys2Proof.Machine.execArmLdrsb cond p u w rn rd off s
  | .armLdrsh cond p u w rn rd off => Sys2Proof.Machine.execArmLdrsh cond p u w rn rd off s
  | .armBx cond rn => Sys2Proof.Machine.execArmBx cond rn s
  | .armMrs cond iBit p rd sbz => Sys2Proof.Machine.execArmMrs cond iBit p rd sbz s
  | .armMsr cond p sbo src => Sys2Proof.Machine.execArmMsr cond p sbo src s
  | .armInvalidMsrFull raw => Sys2Proof.Machine.execArmInvalidMsrFull raw s
  | .armInvalidPsrType raw => Sys2Proof.Machine.execArmInvalidPsrType raw s
  | .armAnd cond sb rn rd op2 => Sys2Proof.Machine.execArmAnd cond sb rn rd op2 s
  | .armEor cond sb rn rd op2 => Sys2Proof.Machine.execArmEor cond sb rn rd op2 s
  | .armSub cond sb rn rd op2 => Sys2Proof.Machine.execArmSub cond sb rn rd op2 s
  | .armRsb cond sb rn rd op2 => Sys2Proof.Machine.execArmRsb cond sb rn rd op2 s
  | .armAdd cond sb rn rd op2 => Sys2Proof.Machine.execArmAdd cond sb rn rd op2 s
  | .armAdc cond sb rn rd op2 => Sys2Proof.Machine.execArmAdc cond sb rn rd op2 s
  | .armSbc cond sb rn rd op2 => Sys2Proof.Machine.execArmSbc cond sb rn rd op2 s
  | .armRsc cond sb rn rd op2 => Sys2Proof.Machine.execArmRsc cond sb rn rd op2 s
  | .armTst cond rn rd op2 => Sys2Proof.Machine.execArmTst cond rn rd op2 s
  | .armTeq cond rn rd op2 => Sys2Proof.Machine.execArmTeq cond rn rd op2 s
  | .armCmp cond rn rd op2 => Sys2Proof.Machine.execArmCmp cond rn rd op2 s
  | .armCmn cond rn rd op2 => Sys2Proof.Machine.execArmCmn cond rn rd op2 s
  | .armOrr cond sb rn rd op2 => Sys2Proof.Machine.execArmOrr cond sb rn rd op2 s
  | .armMov cond sb rn rd op2 => Sys2Proof.Machine.execArmMov cond sb rn rd op2 s
  | .armBic cond sb rn rd op2 => Sys2Proof.Machine.execArmBic cond sb rn rd op2 s
  | .armMvn cond sb rn rd op2 => Sys2Proof.Machine.execArmMvn cond sb rn rd op2 s
  | .armUndefinedTransfer raw => Sys2Proof.Machine.execArmUndefinedTransfer raw s
  | .armStrt cond u rn rd off => Sys2Proof.Machine.execArmStrt cond u rn rd off s
  | .armLdrt cond u rn rd off => Sys2Proof.Machine.execArmLdrt cond u rn rd off s
  | .armStrbt cond u rn rd off => Sys2Proof.Machine.execArmStrbt cond u rn rd off s
  | .armLdrbt cond u rn rd off => Sys2Proof.Machine.execArmLdrbt cond u rn rd off s
  | .armStr cond p u w rn rd off => Sys2Proof.Machine.execArmStr cond p u w rn rd off s
  | .armLdr cond p u w rn rd off => Sys2Proof.Machine.execArmLdr cond p u w rn rd off s
  | .armStrb cond p u w rn rd off => Sys2Proof.Machine.execArmStrb cond p u w rn rd off s
  | .armLdrb cond p u w rn rd off => Sys2Proof.Machine.execArmLdrb cond p u w rn rd off s
  | .armStm cond p u sb w rn rlist => Sys2Proof.Machine.execArmStm cond p u sb w rn rlist s
  | .armLdm cond p u sb w rn rlist => Sys2Proof.Machine.execArmLdm cond p u sb w rn rlist s
  | .armB cond offset => Sys2Proof.Machine.execArmB cond offset s
  | .armBl cond offset => Sys2Proof.Machine.execArmBl cond offset s
  | .armUnsupportedDataTransfer raw => Sys2Proof.Machine.execArmUnsupportedDataTransfer raw s
  | .armUnsupportedOperation raw => Sys2Proof.Machine.execArmUnsupportedOperation raw s
  | .armSwi cond imm24 => Sys2Proof.Machine.execArmSwi cond imm24 s
  | .thumbLslImm off5 rs rd => Sys2Proof.Machine.execThumbLslImm off5 rs rd s
  | .thumbLsrImm off5 rs rd => Sys2Proof.Machine.execThumbLsrImm off5 rs rd s
  | .thumbAsrImm off5 rs rd => Sys2Proof.Machine.execThumbAsrImm off5 rs rd s
  | .thumbAddReg rn rs rd => Sys2Proof.Machine.execThumbAddReg rn rs rd s
  | .thumbSubReg rn rs rd => Sys2Proof.Machine.execThumbSubReg rn rs rd s
  | .thumbAddImm3 imm3 rs rd => Sys2Proof.Machine.execThumbAddImm3 imm3 rs rd s
  | .thumbSubImm3 imm3 rs rd => Sys2Proof.Machine.execThumbSubImm3 imm3 rs rd s
  | .thumbMovImm8 rd imm8 => Sys2Proof.Machine.execThumbMovImm8 rd imm8 s
  | .thumbCmpImm8 rd imm8 => Sys2Proof.Machine.execThumbCmpImm8 rd imm8 s
  | .thumbAddImm8 rd imm8 => Sys2Proof.Machine.execThumbAddImm8 rd imm8 s
  | .thumbSubImm8 rd imm8 => Sys2Proof.Machine.execThumbSubImm8 rd imm8 s
  | .thumbAnd rs rd => Sys2Proof.Machine.execThumbAnd rs rd s
  | .thumbEor rs rd => Sys2Proof.Machine.execThumbEor rs rd s
  | .thumbLslReg rs rd => Sys2Proof.Machine.execThumbLslReg rs rd s
  | .thumbLsrReg rs rd => Sys2Proof.Machine.execThumbLsrReg rs rd s
  | .thumbAsrReg rs rd => Sys2Proof.Machine.execThumbAsrReg rs rd s
  | .thumbAdc rs rd => Sys2Proof.Machine.execThumbAdc rs rd s
  | .thumbSbc rs rd => Sys2Proof.Machine.execThumbSbc rs rd s
  | .thumbRorReg rs rd => Sys2Proof.Machine.execThumbRorReg rs rd s
  | .thumbTst rs rd => Sys2Proof.Machine.execThumbTst rs rd s
  | .thumbNeg rs rd => Sys2Proof.Machine.execThumbNeg rs rd s
  | .thumbCmpReg rs rd => Sys2Proof.Machine.execThumbCmpReg rs rd s
  | .thumbCmn rs rd => Sys2Proof.Machine.execThumbCmn rs rd s
  | .thumbOrr rs rd => Sys2Proof.Machine.execThumbOrr rs rd s
  | .thumbMul rs rd => Sys2Proof.Machine.execThumbMul rs rd s
  | .thumbBic rs rd => Sys2Proof.Machine.execThumbBic rs rd s
  | .thumbMvn rs rd => Sys2Proof.Machine.execThumbMvn rs rd s
  | .thumbInvalidHiAdd raw => Sys2Proof.Machine.execThumbInvalidHiAdd raw s
  | .thumbInvalidHiCmp raw => Sys2Proof.Machine.execThumbInvalidHiCmp raw s
  | .thumbInvalidHiMov raw => Sys2Proof.Machine.execThumbInvalidHiMov raw s
  | .thumbInvalidBxH1 raw => Sys2Proof.Machine.execThumbInvalidBxH1 raw s
  | .thumbAddHi rs rd => Sys2Proof.Machine.execThumbAddHi rs rd s
  | .thumbCmpHi rs rd => Sys2Proof.Machine.execThumbCmpHi rs rd s
  | .thumbMovHi rs rd => Sys2Proof.Machine.execThumbMovHi rs rd s
  | .thumbBx rs sbz => Sys2Proof.Machine.execThumbBx rs sbz s
  | .thumbLdrPc rd off => Sys2Proof.Machine.execThumbLdrPc rd off s
  | .thumbStrReg ro rb rd => Sys2Proof.Machine.execThumbStrReg ro rb rd s
  | .thumbStrbReg ro rb rd => Sys2Proof.Machine.execThumbStrbReg ro rb rd s
  | .thumbLdrReg ro rb rd => Sys2Proof.Machine.execThumbLdrReg ro rb rd s
  | .thumbLdrbReg ro rb rd => Sys2Proof.Machine.execThumbLdrbReg ro rb rd s
  | .thumbStrhReg ro rb rd => Sys2Proof.Machine.execThumbStrhReg ro rb rd s
  | .thumbLdrhReg ro rb rd => Sys2Proof.Machine.execThumbLdrhReg ro rb rd s
  | .thumbLdsbReg ro rb rd => Sys2Proof.Machine.execThumbLdsbReg ro rb rd s
  | .thumbLdshReg ro rb rd => Sys2Proof.Machine.execThumbLdshReg ro rb rd s
  | .thumbStrImm off rb rd => Sys2Proof.Machine.execThumbStrImm off rb rd s
  | .thumbLdrImm off rb rd => Sys2Proof.Machine.execThumbLdrImm off rb rd s
  | .thumbStrbImm off rb rd => Sys2Proof.Machine.execThumbStrbImm off rb rd s
  | .thumbLdrbImm off rb rd => Sys2Proof.Machine.execThumbLdrbImm off rb rd s
  | .thumbStrhImm off rb rd => Sys2Proof.Machine.execThumbStrhImm off rb rd s
  | .thumbLdrhImm off rb rd => Sys2Proof.Machine.execThumbLdrhImm off rb rd s
  | .thumbStrSp rd off => Sys2Proof.Machine.execThumbStrSp rd off s
  | .thumbLdrSp rd off => Sys2Proof.Machine.execThumbLdrSp rd off s
  | .thumbAddPc rd off => Sys2Proof.Machine.execThumbAddPc rd off s
  | .thumbAddSp rd off => Sys2Proof.Machine.execThumbAddSp rd off s
  | .thumbAdjustSp sb m => Sys2Proof.Machine.execThumbAdjustSp sb m s
  | .thumbPush r rlist => Sys2Proof.Machine.execThumbPush r rlist s
  | .thumbPop r rlist => Sys2Proof.Machine.execThumbPop r rlist s
  | .thumbUndefined1011 raw => Sys2Proof.Machine.execThumbUndefined1011 raw s
  | .thumbStmia rb rlist => Sys2Proof.Machine.execThumbStmia rb rlist s
  | .thumbLdmia rb rlist => Sys2Proof.Machine.execThumbLdmia rb rlist s
  | .thumbSwi imm8 => Sys2Proof.Machine.execThumbSwi imm8 s
  | .thumbUndefinedCond14 raw => Sys2Proof.Machine.execThumbUndefinedCond14 raw s
  | .thumbBeq off => Sys2Proof.Machine.execThumbBeq off s
  | .thumbBne off => Sys2Proof.Machine.execThumbBne off s
  | .thumbBcs off => Sys2Proof.Machine.execThumbBcs off s
  | .thumbBcc off => Sys2Proof.Machine.execThumbBcc off s
  | .thumbBmi off => Sys2Proof.Machine.execThumbBmi off s
  | .thumbBpl off => Sys2Proof.Machine.execThumbBpl off s
  | .thumbBvs off => Sys2Proof.Machine.execThumbBvs off s
  | .thumbBvc off => Sys2Proof.Machine.execThumbBvc off s
  | .thumbBhi off => Sys2Proof.Machine.execThumbBhi off s
  | .thumbBls off => Sys2Proof.Machine.execThumbBls off s
  | .thumbBge off => Sys2Proof.Machine.execThumbBge off s
  | .thumbBlt off => Sys2Proof.Machine.execThumbBlt off s
  | .thumbBgt off => Sys2Proof.Machine.execThumbBgt off s
  | .thumbBle off => Sys2Proof.Machine.execThumbBle off s
  | .thumbB off => Sys2Proof.Machine.execThumbB off s
  | .thumbUndefined11101 raw => Sys2Proof.Machine.execThumbUndefined11101 raw s
  | .thumbBlHigh off => Sys2Proof.Machine.execThumbBlHigh off s
  | .thumbBlLow off => Sys2Proof.Machine.execThumbBlLow off s

end Sys2Proof.Machine
end

