-- ==== Sys2Proof/Machine/Step.lean ====
section
/-! DEFINITION. One step: fetch at the pc, decode with the decoder T selects, execute (60_exceptions.md R607). -/

namespace Sys2Proof.Machine

/-- One step of the machine; a fetch error is the step's outcome (R607). -/
def step (s : State) : Host.Outcome State Fault Refusal :=
  match s.fetch with
  | .error e => finish (.error e)
  | .ok i => exec i s

/-- The memory with `n` bytes of `w` listed from address `a` on, least significant first. -/
def placeBytes (mem : List Host.Cell) (a : Nat) : Nat → Nat → List Host.Cell
  | 0, _ => mem
  | n + 1, w => placeBytes (Memory.set mem a (BitVec.ofNat 8 w)) (a + 1) n (w / 256)

/-- `s` with the table row's instruction placed at the pc and T selecting its instruction set, as a launch would load
it (log entry 5). -/
def State.withFetchWord (s : State) (nbits w : Nat) : State :=
  { s with
    mem := placeBytes s.mem s.pc.toNat (nbits / 8) w
    cpsr := { s.cpsr with thumb := nbits == 16 } }

end Sys2Proof.Machine
end

