-- ==== Sys2Proof/Machine/Launch.lean ====
section
/-! DEFINITION. The launch of a run and the end of a run (70_reset_and_hazards.md R641, R665). -/

namespace Sys2Proof.Machine

/-- The flags a launch gives, each a bit or none (R641). -/
structure LaunchFlags where
  n : Option Bool
  z : Option Bool
  c : Option Bool
  v : Option Bool
  deriving DecidableEq, Repr

/-- The launch record (R641). -/
structure Launch where
  /-- `MEMORY_IMAGE`: the bytes the image gives; an address given twice takes the later byte. -/
  image : List Host.Cell
  /-- `START_PC`. -/
  pc : Word
  /-- T. -/
  thumb : Bool
  /-- R0 to R14, each a value or none. -/
  regs : Vector (Option Word) 15
  /-- The flags. -/
  flags : LaunchFlags
  /-- `END_PC`. -/
  endPc : Word
  deriving DecidableEq, Repr

/-- The record with its defaults: nothing given, ARM state, START_PC (R641). -/
def Launch.default (image : List Host.Cell) (endPc : Word) : Launch :=
  { image := image
    pc := Config.startPc
    thumb := false
    regs := .replicate 15 none
    flags := { n := none, z := none, c := none, v := none }
    endPc := endPc }

/-- A value the launch gives, or what reset leaves. -/
def given {α : Type} (v : Option α) (old : α) : α := v.getD old

/-- The bytes of an image placed in memory. -/
def placeImage : List Host.Cell → List Host.Cell → List Host.Cell
  | [], mem => mem
  | (a, b) :: rest, mem => placeImage rest (Memory.set mem a b)

/-- The registers of a launch written, from `i` on. -/
def placeRegs (s : State) : List (Option Word) → Nat → State
  | [], _ => s
  | none :: rest, i => placeRegs s rest (i + 1)
  | some v :: rest, i => placeRegs (s.setReg (BitVec.ofNat 4 i) v) rest (i + 1)

/-- The state a run starts from (R641); what the record gives no value for holds its value of `State.reset`
(log entries 2 and 3). `p` is the model's own parameter, log entry 1, and `sbz` is `SBZ_CHECK`. -/
def Launch.state (l : Launch) (p : Profile) (sbz : Bool) : State :=
  let f := State.reset.flags
  let s : State :=
    { State.reset with
      pc := l.pc
      mem := placeImage l.image []
      sbzCheck := sbz
      profile := p
      cpsr :=
        { State.reset.cpsr with
          thumb := l.thumb
          flags :=
            { n := given l.flags.n f.n, z := given l.flags.z f.z, c := given l.flags.c f.c, v := given l.flags.v f.v } } }
  placeRegs s l.regs.toList 0

/-- How a run of at most some number of steps ends (R665); a fault and a refusal come with the state before the step
that stops (R603). -/
inductive RunOutcome where
  | done (s : State)
  | fault (f : Fault) (before : State)
  | refused (r : Refusal) (before : State)
  /-- No outcome within the steps allowed. -/
  | running (s : State)
  deriving DecidableEq, Repr

/-- A run of at most `fuel` steps; the test of `END_PC` precedes each step and compares the pc only (R665). -/
def run (endPc : Word) : Nat → State → RunOutcome
  | 0, s => if s.pc = endPc then .done s else .running s
  | fuel + 1, s =>
    if s.pc = endPc then .done s
    else
      match step s with
      | .next s' => run endPc fuel s'
      | .fault f => .fault f s
      | .refused r => .refused r s

/-- A run from a launch record of the executor reference (R641, R665). -/
def Launch.run (l : Launch) (fuel : Nat) : RunOutcome :=
  Sys2Proof.Machine.run l.endPc fuel (l.state .executorReference false)

end Sys2Proof.Machine
end

