-- ==== Sys2Proof/Machine/Block.lean ====
section
/-! DEFINITION. The block's error taxonomy (60_exceptions.md R600 to R602), and the condition evaluator on a raw
4-bit code (40_shifter_condition_alu.md R216). -/

namespace Sys2Proof.Machine

/-- The source's four error classes, each with what it records (R600). -/
inductive BlockError where
  | unsupportedFormat (raw : Word) (c : CoprocessorClass)
  | invalidEncoding (raw : Nat) (reason : InvalidReason)
  | outOfRange (value : Nat)
  | alignmentViolation (addr : Word)
  deriving DecidableEq, Repr

/-- The numeric code of an error class (R600). -/
def BlockError.code : BlockError → Nat
  | .unsupportedFormat _ _ => 1
  | .invalidEncoding _ _ => 2
  | .outOfRange _ => 3
  | .alignmentViolation _ => 4

/-- The error class a decoded variant reports; an Undefined word has none (R600, R602). -/
def reportOf : Instr → Option BlockError
  | .armInvalidNvCondition raw => some (.invalidEncoding raw.toNat .nvCondition)
  | .armInvalidMsrFull raw => some (.invalidEncoding raw.toNat .msrFull)
  | .armInvalidPsrType raw => some (.invalidEncoding raw.toNat .psrType)
  | .armInvalidSignedStore raw => some (.invalidEncoding raw.toNat .signedStore)
  | .thumbInvalidBxH1 raw => some (.invalidEncoding raw.toNat .bxH1)
  | .thumbInvalidHiAdd raw | .thumbInvalidHiCmp raw | .thumbInvalidHiMov raw =>
    some (.invalidEncoding raw.toNat .hiRegNone)
  | .armUnsupportedDataTransfer raw => some (.unsupportedFormat raw .coprocessorDataTransfer)
  | .armUnsupportedOperation raw => some (.unsupportedFormat raw .coprocessorOperation)
  | _ => none

/-- `evaluate` given a 4-bit code: the code 15 raises `OutOfRange(15)` (R216). -/
def evaluateCode (code : BitVec 4) (f : StatusFlags) : Except BlockError Bool :=
  match condOf code with
  | some c => .ok (evaluate c f)
  | none => .error (.outOfRange code.toNat)

/-- A fetch as the block's caller sees it: a word, or one of its two error results (20_memory.md R77 to R79). -/
def blockFetch (s : State) (t : Bool) (a : Word) : Except BlockError Encoding :=
  let w : Width := if t then .half else .word
  if aligned a w then
    if inRomWindow a.toNat w.bytes then .ok (s.wordAt t a.toNat) else .error (.outOfRange a.toNat)
  else .error (.alignmentViolation a)

/-- `read_byte` as the block's caller sees it (20_memory.md R70, R73). -/
def blockReadByte (s : State) (a : Word) : Except BlockError (Byte × State) :=
  match s.readByte a with
  | .ok r => .ok r
  | .error _ => .error (.outOfRange a.toNat)

end Sys2Proof.Machine
end

