-- ==== Sys2Proof/Machine/Render.lean ====
section
/-! DEFINITION. The disassembly renderer, the block's sixth component (48_renderer.md): the text of a decoded
instruction. It extracts no bit of a word; it formats the fields an instruction holds (R530). -/

namespace Sys2Proof.Machine

/-! ### Common pieces -/

/-- The left and right braces of a register list (R536). -/
def openBrace : String := String.singleton (Char.ofNat 0x7B)

/-- The right brace of a register list (R536). -/
def closeBrace : String := String.singleton (Char.ofNat 0x7D)

/-- One lowercase hexadecimal or decimal digit. -/
def digitChar (n : Nat) : Char := if n < 10 then Char.ofNat (48 + n) else Char.ofNat (87 + n)

/-- The digits of `n` in a base, at most `fuel` of them, without leading zeros but for 0 itself. -/
def digitsIn (base : Nat) : Nat → Nat → List Char
  | 0, _ => []
  | fuel + 1, n => if n < base then [digitChar n] else digitsIn base fuel (n / base) ++ [digitChar (n % base)]

/-- Unsigned decimal (R532); a field has at most ten digits. -/
def decimal (n : Nat) : String := String.ofList (digitsIn 10 10 n)

/-- Lowercase hexadecimal without leading zeros (R550). -/
def hexadecimal (n : Nat) : String := String.ofList (digitsIn 16 8 n)

/-- The low `k` hexadecimal digits of `n`, with leading zeros (R551, R552). -/
def hexChars : Nat → Nat → List Char
  | 0, _ => []
  | k + 1, n => hexChars k (n / 16) ++ [digitChar (n % 16)]

/-- `0x` with `k` lowercase digits (R551). -/
def hexFixed (k n : Nat) : String := "0x" ++ String.ofList (hexChars k n)

/-- The strings joined by commas. -/
def commas : List String → String
  | [] => ""
  | [a] => a
  | a :: b :: rest => a ++ "," ++ commas (b :: rest)

/-- A register's name (R531). -/
def regName (i : RegIdx) : String := "R" ++ decimal i.toNat

/-- A low register's name (R531). -/
def lowName (i : LowIdx) : String := "R" ++ decimal i.toNat

/-- An unsigned immediate (R532). -/
def imm (n : Nat) : String := "#" ++ decimal n

/-- An immediate whose sign the instruction holds apart from its magnitude (R532, R567). -/
def signedImm (negative : Bool) (n : Nat) : String := (if negative then "#-" else "#") ++ decimal n

/-- A signed offset (R532, R549). -/
def offsetImm {n : Nat} (off : BitVec n) : String := signedImm (decide (off.toInt < 0)) off.toInt.natAbs

/-- The condition suffix (R533). -/
def condSuffix : Cond → String
  | .eq => "EQ" | .ne => "NE" | .cs => "CS" | .cc => "CC" | .mi => "MI" | .pl => "PL" | .vs => "VS" | .vc => "VC"
  | .hi => "HI" | .ls => "LS" | .ge => "GE" | .lt => "LT" | .gt => "GT" | .le => "LE" | .al => ""

/-- A suffix present when its bit is set (R534). -/
def suffixIf (b : Bool) (t : String) : String := if b then t else ""

/-- A mnemonic with its suffixes, one space, and the operands (R530). -/
def instrText (mnemonic : String) (operands : List String) : String := mnemonic ++ " " ++ commas operands

/-- The names of a list's registers, in ascending order (R536). -/
def listNames {n : Nat} (rlist : BitVec n) : List String :=
  ((List.range n).filter fun i => rlist.getLsbD i).map fun i => "R" ++ decimal i

/-- A register list (R536). -/
def listText (names : List String) : String := openBrace ++ commas names ++ closeBrace

/-- A shift type's name. -/
def shiftName : ShiftType → String
  | .lsl => "LSL" | .lsr => "LSR" | .asr => "ASR" | .ror => "ROR"

/-- The text after `Rm` of a shift by an immediate amount (R538). -/
def shiftText (ty : ShiftType) (n : BitVec 5) : String :=
  if n = 0#5 then
    match ty with
    | .lsl => ""
    | .lsr => ",LSR #32"
    | .asr => ",ASR #32"
    | .ror => ",RRX"
  else "," ++ shiftName ty ++ " " ++ imm n.toNat

/-- The value of a rotated immediate (R532). -/
def rotatedImm (rot : BitVec 4) (imm8 : BitVec 8) : String := imm (shifterImm imm8 rot false).value.toNat

/-- A second operand (R538, R540). -/
def operand2Text : Operand2 → String
  | .imm rot imm8 => rotatedImm rot imm8
  | .regImm rm ty n => regName rm ++ shiftText ty n
  | .regReg rm ty rs => regName rm ++ "," ++ shiftName ty ++ " " ++ regName rs

/-- A register offset's sign (R537). -/
def minusIf (u : Bool) : String := if u then "" else "-"

/-- The offset of a single data transfer (R537). -/
def offsetText (u : Bool) : Offset → String
  | .imm off12 => signedImm (!u) off12.toNat
  | .reg rm ty n => minusIf u ++ regName rm ++ shiftText ty n

/-- The offset of a halfword transfer (R546). -/
def halfOffsetText (u : Bool) : HalfOffset → String
  | .imm off8 => signedImm (!u) off8.toNat
  | .reg _ rm => minusIf u ++ regName rm

/-- A memory operand: pre-indexed inside the bracket with `!` when W = 1, post-indexed outside it (R537). -/
def memText (p w : Bool) (rn : RegIdx) (off : String) : String :=
  if p then "[" ++ regName rn ++ "," ++ off ++ "]" ++ suffixIf w "!" else "[" ++ regName rn ++ "]," ++ off

/-- A THUMB memory operand. -/
def bracket (base off : String) : String := "[" ++ base ++ "," ++ off ++ "]"

/-! ### Software interrupts -/

/-- The default value of the parameter `SWI_NAMES` (R550). -/
def swiNames : List String :=
  ["SoftReset", "RegisterRamReset", "Halt", "Stop", "IntrWait", "VBlankIntrWait", "Div", "DivArm", "Sqrt", "ArcTan",
   "ArcTan2"] ++
  ["CpuSet", "CpuFastSet", "GetBiosChecksum", "BgAffineSet", "ObjAffineSet", "BitUnPack", "LZ77UnCompWram",
   "LZ77UnCompVram", "HuffUnComp", "RLUnCompWram", "RLUnCompVram"] ++
  ["Diff8bitUnFilterWram", "Diff8bitUnFilterVram", "Diff16bitUnFilter", "SoundBias", "SoundDriverInit",
   "SoundDriverMode", "SoundDriverMain", "SoundDriverVSync", "SoundChannelClear", "MidiKey2Freq"] ++
  ["SoundWhatever0", "SoundWhatever1", "SoundWhatever2", "SoundWhatever3", "SoundWhatever4", "MultiBoot", "HardReset",
   "CustomHalt", "SoundDriverVSyncOff", "SoundDriverVSyncOn", "SoundGetJumpList"]

/-- The operand of SWI: the index's name, or its hexadecimal value and the mark of an unknown one (R550, R571). -/
def swiText (names : List String) (n : Nat) : String :=
  match names[n]? with
  | some name => name
  | none => "#0x" ++ hexadecimal n ++ " (unknown)"

/-! ### Non-instruction words (R551, R574) -/

/-- `Invalid{raw, reason}`. -/
def invalidText {n : Nat} (reason : String) (raw : BitVec n) : String :=
  "<INVALID " ++ reason ++ " " ++ hexFixed (n / 4) raw.toNat ++ ">"

/-- `Undefined{raw}`. -/
def undefinedText {n : Nat} (raw : BitVec n) : String := "<UNDEFINED " ++ hexFixed (n / 4) raw.toNat ++ ">"

/-- `Unsupported{raw, class}`. -/
def unsupportedText (cls : String) (raw : Word) : String := "<UNSUPPORTED " ++ cls ++ " " ++ hexFixed 8 raw.toNat ++ ">"

/-! ### ARM templates -/

/-- Data processing with Rd and Rn (R540). -/
def dpText (op : String) (c : Cond) (s : Bool) (rn rd : RegIdx) (op2 : Operand2) : String :=
  instrText (op ++ condSuffix c ++ suffixIf s "S") [regName rd, regName rn, operand2Text op2]

/-- MOV and MVN (R540). -/
def movText (op : String) (c : Cond) (s : Bool) (rd : RegIdx) (op2 : Operand2) : String :=
  instrText (op ++ condSuffix c ++ suffixIf s "S") [regName rd, operand2Text op2]

/-- TST, TEQ, CMP and CMN, always with S (R540). -/
def compareText (op : String) (c : Cond) (rn : RegIdx) (op2 : Operand2) : String :=
  instrText (op ++ condSuffix c ++ "S") [regName rn, operand2Text op2]

/-- A PSR's name; an MSR names its flags (R541). -/
def psrName (p flg : Bool) : String := (if p then "SPSR" else "CPSR") ++ suffixIf flg "_flg"

/-- The source of an MSR (R541). -/
def msrText : MsrSource → String
  | .imm rot imm8 => rotatedImm rot imm8
  | .reg _ rm => regName rm

/-- A long multiply (R543). -/
def longMulText (op : String) (c : Cond) (s : Bool) (rdHi rdLo rs rm : RegIdx) : String :=
  instrText (op ++ condSuffix c ++ suffixIf s "S") [regName rdLo, regName rdHi, regName rm, regName rs]

/-- A swap (R544). -/
def swapText (c : Cond) (suffix : String) (rn rd rm : RegIdx) : String :=
  instrText ("SWP" ++ condSuffix c ++ suffix) [regName rd, regName rm, "[" ++ regName rn ++ "]"]

/-- A halfword transfer (R546). -/
def halfText (op suffix : String) (c : Cond) (p u w : Bool) (rn rd : RegIdx) (off : HalfOffset) : String :=
  instrText (op ++ condSuffix c ++ suffix) [regName rd, memText p w rn (halfOffsetText u off)]

/-- A single data transfer (R547). -/
def singleText (op suffix : String) (c : Cond) (p u w : Bool) (rn rd : RegIdx) (off : Offset) : String :=
  instrText (op ++ condSuffix c ++ suffix) [regName rd, memText p w rn (offsetText u off)]

/-- The addressing-mode name of a block transfer: the stack name when Rn = 13 (30_encoding.md R128). -/
def blockModeName (load p u : Bool) (rn : RegIdx) : String :=
  if rn = 13#4 then
    match load, p, u with
    | true, true, true => "ED"
    | true, false, true => "FD"
    | true, true, false => "EA"
    | true, false, false => "FA"
    | false, true, true => "FA"
    | false, false, true => "EA"
    | false, true, false => "FD"
    | false, false, false => "ED"
  else
    match p, u with
    | true, true => "IB"
    | false, true => "IA"
    | true, false => "DB"
    | false, false => "DA"

/-- A block transfer (R548). -/
def blockText (op : String) (load : Bool) (c : Cond) (p u s w : Bool) (rn : RegIdx) (rlist : BitVec 16) : String :=
  instrText (op ++ condSuffix c ++ blockModeName load p u rn)
    [regName rn ++ suffixIf w "!", listText (listNames rlist) ++ suffixIf s "^"]

/-! ### THUMB templates -/

/-- A T1 shift; LSR and ASR by 0 render as 32 (R555). -/
def thumbShiftText (ty : ShiftType) (off5 : BitVec 5) (rs rd : LowIdx) : String :=
  instrText (shiftName ty)
    [lowName rd, lowName rs, imm (if off5 = 0#5 ∧ ty ≠ .lsl then 32 else off5.toNat)]

/-- A T4 operation (R558). -/
def thumbTwoText (op : String) (rs rd : LowIdx) : String := instrText op [lowName rd, lowName rs]

/-- A transfer with a register offset (R561, R562). -/
def thumbRegText (op : String) (ro rb rd : LowIdx) : String :=
  instrText op [lowName rd, bracket (lowName rb) (lowName ro)]

/-- A transfer with an immediate offset (R563, R564). -/
def thumbImmText (op : String) {n : Nat} (off : BitVec n) (rb rd : LowIdx) : String :=
  instrText op [lowName rd, bracket (lowName rb) (imm off.toNat)]

/-- A transfer relative to a named register (R560, R565). -/
def thumbBaseText (op base : String) (rd : LowIdx) (off : BitVec 10) : String :=
  instrText op [lowName rd, bracket base (imm off.toNat)]

/-- A conditional branch (R570). -/
def thumbBranchText (c : Cond) (off : BitVec 9) : String := instrText ("B" ++ condSuffix c) [offsetImm off]

/-! ### The renderer -/

/-- `render(d)` (R530 to R576); `names` is the parameter `SWI_NAMES`. -/
def render (names : List String) (i : Instr) : String :=
  match i with
  | .armInvalidNvCondition raw => invalidText "NvCondition" raw
  | .armMul c s rd _ rs rm => instrText ("MUL" ++ condSuffix c ++ suffixIf s "S") [regName rd, regName rm, regName rs]
  | .armMla c s rd rn rs rm =>
    instrText ("MLA" ++ condSuffix c ++ suffixIf s "S") [regName rd, regName rm, regName rs, regName rn]
  | .armUndefinedMultiply raw => undefinedText raw
  | .armUmull c s rdHi rdLo rs rm => longMulText "UMULL" c s rdHi rdLo rs rm
  | .armUmlal c s rdHi rdLo rs rm => longMulText "UMLAL" c s rdHi rdLo rs rm
  | .armSmull c s rdHi rdLo rs rm => longMulText "SMULL" c s rdHi rdLo rs rm
  | .armSmlal c s rdHi rdLo rs rm => longMulText "SMLAL" c s rdHi rdLo rs rm
  | .armSwp c rn rd _ rm => swapText c "" rn rd rm
  | .armSwpb c rn rd _ rm => swapText c "B" rn rd rm
  | .armUndefinedSwap raw => undefinedText raw
  | .armInvalidSignedStore raw => invalidText "SignedStore" raw
  | .armStrh c p u w rn rd off => halfText "STR" "H" c p u w rn rd off
  | .armLdrh c p u w rn rd off => halfText "LDR" "H" c p u w rn rd off
  | .armLdrsb c p u w rn rd off => halfText "LDR" "SB" c p u w rn rd off
  | .armLdrsh c p u w rn rd off => halfText "LDR" "SH" c p u w rn rd off
  | .armBx c rn => instrText ("BX" ++ condSuffix c) [regName rn]
  | .armMrs c _ p rd _ => instrText ("MRS" ++ condSuffix c) [regName rd, psrName p false]
  | .armMsr c p _ src => instrText ("MSR" ++ condSuffix c) [psrName p true, msrText src]
  | .armInvalidMsrFull raw => invalidText "MsrFull" raw
  | .armInvalidPsrType raw => invalidText "PsrType" raw
  | .armAnd c s rn rd op2 => dpText "AND" c s rn rd op2
  | .armEor c s rn rd op2 => dpText "EOR" c s rn rd op2
  | .armSub c s rn rd op2 => dpText "SUB" c s rn rd op2
  | .armRsb c s rn rd op2 => dpText "RSB" c s rn rd op2
  | .armAdd c s rn rd op2 => dpText "ADD" c s rn rd op2
  | .armAdc c s rn rd op2 => dpText "ADC" c s rn rd op2
  | .armSbc c s rn rd op2 => dpText "SBC" c s rn rd op2
  | .armRsc c s rn rd op2 => dpText "RSC" c s rn rd op2
  | .armTst c rn _ op2 => compareText "TST" c rn op2
  | .armTeq c rn _ op2 => compareText "TEQ" c rn op2
  | .armCmp c rn _ op2 => compareText "CMP" c rn op2
  | .armCmn c rn _ op2 => compareText "CMN" c rn op2
  | .armOrr c s rn rd op2 => dpText "ORR" c s rn rd op2
  | .armMov c s _ rd op2 => movText "MOV" c s rd op2
  | .armBic c s rn rd op2 => dpText "BIC" c s rn rd op2
  | .armMvn c s _ rd op2 => movText "MVN" c s rd op2
  | .armUndefinedTransfer raw => undefinedText raw
  | .armStrt c u rn rd off => singleText "STR" "T" c false u true rn rd off
  | .armLdrt c u rn rd off => singleText "LDR" "T" c false u true rn rd off
  | .armStrbt c u rn rd off => singleText "STR" "BT" c false u true rn rd off
  | .armLdrbt c u rn rd off => singleText "LDR" "BT" c false u true rn rd off
  | .armStr c p u w rn rd off => singleText "STR" "" c p u w rn rd off
  | .armLdr c p u w rn rd off => singleText "LDR" "" c p u w rn rd off
  | .armStrb c p u w rn rd off => singleText "STR" "B" c p u w rn rd off
  | .armLdrb c p u w rn rd off => singleText "LDR" "B" c p u w rn rd off
  | .armStm c p u s w rn rlist => blockText "STM" false c p u s w rn rlist
  | .armLdm c p u s w rn rlist => blockText "LDM" true c p u s w rn rlist
  | .armB c offset => instrText ("B" ++ condSuffix c) [offsetImm offset]
  | .armBl c offset => instrText ("BL" ++ condSuffix c) [offsetImm offset]
  | .armUnsupportedDataTransfer raw => unsupportedText "CoprocessorDataTransfer" raw
  | .armUnsupportedOperation raw => unsupportedText "CoprocessorOperation" raw
  | .armSwi c imm24 => instrText ("SWI" ++ condSuffix c) [swiText names imm24.toNat]
  | .thumbLslImm off5 rs rd => thumbShiftText .lsl off5 rs rd
  | .thumbLsrImm off5 rs rd => thumbShiftText .lsr off5 rs rd
  | .thumbAsrImm off5 rs rd => thumbShiftText .asr off5 rs rd
  | .thumbAddReg rn rs rd => instrText "ADD" [lowName rd, lowName rs, lowName rn]
  | .thumbSubReg rn rs rd => instrText "SUB" [lowName rd, lowName rs, lowName rn]
  | .thumbAddImm3 imm3 rs rd => instrText "ADD" [lowName rd, lowName rs, imm imm3.toNat]
  | .thumbSubImm3 imm3 rs rd => instrText "SUB" [lowName rd, lowName rs, imm imm3.toNat]
  | .thumbMovImm8 rd imm8 => instrText "MOV" [lowName rd, imm imm8.toNat]
  | .thumbCmpImm8 rd imm8 => instrText "CMP" [lowName rd, imm imm8.toNat]
  | .thumbAddImm8 rd imm8 => instrText "ADD" [lowName rd, imm imm8.toNat]
  | .thumbSubImm8 rd imm8 => instrText "SUB" [lowName rd, imm imm8.toNat]
  | .thumbAnd rs rd => thumbTwoText "AND" rs rd
  | .thumbEor rs rd => thumbTwoText "EOR" rs rd
  | .thumbLslReg rs rd => thumbTwoText "LSL" rs rd
  | .thumbLsrReg rs rd => thumbTwoText "LSR" rs rd
  | .thumbAsrReg rs rd => thumbTwoText "ASR" rs rd
  | .thumbAdc rs rd => thumbTwoText "ADC" rs rd
  | .thumbSbc rs rd => thumbTwoText "SBC" rs rd
  | .thumbRorReg rs rd => thumbTwoText "ROR" rs rd
  | .thumbTst rs rd => thumbTwoText "TST" rs rd
  | .thumbNeg rs rd => thumbTwoText "NEG" rs rd
  | .thumbCmpReg rs rd => thumbTwoText "CMP" rs rd
  | .thumbCmn rs rd => thumbTwoText "CMN" rs rd
  | .thumbOrr rs rd => thumbTwoText "ORR" rs rd
  | .thumbMul rs rd => thumbTwoText "MUL" rs rd
  | .thumbBic rs rd => thumbTwoText "BIC" rs rd
  | .thumbMvn rs rd => thumbTwoText "MVN" rs rd
  | .thumbInvalidHiAdd raw => invalidText "HiRegNone" raw
  | .thumbInvalidHiCmp raw => invalidText "HiRegNone" raw
  | .thumbInvalidHiMov raw => invalidText "HiRegNone" raw
  | .thumbInvalidBxH1 raw => invalidText "BxH1" raw
  | .thumbAddHi rs rd => instrText "ADD" [regName rd, regName rs]
  | .thumbCmpHi rs rd => instrText "CMP" [regName rd, regName rs]
  | .thumbMovHi rs rd => instrText "MOV" [regName rd, regName rs]
  | .thumbBx rs _ => instrText "BX" [regName rs]
  | .thumbLdrPc rd off => thumbBaseText "LDR" "PC" rd off
  | .thumbStrReg ro rb rd => thumbRegText "STR" ro rb rd
  | .thumbStrbReg ro rb rd => thumbRegText "STRB" ro rb rd
  | .thumbLdrReg ro rb rd => thumbRegText "LDR" ro rb rd
  | .thumbLdrbReg ro rb rd => thumbRegText "LDRB" ro rb rd
  | .thumbStrhReg ro rb rd => thumbRegText "STRH" ro rb rd
  | .thumbLdrhReg ro rb rd => thumbRegText "LDRH" ro rb rd
  | .thumbLdsbReg ro rb rd => thumbRegText "LDSB" ro rb rd
  | .thumbLdshReg ro rb rd => thumbRegText "LDSH" ro rb rd
  | .thumbStrImm off rb rd => thumbImmText "STR" off rb rd
  | .thumbLdrImm off rb rd => thumbImmText "LDR" off rb rd
  | .thumbStrbImm off rb rd => thumbImmText "STRB" off rb rd
  | .thumbLdrbImm off rb rd => thumbImmText "LDRB" off rb rd
  | .thumbStrhImm off rb rd => thumbImmText "STRH" off rb rd
  | .thumbLdrhImm off rb rd => thumbImmText "LDRH" off rb rd
  | .thumbStrSp rd off => thumbBaseText "STR" "SP" rd off
  | .thumbLdrSp rd off => thumbBaseText "LDR" "SP" rd off
  | .thumbAddPc rd off => instrText "ADD" [lowName rd, "PC", imm off.toNat]
  | .thumbAddSp rd off => instrText "ADD" [lowName rd, "SP", imm off.toNat]
  | .thumbAdjustSp s m => instrText "ADD" ["SP", signedImm s m.toNat]
  | .thumbPush r rlist => instrText "PUSH" [listText (listNames rlist ++ if r then ["LR"] else [])]
  | .thumbPop r rlist => instrText "POP" [listText (listNames rlist ++ if r then ["PC"] else [])]
  | .thumbUndefined1011 raw => undefinedText raw
  | .thumbStmia rb rlist => instrText "STMIA" [lowName rb ++ "!", listText (listNames rlist)]
  | .thumbLdmia rb rlist => instrText "LDMIA" [lowName rb ++ "!", listText (listNames rlist)]
  | .thumbSwi imm8 => instrText "SWI" [swiText names imm8.toNat]
  | .thumbUndefinedCond14 raw => undefinedText raw
  | .thumbBeq off => thumbBranchText .eq off
  | .thumbBne off => thumbBranchText .ne off
  | .thumbBcs off => thumbBranchText .cs off
  | .thumbBcc off => thumbBranchText .cc off
  | .thumbBmi off => thumbBranchText .mi off
  | .thumbBpl off => thumbBranchText .pl off
  | .thumbBvs off => thumbBranchText .vs off
  | .thumbBvc off => thumbBranchText .vc off
  | .thumbBhi off => thumbBranchText .hi off
  | .thumbBls off => thumbBranchText .ls off
  | .thumbBge off => thumbBranchText .ge off
  | .thumbBlt off => thumbBranchText .lt off
  | .thumbBgt off => thumbBranchText .gt off
  | .thumbBle off => thumbBranchText .le off
  | .thumbB off => instrText "B" [offsetImm off]
  | .thumbUndefined11101 raw => undefinedText raw
  | .thumbBlHigh off => instrText "BLH" [offsetImm off]
  | .thumbBlLow off => instrText "BLL" [imm off.toNat]

end Sys2Proof.Machine
end

