-- ==== Sys2Proof/Machine/Listing.lean ====
section
/-! DEFINITION. The driving loop's disassembly listing (48_renderer.md R552; 70_reset_and_hazards.md R671). -/

namespace Sys2Proof.Machine

/-- The raw word of a listing line: eight digits for ARM, four for THUMB (R552). -/
def rawText : Encoding → String
  | .arm w => String.ofList (hexChars 8 w.toNat)
  | .thumb h => String.ofList (hexChars 4 h.toNat)

/-- One listing line (R552). -/
def listingLine (names : List String) (a : Word) (e : Encoding) : String :=
  hexFixed 8 a.toNat ++ ": " ++ rawText e ++ " " ++ render names (decode e)

/-- The listing of `n` consecutive words from `a` on in state T = `t`: the lines produced and, where a fetch stopped
the loop, its error (R671). -/
def listing (names : List String) (s : State) (t : Bool) (a : Word) : Nat → List String × Option BlockError
  | 0 => ([], none)
  | n + 1 =>
    match blockFetch s t a with
    | .error e => ([], some e)
    | .ok e =>
      let rest := listing names s t (a + if t then 2#32 else 4#32) n
      (listingLine names a e :: rest.1, rest.2)

/-- The count the command-line surface lists by default (R671). -/
def defaultCount : Nat := 10

/-- The listing the command-line surface makes: from `START_PC`, in ARM state (R671, R641). -/
def defaultListing (s : State) : List String × Option BlockError :=
  listing swiNames s false Config.startPc defaultCount

end Sys2Proof.Machine
end

