-- ==== Sys2Proof/Safety.lean ====
section
/-! DEFINITION. What counts as a safe run, and the terms the statements are made in: the invariant every step keeps,
the frame of an instruction, and the arithmetic of carries and overflows written as the source writes it. -/

namespace Sys2Proof.Machine

/-! ### Safe runs -/

/-- The state's invariant: the memory is in its canonical form (20_memory.md R71, R74). -/
abbrev State.Inv (s : State) : Prop := Memory.wf s.mem = true

/-- The first `n` steps from a state all complete: none faults and none is refused (60_exceptions.md R603, R611). -/
def SafeFor : Nat → State → Prop
  | 0, _ => True
  | n + 1, s => ∃ s', step s = .next s' ∧ SafeFor n s'

/-- A run that never stops. -/
def Safe (s : State) : Prop := ∀ n, SafeFor n s

/-- An address no instruction can write: the BIOS, the ROM and IO (20_memory.md R75). -/
def unwritable (a : Nat) : Prop := regionOf a = some .bios ∨ regionOf a = some .rom ∨ regionOf a = some .io

/-! ### Frames -/

/-- The places of listed registers in the current bank. R15 in the list stands for the pc and has no place. -/
def bank (s : State) (is : List RegIdx) : Fin 30 → Prop :=
  fun k => ∃ i ∈ is, i ≠ 15#4 ∧ physIndex s.cpsr.mode i = k

/-- Everything but the pc, the flags, memory, the count of draws and the registers at the places `W` is as before. -/
def Frame (s t : State) (W : Fin 30 → Prop) : Prop :=
  (∀ k : Fin 30, ¬W k → t.regs.get k = s.regs.get k) ∧
    t.cpsr = { s.cpsr with flags := t.cpsr.flags } ∧
    t.spsr = s.spsr ∧ t.profile = s.profile ∧ t.sbzCheck = s.sbzCheck

/-- Every byte reads as before. -/
def SameBytes (s t : State) : Prop := ∀ a, t.byteAt a = s.byteAt a

/-- Every byte outside the `n` bytes from `a` on reads as before. -/
def SameOutside (s t : State) (a n : Nat) : Prop := ∀ x, x < a ∨ a + n ≤ x → t.byteAt x = s.byteAt x

/-- The `n` bytes from `a` on hold `v`, least significant first (20_memory.md R75). -/
def Holds (t : State) (a n : Nat) (v : Word) : Prop := ∀ k < n, t.byteAt (a + k) = (v >>> (8 * k)).setWidth 8

/-- An instruction completes in a state that has a property. -/
def Completes (o : Out) (P : State → Prop) : Prop := ∃ t, o = .next t ∧ P t

/-! ### Operands in memory -/

/-- A data read of a width is aligned, and every byte of it lies in a region (20_memory.md R73, R80). -/
def Readable (a : Word) (w : Width) : Prop :=
  a.toNat % w.bytes = 0 ∧ ∀ k < w.bytes, regionOf (a.toNat + k) ≠ none

/-- A data write of a width is aligned and lands in a region that takes it (20_memory.md R75, R80). -/
def Writable (a : Word) (w : Width) : Prop :=
  a.toNat % w.bytes = 0 ∧
    ∃ r, regionOf a.toNat = some r ∧
      (r = .wram1 ∨ r = .wram2 ∨ ((r = .palette ∨ r = .vram ∨ r = .oam) ∧ w ≠ .byte))

/-- The little-endian value of a width in memory (20_memory.md R72). -/
def leValue (s : State) (a : Nat) : Width → Word
  | .byte => (s.byteAt a).setWidth 32
  | .half => (s.byteAt (a + 1) ++ s.byteAt a).setWidth 32
  | .word => s.byteAt (a + 3) ++ s.byteAt (a + 2) ++ s.byteAt (a + 1) ++ s.byteAt a

/-- What a data read of a width may give: memory's value, or in IO any value of the width (20_memory.md R74). -/
def MayRead (s : State) (a : Word) (w : Width) (v : Word) : Prop :=
  v.toNat < 2 ^ (8 * w.bytes) ∧ (regionOf a.toNat ≠ some .io → v = leValue s a.toNat w)

/-- How many registers a list names below register `i`; below 16, how many it names (43_arm_load_store.md R350). -/
def rank (rlist : BitVec 16) (i : Nat) : Nat := ((List.range i).filter fun j => rlist.getLsbD j).length

/-! ### How an instruction ends -/

/-- An ARM instruction that writes `r` to `rd`, R15 being the pc, with the flags then `fl`. -/
def EndsArm (s : State) (o : Out) (rd : RegIdx) (r : Word) (fl : StatusFlags) : Prop :=
  Completes o fun t =>
    (if rd = 15#4 then t.pc = r else t.reg rd = r ∧ t.pc = s.pc + 4#32) ∧ t.flags = fl ∧
      Frame s t (bank s [rd]) ∧ SameBytes s t ∧ t.draws = s.draws

/-- A THUMB instruction that writes `r` to the low register `rd`, with the flags then `fl`. -/
def EndsThumb (s : State) (o : Out) (rd : LowIdx) (r : Word) (fl : StatusFlags) : Prop :=
  Completes o fun t =>
    t.reg (low rd) = r ∧ t.pc = s.pc + 2#32 ∧ t.flags = fl ∧ Frame s t (bank s [low rd]) ∧ SameBytes s t ∧
      t.draws = s.draws

/-- An instruction that changes only the flags, to `fl`, and the pc, to `pc`. -/
def EndsFlags (s : State) (o : Out) (pc : Word) (fl : StatusFlags) : Prop :=
  Completes o fun t =>
    t.flags = fl ∧ t.pc = pc ∧ Frame s t (bank s []) ∧ SameBytes s t ∧ t.draws = s.draws

/-- An ARM load of a value that a read at `a` may give, extended, into `rd`, with the base `rn` written back. -/
def EndsLoad (s : State) (o : Out) (a : Word) (w : Width) (signed wb : Bool) (rn rd : RegIdx) (ea : Word) : Prop :=
  Completes o fun t => ∃ v, MayRead s a w v ∧
    (if rd = 15#4 then t.pc = extend signed w v else t.reg rd = extend signed w v ∧ t.pc = s.pc + 4#32) ∧
      (wb = true → t.reg rn = ea) ∧ t.flags = s.flags ∧ Frame s t (bank s (rd :: if wb then [rn] else [])) ∧
      SameBytes s t

/-- An ARM store of `rd` at `a`, with the base `rn` written back; what R15 stores is left open (log entry 11). -/
def EndsStore (s : State) (o : Out) (a : Word) (w : Width) (wb : Bool) (rn rd : RegIdx) (ea : Word) : Prop :=
  Completes o fun t =>
    (rd ≠ 15#4 → Holds t a.toNat w.bytes (s.reg rd)) ∧ SameOutside s t a.toNat w.bytes ∧
      (wb = true → t.reg rn = ea) ∧ t.pc = s.pc + 4#32 ∧ t.flags = s.flags ∧
      Frame s t (bank s (if wb then [rn] else []))

/-- A THUMB load at `a`, extended, into the low register `rd`. -/
def EndsThumbLoad (s : State) (o : Out) (a : Word) (w : Width) (signed : Bool) (rd : LowIdx) : Prop :=
  Completes o fun t => ∃ v, MayRead s a w v ∧ t.reg (low rd) = extend signed w v ∧ t.pc = s.pc + 2#32 ∧
    t.flags = s.flags ∧ Frame s t (bank s [low rd]) ∧ SameBytes s t

/-- A THUMB store of the low register `rd` at `a`. -/
def EndsThumbStore (s : State) (o : Out) (a : Word) (w : Width) (rd : LowIdx) : Prop :=
  Completes o fun t => Holds t a.toNat w.bytes (s.reg (low rd)) ∧ SameOutside s t a.toNat w.bytes ∧
    t.pc = s.pc + 2#32 ∧ t.flags = s.flags ∧ Frame s t (bank s []) ∧ t.draws = s.draws

/-! ### How an instruction stops in memory -/

/-- A read of a width at `a` that may not be made is how an instruction stops (20_memory.md R72, R73, R80). The only
aligned reads that run out of a region are those past the last byte of IO. -/
def StopsAsRead (o : Out) (a : Word) (w : Width) : Prop :=
  (a.toNat % w.bytes ≠ 0 → o = .fault (.alignmentViolation a)) ∧
  (a.toNat % w.bytes = 0 →
    (regionOf a.toNat = none → o = .fault (.outOfRange a)) ∧
    (regionOf a.toNat = some .io → 0x040003FF < a.toNat + w.bytes → o = .fault (.outOfRange 0x040003FF#32)))

/-- A write of a width at `a` that may not be made is how an instruction stops (20_memory.md R75, R80). -/
def StopsAsWrite (o : Out) (a : Word) (w : Width) : Prop :=
  (a.toNat % w.bytes ≠ 0 → o = .fault (.alignmentViolation a)) ∧
  (a.toNat % w.bytes = 0 →
    (regionOf a.toNat = none → o = .fault (.outOfRange a)) ∧
    (∀ r, regionOf a.toNat = some r →
      (r = .bios ∨ r = .rom → o = .fault (.writeToReadOnly a)) ∧
      (r = .io → o = .refused .ioWrite) ∧
      (r = .palette ∨ r = .vram ∨ r = .oam → w = .byte → o = .refused .videoByteWrite)))

/-- A block of `n` words read from `start` on: a misaligned base stops it, and else the first word that may not be read
(43_arm_load_store.md R350; 46_thumb_load_store.md R481, R483). -/
def StopsAsReads (o : Out) (base start : Word) (n : Nat) : Prop :=
  (base.toNat % 4 ≠ 0 → o = .fault (.alignmentViolation base)) ∧
  (base.toNat % 4 = 0 → ∀ k < n, (∀ j < k, Readable (start + BitVec.ofNat 32 (4 * j)) .word) →
    StopsAsRead o (start + BitVec.ofNat 32 (4 * k)) .word)

/-- A block of `n` words written from `start` on: a misaligned base stops it, and else the first word that may not be
written (43_arm_load_store.md R350; 46_thumb_load_store.md R480, R482). -/
def StopsAsWrites (o : Out) (base start : Word) (n : Nat) : Prop :=
  (base.toNat % 4 ≠ 0 → o = .fault (.alignmentViolation base)) ∧
  (base.toNat % 4 = 0 → ∀ k < n, (∀ j < k, Writable (start + BitVec.ofNat 32 (4 * j)) .word) →
    StopsAsWrite o (start + BitVec.ofNat 32 (4 * k)) .word)

/-! ### Arithmetic, as 40_shifter_condition_alu.md writes it -/

/-- The flags of a result (R223) with the given carry and overflow. -/
def flagsFrom (r : Word) (c v : Bool) : StatusFlags := { n := r.msb, z := decide (r = 0#32), c := c, v := v }

/-- Overflow of an addition: both operands have one sign, the result the other (R227). -/
def addOverflow (a b r : Word) : Bool := a.msb == b.msb && r.msb != a.msb

/-- Overflow of the subtraction `a - b`: the operands' signs differ, and the result's from `a`'s (R225). -/
def subOverflow (a b r : Word) : Bool := a.msb != b.msb && r.msb != a.msb

/-- A carry as a word. -/
def carryWord (c : Bool) : Word := if c then 1#32 else 0#32

/-- Bit 32 of `a + b + ci` (R227, R228). -/
def addCarry (a b : Word) (ci : Bool) : Bool := decide (2 ^ 32 ≤ a.toNat + b.toNat + ci.toNat)

/-- No borrow out of `a - b - (1 - ci)` (R225, R229). -/
def subCarry (a b : Word) (ci : Bool) : Bool := decide (b.toNat + 1 ≤ a.toNat + ci.toNat)

end Sys2Proof.Machine

namespace Sys2Proof

/-! ### What an instruction is, as syntax -/

/-- The condition of a conditional ARM instruction (41_arm_data_processing.md R260). -/
def Instr.cond? : Instr → Option Cond
  | .armMul c .. | .armMla c .. | .armUmull c .. | .armUmlal c .. | .armSmull c .. | .armSmlal c .. | .armSwp c ..
  | .armSwpb c .. | .armStrh c .. | .armLdrh c .. | .armLdrsb c .. | .armLdrsh c .. | .armBx c .. | .armMrs c ..
  | .armMsr c .. | .armAnd c .. | .armEor c .. | .armSub c .. | .armRsb c .. | .armAdd c .. | .armAdc c ..
  | .armSbc c .. | .armRsc c .. | .armTst c .. | .armTeq c .. | .armCmp c .. | .armCmn c .. | .armOrr c ..
  | .armMov c .. | .armBic c .. | .armMvn c .. | .armStrt c .. | .armLdrt c .. | .armStrbt c .. | .armLdrbt c ..
  | .armStr c .. | .armLdr c .. | .armStrb c .. | .armLdrb c .. | .armStm c .. | .armLdm c .. | .armB c ..
  | .armBl c .. | .armSwi c .. => some c
  | _ => none

end Sys2Proof
end

