-- ==== Sys2Proof/Certificates/Slice0/Obligations.lean ====
section
/-! DEFINITION. The statements for the provers, from the spec's numbered rules. The free values and the choices of the
assumption log that a statement rests on are named in its docstring. -/

open Sys2Proof Sys2Proof.Machine

/-! ## Decoding and encoding -/

/-- R110, R150, R182: every well-formed instruction, ARM or THUMB, is decoded from the word it is encoded as, with every
operand at every value. -/
def Obligations.EncodingsDecodeBack : Prop :=
  ∀ i : Instr, i.WellFormed = true → decode (encode i) = i

/-- R100, R140: decoding loses nothing: any word or halfword, an Invalid, Undefined or Unsupported one too, decodes
to a well-formed instruction whose encoding is that word. That it loses nothing is the model's choice: R110's variants do
not carry the fields no decoder checks, and the model's instructions do (log entry 24). -/
def Obligations.DecodedWordsEncodeBack : Prop :=
  ∀ e : Encoding, (decode e).WellFormed = true ∧ encode (decode e) = e

/-- Words the spec writes out, and what they stand for. -/
def Obligations.SampleWordsDecode : Prop :=
  decodeArm 0xE3A00001#32 = .armMov .al false 0#4 0#4 (.imm 0#4 1#8) ∧
  decodeArm 0xEB000005#32 = .armBl .al 5#24 ∧
  decodeArm 0xE5B10004#32 = .armLdr .al true true true 1#4 0#4 (.imm 4#12) ∧
  decodeArm 0xE0E10392#32 = .armSmlal .al false 1#4 0#4 3#4 2#4 ∧
  decodeThumb 0x1C40#16 = .thumbAddImm3 1#3 0#3 0#3 ∧
  decodeThumb 0xB503#16 = .thumbPush true 3#8 ∧
  decodeThumb 0xD0FE#16 = .thumbBeq (BitVec.ofInt 9 (-4))

/-- R101: a word whose condition field is 15 is `Invalid{NvCondition}`, whatever its other bits; a decoded instruction
carries its word's condition field. -/
def Obligations.NvWordsAreInvalid : Prop :=
  ∀ w : Word,
    (w.extractLsb' 28 4 = 15#4 → decodeArm w = .armInvalidNvCondition w) ∧
    ∀ c : Cond, (decodeArm w).cond? = some c → c.code = w.extractLsb' 28 4

/-! ## Fetch and step -/

/-- R77, R49: the bytes at the pc, in the ROM window and aligned, are what step runs: an ARM word by the ARM decoder
when T = 0, a THUMB halfword by the THUMB decoder when T = 1, least significant byte first, and nothing is added
around `exec`. -/
def Obligations.StepRunsTheDecodedInstruction : Prop :=
  (∀ s : State, s.cpsr.thumb = false → s.pc.toNat % 4 = 0 → 0x08000000 ≤ s.pc.toNat → s.pc.toNat ≤ 0x09FFFFFC →
    step s = exec (decodeArm (s.byteAt (s.pc.toNat + 3) ++ s.byteAt (s.pc.toNat + 2) ++ s.byteAt (s.pc.toNat + 1) ++
      s.byteAt s.pc.toNat)) s) ∧
  (∀ s : State, s.cpsr.thumb = true → s.pc.toNat % 2 = 0 → 0x08000000 ≤ s.pc.toNat → s.pc.toNat ≤ 0x09FFFFFE →
    step s = exec (decodeThumb (s.byteAt (s.pc.toNat + 1) ++ s.byteAt s.pc.toNat)) s)

/-- R78, R79, R606: a misaligned fetch reports AlignmentViolation, in or outside the ROM window; an aligned one
outside it reports OutOfRange. -/
def Obligations.FetchErrorsInOrder : Prop :=
  (∀ s : State, s.pc.toNat % (if s.cpsr.thumb then 2 else 4) ≠ 0 → step s = .fault (.alignmentViolation s.pc)) ∧
  (∀ s : State, s.pc.toNat % (if s.cpsr.thumb then 2 else 4) = 0 →
    (s.pc.toNat < 0x08000000 ∨ 0x09FFFFFF < s.pc.toNat) → step s = .fault (.outOfRange s.pc))

/-- Every step keeps the memory's canonical form. -/
def Obligations.StepKeepsMemoryForm : Prop :=
  ∀ s t : State, s.Inv → step s = .next t → t.Inv

/-- R53, R641: what reset leaves. The pc is START_PC and T = 0 as they give them, and nothing is in memory. The rest is
the model's choice: the profile (log entry 1), the registers (2), the flags and the SPSRs (3), the mode and I = F = 1,
which the spec does not model (4), and SBZ_CHECK (17). -/
def Obligations.ResetLeavesTheseValues : Prop :=
  State.reset.pc = 0x08000000#32 ∧ State.reset.cpsr.thumb = false ∧ State.reset.cpsr.irqDisable = true ∧
  State.reset.cpsr.fiqDisable = true ∧ State.reset.cpsr.mode = .system ∧
  (∀ m i, i ≠ 15#4 → State.reset.regIn m i = 0#32) ∧ State.reset.flags = .clear ∧
  (∀ k, State.reset.spsr.get k = .initialSpsr) ∧ State.reset.sbzCheck = false ∧ State.reset.profile = .arm7tdmi ∧
  (∀ a, Memory.get State.reset.mem a = none) ∧ State.reset.Inv

/-- R653, R87, R75: no step changes a byte of the BIOS, the ROM or IO, so no store changes what a later fetch reads. -/
def Obligations.StepNeverWritesReadOnly : Prop :=
  ∀ s t : State, step s = .next t → ∀ a, unwritable a → t.byteAt a = s.byteAt a

/-- R620, R38, R49, in the model's profile `executorReference` (log entry 1): no step changes the mode, a mask bit, an
SPSR or a register of another bank, and only BX changes T. -/
def Obligations.ReferenceHasOneMode : Prop :=
  ∀ s t : State, s.profile = .executorReference → step s = .next t →
    t.cpsr.mode = s.cpsr.mode ∧ t.cpsr.irqDisable = s.cpsr.irqDisable ∧ t.cpsr.fiqDisable = s.cpsr.fiqDisable ∧
    t.spsr = s.spsr ∧
    (∀ k : Fin 30, (∀ i : RegIdx, i ≠ 15#4 → physIndex s.cpsr.mode i ≠ k) → t.regs.get k = s.regs.get k) ∧
    (t.cpsr.thumb = s.cpsr.thumb ∨
      ∃ i, s.fetch = .ok i ∧ ((∃ c rn, i = .armBx c rn) ∨ ∃ rs sbz, i = .thumbBx rs sbz))

/-! ## Exceptions -/

/-- R614, R612: what taking an exception saves and where it goes; the other registers, the flags and memory are
unchanged. R612's table gives each exception its vector and mode, R614's the link. R38, R621, R48: FIQ mode banks R8 to
R14, the IRQ, Supervisor, Abort and Undefined modes R13 and R14, System mode shares User's registers, and each mode but
those two has an SPSR of its own. The spec gives these for information; that exceptions are taken is the model's choice
(log entries 1 and 12), and no step takes an abort, IRQ or FIQ (log entry 21). -/
def Obligations.ExceptionEntryEffect : Prop :=
  (∀ (s : State) (e : ExceptionKind) (link : Word),
    let t := s.takeException e link
    t.regIn e.mode 14#4 = link ∧ (∀ k, spsrIndex e.mode = some k → t.spsr.get k = s.cpsr) ∧
    (∀ k, spsrIndex e.mode ≠ some k → t.spsr.get k = s.spsr.get k) ∧
    t.cpsr = { s.cpsr with mode := e.mode, thumb := false, irqDisable := true,
                           fiqDisable := s.cpsr.fiqDisable || decide (e = .fiq) } ∧
    t.pc = e.vector ∧
    (∀ k : Fin 30, physIndex e.mode 14#4 ≠ k → t.regs.get k = s.regs.get k) ∧ SameBytes s t ∧ t.draws = s.draws) ∧
  (∀ (e : ExceptionKind) (instr next : Word),
    (e.vector, e.mode, e.link instr next) =
      match e with
      | .undefinedInstruction => (0x04#32, .undefined, next)
      | .softwareInterrupt => (0x08#32, .supervisor, next)
      | .prefetchAbort => (0x0C#32, .abort, instr + 4#32)
      | .dataAbort => (0x10#32, .abort, instr + 8#32)
      | .irq => (0x18#32, .irq, next + 4#32)
      | .fiq => (0x1C#32, .fiq, next + 4#32)) ∧
  let banks (m : Mode) (i : RegIdx) : Prop :=
    match m with
    | .user | .system => False
    | .fiq => 8 ≤ i.toNat
    | .irq | .supervisor | .abort | .undefined => 13 ≤ i.toNat
  (∀ (s : State) (m m' : Mode) (i j : RegIdx) (v : Word), i ≠ 15#4 → j ≠ 15#4 →
    (i = j ∧ (m = m' ∨ (¬banks m i ∧ ¬banks m' i)) → (s.setRegIn m i v).regIn m' j = v) ∧
    (¬(i = j ∧ (m = m' ∨ (¬banks m i ∧ ¬banks m' i))) → (s.setRegIn m i v).regIn m' j = s.regIn m' j)) ∧
  (∀ (s : State) (m : Mode) (p : Psr),
    (s.spsrNow = none ↔ s.cpsr.mode = .user ∨ s.cpsr.mode = .system) ∧
    (s.spsrNow ≠ none → (s.setSpsr m p).spsrNow = if m = s.cpsr.mode then some p else s.spsrNow))

/-- R615: a return from an exception, at the place its entry went to, restores the CPSR that the entry saved, with
the mode, T, I and F, and goes to the link. That exceptions are taken is the model's choice (log entries 1 and 12). -/
def Obligations.ReturnUndoesEntry : Prop :=
  ∀ (s : State) (e : ExceptionKind) (link : Word),
    let t := s.takeException e link
    ∃ u, t.returnFromException (t.reg 14#4) = .ok u ∧ u.cpsr = s.cpsr ∧ u.pc = link ∧ u.regs = t.regs ∧
      SameBytes s u

/-- R615, R261: MOVS, SUBS and the other operations with S = 1 and Rd = R15 that write a result are a return: in a
mode with an SPSR the CPSR takes it and the pc the result. In User and System mode, which have none, they are refused,
and in profile executorReference always (R611). R41: as the first operand R15 reads as pc + 8, or pc + 12 beside a
register amount. Log entries 1 and 13. -/
def Obligations.FlagSettingPcWritesReturn : Prop :=
  ∀ (s : State) (c : Cond) (rn : RegIdx) (op2 : Operand2) (sh : ShiftedOperand),
    evaluate c s.flags = true → s.sbzCheck = false →
    let a := if rn = 15#4 then s.pc + (match op2 with | .regReg _ _ _ => 12#32 | .imm _ _ | .regImm _ _ _ => 8#32)
      else s.reg rn
    let ends (o : Out) (r : Word) : Prop :=
      (s.profile = .executorReference → o = .refused .spsrCopy) ∧
      (s.profile = .arm7tdmi → s.spsrNow = none → o = .refused .noSpsr) ∧
      (s.profile = .arm7tdmi → operand2Value s op2 = .ok sh → ∀ p, s.spsrNow = some p →
        o = .next { s with cpsr := p, pc := r })
    ends (exec (.armAnd c true rn 15#4 op2) s) (a &&& sh.value) ∧
    ends (exec (.armEor c true rn 15#4 op2) s) (a ^^^ sh.value) ∧
    ends (exec (.armSub c true rn 15#4 op2) s) (a - sh.value) ∧
    ends (exec (.armRsb c true rn 15#4 op2) s) (sh.value - a) ∧
    ends (exec (.armAdd c true rn 15#4 op2) s) (a + sh.value) ∧
    ends (exec (.armAdc c true rn 15#4 op2) s) (a + sh.value + carryWord s.flags.c) ∧
    ends (exec (.armSbc c true rn 15#4 op2) s) (a - sh.value + carryWord s.flags.c - 1#32) ∧
    ends (exec (.armRsc c true rn 15#4 op2) s) (sh.value - a + carryWord s.flags.c - 1#32) ∧
    ends (exec (.armOrr c true rn 15#4 op2) s) (a ||| sh.value) ∧
    ends (exec (.armMov c true rn 15#4 op2) s) sh.value ∧
    ends (exec (.armBic c true rn 15#4 op2) s) (a &&& ~~~sh.value) ∧
    ends (exec (.armMvn c true rn 15#4 op2) s) (~~~sh.value)

/-- R612, R614, R311, R383, R384, R386, R501: an Undefined word, and a coprocessor word, enters the Undefined
Instruction exception with R14_und the next instruction's address; in profile executorReference it is refused (R611).
Log entries 1 and 12. -/
def Obligations.UndefinedWordsTrap : Prop :=
  ∀ s : State,
    let ends (o : Out) (width : Word) (r : Refusal) : Prop :=
      (s.profile = .arm7tdmi → o = .next (s.takeException .undefinedInstruction (s.pc + width))) ∧
      (s.profile = .executorReference → o = .refused r)
    (∀ raw : Word,
      ends (exec (.armUndefinedMultiply raw) s) 4#32 .undefinedWord ∧
      ends (exec (.armUndefinedSwap raw) s) 4#32 .undefinedWord ∧
      ends (exec (.armUndefinedTransfer raw) s) 4#32 .undefinedWord ∧
      ends (exec (.armUnsupportedDataTransfer raw) s) 4#32 (.unsupported .coprocessorDataTransfer) ∧
      ends (exec (.armUnsupportedOperation raw) s) 4#32 (.unsupported .coprocessorOperation)) ∧
    (∀ raw : Half,
      ends (exec (.thumbUndefined1011 raw) s) 2#32 .undefinedWord ∧
      ends (exec (.thumbUndefinedCond14 raw) s) 2#32 .undefinedWord ∧
      ends (exec (.thumbUndefined11101 raw) s) 2#32 .undefinedWord)

/-- R612, R614, R382, R502: SWI enters Supervisor mode at 0x08 with R14_svc the next instruction's address: + 4 in
ARM state, + 2 in THUMB state, and nothing else changes, no other SPSR either; in profile executorReference it is
refused (R611). Log entries 1 and 12. -/
def Obligations.SoftwareInterruptsTrap : Prop :=
  ∀ s : State,
    let ends (o : Out) (width : Word) : Prop :=
      (s.profile = .arm7tdmi →
        Completes o fun t => t.pc = 0x08#32 ∧ t.cpsr.mode = .supervisor ∧ t.cpsr.thumb = false ∧
          t.cpsr.irqDisable = true ∧ t.cpsr.fiqDisable = s.cpsr.fiqDisable ∧ t.flags = s.flags ∧
          t.reg 14#4 = s.pc + width ∧ t.spsrNow = some s.cpsr ∧
          (∀ k, spsrIndex .supervisor ≠ some k → t.spsr.get k = s.spsr.get k) ∧
          (∀ k : Fin 30, physIndex .supervisor 14#4 ≠ k → t.regs.get k = s.regs.get k) ∧ SameBytes s t ∧
          t.draws = s.draws ∧ t.profile = s.profile ∧ t.sbzCheck = s.sbzCheck) ∧
      (s.profile = .executorReference → o = .refused .softwareInterrupt)
    (∀ c imm24, evaluate c s.flags = true → ends (exec (.armSwi c imm24) s) 4#32) ∧
    (∀ imm8, ends (exec (.thumbSwi imm8) s) 2#32)

/-- R385, R282, R345, R387, R426, R607: an Invalid word or halfword is refused whatever its condition field holds. -/
def Obligations.InvalidWordsAreRefused : Prop :=
  ∀ s : State,
    (∀ raw : Word,
      exec (.armInvalidNvCondition raw) s = .refused (.invalid .nvCondition) ∧
      exec (.armInvalidSignedStore raw) s = .refused (.invalid .signedStore) ∧
      exec (.armInvalidMsrFull raw) s = .refused (.invalid .msrFull) ∧
      exec (.armInvalidPsrType raw) s = .refused (.invalid .psrType)) ∧
    (∀ raw : Half,
      exec (.thumbInvalidHiAdd raw) s = .refused (.invalid .hiRegNone) ∧
      exec (.thumbInvalidHiCmp raw) s = .refused (.invalid .hiRegNone) ∧
      exec (.thumbInvalidHiMov raw) s = .refused (.invalid .hiRegNone) ∧
      exec (.thumbInvalidBxH1 raw) s = .refused (.invalid .bxH1))

/-- R260, R607: a conditional ARM instruction whose condition fails only advances the pc by 4; a failing SWI too. -/
def Obligations.FailedConditionOnlyAdvances : Prop :=
  ∀ (i : Instr) (c : Cond) (s : State), i.cond? = some c → evaluate c s.flags = false →
    exec i s = .next { s with pc := s.pc + 4#32 }

/-- R611: what profile executorReference (log entry 1) refuses although the condition passes: MRS, MSR to an SPSR,
the T forms, stores of R15 by STR, STRB (R330), STRH (R342) and STM (R350) in every form, and block transfers with
S = 1. -/
def Obligations.ReferenceRefusesModeForms : Prop :=
  ∀ (s : State) (c : Cond), s.profile = .executorReference → evaluate c s.flags = true →
    (∀ i p rd sbz, exec (.armMrs c i p rd sbz) s = .refused .mrs) ∧
    (∀ sbo src, exec (.armMsr c true sbo src) s = .refused .msrSpsr) ∧
    (∀ u rn rd off, exec (.armLdrt c u rn rd off) s = .refused .userAccess ∧
      exec (.armStrt c u rn rd off) s = .refused .userAccess ∧
      exec (.armLdrbt c u rn rd off) s = .refused .userAccess ∧
      exec (.armStrbt c u rn rd off) s = .refused .userAccess) ∧
    (∀ p u w rn, p = true ∨ w = false → (p = false ∨ w = true → rn ≠ 15#4) →
      (∀ off, exec (.armStr c p u w rn 15#4 off) s = .refused .storePc ∧
        exec (.armStrb c p u w rn 15#4 off) s = .refused .storePc) ∧
      (∀ off8, exec (.armStrh c p u w rn 15#4 (.imm off8)) s = .refused .storePc) ∧
      (∀ sbz rm, s.sbzCheck = false ∨ sbz = 0#4 →
        exec (.armStrh c p u w rn 15#4 (.reg sbz rm)) s = .refused .storePc)) ∧
    (∀ p u w rn rlist, rn ≠ 15#4 → rlist.getLsbD 15 = true → (w = true → rlist.getLsbD rn.toNat = false) →
      exec (.armStm c p u false w rn rlist) s = .refused .storePc) ∧
    (∀ p u w rn rlist, rlist ≠ 0#16 → exec (.armLdm c p u true w rn rlist) s = .refused .userBankTransfer ∧
      exec (.armStm c p u true w rn rlist) s = .refused .userBankTransfer)

/-- R603: the operand combinations that fault Unpredictable when the condition passes: those of the multiplies (R300 to
R305), the swaps (R306, R307), BX (R310), MSR (R281) and THUMB MUL (R443), R15 as a shift register (R261) or as an offset
(R330, R340), and R15 as the base of LDM and STM (R350). A refusal that the rule puts first is excluded: SBZ_CHECK (log
entry 17), and the forms of log entries 1 and 13. -/
def Obligations.UnpredictableOperandsFault : Prop :=
  ∀ (s : State) (c : Cond), evaluate c s.flags = true →
    (∀ f rd rn rs rm,
      (s.sbzCheck = false ∨ rn = 0#4 → rd = 15#4 ∨ rm = 15#4 ∨ rs = 15#4 ∨ rd = rm →
        exec (.armMul c f rd rn rs rm) s = .fault (.unpredictable .mulOperands)) ∧
      (rd = 15#4 ∨ rm = 15#4 ∨ rs = 15#4 ∨ rn = 15#4 ∨ rd = rm →
        exec (.armMla c f rd rn rs rm) s = .fault (.unpredictable .mulOperands))) ∧
    (∀ f hi lo rs rm, hi = 15#4 ∨ lo = 15#4 ∨ rm = 15#4 ∨ rs = 15#4 ∨ hi = lo ∨ hi = rm ∨ lo = rm →
      exec (.armUmull c f hi lo rs rm) s = .fault (.unpredictable .longMulOperands) ∧
      exec (.armUmlal c f hi lo rs rm) s = .fault (.unpredictable .longMulOperands) ∧
      exec (.armSmull c f hi lo rs rm) s = .fault (.unpredictable .longMulOperands) ∧
      exec (.armSmlal c f hi lo rs rm) s = .fault (.unpredictable .longMulOperands)) ∧
    (∀ rn rd sbz rm, s.sbzCheck = false ∨ sbz = 0#4 →
      rn = 15#4 ∨ rd = 15#4 ∨ rm = 15#4 ∨ rn = rd ∨ rn = rm →
      exec (.armSwp c rn rd sbz rm) s = .fault (.unpredictable .swapOperands) ∧
      exec (.armSwpb c rn rd sbz rm) s = .fault (.unpredictable .swapOperands)) ∧
    exec (.armBx c 15#4) s = .fault (.unpredictable .bxPc) ∧
    (∀ p sbo sbz, s.sbzCheck = false ∨ (sbo = 0xF#4 ∧ sbz = 0#8) →
      (p = true → s.profile = .arm7tdmi ∧ s.spsrNow ≠ none) →
      exec (.armMsr c p sbo (.reg sbz 15#4)) s = .fault (.unpredictable .msrFromPc)) ∧
    (∀ rd, exec (.thumbMul rd rd) s = .fault (.unpredictable .thumbMulOperands)) ∧
    (∀ f rn rd rm ty,
      let op2 : Operand2 := .regReg rm ty 15#4
      let stop : Out := .fault (.unpredictable .shiftByPc)
      ((f = true → rd = 15#4 → s.profile = .arm7tdmi ∧ s.spsrNow ≠ none) →
        exec (.armAnd c f rn rd op2) s = stop ∧ exec (.armEor c f rn rd op2) s = stop ∧
        exec (.armSub c f rn rd op2) s = stop ∧ exec (.armRsb c f rn rd op2) s = stop ∧
        exec (.armAdd c f rn rd op2) s = stop ∧ exec (.armAdc c f rn rd op2) s = stop ∧
        exec (.armSbc c f rn rd op2) s = stop ∧ exec (.armRsc c f rn rd op2) s = stop ∧
        exec (.armOrr c f rn rd op2) s = stop ∧ exec (.armBic c f rn rd op2) s = stop ∧
        (s.sbzCheck = false ∨ rn = 0#4 →
          exec (.armMov c f rn rd op2) s = stop ∧ exec (.armMvn c f rn rd op2) s = stop)) ∧
      ((rd = 15#4 → s.profile = .arm7tdmi ∧ s.spsrNow ≠ none) → s.sbzCheck = false ∨ rd = 0#4 →
        exec (.armTst c rn rd op2) s = stop ∧ exec (.armTeq c rn rd op2) s = stop ∧
        exec (.armCmp c rn rd op2) s = stop ∧ exec (.armCmn c rn rd op2) s = stop)) ∧
    (∀ p u w rn rd,
      let stop : Out := .fault (.unpredictable .offsetPc)
      (p = true ∨ w = false → (p = false ∨ w = true → rn ≠ 15#4 ∧ rn ≠ rd) →
        (∀ ty n,
          let off : Offset := .reg 15#4 ty n
          exec (.armLdr c p u w rn rd off) s = stop ∧ exec (.armLdrb c p u w rn rd off) s = stop ∧
          (rd ≠ 15#4 ∨ s.profile = .arm7tdmi →
            exec (.armStr c p u w rn rd off) s = stop ∧ exec (.armStrb c p u w rn rd off) s = stop)) ∧
        (∀ sbz, s.sbzCheck = false ∨ sbz = 0#4 →
          let off : HalfOffset := .reg sbz 15#4
          exec (.armLdrh c p u w rn rd off) s = stop ∧ exec (.armLdrsb c p u w rn rd off) s = stop ∧
          exec (.armLdrsh c p u w rn rd off) s = stop ∧
          (rd ≠ 15#4 ∨ s.profile = .arm7tdmi → exec (.armStrh c p u w rn rd off) s = stop))) ∧
      (s.profile = .arm7tdmi → rn ≠ 15#4 → rn ≠ rd → ∀ ty n,
        let off : Offset := .reg 15#4 ty n
        exec (.armLdrt c u rn rd off) s = stop ∧ exec (.armLdrbt c u rn rd off) s = stop ∧
        exec (.armStrt c u rn rd off) s = stop ∧ exec (.armStrbt c u rn rd off) s = stop)) ∧
    (∀ p u sb w rlist, rlist ≠ 0#16 → (sb = true → s.profile = .arm7tdmi) →
      ((sb = true → rlist.getLsbD 15 = true → s.spsrNow ≠ none) →
        exec (.armLdm c p u sb w 15#4 rlist) s = .fault (.unpredictable .blockBasePc)) ∧
      exec (.armStm c p u sb w 15#4 rlist) s = .fault (.unpredictable .blockBasePc))

/-- R182: with SBZ_CHECK = 1 (log entry 17) a word whose should-be-zero or should-be-one field is wrong is refused,
when its condition passes. MRS, PSR transfers of an SPSR, and Rd = R15 with S = 1, reach the check in profile arm7tdmi
(log entries 1 and 13). -/
def Obligations.WrongFixedFieldsAreRefused : Prop :=
  ∀ (s : State) (c : Cond), s.sbzCheck = true → evaluate c s.flags = true →
    (∀ f rd rn rs rm, rn ≠ 0#4 → exec (.armMul c f rd rn rs rm) s = .refused .shouldBeZero) ∧
    (∀ rn rd sbz rm, sbz ≠ 0#4 → exec (.armSwp c rn rd sbz rm) s = .refused .shouldBeZero ∧
      exec (.armSwpb c rn rd sbz rm) s = .refused .shouldBeZero) ∧
    (∀ f rn rd op2, rn ≠ 0#4 → (f = true → rd = 15#4 → s.profile = .arm7tdmi ∧ s.spsrNow ≠ none) →
      exec (.armMov c f rn rd op2) s = .refused .shouldBeZero ∧
      exec (.armMvn c f rn rd op2) s = .refused .shouldBeZero) ∧
    (∀ rn rd op2, rd ≠ 0#4 → (rd = 15#4 → s.profile = .arm7tdmi ∧ s.spsrNow ≠ none) →
      exec (.armTst c rn rd op2) s = .refused .shouldBeZero ∧
      exec (.armTeq c rn rd op2) s = .refused .shouldBeZero ∧
      exec (.armCmp c rn rd op2) s = .refused .shouldBeZero ∧
      exec (.armCmn c rn rd op2) s = .refused .shouldBeZero) ∧
    (∀ i p rd sbz, sbz ≠ 0#12 → s.profile = .arm7tdmi → (p = true → s.spsrNow ≠ none) →
      exec (.armMrs c i p rd sbz) s = .refused .shouldBeZero) ∧
    (∀ p sbo, (p = true → s.profile = .arm7tdmi ∧ s.spsrNow ≠ none) →
      (∀ rot imm8, sbo ≠ 0xF#4 → exec (.armMsr c p sbo (.imm rot imm8)) s = .refused .shouldBeZero) ∧
      (∀ sbz rm, sbo ≠ 0xF#4 ∨ sbz ≠ 0#8 →
        exec (.armMsr c p sbo (.reg sbz rm)) s = .refused .shouldBeZero)) ∧
    (∀ p u w rn rd sbz rm, sbz ≠ 0#4 →
      exec (.armLdrh c p u w rn rd (.reg sbz rm)) s = .refused .shouldBeZero ∧
      exec (.armLdrsb c p u w rn rd (.reg sbz rm)) s = .refused .shouldBeZero ∧
      exec (.armLdrsh c p u w rn rd (.reg sbz rm)) s = .refused .shouldBeZero ∧
      exec (.armStrh c p u w rn rd (.reg sbz rm)) s = .refused .shouldBeZero) ∧
    (∀ rs sbz, sbz ≠ 0#3 → exec (.thumbBx rs sbz) s = .refused .shouldBeZero)

/-! ## Memory -/

/-- R71: the eight regions, by both bounds. R81, R343, R344, R468, R469: a loaded value is zero-extended, or, for a
signed load, its bit 7 or 15 fills the bits above. R72 to R74, R76, R80, R83: data reads. Misaligned they fault, before
any other check (log entry 16); outside every region they fault, as does the read that runs past the last byte of IO; in
IO each byte is a draw, fresh each time (log entry 7); aligned and inside any other region they change nothing and give
the bytes, the one at the lowest address least significant. R331 to R343, R351, R461 to R483: every instruction that reads data faults as its read does (the T
forms, and LDM with S = 1, in profile arm7tdmi, log entries 1, 13, 14 and 15); of a block read a misaligned base
decides, and else the first word that may not be read. -/
def Obligations.DataReads : Prop :=
  (∀ a : Nat,
    (regionOf a = some .bios ↔ a ≤ 0x00003FFF) ∧
    (regionOf a = some .wram1 ↔ 0x02000000 ≤ a ∧ a ≤ 0x0203FFFF) ∧
    (regionOf a = some .wram2 ↔ 0x03000000 ≤ a ∧ a ≤ 0x03007FFF) ∧
    (regionOf a = some .io ↔ 0x04000000 ≤ a ∧ a ≤ 0x040003FE) ∧
    (regionOf a = some .palette ↔ 0x05000000 ≤ a ∧ a ≤ 0x050003FF) ∧
    (regionOf a = some .vram ↔ 0x06000000 ≤ a ∧ a ≤ 0x06017FFF) ∧
    (regionOf a = some .oam ↔ 0x07000000 ≤ a ∧ a ≤ 0x070003FF) ∧
    (regionOf a = some .rom ↔ 0x08000000 ≤ a ∧ a ≤ 0x09FFFFFF)) ∧
  (∀ (w : Width) (v : Word), v.toNat < 2 ^ (8 * w.bytes) →
    extend false w v = v ∧
    extend true w v =
      match w with
      | .byte => if v.getLsbD 7 then v + 0xFFFFFF00#32 else v
      | .half => if v.getLsbD 15 then v + 0xFFFF0000#32 else v
      | .word => v) ∧
  (∀ (s : State) (a : Word) (w : Width),
    (a.toNat % w.bytes ≠ 0 → s.load a w = .error (.fault (.alignmentViolation a))) ∧
    (a.toNat % w.bytes = 0 → regionOf a.toNat = none → s.load a w = .error (.fault (.outOfRange a))) ∧
    (a.toNat % w.bytes = 0 → ∀ r, regionOf a.toNat = some r → r ≠ .io →
      s.load a w = .ok (leValue s a.toNat w, s)) ∧
    (a.toNat % w.bytes = 0 → regionOf a.toNat = some .io →
      (a.toNat + w.bytes ≤ 0x040003FF →
        ∃ v, s.load a w = .ok (v, { s with draws := s.draws + w.bytes }) ∧ v.toNat < 2 ^ (8 * w.bytes) ∧
          ∀ k < w.bytes, ((v >>> (8 * k)).setWidth 8 : Byte) = (Config.freeWord (s.draws + k)).setWidth 8) ∧
      (0x040003FF < a.toNat + w.bytes → s.load a w = .error (.fault (.outOfRange 0x040003FF#32))))) ∧
  (∀ (s : State) (c : Cond) (p u w : Bool) (rn rd : RegIdx) (off : Offset) (o : Word), evaluate c s.flags = true →
    (match off with
      | .imm off12 => o = off12.setWidth 32
      | .reg rm ty n => rm ≠ 15#4 ∧ o = (shifterReg (s.reg rm) ty (.imm n) s.flags.c).value) →
    let base := if rn = 15#4 then s.pc + 8#32 else s.reg rn
    let ea := if u then base + o else base - o
    let a := if p then ea else base
    (p = true ∨ w = false → (p = false ∨ w = true → rn ≠ 15#4 ∧ rn ≠ rd) →
      StopsAsRead (exec (.armLdr c p u w rn rd off) s) a .word ∧
      StopsAsRead (exec (.armLdrb c p u w rn rd off) s) a .byte) ∧
    (s.profile = .arm7tdmi → rn ≠ 15#4 → rn ≠ rd →
      StopsAsRead (exec (.armLdrt c u rn rd off) s) base .word ∧
      StopsAsRead (exec (.armLdrbt c u rn rd off) s) base .byte)) ∧
  (∀ (s : State) (c : Cond) (p u w : Bool) (rn rd : RegIdx) (off : HalfOffset) (o : Word), evaluate c s.flags = true →
    (match off with
      | .imm off8 => o = off8.setWidth 32
      | .reg sbz rm => o = s.reg rm ∧ rm ≠ 15#4 ∧ (s.sbzCheck = false ∨ sbz = 0#4)) →
    let base := if rn = 15#4 then s.pc + 8#32 else s.reg rn
    let ea := if u then base + o else base - o
    let a := if p then ea else base
    p = true ∨ w = false → (p = false ∨ w = true → rn ≠ 15#4 ∧ rn ≠ rd) →
      StopsAsRead (exec (.armLdrh c p u w rn rd off) s) a .half ∧
      StopsAsRead (exec (.armLdrsb c p u w rn rd off) s) a .byte ∧
      StopsAsRead (exec (.armLdrsh c p u w rn rd off) s) a .half) ∧
  (∀ (s : State) (c : Cond) (rn rd : RegIdx) (sbz : BitVec 4) (rm : RegIdx), evaluate c s.flags = true →
    s.sbzCheck = false ∨ sbz = 0#4 → rn ≠ 15#4 → rd ≠ 15#4 → rm ≠ 15#4 → rn ≠ rd → rn ≠ rm →
      StopsAsRead (exec (.armSwp c rn rd sbz rm) s) (s.reg rn) .word ∧
      StopsAsRead (exec (.armSwpb c rn rd sbz rm) s) (s.reg rn) .byte) ∧
  (∀ (s : State) (ro rb rd : LowIdx),
    let b := s.reg (low rb)
    let a := b + s.reg (low ro)
    StopsAsRead (exec (.thumbLdrReg ro rb rd) s) a .word ∧ StopsAsRead (exec (.thumbLdrbReg ro rb rd) s) a .byte ∧
    StopsAsRead (exec (.thumbLdrhReg ro rb rd) s) a .half ∧ StopsAsRead (exec (.thumbLdsbReg ro rb rd) s) a .byte ∧
    StopsAsRead (exec (.thumbLdshReg ro rb rd) s) a .half ∧
    (∀ off, StopsAsRead (exec (.thumbLdrPc rd off) s) (((s.pc + 4#32) &&& ~~~2#32) + off.setWidth 32) .word ∧
      StopsAsRead (exec (.thumbLdrSp rd off) s) (s.reg 13#4 + off.setWidth 32) .word) ∧
    (∀ off, StopsAsRead (exec (.thumbLdrImm off rb rd) s) (b + off.setWidth 32) .word) ∧
    (∀ off, StopsAsRead (exec (.thumbLdrbImm off rb rd) s) (b + off.setWidth 32) .byte) ∧
    (∀ off, StopsAsRead (exec (.thumbLdrhImm off rb rd) s) (b + off.setWidth 32) .half)) ∧
  (∀ (s : State) (c : Cond) (p u sb w : Bool) (rn : RegIdx) (rlist : BitVec 16), evaluate c s.flags = true →
    rlist ≠ 0#16 → rn ≠ 15#4 → (w = true → rlist.getLsbD rn.toNat = false) →
    (sb = true → s.profile = .arm7tdmi ∧ (rlist.getLsbD 15 = true → s.spsrNow ≠ none)) →
    let base := s.reg rn
    let size : Word := BitVec.ofNat 32 (4 * rank rlist 16)
    let start := if u then (if p then base + 4#32 else base) else (if p then base - size else base - size + 4#32)
    StopsAsReads (exec (.armLdm c p u sb w rn rlist) s) base start (rank rlist 16)) ∧
  (∀ (s : State) (r : Bool) (rlist : BitVec 8),
    let n := rank (rlist.setWidth 16) 8 + r.toNat
    n ≠ 0 → StopsAsReads (exec (.thumbPop r rlist) s) (s.reg 13#4) (s.reg 13#4) n) ∧
  (∀ (s : State) (rb : LowIdx) (rlist : BitVec 8), rlist ≠ 0#8 → rlist.getLsbD rb.toNat = false →
    StopsAsReads (exec (.thumbLdmia rb rlist) s) (s.reg (low rb)) (s.reg (low rb)) (rank (rlist.setWidth 16) 8))

/-- R75, R80: what the region of the address does to an aligned write, by the write's width; a misaligned write
faults. The only aligned writes whose bytes lie in no one region are the word at 0x040003FC and the halfword at
0x040003FE, of which the first byte decides (log entry 16). R332 to R342, R352, R306, R462 to R482: every instruction
that writes memory stops as its write does (the T forms, the stores of R15, and STM with S = 1, in profile arm7tdmi, log
entries 1, 11, 14 and 15); a swap whose address may be read stops as its write does; of a block write a misaligned base
decides, and else the first word that may not be written. -/
def Obligations.WritesByRegion : Prop :=
  (∀ (s : State) (a v : Word) (w : Width),
    (a.toNat % w.bytes ≠ 0 → s.store a w v = .error (.fault (.alignmentViolation a))) ∧
    (a.toNat % w.bytes = 0 →
      (regionOf a.toNat = none → s.store a w v = .error (.fault (.outOfRange a))) ∧
      (∀ r, regionOf a.toNat = some r →
        (r = .bios ∨ r = .rom → s.store a w v = .error (.fault (.writeToReadOnly a))) ∧
        (r = .io → s.store a w v = .error (.refuse .ioWrite)) ∧
        (r = .palette ∨ r = .vram ∨ r = .oam → w = .byte → s.store a w v = .error (.refuse .videoByteWrite)) ∧
        (r = .wram1 ∨ r = .wram2 ∨ ((r = .palette ∨ r = .vram ∨ r = .oam) ∧ w ≠ .byte) →
          ∃ t, s.store a w v = .ok t ∧ Holds t a.toNat w.bytes v ∧ SameOutside s t a.toNat w.bytes ∧
            t.regs = s.regs ∧ t.pc = s.pc ∧ t.cpsr = s.cpsr ∧ t.spsr = s.spsr ∧ t.draws = s.draws)))) ∧
  (∀ (s : State) (c : Cond) (p u w : Bool) (rn rd : RegIdx) (off : Offset) (o : Word), evaluate c s.flags = true →
    rd ≠ 15#4 ∨ s.profile = .arm7tdmi →
    (match off with
      | .imm off12 => o = off12.setWidth 32
      | .reg rm ty n => rm ≠ 15#4 ∧ o = (shifterReg (s.reg rm) ty (.imm n) s.flags.c).value) →
    let base := if rn = 15#4 then s.pc + 8#32 else s.reg rn
    let ea := if u then base + o else base - o
    let a := if p then ea else base
    (p = true ∨ w = false → (p = false ∨ w = true → rn ≠ 15#4 ∧ rn ≠ rd) →
      StopsAsWrite (exec (.armStr c p u w rn rd off) s) a .word ∧
      StopsAsWrite (exec (.armStrb c p u w rn rd off) s) a .byte) ∧
    (s.profile = .arm7tdmi → rn ≠ 15#4 → rn ≠ rd →
      StopsAsWrite (exec (.armStrt c u rn rd off) s) base .word ∧
      StopsAsWrite (exec (.armStrbt c u rn rd off) s) base .byte)) ∧
  (∀ (s : State) (c : Cond) (p u w : Bool) (rn rd : RegIdx) (off : HalfOffset) (o : Word), evaluate c s.flags = true →
    rd ≠ 15#4 ∨ s.profile = .arm7tdmi →
    (match off with
      | .imm off8 => o = off8.setWidth 32
      | .reg sbz rm => o = s.reg rm ∧ rm ≠ 15#4 ∧ (s.sbzCheck = false ∨ sbz = 0#4)) →
    let base := if rn = 15#4 then s.pc + 8#32 else s.reg rn
    let ea := if u then base + o else base - o
    let a := if p then ea else base
    p = true ∨ w = false → (p = false ∨ w = true → rn ≠ 15#4 ∧ rn ≠ rd) →
      StopsAsWrite (exec (.armStrh c p u w rn rd off) s) a .half) ∧
  (∀ (s : State) (c : Cond) (rn rd : RegIdx) (sbz : BitVec 4) (rm : RegIdx), evaluate c s.flags = true →
    s.sbzCheck = false ∨ sbz = 0#4 → rn ≠ 15#4 → rd ≠ 15#4 → rm ≠ 15#4 → rn ≠ rd → rn ≠ rm →
      (Readable (s.reg rn) .word → StopsAsWrite (exec (.armSwp c rn rd sbz rm) s) (s.reg rn) .word) ∧
      (Readable (s.reg rn) .byte → StopsAsWrite (exec (.armSwpb c rn rd sbz rm) s) (s.reg rn) .byte)) ∧
  (∀ (s : State) (ro rb rd : LowIdx),
    let b := s.reg (low rb)
    let a := b + s.reg (low ro)
    StopsAsWrite (exec (.thumbStrReg ro rb rd) s) a .word ∧ StopsAsWrite (exec (.thumbStrbReg ro rb rd) s) a .byte ∧
    StopsAsWrite (exec (.thumbStrhReg ro rb rd) s) a .half ∧
    (∀ off, StopsAsWrite (exec (.thumbStrSp rd off) s) (s.reg 13#4 + off.setWidth 32) .word) ∧
    (∀ off, StopsAsWrite (exec (.thumbStrImm off rb rd) s) (b + off.setWidth 32) .word) ∧
    (∀ off, StopsAsWrite (exec (.thumbStrbImm off rb rd) s) (b + off.setWidth 32) .byte) ∧
    (∀ off, StopsAsWrite (exec (.thumbStrhImm off rb rd) s) (b + off.setWidth 32) .half)) ∧
  (∀ (s : State) (c : Cond) (p u sb w : Bool) (rn : RegIdx) (rlist : BitVec 16), evaluate c s.flags = true →
    rlist ≠ 0#16 → rn ≠ 15#4 → (w = true → rlist.getLsbD rn.toNat = false) →
    (sb = true ∨ rlist.getLsbD 15 = true → s.profile = .arm7tdmi) →
    let base := s.reg rn
    let size : Word := BitVec.ofNat 32 (4 * rank rlist 16)
    let start := if u then (if p then base + 4#32 else base) else (if p then base - size else base - size + 4#32)
    StopsAsWrites (exec (.armStm c p u sb w rn rlist) s) base start (rank rlist 16)) ∧
  (∀ (s : State) (r : Bool) (rlist : BitVec 8),
    let n := rank (rlist.setWidth 16) 8 + r.toNat
    n ≠ 0 →
      StopsAsWrites (exec (.thumbPush r rlist) s) (s.reg 13#4) (s.reg 13#4 - BitVec.ofNat 32 (4 * n)) n) ∧
  (∀ (s : State) (rb : LowIdx) (rlist : BitVec 8), rlist ≠ 0#8 → rlist.getLsbD rb.toNat = false →
    StopsAsWrites (exec (.thumbStmia rb rlist) s) (s.reg (low rb)) (s.reg (low rb)) (rank (rlist.setWidth 16) 8))

/-- R84, R76: a read of the same width after a write that succeeds gives the low bytes of the value written. -/
def Obligations.ReadAfterWrite : Prop :=
  ∀ (s t : State) (a v : Word) (w : Width), s.store a w v = .ok t →
    t.load a w = .ok (v &&& (match w with | .byte => 0xFF#32 | .half => 0xFFFF#32 | .word => 0xFFFFFFFF#32), t)

/-! ## The units -/

/-- R215, R216: the condition evaluator's truth table; given a raw 4-bit code it raises OutOfRange(15) for 15 and
evaluates every other code. -/
def Obligations.ConditionTruthTable : Prop :=
  ∀ f : StatusFlags,
    (evaluate .eq f = true ↔ f.z = true) ∧ (evaluate .ne f = true ↔ f.z = false) ∧
    (evaluate .cs f = true ↔ f.c = true) ∧ (evaluate .cc f = true ↔ f.c = false) ∧
    (evaluate .mi f = true ↔ f.n = true) ∧ (evaluate .pl f = true ↔ f.n = false) ∧
    (evaluate .vs f = true ↔ f.v = true) ∧ (evaluate .vc f = true ↔ f.v = false) ∧
    (evaluate .hi f = true ↔ f.c = true ∧ f.z = false) ∧ (evaluate .ls f = true ↔ f.c = false ∨ f.z = true) ∧
    (evaluate .ge f = true ↔ f.n = f.v) ∧ (evaluate .lt f = true ↔ f.n ≠ f.v) ∧
    (evaluate .gt f = true ↔ f.z = false ∧ f.n = f.v) ∧ (evaluate .le f = true ↔ f.z = true ∨ f.n ≠ f.v) ∧
    evaluate .al f = true ∧
    [Cond.eq, .ne, .cs, .cc, .mi, .pl, .vs, .vc, .hi, .ls, .ge, .lt, .gt, .le, .al].map Cond.code =
      (List.range 15).map (BitVec.ofNat 4) ∧
    evaluateCode 15#4 f = .error (.outOfRange 15) ∧ ∀ c : Cond, evaluateCode c.code f = .ok (evaluate c f)

/-- R200, R201: the immediate operand is a true 32-bit rotate: bit k of the result is bit k + 2 rot, modulo 32, of the
8-bit value; the carry is the carry in for rot = 0 and the result's bit 31 otherwise. -/
def Obligations.RotatedImmediate : Prop :=
  ∀ (imm8 : BitVec 8) (rot : BitVec 4) (cIn : Bool),
    (∀ k < 32, (shifterImm imm8 rot cIn).value.getLsbD k =
      (imm8.setWidth 32 : Word).getLsbD ((k + 2 * rot.toNat) % 32)) ∧
    (shifterImm imm8 rot cIn).carryOut = if rot = 0#4 then cIn else (shifterImm imm8 rot cIn).value.getLsbD 31

/-- R204 to R208: the shifter's register form. By an immediate amount, 0 is the identity for LSL, a shift by 32 for LSR
and ASR, and rotate right with extend for ROR; by a register amount, every value of its low byte is a case. -/
def Obligations.ShifterForms : Prop :=
  ∀ (x : Word) (cIn : Bool),
    let fill := if x.getLsbD 31 then 0xFFFFFFFF#32 else 0#32
    let plain (ty : ShiftType) (n : Nat) : ShiftedOperand :=
      match ty with
      | .lsl => ⟨x <<< n, x.getLsbD (32 - n)⟩
      | .lsr => ⟨x >>> n, x.getLsbD (n - 1)⟩
      | .asr => ⟨x.sshiftRight n, x.getLsbD (n - 1)⟩
      | .ror => ⟨x.rotateRight n, x.getLsbD (n - 1)⟩
    shifterReg x .lsl (.imm 0#5) cIn = ⟨x, cIn⟩ ∧
    shifterReg x .lsr (.imm 0#5) cIn = ⟨0#32, x.getLsbD 31⟩ ∧
    shifterReg x .asr (.imm 0#5) cIn = ⟨fill, x.getLsbD 31⟩ ∧
    (shifterReg x .ror (.imm 0#5) cIn).carryOut = x.getLsbD 0 ∧
    (∀ k < 32, (shifterReg x .ror (.imm 0#5) cIn).value.getLsbD k = if k = 31 then cIn else x.getLsbD (k + 1)) ∧
    (∀ (n : BitVec 5) (ty : ShiftType), n ≠ 0#5 → shifterReg x ty (.imm n) cIn = plain ty n.toNat) ∧
    ∀ b : Byte,
      let n := b.toNat
      (n = 0 → ∀ ty, shifterReg x ty (.reg b) cIn = ⟨x, cIn⟩) ∧
      (1 ≤ n → n ≤ 31 → ∀ ty, shifterReg x ty (.reg b) cIn = plain ty n) ∧
      (n = 32 → shifterReg x .lsl (.reg b) cIn = ⟨0#32, x.getLsbD 0⟩ ∧
        shifterReg x .lsr (.reg b) cIn = ⟨0#32, x.getLsbD 31⟩) ∧
      (33 ≤ n → shifterReg x .lsl (.reg b) cIn = ⟨0#32, false⟩ ∧
        shifterReg x .lsr (.reg b) cIn = ⟨0#32, false⟩) ∧
      (32 ≤ n → shifterReg x .asr (.reg b) cIn = ⟨fill, x.getLsbD 31⟩) ∧
      (32 ≤ n → n % 32 = 0 → shifterReg x .ror (.reg b) cIn = ⟨x, x.getLsbD 31⟩) ∧
      (32 ≤ n → n % 32 ≠ 0 → shifterReg x .ror (.reg b) cIn = plain .ror (n % 32))

/-- R221 to R230: the ALU's results and flags; the overflow by the operands' and the result's signs, which is that the
exact result lies outside the signed range. -/
def Obligations.AluResultsAndFlags : Prop :=
  ∀ (a : Word) (sh : ShiftedOperand) (f : StatusFlags),
    let b := sh.value
    let logical (op : AluOp) (r : Word) (w : Bool) : Prop :=
      alu op a sh f true = ⟨r, flagsFrom r sh.carryOut f.v, w⟩ ∧ alu op a sh f false = ⟨r, f, w⟩
    let arith (op : AluOp) (r : Word) (c v w : Bool) : Prop :=
      alu op a sh f true = ⟨r, flagsFrom r c v, w⟩ ∧ alu op a sh f false = ⟨r, f, w⟩
    logical .and (a &&& b) true ∧ logical .tst (a &&& b) false ∧ logical .eor (a ^^^ b) true ∧
    logical .teq (a ^^^ b) false ∧ logical .orr (a ||| b) true ∧ logical .bic (a &&& ~~~b) true ∧
    logical .mov b true ∧ logical .mvn (~~~b) true ∧
    arith .sub (a - b) (subCarry a b true) (subOverflow a b (a - b)) true ∧
    arith .cmp (a - b) (subCarry a b true) (subOverflow a b (a - b)) false ∧
    arith .rsb (b - a) (subCarry b a true) (subOverflow b a (b - a)) true ∧
    arith .add (a + b) (addCarry a b false) (addOverflow a b (a + b)) true ∧
    arith .cmn (a + b) (addCarry a b false) (addOverflow a b (a + b)) false ∧
    (let r := a + b + carryWord f.c
     arith .adc r (addCarry a b f.c) (addOverflow a b r) true) ∧
    (let r := a - b + carryWord f.c - 1#32
     arith .sbc r (subCarry a b f.c) (subOverflow a b r) true) ∧
    (let r := b - a + carryWord f.c - 1#32
     arith .rsc r (subCarry b a f.c) (subOverflow b a r) true) ∧
    let outside (z : Int) : Bool := decide (z < -2 ^ 31) || decide (2 ^ 31 ≤ z)
    ∀ (x y : Word) (ci : Bool),
      addOverflow x y (x + y + carryWord ci) = outside (x.toInt + y.toInt + ci.toNat) ∧
      subOverflow x y (x - y + carryWord ci - 1#32) = outside (x.toInt - y.toInt + ci.toNat - 1)

/-- R235, R261, R41: the second operand in each form; R15 reads as pc + 8, or pc + 12 beside a register amount, of
which only the low byte counts; R15 as the amount faults. -/
def Obligations.SecondOperandForms : Prop :=
  ∀ (s : State),
    (∀ rot imm8, operand2Value s (.imm rot imm8) = .ok (shifterImm imm8 rot s.flags.c)) ∧
    (∀ rm ty n, operand2Value s (.regImm rm ty n) =
      .ok (shifterReg (if rm = 15#4 then s.pc + 8#32 else s.reg rm) ty (.imm n) s.flags.c)) ∧
    (∀ rm ty rs, rs ≠ 15#4 → operand2Value s (.regReg rm ty rs) =
      .ok (shifterReg (if rm = 15#4 then s.pc + 12#32 else s.reg rm) ty (.reg ((s.reg rs).setWidth 8)) s.flags.c)) ∧
    (∀ rm ty, operand2Value s (.regReg rm ty 15#4) = .error (.fault (.unpredictable .shiftByPc)))

/-- R45, R46: the address helpers. -/
def Obligations.AddressHelpers : Prop :=
  (∀ addr : Word, thumbPcBase addr = (addr + 4#32) &&& ~~~2#32) ∧
  (∀ (addr : Word) (off : BitVec 24), armBranchTarget addr off = addr + 8#32 + BitVec.ofInt 32 (4 * off.toInt)) ∧
  (∀ (addr : Word) (off : BitVec 9), thumbBranchTarget addr off = addr + 4#32 + BitVec.ofInt 32 off.toInt) ∧
  (∀ (addr : Word) (off : BitVec 12), thumbBranchTarget addr off = addr + 4#32 + BitVec.ofInt 32 off.toInt)

/-! ## ARM instructions -/

/-- R262, R263, R274 to R277, R261, R41: the logical operations and moves. R15 reads as pc + 8, or pc + 12 beside a
register amount. Rd = R15 with S = 1 is `FlagSettingPcWritesReturn`. -/
def Obligations.ArmLogicalResults : Prop :=
  ∀ (s : State) (c : Cond) (f : Bool) (rn rd : RegIdx) (op2 : Operand2) (sh : ShiftedOperand),
    evaluate c s.flags = true → operand2Value s op2 = .ok sh → f = false ∨ rd ≠ 15#4 →
    let a := if rn = 15#4 then s.pc + (match op2 with | .regReg _ _ _ => 12#32 | .imm _ _ | .regImm _ _ _ => 8#32)
      else s.reg rn
    let ends (o : Out) (r : Word) : Prop :=
      EndsArm s o rd r (if f then flagsFrom r sh.carryOut s.flags.v else s.flags)
    ends (exec (.armAnd c f rn rd op2) s) (a &&& sh.value) ∧ ends (exec (.armEor c f rn rd op2) s) (a ^^^ sh.value) ∧
    ends (exec (.armOrr c f rn rd op2) s) (a ||| sh.value) ∧
    ends (exec (.armBic c f rn rd op2) s) (a &&& ~~~sh.value) ∧
    (s.sbzCheck = false ∨ rn = 0#4 →
      ends (exec (.armMov c f rn rd op2) s) sh.value ∧ ends (exec (.armMvn c f rn rd op2) s) (~~~sh.value))

/-- R264 to R269, R261, R41: the arithmetic operations. R15 reads as pc + 8, or pc + 12 beside a register amount. -/
def Obligations.ArmArithmeticResults : Prop :=
  ∀ (s : State) (c : Cond) (f : Bool) (rn rd : RegIdx) (op2 : Operand2) (sh : ShiftedOperand),
    evaluate c s.flags = true → operand2Value s op2 = .ok sh → f = false ∨ rd ≠ 15#4 →
    let a := if rn = 15#4 then s.pc + (match op2 with | .regReg _ _ _ => 12#32 | .imm _ _ | .regImm _ _ _ => 8#32)
      else s.reg rn
    let b := sh.value
    let ends (o : Out) (r : Word) (cy v : Bool) : Prop :=
      EndsArm s o rd r (if f then flagsFrom r cy v else s.flags)
    ends (exec (.armSub c f rn rd op2) s) (a - b) (subCarry a b true) (subOverflow a b (a - b)) ∧
    ends (exec (.armRsb c f rn rd op2) s) (b - a) (subCarry b a true) (subOverflow b a (b - a)) ∧
    ends (exec (.armAdd c f rn rd op2) s) (a + b) (addCarry a b false) (addOverflow a b (a + b)) ∧
    (let r := a + b + carryWord s.flags.c
     ends (exec (.armAdc c f rn rd op2) s) r (addCarry a b s.flags.c) (addOverflow a b r)) ∧
    (let r := a - b + carryWord s.flags.c - 1#32
     ends (exec (.armSbc c f rn rd op2) s) r (subCarry a b s.flags.c) (subOverflow a b r)) ∧
    (let r := b - a + carryWord s.flags.c - 1#32
     ends (exec (.armRsc c f rn rd op2) s) r (subCarry b a s.flags.c) (subOverflow b a r))

/-- R270 to R273, R261, R41: the compares, which change the flags alone. With Rd = R15, which R261, R43 and R611 say
copies the SPSR to the CPSR, they are refused in profile executorReference; in profile arm7tdmi they do copy it and the
pc advances, and in User and System mode, which have no SPSR, they are refused (log entries 1 and 13). -/
def Obligations.ArmCompareResults : Prop :=
  ∀ (s : State) (c : Cond) (rn rd : RegIdx) (op2 : Operand2) (sh : ShiftedOperand),
    evaluate c s.flags = true →
    let a := if rn = 15#4 then s.pc + (match op2 with | .regReg _ _ _ => 12#32 | .imm _ _ | .regImm _ _ _ => 8#32)
      else s.reg rn
    let b := sh.value
    let ends (o : Out) (fl : StatusFlags) : Prop :=
      (operand2Value s op2 = .ok sh → s.sbzCheck = false ∨ rd = 0#4 → rd ≠ 15#4 → EndsFlags s o (s.pc + 4#32) fl) ∧
      (rd = 15#4 →
        (s.profile = .executorReference → o = .refused .spsrCopy) ∧
        (s.profile = .arm7tdmi → s.spsrNow = none → o = .refused .noSpsr) ∧
        (s.profile = .arm7tdmi → s.sbzCheck = false → operand2Value s op2 = .ok sh → ∀ p, s.spsrNow = some p →
          o = .next { s with cpsr := p, pc := s.pc + 4#32 }))
    ends (exec (.armTst c rn rd op2) s) (flagsFrom (a &&& b) sh.carryOut s.flags.v) ∧
    ends (exec (.armTeq c rn rd op2) s) (flagsFrom (a ^^^ b) sh.carryOut s.flags.v) ∧
    ends (exec (.armCmp c rn rd op2) s) (flagsFrom (a - b) (subCarry a b true) (subOverflow a b (a - b))) ∧
    ends (exec (.armCmn c rn rd op2) s) (flagsFrom (a + b) (addCarry a b false) (addOverflow a b (a + b)))

/-- R280, R48, in profile arm7tdmi (log entry 1): MRS gives the PSR's flags, I, F, T and mode; bits 27 to 8 are left
open (log entry 10). That it is refused with P = 1 in a mode without an SPSR (log entry 13), and that with Rd = R15 the
value goes to the pc (log entry 22), is the model's choice. -/
def Obligations.MrsReadsThePsr : Prop :=
  ∀ (s : State) (c : Cond) (i p : Bool) (rd : RegIdx) (sbz : BitVec 12),
    evaluate c s.flags = true → s.profile = .arm7tdmi →
    (p = true → s.spsrNow = none → exec (.armMrs c i p rd sbz) s = .refused .noSpsr) ∧
    ∀ q : Psr, (if p then s.spsrNow = some q else q = s.cpsr) → s.sbzCheck = false ∨ sbz = 0#12 →
      Completes (exec (.armMrs c i p rd sbz) s) fun t => ∃ v : Word,
        (if rd = 15#4 then t.pc = v else t.reg rd = v ∧ t.pc = s.pc + 4#32) ∧
        v.getLsbD 31 = q.flags.n ∧ v.getLsbD 30 = q.flags.z ∧ v.getLsbD 29 = q.flags.c ∧ v.getLsbD 28 = q.flags.v ∧
        v.getLsbD 7 = q.irqDisable ∧ v.getLsbD 6 = q.fiqDisable ∧ v.getLsbD 5 = q.thumb ∧
        v.extractLsb' 0 5 = (match q.mode with
          | .user => 0b10000#5
          | .fiq => 0b10001#5
          | .irq => 0b10010#5
          | .supervisor => 0b10011#5
          | .abort => 0b10111#5
          | .undefined => 0b11011#5
          | .system => 0b11111#5) ∧
        t.flags = s.flags ∧ Frame s t (bank s [rd]) ∧ SameBytes s t

/-- R281: MSR writes the four flags of the CPSR, in every mode, or, in profile arm7tdmi (log entry 1), of the current
mode's SPSR, from bits 31 to 28 of a register or a rotated immediate, and nothing else. That MSR to an SPSR is refused
in User and System mode, which have none, is the model's choice (log entry 13). -/
def Obligations.MsrWritesTheFlags : Prop :=
  ∀ (s : State) (c : Cond) (p : Bool) (sbo : BitVec 4) (src : MsrSource) (v : Word),
    evaluate c s.flags = true →
    (match src with
      | .imm rot imm8 => v = (shifterImm imm8 rot s.flags.c).value ∧ (s.sbzCheck = false ∨ sbo = 0xF#4)
      | .reg sbz rm => v = s.reg rm ∧ rm ≠ 15#4 ∧ (s.sbzCheck = false ∨ (sbo = 0xF#4 ∧ sbz = 0#8))) →
    let fl : StatusFlags := ⟨v.getLsbD 31, v.getLsbD 30, v.getLsbD 29, v.getLsbD 28⟩
    (p = false → exec (.armMsr c p sbo src) s =
      .next { s with cpsr := { s.cpsr with flags := fl }, pc := s.pc + 4#32 }) ∧
    (p = true → s.profile = .arm7tdmi → s.spsrNow = none → exec (.armMsr c p sbo src) s = .refused .noSpsr) ∧
    (p = true → s.profile = .arm7tdmi → ∀ old, s.spsrNow = some old →
      Completes (exec (.armMsr c p sbo src) s) fun t =>
        t.spsrNow = some { old with flags := fl } ∧
        (∀ k, spsrIndex s.cpsr.mode ≠ some k → t.spsr.get k = s.spsr.get k) ∧
        t.cpsr = s.cpsr ∧ t.regs = s.regs ∧ t.pc = s.pc + 4#32 ∧ SameBytes s t)

/-- R300, R301, R443: MUL, MLA and THUMB MUL, which sets flags. Where flags are set N and Z are the result's, the carry
is left open (log entry 9) and V is unchanged. -/
def Obligations.MultiplyResults : Prop :=
  ∀ (s : State),
    let ends (o : Out) (rd : RegIdx) (size : Word) (f : Bool) (r : Word) : Prop :=
      Completes o fun t => t.reg rd = r ∧ t.pc = s.pc + size ∧
        (if f then ∃ cy, t.flags = flagsFrom r cy s.flags.v else t.flags = s.flags) ∧
        Frame s t (bank s [rd]) ∧ SameBytes s t
    (∀ c f rd rn rs rm, evaluate c s.flags = true → rd ≠ 15#4 → rm ≠ 15#4 → rs ≠ 15#4 → rd ≠ rm →
      (s.sbzCheck = false ∨ rn = 0#4 → ends (exec (.armMul c f rd rn rs rm) s) rd 4#32 f (s.reg rm * s.reg rs)) ∧
      (rn ≠ 15#4 → ends (exec (.armMla c f rd rn rs rm) s) rd 4#32 f (s.reg rm * s.reg rs + s.reg rn))) ∧
    (∀ rs rd, rd ≠ rs →
      ends (exec (.thumbMul rs rd) s) (low rd) 2#32 true (s.reg (low rs) * s.reg (low rd)))

/-- R302 to R305: the long multiplies, computed in integers. With S = 1 the carry and V are left open (log entry 9). -/
def Obligations.LongMultiplyResults : Prop :=
  ∀ (s : State) (c : Cond) (f : Bool) (hi lo rs rm : RegIdx),
    evaluate c s.flags = true → hi ≠ 15#4 → lo ≠ 15#4 → rm ≠ 15#4 → rs ≠ 15#4 → hi ≠ lo → hi ≠ rm → lo ≠ rm →
    let acc : Nat := (s.reg hi).toNat * 2 ^ 32 + (s.reg lo).toNat
    let ends (o : Out) (p : BitVec 64) : Prop :=
      Completes o fun t => t.reg lo = p.setWidth 32 ∧ t.reg hi = (p >>> 32).setWidth 32 ∧ t.pc = s.pc + 4#32 ∧
        (if f then t.flags.n = p.getLsbD 63 ∧ t.flags.z = decide (p = 0#64) else t.flags = s.flags) ∧
        Frame s t (bank s [lo, hi]) ∧ SameBytes s t
    ends (exec (.armUmull c f hi lo rs rm) s) (BitVec.ofNat 64 ((s.reg rm).toNat * (s.reg rs).toNat)) ∧
    ends (exec (.armUmlal c f hi lo rs rm) s) (BitVec.ofNat 64 ((s.reg rm).toNat * (s.reg rs).toNat + acc)) ∧
    ends (exec (.armSmull c f hi lo rs rm) s) (BitVec.ofInt 64 ((s.reg rm).toInt * (s.reg rs).toInt)) ∧
    ends (exec (.armSmlal c f hi lo rs rm) s) (BitVec.ofInt 64 ((s.reg rm).toInt * (s.reg rs).toInt + acc))

/-- R306, R307: SWP and SWPB give Rd the old memory and memory the old Rm, which may be Rd. -/
def Obligations.SwapResults : Prop :=
  ∀ (s : State) (c : Cond) (rn rd : RegIdx) (sbz : BitVec 4) (rm : RegIdx),
    evaluate c s.flags = true → rn ≠ 15#4 → rd ≠ 15#4 → rm ≠ 15#4 → rn ≠ rd → rn ≠ rm →
    s.sbzCheck = false ∨ sbz = 0#4 →
    let a := s.reg rn
    let ends (o : Out) (w : Width) : Prop :=
      Writable a w → Completes o fun t => t.reg rd = leValue s a.toNat w ∧ Holds t a.toNat w.bytes (s.reg rm) ∧
        SameOutside s t a.toNat w.bytes ∧ t.pc = s.pc + 4#32 ∧ t.flags = s.flags ∧ Frame s t (bank s [rd])
    ends (exec (.armSwp c rn rd sbz rm) s) .word ∧ ends (exec (.armSwpb c rn rd sbz rm) s) .byte

/-- R310, R425, R49: BX, in both states: T takes bit 0 of the target and the pc the rest; in THUMB state R15 reads as
pc + 4. Nothing else changes. -/
def Obligations.BranchExchangeResults : Prop :=
  ∀ (s : State),
    let ends (o : Out) (x : Word) : Prop :=
      o = .next { s with cpsr := { s.cpsr with thumb := x.getLsbD 0 }, pc := x &&& 0xFFFFFFFE#32 }
    (∀ c rn, evaluate c s.flags = true → rn ≠ 15#4 → ends (exec (.armBx c rn) s) (s.reg rn)) ∧
    (∀ rs sbz, s.sbzCheck = false ∨ sbz = 0#3 →
      ends (exec (.thumbBx rs sbz) s) (if rs = 15#4 then s.pc + 4#32 else s.reg rs))

/-- R330, R331, R333: LDR and LDRB, with every offset, index and write-back form; R335, R89, in profile arm7tdmi (log
entries 1 and 15): LDRT and LDRBT, post-indexed with write-back. -/
def Obligations.ArmLoadResults : Prop :=
  ∀ (s : State) (c : Cond) (p u w : Bool) (rn rd : RegIdx) (off : Offset) (o : Word),
    evaluate c s.flags = true →
    (match off with
      | .imm off12 => o = off12.setWidth 32
      | .reg rm ty n => rm ≠ 15#4 ∧ o = (shifterReg (s.reg rm) ty (.imm n) s.flags.c).value) →
    let base := if rn = 15#4 then s.pc + 8#32 else s.reg rn
    let ea := if u then base + o else base - o
    let a := if p then ea else base
    let wb := !p || w
    (p = true ∨ w = false → (wb = true → rn ≠ 15#4 ∧ rn ≠ rd) →
      (Readable a .word → EndsLoad s (exec (.armLdr c p u w rn rd off) s) a .word false wb rn rd ea) ∧
      (Readable a .byte → EndsLoad s (exec (.armLdrb c p u w rn rd off) s) a .byte false wb rn rd ea)) ∧
    (s.profile = .arm7tdmi → rn ≠ 15#4 → rn ≠ rd →
      (Readable base .word → EndsLoad s (exec (.armLdrt c u rn rd off) s) base .word false true rn rd ea) ∧
      (Readable base .byte → EndsLoad s (exec (.armLdrbt c u rn rd off) s) base .byte false true rn rd ea))

/-- R330, R332, R334: STR and STRB, with every offset, index and write-back form; R335, R89, in profile arm7tdmi (log
entries 1 and 15): STRT and STRBT. What R15 stores, in profile arm7tdmi, is left open (log entry 11). -/
def Obligations.ArmStoreResults : Prop :=
  ∀ (s : State) (c : Cond) (p u w : Bool) (rn rd : RegIdx) (off : Offset) (o : Word),
    evaluate c s.flags = true → rd ≠ 15#4 ∨ s.profile = .arm7tdmi →
    (match off with
      | .imm off12 => o = off12.setWidth 32
      | .reg rm ty n => rm ≠ 15#4 ∧ o = (shifterReg (s.reg rm) ty (.imm n) s.flags.c).value) →
    let base := if rn = 15#4 then s.pc + 8#32 else s.reg rn
    let ea := if u then base + o else base - o
    let a := if p then ea else base
    let wb := !p || w
    (p = true ∨ w = false → (wb = true → rn ≠ 15#4 ∧ rn ≠ rd) →
      (Writable a .word → EndsStore s (exec (.armStr c p u w rn rd off) s) a .word wb rn rd ea) ∧
      (Writable a .byte → EndsStore s (exec (.armStrb c p u w rn rd off) s) a .byte wb rn rd ea)) ∧
    (s.profile = .arm7tdmi → rn ≠ 15#4 → rn ≠ rd →
      (Writable base .word → EndsStore s (exec (.armStrt c u rn rd off) s) base .word true rn rd ea) ∧
      (Writable base .byte → EndsStore s (exec (.armStrbt c u rn rd off) s) base .byte true rn rd ea))

/-- R340 to R344: LDRH, LDRSB, LDRSH and STRH, with every offset and index form; P = 0 with W = 1 is refused. R342
refuses STRH of R15; that it runs in profile arm7tdmi is the model's choice (log entry 1), and what it stores is left
open (log entry 11). -/
def Obligations.HalfwordTransferResults : Prop :=
  ∀ (s : State) (c : Cond) (p u w : Bool) (rn rd : RegIdx) (off : HalfOffset) (o : Word),
    evaluate c s.flags = true →
    (match off with
      | .imm off8 => o = off8.setWidth 32
      | .reg sbz rm => o = s.reg rm ∧ rm ≠ 15#4 ∧ (s.sbzCheck = false ∨ sbz = 0#4)) →
    let base := if rn = 15#4 then s.pc + 8#32 else s.reg rn
    let ea := if u then base + o else base - o
    let a := if p then ea else base
    let wb := !p || w
    (p = false → w = true → exec (.armLdrh c p u w rn rd off) s = .refused .halfwordPostWriteBack ∧
      exec (.armLdrsb c p u w rn rd off) s = .refused .halfwordPostWriteBack ∧
      exec (.armLdrsh c p u w rn rd off) s = .refused .halfwordPostWriteBack ∧
      exec (.armStrh c p u w rn rd off) s = .refused .halfwordPostWriteBack) ∧
    (p = true ∨ w = false → (wb = true → rn ≠ 15#4 ∧ rn ≠ rd) →
      (Readable a .half → EndsLoad s (exec (.armLdrh c p u w rn rd off) s) a .half false wb rn rd ea) ∧
      (Readable a .byte → EndsLoad s (exec (.armLdrsb c p u w rn rd off) s) a .byte true wb rn rd ea) ∧
      (Readable a .half → EndsLoad s (exec (.armLdrsh c p u w rn rd off) s) a .half true wb rn rd ea) ∧
      (rd ≠ 15#4 ∨ s.profile = .arm7tdmi → Writable a .half →
        EndsStore s (exec (.armStrh c p u w rn rd off) s) a .half wb rn rd ea))

/-- R350, R351: LDM in every addressing mode: the k-th register of the list takes the k-th word, the lowest register
the lowest address; with S = 1 and no R15 in the list (R353, profile arm7tdmi, log entries 1 and 14) the User bank's. -/
def Obligations.BlockLoadResults : Prop :=
  ∀ (s : State) (c : Cond) (p u sb w : Bool) (rn : RegIdx) (rlist : BitVec 16),
    evaluate c s.flags = true → rlist ≠ 0#16 → rn ≠ 15#4 → (w = true → rlist.getLsbD rn.toNat = false) →
    (sb = true → s.profile = .arm7tdmi ∧ rlist.getLsbD 15 = false) →
    let m := if sb then Mode.user else s.cpsr.mode
    let n := rank rlist 16
    let base := s.reg rn
    let size : Word := BitVec.ofNat 32 (4 * n)
    let start := if u then (if p then base + 4#32 else base) else (if p then base - size else base - size + 4#32)
    let slot (i : Nat) : Word := start + BitVec.ofNat 32 (4 * rank rlist i)
    base.toNat % 4 = 0 → (∀ i < 16, rlist.getLsbD i = true → Readable (slot i) .word) →
    Completes (exec (.armLdm c p u sb w rn rlist) s) fun t =>
      (∀ i : RegIdx, rlist.getLsbD i.toNat = true → i ≠ 15#4 → MayRead s (slot i.toNat) .word (t.regIn m i)) ∧
      (if rlist.getLsbD 15 then MayRead s (slot 15) .word t.pc else t.pc = s.pc + 4#32) ∧
      (w = true → t.reg rn = if u then base + size else base - size) ∧ t.flags = s.flags ∧
      Frame s t (fun k => (∃ i : RegIdx, rlist.getLsbD i.toNat = true ∧ i ≠ 15#4 ∧ physIndex m i = k) ∨
        (w = true ∧ physIndex s.cpsr.mode rn = k)) ∧
      SameBytes s t

/-- R353, R615, in profile arm7tdmi (log entries 1 and 13): LDM with S = 1 and R15 in the list loads the current
bank, takes the mode's SPSR into the CPSR and the word loaded for R15 into the pc. -/
def Obligations.BlockLoadReturns : Prop :=
  ∀ (s : State) (c : Cond) (p u w : Bool) (rn : RegIdx) (rlist : BitVec 16) (q : Psr),
    evaluate c s.flags = true → rn ≠ 15#4 → (w = true → rlist.getLsbD rn.toNat = false) →
    s.profile = .arm7tdmi → rlist.getLsbD 15 = true → s.spsrNow = some q →
    let n := rank rlist 16
    let base := s.reg rn
    let size : Word := BitVec.ofNat 32 (4 * n)
    let start := if u then (if p then base + 4#32 else base) else (if p then base - size else base - size + 4#32)
    let slot (i : Nat) : Word := start + BitVec.ofNat 32 (4 * rank rlist i)
    base.toNat % 4 = 0 → (∀ i < 16, rlist.getLsbD i = true → Readable (slot i) .word) →
    Completes (exec (.armLdm c p u true w rn rlist) s) fun t =>
      t.cpsr = q ∧ MayRead s (slot 15) .word t.pc ∧
      (∀ i : RegIdx, rlist.getLsbD i.toNat = true → i ≠ 15#4 →
        MayRead s (slot i.toNat) .word (t.regIn s.cpsr.mode i)) ∧
      (w = true → t.regIn s.cpsr.mode rn = if u then base + size else base - size) ∧
      (∀ k : Fin 30, (∀ i : RegIdx, rlist.getLsbD i.toNat = true → i ≠ 15#4 → physIndex s.cpsr.mode i ≠ k) →
        (w = true → physIndex s.cpsr.mode rn ≠ k) → t.regs.get k = s.regs.get k) ∧
      t.spsr = s.spsr ∧ SameBytes s t

/-- R350, R352: STM in every addressing mode: the k-th word takes the k-th register of the list. With S = 1 (R353)
the registers are the User bank's, and what R15 stores is left open, both in profile arm7tdmi (log entries 1, 11 and
14). -/
def Obligations.BlockStoreResults : Prop :=
  ∀ (s : State) (c : Cond) (p u sb w : Bool) (rn : RegIdx) (rlist : BitVec 16),
    evaluate c s.flags = true → rlist ≠ 0#16 → rn ≠ 15#4 → (w = true → rlist.getLsbD rn.toNat = false) →
    (sb = true ∨ rlist.getLsbD 15 = true → s.profile = .arm7tdmi) →
    let m := if sb then Mode.user else s.cpsr.mode
    let n := rank rlist 16
    let base := s.reg rn
    let size : Word := BitVec.ofNat 32 (4 * n)
    let start := if u then (if p then base + 4#32 else base) else (if p then base - size else base - size + 4#32)
    let slot (i : Nat) : Word := start + BitVec.ofNat 32 (4 * rank rlist i)
    base.toNat % 4 = 0 → (∀ i < 16, rlist.getLsbD i = true → Writable (slot i) .word) →
    Completes (exec (.armStm c p u sb w rn rlist) s) fun t =>
      (∀ i : RegIdx, rlist.getLsbD i.toNat = true → i ≠ 15#4 → Holds t (slot i.toNat).toNat 4 (s.regIn m i)) ∧
      SameOutside s t start.toNat (4 * n) ∧ t.pc = s.pc + 4#32 ∧
      (w = true → t.reg rn = if u then base + size else base - size) ∧ t.flags = s.flags ∧
      Frame s t (bank s (if w then [rn] else []))

/-- R380, R381: B and BL: the target is pc + 8 + 4 offset, and BL's R14 the next instruction's address. -/
def Obligations.ArmBranchResults : Prop :=
  ∀ (s : State) (c : Cond) (offset : BitVec 24), evaluate c s.flags = true →
    let target := s.pc + 8#32 + BitVec.ofInt 32 (4 * offset.toInt)
    exec (.armB c offset) s = .next { s with pc := target } ∧
    Completes (exec (.armBl c offset) s) fun t =>
      t.pc = target ∧ t.reg 14#4 = s.pc + 4#32 ∧ t.flags = s.flags ∧ Frame s t (bank s [14#4]) ∧ SameBytes s t

/-! ## THUMB instructions -/

/-- R411 to R413, R432 to R434, R437: the shifts by an immediate and by a register's low byte: the shifter's value,
N and Z of it, its carry, V unchanged. -/
def Obligations.ThumbShiftResults : Prop :=
  ∀ (s : State) (rs rd : LowIdx),
    let ends (o : Out) (sh : ShiftedOperand) : Prop :=
      EndsThumb s o rd sh.value (flagsFrom sh.value sh.carryOut s.flags.v)
    let amount : ShiftAmount := .reg ((s.reg (low rs)).setWidth 8)
    (∀ off5,
      ends (exec (.thumbLslImm off5 rs rd) s) (shifterReg (s.reg (low rs)) .lsl (.imm off5) s.flags.c) ∧
      ends (exec (.thumbLsrImm off5 rs rd) s) (shifterReg (s.reg (low rs)) .lsr (.imm off5) s.flags.c) ∧
      ends (exec (.thumbAsrImm off5 rs rd) s) (shifterReg (s.reg (low rs)) .asr (.imm off5) s.flags.c)) ∧
    ends (exec (.thumbLslReg rs rd) s) (shifterReg (s.reg (low rd)) .lsl amount s.flags.c) ∧
    ends (exec (.thumbLsrReg rs rd) s) (shifterReg (s.reg (low rd)) .lsr amount s.flags.c) ∧
    ends (exec (.thumbAsrReg rs rd) s) (shifterReg (s.reg (low rd)) .asr amount s.flags.c) ∧
    ends (exec (.thumbRorReg rs rd) s) (shifterReg (s.reg (low rd)) .ror amount s.flags.c)

/-- R414 to R417, R419 to R421, R435, R436, R439 to R441: additions, subtractions and compares, with all four flags;
a compare writes no register. -/
def Obligations.ThumbArithmeticResults : Prop :=
  ∀ (s : State) (rn rs rd : LowIdx) (imm3 : BitVec 3) (imm8 : BitVec 8),
    let x := s.reg (low rs)
    let y := s.reg (low rd)
    let add (o : Out) (a b : Word) (ci : Bool) : Prop :=
      let r := a + b + carryWord ci
      EndsThumb s o rd r (flagsFrom r (addCarry a b ci) (addOverflow a b r))
    let sub (o : Out) (a b : Word) (ci : Bool) : Prop :=
      let r := a - b + carryWord ci - 1#32
      EndsThumb s o rd r (flagsFrom r (subCarry a b ci) (subOverflow a b r))
    let compare (o : Out) (a b : Word) : Prop :=
      EndsFlags s o (s.pc + 2#32) (flagsFrom (a - b) (subCarry a b true) (subOverflow a b (a - b)))
    add (exec (.thumbAddReg rn rs rd) s) x (s.reg (low rn)) false ∧
    add (exec (.thumbAddImm3 imm3 rs rd) s) x (imm3.setWidth 32) false ∧
    add (exec (.thumbAddImm8 rd imm8) s) y (imm8.setWidth 32) false ∧
    add (exec (.thumbAdc rs rd) s) y x s.flags.c ∧
    sub (exec (.thumbSubReg rn rs rd) s) x (s.reg (low rn)) true ∧
    sub (exec (.thumbSubImm3 imm3 rs rd) s) x (imm3.setWidth 32) true ∧
    sub (exec (.thumbSubImm8 rd imm8) s) y (imm8.setWidth 32) true ∧
    sub (exec (.thumbNeg rs rd) s) 0#32 x true ∧
    sub (exec (.thumbSbc rs rd) s) y x s.flags.c ∧
    compare (exec (.thumbCmpImm8 rd imm8) s) y (imm8.setWidth 32) ∧
    compare (exec (.thumbCmpReg rs rd) s) y x ∧
    EndsFlags s (exec (.thumbCmn rs rd) s) (s.pc + 2#32)
      (flagsFrom (y + x) (addCarry y x false) (addOverflow y x (y + x)))

/-- R418, R430, R431, R438, R442, R444, R445: moves and logic: N and Z of the result, C and V unchanged; TST writes no
register. -/
def Obligations.ThumbLogicalResults : Prop :=
  ∀ (s : State) (rs rd : LowIdx) (imm8 : BitVec 8),
    let x := s.reg (low rs)
    let y := s.reg (low rd)
    let ends (o : Out) (r : Word) : Prop := EndsThumb s o rd r (flagsFrom r s.flags.c s.flags.v)
    ends (exec (.thumbMovImm8 rd imm8) s) (imm8.setWidth 32) ∧
    ends (exec (.thumbAnd rs rd) s) (y &&& x) ∧ ends (exec (.thumbEor rs rd) s) (y ^^^ x) ∧
    ends (exec (.thumbOrr rs rd) s) (y ||| x) ∧ ends (exec (.thumbBic rs rd) s) (y &&& ~~~x) ∧
    ends (exec (.thumbMvn rs rd) s) (~~~x) ∧
    EndsFlags s (exec (.thumbTst rs rd) s) (s.pc + 2#32) (flagsFrom (y &&& x) s.flags.c s.flags.v)

/-- R422 to R424, R41: the high-register ADD, CMP and MOV: R15 reads as pc + 4, and as a destination takes the value
with bit 0 clear; only CMP sets flags. -/
def Obligations.HighRegisterResults : Prop :=
  ∀ (s : State) (rs rd : RegIdx),
    let x := if rs = 15#4 then s.pc + 4#32 else s.reg rs
    let y := if rd = 15#4 then s.pc + 4#32 else s.reg rd
    let ends (o : Out) (r : Word) : Prop :=
      Completes o fun t =>
        (if rd = 15#4 then t.pc = r &&& 0xFFFFFFFE#32 else t.reg rd = r ∧ t.pc = s.pc + 2#32) ∧
        t.flags = s.flags ∧ Frame s t (bank s [rd]) ∧ SameBytes s t
    ends (exec (.thumbAddHi rs rd) s) (y + x) ∧ ends (exec (.thumbMovHi rs rd) s) x ∧
    EndsFlags s (exec (.thumbCmpHi rs rd) s) (s.pc + 2#32)
      (flagsFrom (y - x) (subCarry y x true) (subOverflow y x (y - x)))

/-- R450 to R452: the address arithmetic on PC and SP; no flag changes. -/
def Obligations.ThumbAddressResults : Prop :=
  ∀ (s : State),
    (∀ rd off, EndsThumb s (exec (.thumbAddPc rd off) s) rd
      (((s.pc + 4#32) &&& ~~~2#32) + off.setWidth 32) s.flags) ∧
    (∀ rd off, EndsThumb s (exec (.thumbAddSp rd off) s) rd (s.reg 13#4 + off.setWidth 32) s.flags) ∧
    (∀ sb m, Completes (exec (.thumbAdjustSp sb m) s) fun t =>
      t.reg 13#4 = (if sb then s.reg 13#4 - m.setWidth 32 else s.reg 13#4 + m.setWidth 32) ∧
      t.pc = s.pc + 2#32 ∧ t.flags = s.flags ∧ Frame s t (bank s [13#4]) ∧ SameBytes s t)

/-- R461 to R477: the THUMB loads and stores of one register. -/
def Obligations.ThumbTransferResults : Prop :=
  ∀ (s : State) (ro rb rd : LowIdx),
    let pcBase : Word := (s.pc + 4#32) &&& ~~~2#32
    let b := s.reg (low rb)
    let a := b + s.reg (low ro)
    let loads (o : Out) (x : Word) (w : Width) (signed : Bool) : Prop :=
      Readable x w → EndsThumbLoad s o x w signed rd
    let stores (o : Out) (x : Word) (w : Width) : Prop := Writable x w → EndsThumbStore s o x w rd
    (∀ off : BitVec 10,
      loads (exec (.thumbLdrPc rd off) s) (pcBase + off.setWidth 32) .word false ∧
      loads (exec (.thumbLdrSp rd off) s) (s.reg 13#4 + off.setWidth 32) .word false ∧
      stores (exec (.thumbStrSp rd off) s) (s.reg 13#4 + off.setWidth 32) .word) ∧
    loads (exec (.thumbLdrReg ro rb rd) s) a .word false ∧ stores (exec (.thumbStrReg ro rb rd) s) a .word ∧
    loads (exec (.thumbLdrbReg ro rb rd) s) a .byte false ∧ stores (exec (.thumbStrbReg ro rb rd) s) a .byte ∧
    loads (exec (.thumbLdrhReg ro rb rd) s) a .half false ∧ stores (exec (.thumbStrhReg ro rb rd) s) a .half ∧
    loads (exec (.thumbLdsbReg ro rb rd) s) a .byte true ∧ loads (exec (.thumbLdshReg ro rb rd) s) a .half true ∧
    (∀ off : BitVec 7,
      loads (exec (.thumbLdrImm off rb rd) s) (b + off.setWidth 32) .word false ∧
      stores (exec (.thumbStrImm off rb rd) s) (b + off.setWidth 32) .word) ∧
    (∀ off : BitVec 5,
      loads (exec (.thumbLdrbImm off rb rd) s) (b + off.setWidth 32) .byte false ∧
      stores (exec (.thumbStrbImm off rb rd) s) (b + off.setWidth 32) .byte) ∧
    (∀ off : BitVec 6,
      loads (exec (.thumbLdrhImm off rb rd) s) (b + off.setWidth 32) .half false ∧
      stores (exec (.thumbStrhImm off rb rd) s) (b + off.setWidth 32) .half)

/-- R480: PUSH stores the list's registers, lowest at the lowest address, then R14 when R = 1, below R13, which then
points at them. -/
def Obligations.PushResult : Prop :=
  ∀ (s : State) (r : Bool) (rlist : BitVec 8),
    let l : BitVec 16 := rlist.setWidth 16
    let n := rank l 8 + r.toNat
    let start : Word := s.reg 13#4 - BitVec.ofNat 32 (4 * n)
    let slot (k : Nat) : Word := start + BitVec.ofNat 32 (4 * k)
    n ≠ 0 → (s.reg 13#4).toNat % 4 = 0 → (∀ k < n, Writable (slot k) .word) →
    Completes (exec (.thumbPush r rlist) s) fun t =>
      (∀ i : LowIdx, rlist.getLsbD i.toNat = true → Holds t (slot (rank l i.toNat)).toNat 4 (s.reg (low i))) ∧
      (r = true → Holds t (slot (rank l 8)).toNat 4 (s.reg 14#4)) ∧
      SameOutside s t start.toNat (4 * n) ∧ t.reg 13#4 = start ∧ t.pc = s.pc + 2#32 ∧ t.flags = s.flags ∧
      Frame s t (bank s [13#4])

/-- R481: POP loads the list's registers from R13 up, then the pc, with bit 0 clear and T as it was, when R = 1. -/
def Obligations.PopResult : Prop :=
  ∀ (s : State) (r : Bool) (rlist : BitVec 8),
    let l : BitVec 16 := rlist.setWidth 16
    let n := rank l 8 + r.toNat
    let sp := s.reg 13#4
    let slot (k : Nat) : Word := sp + BitVec.ofNat 32 (4 * k)
    n ≠ 0 → sp.toNat % 4 = 0 → (∀ k < n, Readable (slot k) .word) →
    Completes (exec (.thumbPop r rlist) s) fun t =>
      (∀ i : LowIdx, rlist.getLsbD i.toNat = true → MayRead s (slot (rank l i.toNat)) .word (t.reg (low i))) ∧
      (if r then ∃ v, MayRead s (slot (rank l 8)) .word v ∧ t.pc = v &&& 0xFFFFFFFE#32 else t.pc = s.pc + 2#32) ∧
      t.reg 13#4 = sp + BitVec.ofNat 32 (4 * n) ∧ t.flags = s.flags ∧
      Frame s t (fun k => (∃ i : LowIdx, rlist.getLsbD i.toNat = true ∧ physIndex s.cpsr.mode (low i) = k) ∨
        physIndex s.cpsr.mode 13#4 = k) ∧
      SameBytes s t

/-- R482, R483: STMIA and LDMIA: the list's registers and consecutive words from Rb up, then Rb past them. -/
def Obligations.ThumbBlockResults : Prop :=
  ∀ (s : State) (rb : LowIdx) (rlist : BitVec 8),
    let l : BitVec 16 := rlist.setWidth 16
    let n := rank l 8
    let b := s.reg (low rb)
    let slot (k : Nat) : Word := b + BitVec.ofNat 32 (4 * k)
    rlist ≠ 0#8 → rlist.getLsbD rb.toNat = false → b.toNat % 4 = 0 →
    ((∀ k < n, Writable (slot k) .word) →
      Completes (exec (.thumbStmia rb rlist) s) fun t =>
        (∀ i : LowIdx, rlist.getLsbD i.toNat = true →
          Holds t (slot (rank l i.toNat)).toNat 4 (s.reg (low i))) ∧
        SameOutside s t b.toNat (4 * n) ∧ t.reg (low rb) = b + BitVec.ofNat 32 (4 * n) ∧ t.pc = s.pc + 2#32 ∧
        t.flags = s.flags ∧ Frame s t (bank s [low rb])) ∧
    ((∀ k < n, Readable (slot k) .word) →
      Completes (exec (.thumbLdmia rb rlist) s) fun t =>
        (∀ i : LowIdx, rlist.getLsbD i.toNat = true →
          MayRead s (slot (rank l i.toNat)) .word (t.reg (low i))) ∧
        t.reg (low rb) = b + BitVec.ofNat 32 (4 * n) ∧ t.pc = s.pc + 2#32 ∧ t.flags = s.flags ∧
        Frame s t (fun k => (∃ i : LowIdx, rlist.getLsbD i.toNat = true ∧ physIndex s.cpsr.mode (low i) = k) ∨
          physIndex s.cpsr.mode (low rb) = k) ∧
        SameBytes s t)

/-- R330, R340, R350, R480 to R483, R611: in either profile an empty list, the base in the list with write-back, and
write-back with R15 as the base or with the base as the transfer register are refused. Block transfers with S = 1 and
the T forms come to these checks in profile arm7tdmi (log entries 1, 13, 14 and 15), and a halfword register offset when
its fixed field is right or unchecked (log entry 17). -/
def Obligations.TransferRefusals : Prop :=
  ∀ (s : State) (c : Cond), evaluate c s.flags = true →
    (∀ p u sb w rn, exec (.armLdm c p u sb w rn 0#16) s = .refused .emptyList ∧
      exec (.armStm c p u sb w rn 0#16) s = .refused .emptyList) ∧
    (∀ p u sb rn rlist, rn ≠ 15#4 → rlist.getLsbD rn.toNat = true → (sb = true → s.profile = .arm7tdmi) →
      ((sb = true → rlist.getLsbD 15 = true → s.spsrNow ≠ none) →
        exec (.armLdm c p u sb true rn rlist) s = .refused .baseInList) ∧
      exec (.armStm c p u sb true rn rlist) s = .refused .baseInList) ∧
    exec (.thumbPush false 0#8) s = .refused .emptyList ∧ exec (.thumbPop false 0#8) s = .refused .emptyList ∧
    (∀ rb, exec (.thumbStmia rb 0#8) s = .refused .emptyList ∧ exec (.thumbLdmia rb 0#8) s = .refused .emptyList) ∧
    (∀ rb rlist, rlist.getLsbD rb.toNat = true →
      exec (.thumbStmia rb rlist) s = .refused .baseInList ∧ exec (.thumbLdmia rb rlist) s = .refused .baseInList) ∧
    (∀ p u w rn rd, rn = 15#4 ∨ rn = rd →
      (p = w →
        (∀ off, exec (.armLdr c p u w rn rd off) s = .refused .writeBackConflict ∧
          exec (.armLdrb c p u w rn rd off) s = .refused .writeBackConflict ∧
          exec (.armStr c p u w rn rd off) s = .refused .writeBackConflict ∧
          exec (.armStrb c p u w rn rd off) s = .refused .writeBackConflict) ∧
        (∀ off : HalfOffset, (match off with | .imm _ => True | .reg sbz _ => s.sbzCheck = false ∨ sbz = 0#4) →
          exec (.armLdrh c p u w rn rd off) s = .refused .writeBackConflict ∧
          exec (.armLdrsb c p u w rn rd off) s = .refused .writeBackConflict ∧
          exec (.armLdrsh c p u w rn rd off) s = .refused .writeBackConflict ∧
          exec (.armStrh c p u w rn rd off) s = .refused .writeBackConflict)) ∧
      (s.profile = .arm7tdmi → ∀ off,
        exec (.armLdrt c u rn rd off) s = .refused .writeBackConflict ∧
        exec (.armLdrbt c u rn rd off) s = .refused .writeBackConflict ∧
        exec (.armStrt c u rn rd off) s = .refused .writeBackConflict ∧
        exec (.armStrbt c u rn rd off) s = .refused .writeBackConflict))

/-- R500: the fourteen conditional branches: the pc goes to pc + 4 + off when the condition passes and to pc + 2 when
it fails, and nothing else changes. -/
def Obligations.ThumbConditionalBranches : Prop :=
  ∀ (s : State) (off : BitVec 9),
    let ends (o : Out) (pass : Prop) : Prop :=
      (pass → o = .next { s with pc := s.pc + 4#32 + BitVec.ofInt 32 off.toInt }) ∧
      (¬pass → o = .next { s with pc := s.pc + 2#32 })
    let f := s.flags
    ends (exec (.thumbBeq off) s) (f.z = true) ∧ ends (exec (.thumbBne off) s) (f.z = false) ∧
    ends (exec (.thumbBcs off) s) (f.c = true) ∧ ends (exec (.thumbBcc off) s) (f.c = false) ∧
    ends (exec (.thumbBmi off) s) (f.n = true) ∧ ends (exec (.thumbBpl off) s) (f.n = false) ∧
    ends (exec (.thumbBvs off) s) (f.v = true) ∧ ends (exec (.thumbBvc off) s) (f.v = false) ∧
    ends (exec (.thumbBhi off) s) (f.c = true ∧ f.z = false) ∧
    ends (exec (.thumbBls off) s) (f.c = false ∨ f.z = true) ∧
    ends (exec (.thumbBge off) s) (f.n = f.v) ∧ ends (exec (.thumbBlt off) s) (f.n ≠ f.v) ∧
    ends (exec (.thumbBgt off) s) (f.z = false ∧ f.n = f.v) ∧
    ends (exec (.thumbBle off) s) (f.z = true ∨ f.n ≠ f.v)

/-- R503 to R505: B, and the two halves of BL. -/
def Obligations.ThumbBranchResults : Prop :=
  ∀ (s : State),
    (∀ off : BitVec 12, exec (.thumbB off) s = .next { s with pc := s.pc + 4#32 + BitVec.ofInt 32 off.toInt }) ∧
    (∀ off : BitVec 23, Completes (exec (.thumbBlHigh off) s) fun t =>
      t.reg 14#4 = s.pc + 4#32 + BitVec.ofInt 32 off.toInt ∧ t.pc = s.pc + 2#32 ∧ t.flags = s.flags ∧
      Frame s t (bank s [14#4]) ∧ SameBytes s t) ∧
    (∀ off : BitVec 12, Completes (exec (.thumbBlLow off) s) fun t =>
      t.reg 14#4 = (s.pc + 2#32) ||| 1#32 ∧ t.pc = s.reg 14#4 + off.setWidth 32 ∧ t.flags = s.flags ∧
      Frame s t (bank s [14#4]) ∧ SameBytes s t)

/-- R506: a high half followed by a low half at the next address branches to pc + 4 plus both offsets, and R14 then
holds the address after the pair with bit 0 set. -/
def Obligations.BranchLinkPair : Prop :=
  ∀ (s : State) (hi : BitVec 23) (lo : BitVec 12),
    ∃ t, exec (.thumbBlHigh hi) s = .next t ∧
      Completes (exec (.thumbBlLow lo) t) fun u =>
        u.pc = s.pc + 4#32 + BitVec.ofInt 32 hi.toInt + BitVec.ofNat 32 lo.toNat ∧
        u.reg 14#4 = (s.pc + 4#32) ||| 1#32 ∧ u.flags = s.flags ∧ Frame s u (bank s [14#4]) ∧ SameBytes s u

/-! ## Rendering and runs -/

/-- R575: the source's scenarios, decoded and rendered. -/
def Obligations.SourceScenariosRender : Prop :=
  decodeArm 0xE3A00001#32 = .armMov .al false 0#4 0#4 (.imm 0#4 1#8) ∧
  decodeArm 0xEB000005#32 = .armBl .al 5#24 ∧
  decodeThumb 0x1C40#16 = .thumbAddImm3 1#3 0#3 0#3 ∧
  decodeArm 0xEF000006#32 = .armSwi .al 6#24 ∧
  decodeArm 0xEF000063#32 = .armSwi .al 99#24 ∧
  render swiNames (decodeArm 0xE3A00001#32) = "MOV R0,#1" ∧
  render swiNames (decodeArm 0xEB000005#32) = "BL #5" ∧
  render swiNames (decodeThumb 0x1C40#16) = "ADD R0,R0,#1" ∧
  render swiNames (decodeArm 0xEF000006#32) = "SWI Div" ∧
  render swiNames (decodeArm 0xEF000063#32) = "SWI #0x63 (unknown)"

/-- R665, R603: a run is done when the pc is END_PC at the start of a step, whose instruction is not executed; else a
step's fault or refusal ends it, with the state before that step, and a next state goes on. -/
def Obligations.RunEndsAtEndPcOrStop : Prop :=
  ∀ (endPc : Word) (n : Nat) (s : State),
    (s.pc = endPc → run endPc n s = .done s) ∧
    (s.pc ≠ endPc →
      (∀ f, step s = .fault f → run endPc (n + 1) s = .fault f s) ∧
      (∀ r, step s = .refused r → run endPc (n + 1) s = .refused r s) ∧
      (∀ t, step s = .next t → run endPc (n + 1) s = run endPc n t))
end

