-- ==== Sys2Proof/Laws/Memory.lean ====
section
/-! SUPPORT. Memory: what a byte reads as after a write, and the canonical form, which every operation keeps. -/

namespace Sys2Proof.Laws

open Sys2Proof.Machine

/-! ### One byte -/

/-- Read after write: the byte written where it was written, every other byte as before. -/
theorem get_set (mem : List Host.Cell) (a : Nat) (v : Byte) (x : Nat) :
    Memory.get (Memory.set mem a v) x = if x = a then some v else Memory.get mem x := by
  induction mem with
  | nil => simp [Memory.set, Memory.get, eq_comm]
  | cons c rest ih =>
    obtain ⟨k, b⟩ := c
    simp only [Memory.set]
    split
    · simp [Memory.get, eq_comm]
    · split
      · subst_vars; simp only [Memory.get]; split <;> simp_all [eq_comm]
      · simp only [Memory.get, ih]; split <;> split <;> simp_all

/-- A set address lies above a bound when it and the list do. -/
theorem above_set {k a : Nat} {mem : List Host.Cell} (v : Byte) (h : Memory.above k mem = true) (ha : k < a) :
    Memory.above k (Memory.set mem a v) = true := by
  induction mem with
  | nil => simp [Memory.set, Memory.above, ha]
  | cons c rest ih =>
    obtain ⟨j, b⟩ := c
    simp only [Memory.above, Bool.and_eq_true, decide_eq_true_eq] at h
    simp only [Memory.set]
    split
    · simp [Memory.above, ha, h]
    · split <;> simp_all [Memory.above]

/-- A bound below a bound. -/
theorem above_of_lt {k j : Nat} {mem : List Host.Cell} (h : Memory.above j mem = true) (hk : k < j) :
    Memory.above k mem = true := by
  induction mem with
  | nil => rfl
  | cons c rest ih =>
    obtain ⟨i, b⟩ := c
    simp only [Memory.above, Bool.and_eq_true, decide_eq_true_eq] at h ⊢
    exact ⟨by omega, ih h.2⟩

/-- A write keeps the canonical form. -/
theorem wf_set {mem : List Host.Cell} (a : Nat) (v : Byte) (h : Memory.wf mem = true) :
    Memory.wf (Memory.set mem a v) = true := by
  induction mem with
  | nil => rfl
  | cons c rest ih =>
    obtain ⟨k, b⟩ := c
    simp only [Memory.wf, Bool.and_eq_true] at h
    simp only [Memory.set]
    split
    · rename_i hlt
      simp [Memory.wf, Memory.above, hlt, h, above_of_lt h.1 hlt]
    · split
      · subst_vars; simp [Memory.wf, h]
      · have hk : k < a := by omega
        simp [Memory.wf, ih h.2, above_set v h.1 hk]

/-- No address at or below a bound is listed above it. -/
theorem get_of_above {k x : Nat} {mem : List Host.Cell} (h : Memory.above k mem = true) (hx : x ≤ k) :
    Memory.get mem x = none := by
  induction mem with
  | nil => rfl
  | cons c rest ih =>
    obtain ⟨j, b⟩ := c
    simp only [Memory.above, Bool.and_eq_true, decide_eq_true_eq] at h
    have hj : j ≠ x := by omega
    simp [Memory.get, hj, ih h.2]

/-! ### Writes of several bytes -/

/-- A little-endian write keeps the canonical form. -/
theorem wf_writeLe {mem : List Host.Cell} (a v : Word) (n : Nat) (h : Memory.wf mem = true) :
    Memory.wf (writeLe mem a v n) = true := by
  induction n generalizing mem a v with
  | zero => exact h
  | succ n ih => exact ih _ _ (wf_set _ _ h)

/-- A little-endian write leaves every byte outside it as it was. -/
theorem get_writeLe_outside {mem : List Host.Cell} (a v : Word) (n x : Nat)
    (h : ∀ k < n, x ≠ (a + BitVec.ofNat 32 k).toNat) : Memory.get (writeLe mem a v n) x = Memory.get mem x := by
  induction n generalizing mem a v with
  | zero => rfl
  | succ n ih =>
    have h0 := h 0 (by omega)
    simp only [BitVec.add_zero] at h0
    rw [writeLe, ih, get_set, if_neg h0]
    intro k hk
    have h1 := h (k + 1) (by omega)
    have e : a + 1#32 + BitVec.ofNat 32 k = a + BitVec.ofNat 32 (k + 1) := by
      rw [BitVec.add_assoc]; congr 1; apply BitVec.eq_of_toNat_eq; simp; omega
    rwa [e]

/-- The bytes of an access that stays inside the address space. -/
theorem byteAddr_of_lt {a : Word} {k n : Nat} (hk : k < n) (h : a.toNat + n ≤ 2 ^ 32) :
    (a + BitVec.ofNat 32 k).toNat = a.toNat + k := by
  rw [BitVec.toNat_add, BitVec.toNat_ofNat, Nat.mod_eq_of_lt (a := k) (by omega), Nat.mod_eq_of_lt (by omega)]

/-- An aligned access stays inside the address space. -/
theorem aligned_bound {a : Word} {w : Width} (h : aligned a w = true) : a.toNat + w.bytes ≤ 2 ^ 32 := by
  have hlt := a.isLt
  simp only [aligned, beq_iff_eq] at h
  cases w <;> simp only [Width.bytes] at * <;> omega

/-- Placing bytes keeps the canonical form. -/
theorem wf_placeBytes {mem : List Host.Cell} (a n w : Nat) (h : Memory.wf mem = true) :
    Memory.wf (placeBytes mem a n w) = true := by
  induction n generalizing mem a w with
  | zero => exact h
  | succ n ih => exact ih _ _ (wf_set _ _ h)

/-- Placing an instruction keeps the invariant. -/
theorem inv_withFetchWord {s : State} (nbits w : Nat) (h : s.Inv) : (s.withFetchWord nbits w).Inv :=
  wf_placeBytes _ _ _ h

/-- The reset memory is in its canonical form. -/
theorem reset_mem_wf : Memory.wf State.reset.mem = true := rfl

end Sys2Proof.Laws
end

