-- ==== Sys2Proof/Laws/State.lean ====
section
/-! SUPPORT. One lemma per field and update of the state, so that no proof unfolds a record update; and what a
register reads as after a register write. -/

namespace Sys2Proof.Laws

open Sys2Proof.Machine

variable (s : State)

@[simp] theorem setRegIn_regs (m : Mode) (i : RegIdx) (v : Word) : (s.setRegIn m i v).regs = s.regs.set (physIndex m i).val v (physIndex m i).isLt := rfl
@[simp] theorem setRegIn_pc (m : Mode) (i : RegIdx) (v : Word) : (s.setRegIn m i v).pc = s.pc := rfl
@[simp] theorem setRegIn_cpsr (m : Mode) (i : RegIdx) (v : Word) : (s.setRegIn m i v).cpsr = s.cpsr := rfl
@[simp] theorem setRegIn_spsr (m : Mode) (i : RegIdx) (v : Word) : (s.setRegIn m i v).spsr = s.spsr := rfl
@[simp] theorem setRegIn_mem (m : Mode) (i : RegIdx) (v : Word) : (s.setRegIn m i v).mem = s.mem := rfl
@[simp] theorem setRegIn_sbzCheck (m : Mode) (i : RegIdx) (v : Word) : (s.setRegIn m i v).sbzCheck = s.sbzCheck := rfl
@[simp] theorem setRegIn_profile (m : Mode) (i : RegIdx) (v : Word) : (s.setRegIn m i v).profile = s.profile := rfl
@[simp] theorem setRegIn_draws (m : Mode) (i : RegIdx) (v : Word) : (s.setRegIn m i v).draws = s.draws := rfl

@[simp] theorem setReg_pc (i : RegIdx) (v : Word) : (s.setReg i v).pc = s.pc := rfl
@[simp] theorem setReg_cpsr (i : RegIdx) (v : Word) : (s.setReg i v).cpsr = s.cpsr := rfl
@[simp] theorem setReg_spsr (i : RegIdx) (v : Word) : (s.setReg i v).spsr = s.spsr := rfl
@[simp] theorem setReg_mem (i : RegIdx) (v : Word) : (s.setReg i v).mem = s.mem := rfl
@[simp] theorem setReg_sbzCheck (i : RegIdx) (v : Word) : (s.setReg i v).sbzCheck = s.sbzCheck := rfl
@[simp] theorem setReg_profile (i : RegIdx) (v : Word) : (s.setReg i v).profile = s.profile := rfl
@[simp] theorem setReg_draws (i : RegIdx) (v : Word) : (s.setReg i v).draws = s.draws := rfl

@[simp] theorem nextArm_regs : s.nextArm.regs = s.regs := rfl
@[simp] theorem nextArm_pc : s.nextArm.pc = s.pc + 4#32 := rfl
@[simp] theorem nextArm_cpsr : s.nextArm.cpsr = s.cpsr := rfl
@[simp] theorem nextArm_spsr : s.nextArm.spsr = s.spsr := rfl
@[simp] theorem nextArm_mem : s.nextArm.mem = s.mem := rfl
@[simp] theorem nextArm_sbzCheck : s.nextArm.sbzCheck = s.sbzCheck := rfl
@[simp] theorem nextArm_profile : s.nextArm.profile = s.profile := rfl
@[simp] theorem nextArm_draws : s.nextArm.draws = s.draws := rfl

@[simp] theorem nextThumb_regs : s.nextThumb.regs = s.regs := rfl
@[simp] theorem nextThumb_pc : s.nextThumb.pc = s.pc + 2#32 := rfl
@[simp] theorem nextThumb_cpsr : s.nextThumb.cpsr = s.cpsr := rfl
@[simp] theorem nextThumb_spsr : s.nextThumb.spsr = s.spsr := rfl
@[simp] theorem nextThumb_mem : s.nextThumb.mem = s.mem := rfl
@[simp] theorem nextThumb_sbzCheck : s.nextThumb.sbzCheck = s.sbzCheck := rfl
@[simp] theorem nextThumb_profile : s.nextThumb.profile = s.profile := rfl
@[simp] theorem nextThumb_draws : s.nextThumb.draws = s.draws := rfl

@[simp] theorem setFlags_regs (f : StatusFlags) : (s.setFlags f).regs = s.regs := rfl
@[simp] theorem setFlags_pc (f : StatusFlags) : (s.setFlags f).pc = s.pc := rfl
@[simp] theorem setFlags_spsr (f : StatusFlags) : (s.setFlags f).spsr = s.spsr := rfl
@[simp] theorem setFlags_mem (f : StatusFlags) : (s.setFlags f).mem = s.mem := rfl
@[simp] theorem setFlags_sbzCheck (f : StatusFlags) : (s.setFlags f).sbzCheck = s.sbzCheck := rfl
@[simp] theorem setFlags_profile (f : StatusFlags) : (s.setFlags f).profile = s.profile := rfl
@[simp] theorem setFlags_draws (f : StatusFlags) : (s.setFlags f).draws = s.draws := rfl

@[simp] theorem draw_regs : s.draw.2.regs = s.regs := rfl
@[simp] theorem draw_pc : s.draw.2.pc = s.pc := rfl
@[simp] theorem draw_cpsr : s.draw.2.cpsr = s.cpsr := rfl
@[simp] theorem draw_spsr : s.draw.2.spsr = s.spsr := rfl
@[simp] theorem draw_mem : s.draw.2.mem = s.mem := rfl
@[simp] theorem draw_sbzCheck : s.draw.2.sbzCheck = s.sbzCheck := rfl
@[simp] theorem draw_profile : s.draw.2.profile = s.profile := rfl
@[simp] theorem draw_draws : s.draw.2.draws = s.draws + 1 := rfl

@[simp] theorem setSpsr_regs (m : Mode) (p : Psr) : (s.setSpsr m p).regs = s.regs := by cases m <;> rfl
@[simp] theorem setSpsr_pc (m : Mode) (p : Psr) : (s.setSpsr m p).pc = s.pc := by cases m <;> rfl
@[simp] theorem setSpsr_cpsr (m : Mode) (p : Psr) : (s.setSpsr m p).cpsr = s.cpsr := by cases m <;> rfl
@[simp] theorem setSpsr_mem (m : Mode) (p : Psr) : (s.setSpsr m p).mem = s.mem := by cases m <;> rfl
@[simp] theorem setSpsr_sbzCheck (m : Mode) (p : Psr) : (s.setSpsr m p).sbzCheck = s.sbzCheck := by cases m <;> rfl
@[simp] theorem setSpsr_profile (m : Mode) (p : Psr) : (s.setSpsr m p).profile = s.profile := by cases m <;> rfl
@[simp] theorem setSpsr_draws (m : Mode) (p : Psr) : (s.setSpsr m p).draws = s.draws := by cases m <;> rfl

@[simp] theorem writeArm_pc (i : RegIdx) (v : Word) : (s.writeArm i v).pc = if i = 15#4 then v else s.pc + 4#32 := by unfold State.writeArm; split <;> rfl
@[simp] theorem writeArm_cpsr (i : RegIdx) (v : Word) : (s.writeArm i v).cpsr = s.cpsr := by unfold State.writeArm; split <;> rfl
@[simp] theorem writeArm_spsr (i : RegIdx) (v : Word) : (s.writeArm i v).spsr = s.spsr := by unfold State.writeArm; split <;> rfl
@[simp] theorem writeArm_mem (i : RegIdx) (v : Word) : (s.writeArm i v).mem = s.mem := by unfold State.writeArm; split <;> rfl
@[simp] theorem writeArm_sbzCheck (i : RegIdx) (v : Word) : (s.writeArm i v).sbzCheck = s.sbzCheck := by unfold State.writeArm; split <;> rfl
@[simp] theorem writeArm_profile (i : RegIdx) (v : Word) : (s.writeArm i v).profile = s.profile := by unfold State.writeArm; split <;> rfl
@[simp] theorem writeArm_draws (i : RegIdx) (v : Word) : (s.writeArm i v).draws = s.draws := by unfold State.writeArm; split <;> rfl

@[simp] theorem writeThumb_pc (i : RegIdx) (v : Word) : (s.writeThumb i v).pc = if i = 15#4 then v &&& ~~~1#32 else s.pc + 2#32 := by unfold State.writeThumb; split <;> rfl
@[simp] theorem writeThumb_cpsr (i : RegIdx) (v : Word) : (s.writeThumb i v).cpsr = s.cpsr := by unfold State.writeThumb; split <;> rfl
@[simp] theorem writeThumb_spsr (i : RegIdx) (v : Word) : (s.writeThumb i v).spsr = s.spsr := by unfold State.writeThumb; split <;> rfl
@[simp] theorem writeThumb_mem (i : RegIdx) (v : Word) : (s.writeThumb i v).mem = s.mem := by unfold State.writeThumb; split <;> rfl
@[simp] theorem writeThumb_sbzCheck (i : RegIdx) (v : Word) : (s.writeThumb i v).sbzCheck = s.sbzCheck := by unfold State.writeThumb; split <;> rfl
@[simp] theorem writeThumb_profile (i : RegIdx) (v : Word) : (s.writeThumb i v).profile = s.profile := by unfold State.writeThumb; split <;> rfl
@[simp] theorem writeThumb_draws (i : RegIdx) (v : Word) : (s.writeThumb i v).draws = s.draws := by unfold State.writeThumb; split <;> rfl

@[simp] theorem writeLow_pc (i : LowIdx) (v : Word) : (s.writeLow i v).pc = s.pc + 2#32 := rfl
@[simp] theorem writeLow_cpsr (i : LowIdx) (v : Word) : (s.writeLow i v).cpsr = s.cpsr := rfl
@[simp] theorem writeLow_spsr (i : LowIdx) (v : Word) : (s.writeLow i v).spsr = s.spsr := rfl
@[simp] theorem writeLow_mem (i : LowIdx) (v : Word) : (s.writeLow i v).mem = s.mem := rfl
@[simp] theorem writeLow_sbzCheck (i : LowIdx) (v : Word) : (s.writeLow i v).sbzCheck = s.sbzCheck := rfl
@[simp] theorem writeLow_profile (i : LowIdx) (v : Word) : (s.writeLow i v).profile = s.profile := rfl
@[simp] theorem writeLow_draws (i : LowIdx) (v : Word) : (s.writeLow i v).draws = s.draws := rfl

@[simp] theorem writeBack_pc (b : Bool) (i : RegIdx) (v : Word) : (s.writeBack b i v).pc = s.pc := by cases b <;> rfl
@[simp] theorem writeBack_cpsr (b : Bool) (i : RegIdx) (v : Word) : (s.writeBack b i v).cpsr = s.cpsr := by cases b <;> rfl
@[simp] theorem writeBack_spsr (b : Bool) (i : RegIdx) (v : Word) : (s.writeBack b i v).spsr = s.spsr := by cases b <;> rfl
@[simp] theorem writeBack_mem (b : Bool) (i : RegIdx) (v : Word) : (s.writeBack b i v).mem = s.mem := by cases b <;> rfl
@[simp] theorem writeBack_sbzCheck (b : Bool) (i : RegIdx) (v : Word) : (s.writeBack b i v).sbzCheck = s.sbzCheck := by cases b <;> rfl
@[simp] theorem writeBack_profile (b : Bool) (i : RegIdx) (v : Word) : (s.writeBack b i v).profile = s.profile := by cases b <;> rfl
@[simp] theorem writeBack_draws (b : Bool) (i : RegIdx) (v : Word) : (s.writeBack b i v).draws = s.draws := by cases b <;> rfl

@[simp] theorem exchange_regs (t : Word) : (s.exchange t).regs = s.regs := rfl
@[simp] theorem exchange_pc (t : Word) : (s.exchange t).pc = t &&& ~~~1#32 := rfl
@[simp] theorem exchange_spsr (t : Word) : (s.exchange t).spsr = s.spsr := rfl
@[simp] theorem exchange_mem (t : Word) : (s.exchange t).mem = s.mem := rfl
@[simp] theorem exchange_sbzCheck (t : Word) : (s.exchange t).sbzCheck = s.sbzCheck := rfl
@[simp] theorem exchange_profile (t : Word) : (s.exchange t).profile = s.profile := rfl
@[simp] theorem exchange_draws (t : Word) : (s.exchange t).draws = s.draws := rfl

@[simp] theorem takeException_pc (e : ExceptionKind) (l : Word) : (s.takeException e l).pc = e.vector := by cases e <;> rfl
@[simp] theorem takeException_mem (e : ExceptionKind) (l : Word) : (s.takeException e l).mem = s.mem := by cases e <;> rfl
@[simp] theorem takeException_sbzCheck (e : ExceptionKind) (l : Word) : (s.takeException e l).sbzCheck = s.sbzCheck := by cases e <;> rfl
@[simp] theorem takeException_profile (e : ExceptionKind) (l : Word) : (s.takeException e l).profile = s.profile := by cases e <;> rfl
@[simp] theorem takeException_draws (e : ExceptionKind) (l : Word) : (s.takeException e l).draws = s.draws := by cases e <;> rfl

@[simp] theorem setFlags_cpsr (f : StatusFlags) : (s.setFlags f).cpsr = { s.cpsr with flags := f } := rfl
@[simp] theorem setFlags_flags (f : StatusFlags) : (s.setFlags f).flags = f := rfl
@[simp] theorem exchange_cpsr (t : Word) : (s.exchange t).cpsr = { s.cpsr with thumb := t.getLsbD 0 } := rfl
@[simp] theorem takeException_mode (e : ExceptionKind) (l : Word) : (s.takeException e l).cpsr.mode = e.mode := rfl

@[simp] theorem setReg_flags (i : RegIdx) (v : Word) : (s.setReg i v).flags = s.flags := rfl
@[simp] theorem draw_fst : s.draw.1 = Config.freeWord s.draws := rfl

/-! ### Registers -/

/-- Each mode keeps its fifteen registers in fifteen places. -/
theorem physIndex_inj (m : Mode) {i j : RegIdx} (hi : i ≠ 15#4) (hj : j ≠ 15#4) :
    physIndex m i = physIndex m j ↔ i = j := by
  revert i j
  cases m <;> decide

theorem regIn_setRegIn_same (m : Mode) (i : RegIdx) (v : Word) : (s.setRegIn m i v).regIn m i = v := by
  exact Vector.getElem_set_self (physIndex m i).isLt

theorem regIn_setRegIn_ne (m k : Mode) (i j : RegIdx) (v : Word) (h : physIndex m i ≠ physIndex k j) :
    (s.setRegIn m i v).regIn k j = s.regIn k j := by
  have h' : (physIndex m i).val ≠ (physIndex k j).val := fun e => h (Fin.ext e)
  exact Vector.getElem_set_ne (physIndex m i).isLt (physIndex k j).isLt h'

/-- A register read after a register write, in one mode's bank. -/
theorem regIn_setRegIn (m : Mode) {i j : RegIdx} (v : Word) (hi : i ≠ 15#4) (hj : j ≠ 15#4) :
    (s.setRegIn m i v).regIn m j = if i = j then v else s.regIn m j := by
  split
  · subst_vars; exact regIn_setRegIn_same s m _ v
  · exact regIn_setRegIn_ne s m m i j v (fun e => ‹¬i = j› ((physIndex_inj m hi hj).mp e))

/-- A register read after a register write, in the current bank. -/
theorem reg_setReg {i j : RegIdx} (v : Word) (hi : i ≠ 15#4) (hj : j ≠ 15#4) :
    (s.setReg i v).reg j = if i = j then v else s.reg j :=
  regIn_setRegIn s s.cpsr.mode v hi hj

@[simp] theorem reg_setReg_self (i : RegIdx) (v : Word) : (s.setReg i v).reg i = v :=
  regIn_setRegIn_same s s.cpsr.mode i v

@[simp] theorem reg_nextArm (i : RegIdx) : s.nextArm.reg i = s.reg i := rfl
@[simp] theorem reg_nextThumb (i : RegIdx) : s.nextThumb.reg i = s.reg i := rfl
@[simp] theorem reg_setFlags (f : StatusFlags) (i : RegIdx) : (s.setFlags f).reg i = s.reg i := rfl
@[simp] theorem reg_draw (i : RegIdx) : s.draw.2.reg i = s.reg i := rfl
@[simp] theorem regIn_nextArm (m : Mode) (i : RegIdx) : s.nextArm.regIn m i = s.regIn m i := rfl
@[simp] theorem regIn_nextThumb (m : Mode) (i : RegIdx) : s.nextThumb.regIn m i = s.regIn m i := rfl
@[simp] theorem regIn_setFlags (f : StatusFlags) (m : Mode) (i : RegIdx) :
    (s.setFlags f).regIn m i = s.regIn m i := rfl

/-- A low register is never R15. -/
theorem low_ne_pc (r : LowIdx) : low r ≠ 15#4 := by
  revert r; decide

theorem low_inj {a b : LowIdx} : low a = low b ↔ a = b := by
  revert a b; decide

end Sys2Proof.Laws
end

