-- ==== Sys2Proof/Laws/Ops.lean ====
section
/-! SUPPORT. One lemma per shared operation: everything it can do when it answers a state. -/

namespace Sys2Proof.Laws

open Sys2Proof.Machine

/-! ### Rules -/

/-- A line of a rule followed by the rest: both answer. -/
theorem bind_ok {α β : Type} {x : Except Stop α} {f : α → Except Stop β} {r : β} (h : (x >>= f) = .ok r) :
    ∃ a, x = .ok a ∧ f a = .ok r := by
  cases x with
  | error e => cases h
  | ok a => exact ⟨a, rfl, h⟩

theorem refuseIf_ok {b : Bool} {r : Refusal} {u : Unit} (h : refuseIf b r = .ok u) : b = false := by
  cases b <;> first | rfl | cases h

theorem faultIf_ok {b : Bool} {f : Fault} {u : Unit} (h : faultIf b f = .ok u) : b = false := by
  cases b <;> first | rfl | cases h

theorem finish_next {x : Except Stop State} {t : State} (h : finish x = .next t) : x = .ok t := by
  cases x with
  | error e => cases e <;> cases h
  | ok a => simpa [finish] using h

/-- A conditional ARM instruction runs its rule or advances the pc. -/
theorem conditional_next {c : Cond} {s t : State} {body : Except Stop State}
    (h : conditional c s body = .next t) :
    (evaluate c s.flags = true ∧ body = .ok t) ∨ (evaluate c s.flags = false ∧ t = s.nextArm) := by
  unfold conditional at h
  split at h
  · exact .inl ⟨‹_›, finish_next h⟩
  · rename_i hc
    cases h
    exact .inr ⟨by simpa using hc, rfl⟩

/-- When the condition passes and the rule answers, the instruction does. -/
theorem conditional_ok {c : Cond} {s t : State} {body : Except Stop State} (hc : evaluate c s.flags = true)
    (hb : body = .ok t) : conditional c s body = .next t := by
  simp [conditional, hc, hb, finish]

/-- When the condition fails the instruction only advances the pc. -/
theorem conditional_skip {c : Cond} {s : State} {body : Except Stop State} (hc : evaluate c s.flags = false) :
    conditional c s body = .next s.nextArm := by
  simp [conditional, hc]

/-! ### Reads: they change the count of draws alone -/

theorem readByte_ok {s t : State} {a : Word} {b : Byte} (h : s.readByte a = .ok (b, t)) :
    t = { s with draws := t.draws } := by
  unfold State.readByte at h
  split at h <;> cases h <;> rfl

theorem readLe_ok {s t : State} {a v : Word} {n : Nat} (h : s.readLe a n = .ok (v, t)) :
    t = { s with draws := t.draws } := by
  induction n generalizing s a v with
  | zero => cases h; rfl
  | succ n ih =>
    simp only [State.readLe] at h
    split at h
    · cases h
    · rename_i b s1 h1
      split at h
      · cases h
      · rename_i hi s2 h2
        cases h
        rw [ih h2, readByte_ok h1]

theorem load_ok {s t : State} {a v : Word} {w : Width} (h : s.load a w = .ok (v, t)) :
    t = { s with draws := t.draws } := by
  unfold State.load at h
  split at h
  · exact readLe_ok h
  · cases h

theorem load_aligned {s t : State} {a v : Word} {w : Width} (h : s.load a w = .ok (v, t)) : aligned a w = true := by
  unfold State.load at h
  split at h
  · assumption
  · cases h

theorem readMany_ok {s t : State} {a : Word} {n : Nat} {vs : List Word} (h : s.readMany a n = .ok (vs, t)) :
    t = { s with draws := t.draws } ∧ vs.length = n := by
  induction n generalizing s a vs with
  | zero => cases h; exact ⟨rfl, rfl⟩
  | succ n ih =>
    simp only [State.readMany] at h
    split at h
    · cases h
    · rename_i v s1 h1
      split at h
      · cases h
      · rename_i vs' s2 h2
        cases h
        obtain ⟨e, hl⟩ := ih h2
        exact ⟨by rw [e, load_ok h1], by simp [hl]⟩

/-! ### Writes -/

/-- A checked byte may be written: it lies in WRAM or in video memory. -/
theorem checkWriteByte_ok {addr a : Word} {n : Nat} {u : Unit} (h : checkWriteByte addr a n = .ok u) :
    ∃ r, regionOf a.toNat = some r ∧ r ≠ .bios ∧ r ≠ .rom ∧ r ≠ .io := by
  unfold checkWriteByte at h
  split at h <;> rename_i hr
  · cases h
  · cases h
  · cases h
  · cases h
  all_goals exact ⟨_, hr, by decide, by decide, by decide⟩

theorem checkWrite_ok {addr a : Word} {n left : Nat} {u : Unit} (h : checkWrite addr n a left = .ok u) :
    ∀ k < left, ∃ r, regionOf (a + BitVec.ofNat 32 k).toNat = some r ∧ r ≠ .bios ∧ r ≠ .rom ∧ r ≠ .io := by
  induction left generalizing a with
  | zero => intro k hk; omega
  | succ left ih =>
    simp only [checkWrite] at h
    split at h
    · cases h
    · rename_i h1
      intro k hk
      cases k with
      | zero => simpa using checkWriteByte_ok h1
      | succ k =>
        have e : a + BitVec.ofNat 32 (k + 1) = a + 1#32 + BitVec.ofNat 32 k := by
          rw [BitVec.add_assoc]; congr 1; apply BitVec.eq_of_toNat_eq; simp; omega
        rw [e]; exact ih h k (by omega)

/-- A store that answers was aligned and allowed, and writes the low bytes of the value. -/
theorem store_ok {s t : State} {a v : Word} {w : Width} (h : s.store a w v = .ok t) :
    aligned a w = true ∧ checkWrite a w.bytes a w.bytes = .ok () ∧
      t = { s with mem := writeLe s.mem a v w.bytes } := by
  unfold State.store at h
  split at h
  · rename_i ha
    split at h
    · cases h
    · rename_i hc; cases h; exact ⟨ha, hc, rfl⟩
  · cases h

/-- A store leaves every byte outside it as it was. -/
theorem store_outside {s t : State} {a v : Word} {w : Width} (h : s.store a w v = .ok t) (x : Nat)
    (hx : x < a.toNat ∨ a.toNat + w.bytes ≤ x) : Memory.get t.mem x = Memory.get s.mem x := by
  obtain ⟨ha, -, rfl⟩ := store_ok h
  apply get_writeLe_outside
  intro k hk
  rw [byteAddr_of_lt hk (aligned_bound ha)]
  omega

/-- A store leaves every byte of the BIOS, the ROM and IO as it was. -/
theorem store_readOnly {s t : State} {a v : Word} {w : Width} (h : s.store a w v = .ok t) (x : Nat)
    (hx : regionOf x = some .bios ∨ regionOf x = some .rom ∨ regionOf x = some .io) :
    Memory.get t.mem x = Memory.get s.mem x := by
  obtain ⟨-, hc, rfl⟩ := store_ok h
  apply get_writeLe_outside
  intro k hk e
  obtain ⟨r, hr, h1, h2, h3⟩ := checkWrite_ok hc k hk
  rw [← e] at hr
  rcases hx with hx | hx | hx <;> rw [hx] at hr <;> cases hr <;> contradiction

theorem store_wf {s t : State} {a v : Word} {w : Width} (h : s.store a w v = .ok t)
    (hw : Memory.wf s.mem = true) : Memory.wf t.mem = true := by
  obtain ⟨-, -, rfl⟩ := store_ok h
  exact wf_writeLe _ _ _ hw

theorem storeOperand_eq (s : State) (m : Mode) (i : RegIdx) :
    (s.storeOperand m i).2 = { s with draws := (s.storeOperand m i).2.draws } := by
  unfold State.storeOperand; split <;> rfl

/-- Several stores change the memory and the count of draws alone. -/
theorem storeMany_ok {s t : State} {m : Mode} {a : Word} {is : List RegIdx} (h : s.storeMany m a is = .ok t) :
    t = { s with mem := t.mem, draws := t.draws } := by
  induction is generalizing s a with
  | nil => cases h; rfl
  | cons i rest ih =>
    simp only [State.storeMany] at h
    split at h
    · cases h
    · rename_i s1 h1
      obtain ⟨-, -, rfl⟩ := store_ok h1
      rw [ih h, storeOperand_eq]

theorem storeMany_wf {s t : State} {m : Mode} {a : Word} {is : List RegIdx} (h : s.storeMany m a is = .ok t)
    (hw : Memory.wf s.mem = true) : Memory.wf t.mem = true := by
  induction is generalizing s a with
  | nil => cases h; exact hw
  | cons i rest ih =>
    simp only [State.storeMany] at h
    split at h
    · cases h
    · rename_i s1 h1
      refine ih h (store_wf h1 ?_)
      rw [storeOperand_eq]; exact hw

theorem storeMany_readOnly {s t : State} {m : Mode} {a : Word} {is : List RegIdx}
    (h : s.storeMany m a is = .ok t) (x : Nat)
    (hx : regionOf x = some .bios ∨ regionOf x = some .rom ∨ regionOf x = some .io) :
    Memory.get t.mem x = Memory.get s.mem x := by
  induction is generalizing s a with
  | nil => cases h; rfl
  | cons i rest ih =>
    simp only [State.storeMany] at h
    split at h
    · cases h
    · rename_i s1 h1
      rw [ih h, store_readOnly h1 x hx, storeOperand_eq]

/-- Writing several registers changes the registers and the pc alone. -/
theorem writeMany_eq (s : State) (m : Mode) (l : List (RegIdx × Word)) :
    s.writeMany m l = { s with regs := (s.writeMany m l).regs, pc := (s.writeMany m l).pc } := by
  induction l generalizing s with
  | nil => rfl
  | cons c rest ih =>
    obtain ⟨i, v⟩ := c
    simp only [State.writeMany]
    rw [ih]
    split <;> rfl

@[simp] theorem writeMany_mem (s : State) (m : Mode) (l : List (RegIdx × Word)) : (s.writeMany m l).mem = s.mem := by
  rw [writeMany_eq]

@[simp] theorem writeMany_cpsr (s : State) (m : Mode) (l : List (RegIdx × Word)) :
    (s.writeMany m l).cpsr = s.cpsr := by
  rw [writeMany_eq]

/-! ### Exceptions and the program status registers -/

/-- A return from exception moves the current mode's SPSR into the CPSR and sets the pc. -/
theorem returnFromException_ok {s t : State} {target : Word} (h : s.returnFromException target = .ok t) :
    ∃ p, s.spsrNow = some p ∧ t = { s with cpsr := p, pc := target } := by
  unfold State.returnFromException State.needSpsr at h
  split at h
  · cases h
  · rename_i p hp
    cases h
    refine ⟨p, ?_, rfl⟩
    split at hp
    · cases hp
    · cases hp; assumption

theorem needSpsr_ok {s : State} {p : Psr} (h : s.needSpsr = .ok p) : s.spsrNow = some p := by
  unfold State.needSpsr at h
  split at h
  · cases h
  · cases h; assumption

theorem regs_setRegIn_get (s : State) (m : Mode) (i : RegIdx) (v : Word) (k : Fin 30) :
    (s.setRegIn m i v).regs.get k = if physIndex m i = k then v else s.regs.get k := by
  simp only [setRegIn_regs, Vector.get_eq_getElem]
  rw [Vector.getElem_set]
  simp only [Fin.ext_iff]

theorem spsr_setSpsr_get (s : State) (m : Mode) (p : Psr) (k : Fin 5) :
    (s.setSpsr m p).spsr.get k = if spsrIndex m = some k then p else s.spsr.get k := by
  unfold State.setSpsr
  split
  · simp_all
  · rename_i j hj
    simp only [hj, Vector.get_eq_getElem, Vector.getElem_set, Option.some.injEq, Fin.ext_iff]

/-- Taking an exception writes one register. -/
theorem takeException_regs_get (s : State) (e : ExceptionKind) (l : Word) (k : Fin 30) :
    (s.takeException e l).regs.get k = if physIndex e.mode 14#4 = k then l else s.regs.get k := by
  have h : (s.takeException e l).regs = (s.setRegIn e.mode 14#4 l).regs := by cases e <;> rfl
  rw [h, regs_setRegIn_get]

/-- Taking an exception writes one SPSR. -/
theorem takeException_spsr_get (s : State) (e : ExceptionKind) (l : Word) (k : Fin 5) :
    (s.takeException e l).spsr.get k = if spsrIndex e.mode = some k then s.cpsr else s.spsr.get k := by
  have h : (s.takeException e l).spsr = (s.setSpsr e.mode s.cpsr).spsr := by cases e <;> rfl
  rw [h, spsr_setSpsr_get]

/-- The mode an exception enters has an SPSR, which holds the CPSR from before. -/
theorem takeException_spsrNow (s : State) (e : ExceptionKind) (l : Word) :
    (s.takeException e l).spsrNow = some s.cpsr := by
  have h : ∃ k, spsrIndex e.mode = some k := by cases e <;> exact ⟨_, rfl⟩
  obtain ⟨k, hk⟩ := h
  simp [State.spsrNow, hk, takeException_spsr_get]

end Sys2Proof.Laws
end

