-- ==== Sys2Proof/Laws/Access.lean ====
section
/-! SUPPORT. Data accesses: what an aligned read inside a region gives, and what an allowed write leaves. -/

namespace Sys2Proof.Laws

open Sys2Proof.Machine

/-- The first address of a region (20_memory.md R71). -/
def regionFirst : Region → Nat
  | .bios => 0
  | .wram1 => 0x02000000
  | .wram2 => 0x03000000
  | .io => 0x04000000
  | .palette => 0x05000000
  | .vram => 0x06000000
  | .oam => 0x07000000
  | .rom => 0x08000000

/-- The last address of a region (20_memory.md R71). -/
def regionLast : Region → Nat
  | .bios => 0x00003FFF
  | .wram1 => 0x0203FFFF
  | .wram2 => 0x03007FFF
  | .io => 0x040003FE
  | .palette => 0x050003FF
  | .vram => 0x06017FFF
  | .oam => 0x070003FF
  | .rom => 0x09FFFFFF

theorem regionOf_iff {a : Nat} {r : Region} : regionOf a = some r ↔ regionFirst r ≤ a ∧ a ≤ regionLast r := by
  constructor
  · intro h
    unfold regionOf at h
    repeat' split at h
    all_goals cases h
    all_goals simp only [regionFirst, regionLast]; omega
  · intro h
    cases r <;> simp only [regionFirst, regionLast] at h <;> unfold regionOf
    · rw [if_pos h.2]
    all_goals repeat (first | rw [if_pos (by omega)] | rw [if_neg (by omega)])

/-- An aligned access that begins in a region other than IO stays in it. -/
theorem regionOf_aligned {a : Word} {w : Width} {r : Region} (h : regionOf a.toNat = some r) (hr : r ≠ .io)
    (ha : a.toNat % w.bytes = 0) {k : Nat} (hk : k < w.bytes) : regionOf (a.toNat + k) = some r := by
  rw [regionOf_iff] at h ⊢
  cases r <;> cases w <;> simp_all only [regionFirst, regionLast, Width.bytes, ne_eq, not_true_eq_false] <;> omega

theorem readByte_memory {s : State} {a : Word} {r : Region} (h : regionOf a.toNat = some r) (hr : r ≠ .io) :
    s.readByte a = .ok (s.byteAt a.toNat, s) := by
  unfold State.readByte
  rw [h]
  cases r <;> first | rfl | contradiction

/-- One more byte below a little-endian value. -/
theorem le_step {n : Nat} (hi : BitVec n) (lo : Byte) (_hn : n + 8 ≤ 32) :
    (hi.setWidth 32 : Word) <<< 8 ||| lo.setWidth 32 = (hi ++ lo).setWidth 32 := by
  apply BitVec.eq_of_getLsbD_eq
  intro i hi'
  simp only [BitVec.getLsbD_or, BitVec.getLsbD_shiftLeft, BitVec.getLsbD_setWidth, BitVec.getLsbD_append, hi',
    decide_true, Bool.true_and]
  by_cases h8 : i < 8
  · simp [h8]
  · have : i - 8 < 32 := by omega
    simp [h8, this, BitVec.getLsbD_of_ge lo i (by omega)]

theorem le_first (b : Byte) : (0#32 : Word) <<< 8 ||| b.setWidth 32 = b.setWidth 32 := by simp

theorem load_memory {s : State} {a : Word} {w : Width} {r : Region} (h : regionOf a.toNat = some r) (hr : r ≠ .io)
    (ha : a.toNat % w.bytes = 0) : s.load a w = .ok (leValue s a.toNat w, s) := by
  have hal : aligned a w = true := by simpa [aligned] using ha
  have hb := aligned_bound hal
  have e : ∀ k < w.bytes, s.readByte (a + BitVec.ofNat 32 k) = .ok (s.byteAt (a.toNat + k), s) := by
    intro k hk
    rw [← byteAddr_of_lt hk hb]
    exact readByte_memory (by rw [byteAddr_of_lt hk hb]; exact regionOf_aligned h hr ha hk) hr
  have e0 := e 0 (by cases w <;> decide)
  simp only [BitVec.add_zero, Nat.add_zero] at e0
  cases w with
  | byte => simp [State.load, hal, Width.bytes, State.readLe, e0, leValue]
  | half =>
    have e1 := e 1 (by decide)
    simp only [State.load, hal, Width.bytes, State.readLe, e0, leValue, e1, if_true, le_first]
    rw [le_step _ _ (by decide)]
  | word => 
    have e1 := e 1 (by decide)
    have e2 := e 2 (by decide)
    have e3 := e 3 (by decide)
    have a2 : a + 1#32 + 1#32 = a + 2#32 := by rw [BitVec.add_assoc]; rfl
    have a3 : a + 2#32 + 1#32 = a + 3#32 := by rw [BitVec.add_assoc]; rfl
    simp only [State.load, hal, Width.bytes, State.readLe, e0, leValue, e1, a2, e2, a3, e3, if_true, le_first]
    rw [le_step _ _ (by decide), le_step _ _ (by decide), le_step _ _ (by decide)]
    rw [BitVec.setWidth_eq]

/-- A little-endian write holds the value's bytes. -/
theorem get_writeLe_inside (mem : List Host.Cell) (a v : Word) (n k : Nat) (hk : k < n) (hb : a.toNat + n ≤ 2 ^ 32) :
    Memory.get (writeLe mem a v n) (a.toNat + k) = some ((v >>> (8 * k)).setWidth 8) := by
  induction n generalizing mem a v k with
  | zero => omega
  | succ n ih =>
    rw [writeLe]
    have h1 : n = 0 ∨ (a + 1#32).toNat = a.toNat + 1 := by
      by_cases h0 : n = 0
      · exact .inl h0
      · right; rw [BitVec.toNat_add]; simp; omega
    cases k with
    | zero =>
      rw [get_writeLe_outside, Nat.add_zero, get_set]
      · simp
      · intro j hj
        rcases h1 with h1 | h1
        · omega
        · rw [byteAddr_of_lt hj (by omega)]; omega
    | succ k =>
      rcases h1 with h1 | h1
      · omega
      · rw [show a.toNat + (k + 1) = (a + 1#32).toNat + k by omega, ih _ _ _ _ (by omega) (by omega)]
        rw [← BitVec.shiftRight_add]
        congr 3; omega

theorem checkWriteByte_writable {addr a : Word} {n : Nat} {r : Region} (h : regionOf a.toNat = some r)
    (hr : r = .wram1 ∨ r = .wram2 ∨ ((r = .palette ∨ r = .vram ∨ r = .oam) ∧ n ≠ 1)) :
    checkWriteByte addr a n = .ok () := by
  unfold checkWriteByte
  rw [h]
  rcases hr with rfl | rfl | ⟨rfl | rfl | rfl, hn⟩ <;> simp_all

theorem checkWrite_all {addr a : Word} {n left : Nat}
    (h : ∀ k < left, checkWriteByte addr (a + BitVec.ofNat 32 k) n = .ok ()) : checkWrite addr n a left = .ok () := by
  induction left generalizing a with
  | zero => rfl
  | succ left ih =>
    have h0 := h 0 (by omega)
    rw [BitVec.add_zero] at h0
    rw [checkWrite, h0]
    apply ih
    intro k hk
    have e : a + 1#32 + BitVec.ofNat 32 k = a + BitVec.ofNat 32 (k + 1) := by
      rw [BitVec.add_assoc]; congr 1; apply BitVec.eq_of_toNat_eq; simp; omega
    rw [e]; exact h (k + 1) (by omega)

/-- An allowed write answers. -/
theorem store_writable (s : State) {a v : Word} {w : Width} (h : Writable a w) :
    s.store a w v = .ok { s with mem := writeLe s.mem a v w.bytes } := by
  obtain ⟨ha, r, hr, hw⟩ := h
  have hal : aligned a w = true := by simpa [aligned] using ha
  have hio : r ≠ .io := by rcases hw with rfl | rfl | ⟨rfl | rfl | rfl, -⟩ <;> decide
  have hc : checkWrite a w.bytes a w.bytes = .ok () := by
    apply checkWrite_all
    intro k hk
    apply checkWriteByte_writable (r := r)
    · rw [byteAddr_of_lt hk (aligned_bound hal)]; exact regionOf_aligned hr hio ha hk
    · rcases hw with h | h | ⟨h, hb⟩
      · exact .inl h
      · exact .inr (.inl h)
      · exact .inr (.inr ⟨h, by cases w <;> simp_all [Width.bytes]⟩)
  simp [State.store, hal, hc]

theorem store_holds {s t : State} {a v : Word} {w : Width} (h : s.store a w v = .ok t) :
    Holds t a.toNat w.bytes v := by
  obtain ⟨ha, -, rfl⟩ := store_ok h
  intro k hk
  simp [State.byteAt, get_writeLe_inside _ _ _ _ _ hk (aligned_bound ha)]

theorem store_sameOutside {s t : State} {a v : Word} {w : Width} (h : s.store a w v = .ok t) :
    SameOutside s t a.toNat w.bytes := by
  intro x hx
  simp [State.byteAt, store_outside h x hx]

/-- Sign-extending a value that fits in `w` bits puts ones above them when the top one is set. -/
theorem signExtend_fits {w : Nat} {v c : Word} (hw : w ≤ 32) (hc : c.toNat = 2 ^ 32 - 2 ^ w)
    (h : v.toNat < 2 ^ w) :
    (v.setWidth w).signExtend 32 = if (v.setWidth w).msb then v + c else v := by
  have hp : 2 ^ w ≤ 2 ^ 32 := Nat.pow_le_pow_right (by decide) hw
  apply BitVec.eq_of_toNat_eq
  rw [BitVec.toNat_signExtend, BitVec.toNat_setWidth, BitVec.toNat_setWidth, Nat.mod_eq_of_lt h,
    Nat.mod_eq_of_lt v.isLt]
  generalize 2 ^ w = p at *
  split
  · rw [BitVec.toNat_add, hc, Nat.mod_eq_of_lt (by omega)]
  · rfl

/-! ### Accesses that may not be made -/

theorem load_misaligned (s : State) {a : Word} {w : Width} (h : a.toNat % w.bytes ≠ 0) :
    s.load a w = .error (.fault (.alignmentViolation a)) := by
  simp [State.load, aligned, h]

theorem load_outside (s : State) {a : Word} {w : Width} (ha : a.toNat % w.bytes = 0)
    (h : regionOf a.toNat = none) : s.load a w = .error (.fault (.outOfRange a)) := by
  obtain ⟨n, hn⟩ : ∃ n, w.bytes = n + 1 := by cases w <;> exact ⟨_, rfl⟩
  have hal : aligned a w = true := by simpa [aligned] using ha
  simp [State.load, hal, hn, State.readLe, State.readByte, h]

/-- A read that runs past the last byte of IO faults there. -/
theorem load_pastIo (s : State) {a : Word} {w : Width} (ha : a.toNat % w.bytes = 0)
    (h : regionOf a.toNat = some .io) (he : 0x040003FF < a.toNat + w.bytes) :
    s.load a w = .error (.fault (.outOfRange 0x040003FF#32)) := by
  rw [regionOf_iff] at h
  have hl : ∀ n : Nat, a.toNat = n → a = BitVec.ofNat 32 n := by rintro n rfl; simp
  cases w <;> simp only [regionFirst, regionLast, Width.bytes] at h ha he
  · omega
  · rw [hl 0x040003FE (by omega)]; rfl
  · rw [hl 0x040003FC (by omega)]; rfl

/-- A read inside IO draws each byte afresh. -/
theorem readLe_io (s : State) {a : Word} {n : Nat} (hn : n ≤ 4)
    (h : ∀ k < n, regionOf (a + BitVec.ofNat 32 k).toNat = some .io) :
    ∃ v, s.readLe a n = .ok (v, { s with draws := s.draws + n }) ∧
      ∀ k < n, ((v >>> (8 * k)).setWidth 8 : Byte) = (Config.freeWord (s.draws + k)).setWidth 8 := by
  induction n generalizing s a with
  | zero => exact ⟨_, rfl, by simp⟩
  | succ n ih =>
    have h0 := h 0 (by omega)
    rw [BitVec.add_zero] at h0
    have hb : s.readByte a = .ok ((Config.freeWord s.draws).setWidth 8, { s with draws := s.draws + 1 }) := by
      simp [State.readByte, h0, State.draw]
    obtain ⟨v, hv, hk⟩ := ih { s with draws := s.draws + 1 } (a := a + 1#32) (by omega) (by
      intro k hk
      have e : a + 1#32 + BitVec.ofNat 32 k = a + BitVec.ofNat 32 (k + 1) := by
        rw [BitVec.add_assoc]; congr 1; apply BitVec.eq_of_toNat_eq; simp; omega
      rw [e]; exact h (k + 1) (by omega))
    refine ⟨_, by simp only [State.readLe, hb, hv]; rw [Nat.add_assoc, Nat.add_comm 1 n], ?_⟩
    intro k hkn
    cases k with
    | zero => apply BitVec.eq_of_getLsbD_eq; intro i hi; simp [hi]
    | succ k =>
      rw [show s.draws + (k + 1) = s.draws + 1 + k by omega, ← hk k (by omega)]
      apply BitVec.eq_of_getLsbD_eq
      intro i hi
      have h8 : ¬8 * (k + 1) + i < 8 := by omega
      have h32 : 8 * (k + 1) + i < 32 := by omega
      simp only [BitVec.getLsbD_setWidth, BitVec.getLsbD_ushiftRight, BitVec.getLsbD_or, BitVec.getLsbD_shiftLeft, h8, h32,
        show 8 * (k + 1) + i - 8 = 8 * k + i by omega, decide_true, decide_false, Bool.true_and, Bool.false_and,
        Bool.or_false, Bool.not_false]

theorem load_io (s : State) {a : Word} {w : Width} (ha : a.toNat % w.bytes = 0) (h : regionOf a.toNat = some .io)
    (he : a.toNat + w.bytes ≤ 0x040003FF) :
    ∃ v, s.load a w = .ok (v, { s with draws := s.draws + w.bytes }) ∧
      ∀ k < w.bytes, ((v >>> (8 * k)).setWidth 8 : Byte) = (Config.freeWord (s.draws + k)).setWidth 8 := by
  have hal : aligned a w = true := by simpa [aligned] using ha
  have hio := regionOf_iff.mp h
  simp only [regionFirst, regionLast] at hio
  obtain ⟨v, hv, hk⟩ := readLe_io s (a := a) (n := w.bytes) (by cases w <;> decide) (by
    intro k hk
    have : (a + BitVec.ofNat 32 k).toNat = a.toNat + k := by rw [BitVec.toNat_add, BitVec.toNat_ofNat]; omega
    rw [regionOf_iff]
    simp only [regionFirst, regionLast]
    omega)
  exact ⟨v, by simp [State.load, hal, hv], hk⟩

/-- A load that begins a rule and may not be made is how the instruction stops. -/
theorem stopsAsRead_load (s : State) (a : Word) (w : Width) (f : Word × State → Except Stop State) :
    StopsAsRead (finish (s.load a w >>= f)) a w := by
  refine ⟨fun h => ?_, fun ha => ⟨fun h => ?_, fun h he => ?_⟩⟩
  · rw [load_misaligned s h]; rfl
  · rw [load_outside s ha h]; rfl
  · rw [load_pastIo s ha h he]; rfl

/-- A write whose first byte may not be written stops as that byte says. -/
theorem store_stop (s : State) {a v : Word} {w : Width} {e : Stop} (ha : a.toNat % w.bytes = 0)
    (h : checkWriteByte a a w.bytes = .error e) : s.store a w v = .error e := by
  obtain ⟨n, hn⟩ : ∃ n, w.bytes = n + 1 := by cases w <;> exact ⟨_, rfl⟩
  have hal : aligned a w = true := by simpa [aligned] using ha
  have hc : checkWrite a w.bytes a w.bytes = .error e := by rw [← h]; rw [hn, checkWrite, ← hn, h]
  simp [State.store, hal, hc]

theorem store_misaligned (s : State) {a v : Word} {w : Width} (h : a.toNat % w.bytes ≠ 0) :
    s.store a w v = .error (.fault (.alignmentViolation a)) := by
  simp [State.store, aligned, h]

/-- A store that begins a rule and may not be made is how the instruction stops. -/
theorem stopsAsWrite_store (s : State) (a v : Word) (w : Width) (f : State → Except Stop State) :
    StopsAsWrite (finish (s.store a w v >>= f)) a w := by
  refine ⟨fun h => ?_, fun ha => ⟨fun h => ?_, fun r h => ⟨?_, ?_, ?_⟩⟩⟩
  · rw [store_misaligned s h]; rfl
  · rw [store_stop s ha (e := .fault (.outOfRange a)) (by simp [checkWriteByte, h])]; rfl
  · intro hr
    rw [store_stop s ha (e := .fault (.writeToReadOnly a)) (by rcases hr with rfl | rfl <;> simp [checkWriteByte, h])]
    rfl
  · rintro rfl
    rw [store_stop s ha (e := .refuse .ioWrite) (by simp [checkWriteByte, h])]; rfl
  · rintro hr rfl
    rw [store_stop s ha (e := .refuse .videoByteWrite)
      (by rcases hr with rfl | rfl | rfl <;> simp [checkWriteByte, h, Width.bytes])]
    rfl

end Sys2Proof.Laws
end

