-- ==== Sys2Proof/Laws/Rules.lean ====
section
/-! SUPPORT. Frames and the ends of instruction rules: what each shared ending leaves. -/

namespace Sys2Proof.Laws

open Sys2Proof.Machine

/-! ### Frames -/

/-- A state that differs only in the pc, the flags, memory and the count of draws. -/
theorem frame_same {s t : State} {W : Fin 30 → Prop} (h1 : t.regs = s.regs)
    (h2 : t.cpsr = { s.cpsr with flags := t.cpsr.flags }) (h3 : t.spsr = s.spsr) (h4 : t.profile = s.profile)
    (h5 : t.sbzCheck = s.sbzCheck) : Frame s t W :=
  ⟨fun k _ => by rw [h1], h2, h3, h4, h5⟩

/-- The same, with one register of the current bank written. -/
theorem frame_setReg {s t : State} {i : RegIdx} {v : Word} {is : List RegIdx} (hi : i ∈ is) (hpc : i ≠ 15#4)
    (h1 : t.regs = (s.setReg i v).regs) (h2 : t.cpsr = { s.cpsr with flags := t.cpsr.flags })
    (h3 : t.spsr = s.spsr) (h4 : t.profile = s.profile) (h5 : t.sbzCheck = s.sbzCheck) : Frame s t (bank s is) := by
  refine ⟨?_, h2, h3, h4, h5⟩
  intro k hk
  have hne : physIndex s.cpsr.mode i ≠ k := fun e => hk ⟨i, hi, hpc, e⟩
  rw [h1]
  exact (regs_setRegIn_get s s.cpsr.mode i v k).trans (if_neg hne)

/-- Two frames one after the other. -/
theorem Frame.trans {s t u : State} {V W : Fin 30 → Prop} (h : Frame s t V) (h' : Frame t u W) :
    Frame s u (fun k => V k ∨ W k) := by
  obtain ⟨a1, a2, a3, a4, a5⟩ := h
  obtain ⟨b1, b2, b3, b4, b5⟩ := h'
  refine ⟨?_, ?_, b3.trans a3, b4.trans a4, b5.trans a5⟩
  · intro k hk
    rw [b1 k (fun h => hk (.inr h)), a1 k (fun h => hk (.inl h))]
  · rw [b2, a2]

/-- A frame with more places allowed. -/
theorem Frame.mono {s t : State} {V W : Fin 30 → Prop} (h : Frame s t V) (hvw : ∀ k, V k → W k) : Frame s t W :=
  ⟨fun k hk => h.1 k (fun hv => hk (hvw k hv)), h.2⟩

/-! ### Endings -/

/-- An ARM rule that ends by writing a result. -/
theorem endsArm_write (s : State) (rd : RegIdx) (r : Word) (fl : StatusFlags) :
    EndsArm s (.next ((s.setFlags fl).writeArm rd r)) rd r fl := by
  refine ⟨_, rfl, ?_, ?_, ?_, ?_, ?_⟩
  · unfold State.writeArm
    split
    · rfl
    · exact ⟨by simp, rfl⟩
  · unfold State.writeArm; split <;> rfl
  · unfold State.writeArm
    split
    · exact frame_same rfl rfl rfl rfl rfl
    · exact frame_setReg (by simp) ‹_› (i := rd) (v := r) rfl rfl rfl rfl rfl
  · intro a; simp [State.byteAt]
  · simp

/-- A THUMB rule that ends by writing a result to a low register. -/
theorem endsThumb_write (s : State) (rd : LowIdx) (r : Word) (fl : StatusFlags) :
    EndsThumb s (.next ((s.setFlags fl).writeLow rd r)) rd r fl := by
  refine ⟨_, rfl, ?_, rfl, rfl, ?_, fun _ => rfl, rfl⟩
  · simp [State.writeLow]
  · exact frame_setReg (by simp) (low_ne_pc rd) (i := low rd) (v := r) rfl rfl rfl rfl rfl

theorem endsFlags_arm (s : State) (fl : StatusFlags) : EndsFlags s (.next (s.setFlags fl).nextArm) (s.pc + 4#32) fl :=
  ⟨_, rfl, rfl, rfl, frame_same rfl rfl rfl rfl rfl, fun _ => rfl, rfl⟩

theorem endsFlags_thumb (s : State) (fl : StatusFlags) :
    EndsFlags s (.next (s.setFlags fl).nextThumb) (s.pc + 2#32) fl :=
  ⟨_, rfl, rfl, rfl, frame_same rfl rfl rfl rfl rfl, fun _ => rfl, rfl⟩

/-! ### Data processing -/

/-- A data-processing rule whose operands can be read, and which is no return, is the ALU and its write. -/
theorem dataProcessing_eq {op : AluOp} {f : Bool} {rn rd : RegIdx} {op2 : Operand2} {s : State} {sh : ShiftedOperand}
    (h : operand2Value s op2 = .ok sh) (hf : f = false ∨ rd ≠ 15#4)
    (hz : (s.sbzCheck && dpBadSbz op rn rd) = false) :
    dataProcessing op f rn rd op2 s = dpWrite s f rd (alu op (dpOp1 s op rn op2) sh s.flags f) := by
  have hr : (f && rd == 15#4) = false := by rcases hf with h | h <;> simp [h]
  simp [dataProcessing, refuseIf, hr, State.checkSbz, hz, h, bind, Except.bind]

/-- With S = 1 and Rd = R15 the end of the rule is an exception return, to the result or, after a compare, on to the
next instruction. -/
theorem dpWrite_return (s : State) (r : AluResult) :
    dpWrite s true 15#4 r = s.returnFromException (if r.writesResult then r.result else s.pc + 4#32) := rfl

/-- With S = 0 or any other Rd the end of the rule sets the flags and writes the result, if there is one. -/
theorem dpWrite_plain {s : State} {f : Bool} {rd : RegIdx} (r : AluResult) (h : f = false ∨ rd ≠ 15#4) :
    dpWrite s f rd r =
      .ok (if r.writesResult then (s.setFlags r.flags).writeArm rd r.result else (s.setFlags r.flags).nextArm) := by
  have hr : (f && rd == 15#4) = false := by rcases h with h | h <;> simp [h]
  rw [dpWrite, hr]
  cases r.writesResult <;> rfl

/-- What a data-processing rule that answers can have changed: no byte of memory, no SPSR and no draw. -/
theorem dataProcessing_ok {op : AluOp} {f : Bool} {rn rd : RegIdx} {op2 : Operand2} {s t : State}
    (h : dataProcessing op f rn rd op2 s = .ok t) :
    t.mem = s.mem ∧ t.spsr = s.spsr ∧ t.draws = s.draws ∧ t.profile = s.profile ∧ t.sbzCheck = s.sbzCheck := by
  simp only [dataProcessing] at h
  obtain ⟨_, -, h⟩ := bind_ok h
  obtain ⟨_, -, h⟩ := bind_ok h
  obtain ⟨_, -, h⟩ := bind_ok h
  obtain ⟨sh, -, h⟩ := bind_ok h
  unfold dpWrite at h
  split at h
  · obtain ⟨p, -, rfl⟩ := returnFromException_ok h
    exact ⟨rfl, rfl, rfl, rfl, rfl⟩
  · split at h <;> cases h <;> simp

end Sys2Proof.Laws
end

