-- ==== Sys2Proof/Laws/Transfer.lean ====
section
/-! SUPPORT. Data transfers: what the loads, the stores and the block transfers of both sets leave. -/

namespace Sys2Proof.Laws

open Sys2Proof.Machine

/-- read value -/
theorem readLe_bound {s t : State} {a v : Word} {n : Nat} (hn : n ≤ 4) (h : s.readLe a n = .ok (v, t)) : v.toNat < 2 ^ (8 * n) := by
  induction n generalizing s a v with
  | zero => cases h; decide
  | succ n ih =>
    simp only [State.readLe] at h
    cases h1 : s.readByte a with
    | error e => rw [h1] at h; cases h
    | ok p =>
      obtain ⟨b, s1⟩ := p
      rw [h1] at h
      cases h2 : s1.readLe (a + 1#32) n with
      | error e => simp only [h2] at h; cases h
      | ok q =>
        obtain ⟨hi, s2⟩ := q
        simp only [h2] at h
        cases h
        have := ih (by omega) h2
        rw [BitVec.toNat_or]
        apply Nat.or_lt_two_pow
        · rw [BitVec.toNat_shiftLeft]
          calc _ ≤ hi.toNat <<< 8 := Nat.mod_le _ _
            _ < _ := by rw [Nat.shiftLeft_eq, Nat.mul_add, Nat.pow_add, Nat.mul_comm 8 n] at *; omega
        · have hb := b.isLt
          simp only [BitVec.toNat_setWidth]
          calc b.toNat % 2^32 ≤ b.toNat := Nat.mod_le _ _
            _ < 2^8 := hb
            _ ≤ _ := Nat.pow_le_pow_right (by decide) (by omega)

theorem readByte_total {s : State} {a : Word} (h : regionOf a.toNat ≠ none) : ∃ b t, s.readByte a = .ok (b, t) := by
  unfold State.readByte
  cases hr : regionOf a.toNat with
  | none => contradiction
  | some r => cases r <;> exact ⟨_, _, rfl⟩
theorem readLe_total {s : State} {a : Word} {n : Nat} (h : ∀ k < n, regionOf (a + BitVec.ofNat 32 k).toNat ≠ none) : ∃ v t, s.readLe a n = .ok (v, t) := by
  induction n generalizing s a with
  | zero => exact ⟨_, _, rfl⟩
  | succ n ih =>
    have h0 := h 0 (by omega)
    rw [BitVec.add_zero] at h0
    obtain ⟨b, t, hb⟩ := readByte_total (s := s) h0
    have : ∀ k < n, regionOf (a + 1#32 + BitVec.ofNat 32 k).toNat ≠ none := by
      intro k hk
      have e : a + 1#32 + BitVec.ofNat 32 k = a + BitVec.ofNat 32 (k + 1) := by
        rw [BitVec.add_assoc]; congr 1; apply BitVec.eq_of_toNat_eq; simp; omega
      rw [e]; exact h (k + 1) (by omega)
    obtain ⟨v, u, hv⟩ := ih (s := t) this
    simp only [State.readLe, hb, hv]
    exact ⟨_, _, rfl⟩

/-- A read that may be made answers, with a value it may give. -/
theorem load_readable (s : State) {a : Word} {w : Width} (h : Readable a w) :
    ∃ v t, s.load a w = .ok (v, t) ∧ MayRead s a w v ∧ t = { s with draws := t.draws } := by
  obtain ⟨ha, hk⟩ := h
  have hal : aligned a w = true := by simpa [aligned] using ha
  have hb := aligned_bound hal
  obtain ⟨v, t, hv⟩ := readLe_total (s := s) (a := a) (n := w.bytes) (fun k hlt => by rw [byteAddr_of_lt hlt hb]; exact hk k hlt)
  have hl : s.load a w = .ok (v, t) := by rw [State.load, if_pos hal]; exact hv
  refine ⟨v, t, hl, ⟨readLe_bound (by cases w <;> decide) hv, ?_⟩, load_ok hl⟩
  intro hio
  cases hr : regionOf a.toNat with
  | none => exact absurd hr (by simpa using hk 0 (by cases w <;> decide))
  | some r =>
    have : r ≠ .io := by rintro rfl; exact hio hr
    have e := load_memory (s := s) hr this ha
    rw [hl] at e; cases e; rfl

theorem endsLoad_of (s : State) (c : Cond) (hc : evaluate c s.flags = true) (body : Except Stop State) (a : Word) (w : Width) (signed wb : Bool) (rn rd : RegIdx) (ea : Word)
    (hr : Readable a w) (hwb : wb = true → rn ≠ 15#4 ∧ rn ≠ rd) (hb : body = loadTransfer s w signed wb rn rd a ea) :
    EndsLoad s (conditional c s body) a w signed wb rn rd ea := by
  subst hb
  obtain ⟨v, t, hl, hm, ht⟩ := load_readable s hr
  refine ⟨(t.writeBack wb rn ea).writeArm rd (extend signed w v), conditional_ok hc (by simp [loadTransfer, hl, bind, Except.bind, pure, Except.pure]), v, hm, ?_, ?_, ?_, ?_, ?_⟩
  · unfold State.writeArm; split
    · rfl
    · refine ⟨by simp, ?_⟩; simp; rw [ht]
  · intro h
    obtain ⟨h1, h2⟩ := hwb h
    subst h
    unfold State.writeArm; split
    · show (t.setReg rn ea).reg rn = ea; simp
    · rename_i h3
      rw [reg_nextArm, reg_setReg _ _ h3 h1, if_neg (Ne.symm h2)]
      show (t.setReg rn ea).reg rn = ea; simp
  · unfold State.writeArm; split <;> (show (t.writeBack wb rn ea).flags = s.flags; simp [State.flags]; rw [ht])
  · refine ⟨?_, ?_, ?_, ?_, ?_⟩
    · intro k hk
      have n1 : rd ≠ 15#4 → physIndex s.cpsr.mode rd ≠ k := fun h e => hk ⟨rd, by simp, h, e⟩
      have n2 : wb = true → physIndex s.cpsr.mode rn ≠ k := fun h e => hk ⟨rn, by simp [h], (hwb h).1, e⟩
      have hmode : t.cpsr = s.cpsr := by rw [ht]
      have hregs : t.regs = s.regs := by rw [ht]
      have hb : (t.writeBack wb rn ea).regs.get k = s.regs.get k := by
        cases wb
        · exact congrArg (·.get k) hregs
        · refine (regs_setRegIn_get _ _ _ _ k).trans ((if_neg ?_).trans (congrArg (·.get k) hregs))
          rw [hmode]; exact n2 rfl
      unfold State.writeArm; split
      · exact hb
      · rename_i h3
        refine (regs_setRegIn_get _ _ _ _ k).trans ((if_neg ?_).trans hb)
        rw [writeBack_cpsr, hmode]; exact n1 h3
    · simp; rw [ht]
    · simp; rw [ht]
    · simp; rw [ht]
    · simp; rw [ht]
  · intro x; simp [State.byteAt]; rw [ht]


/-- What a store's operand read changes, and what it gives. -/
theorem storeOperand_state (s : State) (m : Mode) (i : RegIdx) :
    (s.storeOperand m i).2 = { s with draws := (s.storeOperand m i).2.draws } ∧
      (i ≠ 15#4 → s.storeOperand m i = (s.regIn m i, s)) := by
  unfold State.storeOperand
  split
  · exact ⟨rfl, fun h => absurd ‹_› h⟩
  · exact ⟨rfl, fun _ => rfl⟩

/-- An ARM store of one register, where the write is allowed. -/
theorem endsStore_of (s : State) (c : Cond) (hc : evaluate c s.flags = true) (body : Except Stop State) (a : Word)
    (w : Width) (wb : Bool) (rn rd : RegIdx) (ea : Word) (hw : Writable a w) (hwb : wb = true → rn ≠ 15#4)
    (hb : body = storeTransfer s w wb rn rd a ea) : EndsStore s (conditional c s body) a w wb rn rd ea := by
  subst hb
  obtain ⟨h1, h2⟩ := storeOperand_state s s.cpsr.mode rd
  generalize hop : s.storeOperand s.cpsr.mode rd = op at *
  have hs := store_writable op.2 (v := op.1) hw
  generalize hm : ({ op.2 with mem := writeLe op.2.mem a op.1 w.bytes } : State) = t at *
  have hh := store_holds hs
  have ho := store_sameOutside hs
  have ht : t = { s with mem := t.mem, draws := t.draws } := by rw [← hm, h1]
  refine ⟨(t.writeBack wb rn ea).nextArm,
    conditional_ok hc (by simp [storeTransfer, hop, hs, bind, Except.bind, pure, Except.pure]), ?_, ?_, ?_, ?_, ?_, ?_⟩
  · intro h k hk
    have := hh k hk
    rw [h2 h] at this
    cases wb <;> exact this
  · intro x hx
    have e := ho x hx
    rw [h1] at e
    cases wb <;> exact e
  · intro h
    subst h
    show (t.setReg rn ea).reg rn = ea
    simp
  · rw [ht]; cases wb <;> rfl
  · rw [ht]; cases wb <;> rfl
  · rw [ht]
    cases wb
    · exact frame_same rfl rfl rfl rfl rfl
    · exact frame_setReg (i := rn) (v := ea) (by simp) (hwb rfl) rfl rfl rfl rfl rfl

/-- A THUMB load of one register, where the read may be made. -/
theorem endsThumbLoad_of (s : State) {a : Word} {w : Width} (signed : Bool) (rd : LowIdx) (hr : Readable a w) :
    EndsThumbLoad s (finish (thumbLoad w signed a rd s)) a w signed rd := by
  obtain ⟨v, t, hl, hm, ht⟩ := load_readable s hr
  refine ⟨t.writeLow rd (extend signed w v), by simp [thumbLoad, hl, bind, Except.bind, pure, Except.pure, finish],
    v, hm, ?_⟩
  rw [ht]
  exact ⟨by simp [State.writeLow], rfl, rfl, frame_setReg (i := low rd) (by simp) (low_ne_pc rd) rfl rfl rfl rfl rfl,
    fun _ => rfl⟩

/-- A THUMB store of one register, where the write is allowed. -/
theorem endsThumbStore_of (s : State) {a : Word} {w : Width} (rd : LowIdx) (hw : Writable a w) :
    EndsThumbStore s (finish (thumbStore w a rd s)) a w rd := by
  have hs := store_writable s (v := s.reg (low rd)) hw
  exact ⟨({ s with mem := writeLe s.mem a (s.reg (low rd)) w.bytes } : State).nextThumb, by rw [thumbStore, hs]; rfl,
    (store_holds hs :), (store_sameOutside hs :), rfl, rfl,
    frame_same rfl rfl rfl rfl rfl, rfl⟩

/-! ### Rules -/

theorem singleTransfer_eq {load : Bool} {width : Width} {p u w : Bool} {rn rd : RegIdx} {off : Offset} {s : State}
    {o : Word} (hT : (!p && w && s.isReference) = false) (hw : (writesBack p w && (rn == 15#4 || rn == rd)) = false)
    (hst : (!load && rd == 15#4 && s.isReference) = false) (ho : offsetValue s off = .ok o) :
    singleTransfer load width p u w rn rd off s =
      (let base := s.readReg 8#32 rn
       let ea := effectiveAddress u base o
       let addr := if p then ea else base
       if load then loadTransfer s width false (writesBack p w) rn rd addr ea
       else storeTransfer s width (writesBack p w) rn rd addr ea) := by
  simp only [singleTransfer, transferChecks, hT, hw, hst, ho, refuseIf, bind, Except.bind, Bool.false_eq_true, if_false]

theorem halfwordTransfer_eq {load : Bool} {width : Width} {signed p u w : Bool} {rn rd : RegIdx} {off : HalfOffset}
    {s : State} {o : Word} (hz : (s.sbzCheck && halfOffsetBadSbz off) = false) (hT : (!p && w) = false)
    (hw : (writesBack p w && (rn == 15#4 || rn == rd)) = false)
    (hst : (!load && rd == 15#4 && s.isReference) = false) (ho : halfOffsetValue s off = .ok o) :
    halfwordTransfer load width signed p u w rn rd off s =
      (let base := s.readReg 8#32 rn
       let ea := effectiveAddress u base o
       let addr := if p then ea else base
       if load then loadTransfer s width signed (writesBack p w) rn rd addr ea
       else storeTransfer s width (writesBack p w) rn rd addr ea) := by
  simp only [halfwordTransfer, State.checkSbz, hz, transferChecks, hT, hw, hst, ho, refuseIf, bind, Except.bind,
    Bool.false_eq_true, if_false]

end Sys2Proof.Laws
end

