-- ==== Sys2Proof/Laws/BlockTransfer.lean ====
section
/-! SUPPORT. Register lists and block transfers: which register takes which word, and what a run of reads, of stores
or of register writes leaves. -/

namespace Sys2Proof.Laws

open Sys2Proof.Machine

/-! ### Register lists -/

theorem mem_regList {rl : BitVec 16} {i : RegIdx} : i ∈ regList rl ↔ rl.getLsbD i.toNat = true := by
  simp only [regList, List.mem_map, List.mem_filter, List.mem_range]
  constructor
  · rintro ⟨j, ⟨hj, hb⟩, rfl⟩
    rwa [BitVec.toNat_ofNat, Nat.mod_eq_of_lt hj]
  · intro h
    exact ⟨i.toNat, ⟨i.isLt, h⟩, by simp⟩

theorem regList_length (rl : BitVec 16) : (regList rl).length = rank rl 16 := by
  simp [regList, rank]

theorem regList_nodup (rl : BitVec 16) : (regList rl).Nodup := by
  unfold regList
  apply List.Nodup.map_on
  · intro x hx y hy h
    simp only [List.mem_filter, List.mem_range] at hx hy
    have := congrArg BitVec.toNat h
    rwa [BitVec.toNat_ofNat, BitVec.toNat_ofNat, Nat.mod_eq_of_lt hx.1, Nat.mod_eq_of_lt hy.1] at this
  · exact List.Nodup.filter _ List.nodup_range

/-- The place of a listed register is the number of listed registers below it. -/
theorem regList_rank {rl : BitVec 16} {i : RegIdx} (h : rl.getLsbD i.toNat = true) :
    (regList rl)[rank rl i.toNat]? = some i := by
  have hi := i.isLt
  have e : List.range 16 = List.range i.toNat ++ (i.toNat :: (List.range (15 - i.toNat)).map (i.toNat + 1 + ·)) := by
    rw [show (16 : Nat) = i.toNat + ((15 - i.toNat) + 1) by omega, List.range_add, List.range_succ_eq_map]
    simp only [List.map_cons, List.map_map, Nat.add_zero]
    congr 2
    apply List.map_congr_left
    intro a _
    simp only [Function.comp]; omega
  unfold regList
  rw [e, List.filter_append, List.map_append, List.getElem?_append_right (by simp [rank]), List.filter_cons, if_pos h]
  simp [rank]

theorem rank_lt {rl : BitVec 16} {i : RegIdx} (h : rl.getLsbD i.toNat = true) : rank rl i.toNat < (regList rl).length :=
  (List.getElem?_eq_some_iff.mp (regList_rank h)).1

/-- Every place of the list is some register's. -/
theorem regList_getElem {rl : BitVec 16} {k : Nat} {i : RegIdx} (h : (regList rl)[k]? = some i) :
    rl.getLsbD i.toNat = true ∧ rank rl i.toNat = k := by
  have hm : rl.getLsbD i.toNat = true := mem_regList.mp (List.mem_of_getElem? h)
  refine ⟨hm, ?_⟩
  exact (List.getElem?_inj (rank_lt hm) (regList_nodup rl)).mp ((regList_rank hm).trans h.symm)

theorem regList_le (rl : BitVec 16) : (regList rl).length ≤ 16 := by
  simpa [regList] using List.length_filter_le (fun i => rl.getLsbD i) (List.range 16)

/-- A list of low registers has as many as lie below eight. -/
theorem rank_regs (l : BitVec 8) : (regList (l.setWidth 16)).length = rank (l.setWidth 16) 8 := by
  rw [regList_length]
  unfold rank
  rw [show (16:Nat) = 8 + 8 from rfl, List.range_add, List.filter_append]
  rw [List.length_append, Nat.add_eq_left, List.length_eq_zero_iff, List.filter_eq_nil_iff]
  intro a ha
  simp only [List.mem_map, List.mem_range] at ha
  obtain ⟨j, hj, rfl⟩ := ha
  simp [BitVec.getLsbD_setWidth]

theorem low_toNat (i : LowIdx) : (low i).toNat = i.toNat := by revert i; decide

theorem lowBit (l : BitVec 8) (i : LowIdx) : (l.setWidth 16).getLsbD (low i).toNat = l.getLsbD i.toNat := by
  rw [low_toNat]; have := i.isLt; simp [BitVec.getLsbD_setWidth]; omega

/-- A list of low registers names low registers alone. -/
theorem lowList {l : BitVec 8} {i : RegIdx} (h : i ∈ regList (l.setWidth 16)) :
    ∃ j : LowIdx, i = low j ∧ l.getLsbD j.toNat = true := by
  rw [mem_regList] at h
  have h8 : i.toNat < 8 := by
    rw [BitVec.getLsbD_setWidth] at h
    simp only [Bool.and_eq_true] at h
    exact BitVec.lt_of_getLsbD h.2
  refine ⟨i.setWidth 3, ?_, ?_⟩
  · apply BitVec.eq_of_toNat_eq; rw [low_toNat]; simp; omega
  · simp only [BitVec.toNat_setWidth]; rw [Nat.mod_eq_of_lt (by omega)]
    rw [BitVec.getLsbD_setWidth] at h
    simp only [Bool.and_eq_true] at h
    exact h.2

/-- What holds of every listed register's place holds of every place. -/
theorem rank_all {rl : BitVec 16} {P : Nat → Prop} (h : ∀ i < 16, rl.getLsbD i = true → P (rank rl i)) :
    ∀ k < rank rl 16, P k := by
  intro k hk
  rw [← regList_length] at hk
  obtain ⟨h1, h2⟩ := regList_getElem (List.getElem?_eq_getElem hk)
  rw [← h2]
  exact h _ (BitVec.isLt _) h1

theorem regList_ne_nil {rl : BitVec 16} (h : rl ≠ 0#16) : regList rl ≠ [] := by
  intro e
  apply h
  apply BitVec.eq_of_getLsbD_eq
  intro i hi
  simp only [BitVec.getLsbD_zero]
  by_contra hc
  have : BitVec.ofNat 4 i ∈ regList rl :=
    mem_regList.mpr (by rw [BitVec.toNat_ofNat, Nat.mod_eq_of_lt hi]; simpa using hc)
  rw [e] at this
  cases this

/-- A User register and another register of any mode share no place. -/
theorem physIndex_user {m : Mode} {i j : RegIdx} (hi : i ≠ 15#4) (hj : j ≠ 15#4) :
    physIndex .user i = physIndex m j → i = j := by
  revert i j
  cases m <;> decide

theorem blockStart_eq (p u : Bool) (base : Word) (n : Nat) :
    blockStart p u base n =
      if u then (if p then base + 4#32 else base)
      else (if p then base - BitVec.ofNat 32 (4 * n) else base - BitVec.ofNat 32 (4 * n) + 4#32) := by
  cases p <;> cases u <;> rfl

/-! ### Runs of words -/

/-- The `k`-th word from an address on. -/
def slot (a : Word) (k : Nat) : Word := a + BitVec.ofNat 32 (4 * k)

theorem slot_zero (a : Word) : slot a 0 = a := by simp [slot]

theorem slot_succ (a : Word) (k : Nat) : slot (a + 4#32) k = slot a (k + 1) := by
  unfold slot
  rw [BitVec.add_assoc]
  congr 1
  apply BitVec.eq_of_toNat_eq
  simp only [BitVec.toNat_add, BitVec.toNat_ofNat]
  omega

/-- A run of reads that may be made answers with values they may give. -/
theorem readMany_readable (s : State) {a : Word} {n : Nat} (h : ∀ k < n, Readable (slot a k) .word) :
    ∃ vs t, s.readMany a n = .ok (vs, t) ∧ vs.length = n ∧ t = { s with draws := t.draws } ∧
      ∀ k v, vs[k]? = some v → MayRead s (slot a k) .word v := by
  induction n generalizing s a with
  | zero => exact ⟨[], s, rfl, rfl, rfl, by simp⟩
  | succ n ih =>
    have h0 := h 0 (by omega)
    rw [slot_zero] at h0
    obtain ⟨v, t, hl, hm, ht⟩ := load_readable s h0
    obtain ⟨vs, u, hr, hn, hu, hv⟩ := ih t (a := a + 4#32) (fun k hk => by rw [slot_succ]; exact h (k + 1) (by omega))
    refine ⟨v :: vs, u, by simp [State.readMany, hl, hr], by simp [hn], by rw [hu, ht], ?_⟩
    intro k w hk
    cases k with
    | zero => rw [slot_zero]; simp at hk; subst hk; exact hm
    | succ k =>
      have := hv k w (by simpa using hk)
      rw [slot_succ, ht] at this
      exact this

/-- Register writes leave the places of no listed register as they were. -/
theorem writeMany_get_ne (s : State) (m : Mode) (l : List (RegIdx × Word)) (k : Fin 30)
    (h : ∀ p ∈ l, p.1 ≠ 15#4 → physIndex m p.1 ≠ k) : (s.writeMany m l).regs.get k = s.regs.get k := by
  induction l generalizing s with
  | nil => rfl
  | cons c rest ih =>
    obtain ⟨i, v⟩ := c
    rw [State.writeMany, ih _ (fun p hp => h p (by simp [hp]))]
    split
    · rfl
    · rw [regs_setRegIn_get, if_neg (h (i, v) (by simp) ‹_›)]

/-- A listed register takes its word. -/
theorem writeMany_get (s : State) (m : Mode) {l : List (RegIdx × Word)} {i : RegIdx} {v : Word}
    (hd : (l.map Prod.fst).Nodup) (h : (i, v) ∈ l) (hi : i ≠ 15#4) :
    (s.writeMany m l).regs.get (physIndex m i) = v := by
  induction l generalizing s with
  | nil => cases h
  | cons c rest ih =>
    obtain ⟨j, w⟩ := c
    simp only [List.map_cons, List.nodup_cons] at hd
    rw [State.writeMany]
    rcases List.mem_cons.mp h with h | h
    · cases h
      rw [if_neg hi, writeMany_get_ne, regs_setRegIn_get, if_pos rfl]
      intro p hp hp15 e
      rw [physIndex_inj m hp15 hi] at e
      exact hd.1 (List.mem_map.mpr ⟨p, hp, e⟩)
    · exact ih _ hd.2 h

theorem writeMany_pc_ne (s : State) (m : Mode) (l : List (RegIdx × Word)) (h : ∀ p ∈ l, p.1 ≠ 15#4) :
    (s.writeMany m l).pc = s.pc := by
  induction l generalizing s with
  | nil => rfl
  | cons c rest ih =>
    obtain ⟨i, v⟩ := c
    rw [State.writeMany, ih _ (fun p hp => h p (by simp [hp])), if_neg (h (i, v) (by simp))]
    rfl

theorem writeMany_pc (s : State) (m : Mode) {l : List (RegIdx × Word)} {v : Word} (hd : (l.map Prod.fst).Nodup)
    (h : (15#4, v) ∈ l) : (s.writeMany m l).pc = v := by
  induction l generalizing s with
  | nil => cases h
  | cons c rest ih =>
    obtain ⟨j, w⟩ := c
    simp only [List.map_cons, List.nodup_cons] at hd
    rw [State.writeMany]
    rcases List.mem_cons.mp h with h | h
    · cases h
      rw [if_pos rfl, writeMany_pc_ne]
      intro p hp e
      exact hd.1 (List.mem_map.mpr ⟨p, hp, e⟩)
    · exact ih _ hd.2 h

/-- Where a write lands, in words of no region above the video memory. -/
theorem writable_lt {a : Word} {w : Width} (h : Writable a w) : a.toNat < 0x08000000 := by
  obtain ⟨-, r, hr, hk⟩ := h
  rw [regionOf_iff] at hr
  rcases hk with rfl | rfl | ⟨rfl | rfl | rfl, -⟩ <;> simp only [regionFirst, regionLast] at hr <;> omega

/-- A short run of words that begins below 0x08000000 does not wrap. -/
theorem slot_toNat {a : Word} {k : Nat} (ha : a.toNat < 0x08000000) (hk : k ≤ 32) :
    (slot a k).toNat = a.toNat + 4 * k := by
  unfold slot
  rw [BitVec.toNat_add, BitVec.toNat_ofNat]
  omega

/-- A run of stores that are all allowed answers: each word holds its register, and no other byte changes. -/
theorem storeMany_writable (s : State) (m : Mode) {a : Word} {is : List RegIdx} (hn : is.length ≤ 17)
    (h : ∀ k < is.length, Writable (slot a k) .word) :
    ∃ t, s.storeMany m a is = .ok t ∧ t = { s with mem := t.mem, draws := t.draws } ∧
      (∀ k i, is[k]? = some i → i ≠ 15#4 → Holds t (slot a k).toNat 4 (s.regIn m i)) ∧
      (is ≠ [] → SameOutside s t a.toNat (4 * is.length)) := by
  induction is generalizing s a with
  | nil => exact ⟨s, rfl, rfl, by simp, by simp⟩
  | cons i rest ih =>
    have h0 := h 0 (by simp)
    rw [slot_zero] at h0
    obtain ⟨o1, o2⟩ := storeOperand_state s m i
    generalize hop : s.storeOperand m i = op at *
    have hs := store_writable op.2 (v := op.1) h0
    generalize hm : ({ op.2 with mem := writeLe op.2.mem a op.1 Width.word.bytes } : State) = u at *
    have hh := store_holds hs
    have ho := store_sameOutside hs
    have hu : u = { s with mem := u.mem, draws := u.draws } := by rw [← hm, o1]
    have ha := writable_lt h0
    simp only [List.length_cons] at hn
    obtain ⟨t, ht, hst, hr, hout⟩ := ih u (a := a + 4#32) (by omega)
      (fun k hk => by rw [slot_succ]; exact h (k + 1) (by simpa using hk))
    have ha4 : (a + 4#32).toNat = a.toNat + 4 := by rw [BitVec.toNat_add]; simp; omega
    have same : ∀ x, x < a.toNat + 4 → t.byteAt x = u.byteAt x := by
      intro x hx
      cases rest with
      | nil => cases ht; rfl
      | cons j js => exact hout (by simp) x (.inl (by omega))
    refine ⟨t, by simp [State.storeMany, hop, hs, ht], by rw [hst, hu], ?_, ?_⟩
    · intro k j hk hj
      cases k with
      | zero =>
        rw [slot_zero]
        simp only [List.getElem?_cons_zero, Option.some.injEq] at hk
        subst hk
        intro n hn
        rw [same _ (by omega), hh n hn, o2 hj]
      | succ k =>
        have := hr k j (by simpa using hk) hj
        rw [slot_succ, hu] at this
        exact this
    · intro _ x hx
      have e2 : u.byteAt x = s.byteAt x := by
        rw [ho x (by rcases hx with hx | hx <;> simp only [Width.bytes, List.length_cons] at * <;> omega)]
        rw [o1]; rfl
      rw [← e2]
      rcases hx with hx | hx
      · exact same x (by omega)
      · cases rest with
        | nil => cases ht; rfl
        | cons j js => exact hout (by simp) x (.inr (by simp only [List.length_cons] at *; omega))

/-! ### A list read from memory -/

theorem zip_fst_nodup {is : List RegIdx} {vs : List Word} (h : is.Nodup) : ((is.zip vs).map Prod.fst).Nodup := by
  refine List.Nodup.sublist ?_ h
  clear h
  induction is generalizing vs with
  | nil => simp
  | cons i rest ih =>
    cases vs with
    | nil => simp
    | cons v vs => simpa using ih

/-- A listed register and its word are a pair of the list read. -/
theorem zip_mem {rl : BitVec 16} {vs : List Word} {i : RegIdx} (h : rl.getLsbD i.toNat = true)
    (hl : (regList rl).length ≤ vs.length) :
    ∃ v, vs[rank rl i.toNat]? = some v ∧ (i, v) ∈ (regList rl).zip vs := by
  have hr := rank_lt h
  have hv : vs[rank rl i.toNat]? = some (vs[rank rl i.toNat]'(by omega)) := List.getElem?_eq_getElem _
  exact ⟨_, hv, List.mem_of_getElem? (List.getElem?_zip_eq_some.mpr ⟨regList_rank h, hv⟩)⟩

/-- The reads, the register writes and the write-back of an LDM: each listed register holds its word, the base its new
value, and nothing else but the count of draws changes. -/
theorem readMany_writeMany (s : State) (m : Mode) (hm : m = .user ∨ m = s.cpsr.mode) (w : Bool) (rn : RegIdx)
    (rl : BitVec 16) (a nb : Word) (hrn : rn ≠ 15#4) (hwl : w = true → rl.getLsbD rn.toNat = false)
    (h : ∀ k < rank rl 16, Readable (slot a k) .word) :
    ∃ vs t x, s.readMany a (rank rl 16) = .ok (vs, t) ∧
      (t.writeMany m ((regList rl).zip vs)).writeBack w rn nb = x ∧
      x = { s with regs := x.regs, pc := x.pc, draws := x.draws } ∧
      (∀ i : RegIdx, rl.getLsbD i.toNat = true → i ≠ 15#4 →
        MayRead s (slot a (rank rl i.toNat)) .word (x.regs.get (physIndex m i))) ∧
      (if rl.getLsbD 15 then MayRead s (slot a (rank rl 15)) .word x.pc else x.pc = s.pc) ∧
      (w = true → x.regs.get (physIndex s.cpsr.mode rn) = nb) ∧
      (∀ k, ¬((∃ i : RegIdx, rl.getLsbD i.toNat = true ∧ i ≠ 15#4 ∧ physIndex m i = k) ∨
        (w = true ∧ physIndex s.cpsr.mode rn = k)) → x.regs.get k = s.regs.get k) := by
  obtain ⟨vs, t, ht, hvl, hst, hv⟩ := readMany_readable s h
  have hle : (regList rl).length ≤ vs.length := by rw [regList_length]; omega
  refine ⟨vs, t, _, ht, rfl, ?_⟩
  generalize hw1 : t.writeMany m ((regList rl).zip vs) = w1 at *
  have hw1' : w1 = { s with regs := w1.regs, pc := w1.pc, draws := w1.draws } := by rw [← hw1, writeMany_eq, hst]
  have hregs : ∀ k, (w1.writeBack w rn nb).regs.get k = if w = true ∧ physIndex s.cpsr.mode rn = k then nb else w1.regs.get k := by
    intro k
    cases w with
    | false => simp [State.writeBack]
    | true =>
      show (w1.setReg rn nb).regs.get k = _
      rw [show w1.setReg rn nb = w1.setRegIn s.cpsr.mode rn nb by rw [State.setReg, hw1'], regs_setRegIn_get]
      simp
  have hpc : (w1.writeBack w rn nb).pc = w1.pc := by cases w <;> rfl
  refine ⟨?_, ?_, ?_, ?_, ?_⟩
  · rw [hw1']; cases w <;> rfl
  · intro i hi h15
    obtain ⟨v, h1, h2⟩ := zip_mem hi hle
    rw [hregs, if_neg, ← hw1, writeMany_get t m (zip_fst_nodup (regList_nodup _)) h2 h15]
    · exact hv _ _ h1
    · rintro ⟨hwt, e⟩
      have : i = rn := by
        rcases hm with rfl | rfl
        · exact physIndex_user h15 hrn e.symm
        · exact ((physIndex_inj _ hrn h15).mp e).symm
      subst this
      rw [hwl hwt] at hi; cases hi
  · rw [hpc]
    split
    · rename_i h15
      obtain ⟨v, h1, h2⟩ := zip_mem (i := 15#4) h15 hle
      rw [← hw1, writeMany_pc t m (zip_fst_nodup (regList_nodup _)) h2]
      exact hv _ _ h1
    · rename_i h15
      rw [← hw1, writeMany_pc_ne, hst]
      rintro ⟨i, v⟩ hp rfl
      exact h15 (mem_regList.mp (List.of_mem_zip hp).1)
  · intro hwt; rw [hregs, if_pos ⟨hwt, rfl⟩]
  · intro k hk
    rw [hregs, if_neg (fun h => hk (.inr h)), ← hw1, writeMany_get_ne, hst]
    rintro ⟨i, v⟩ hp h15 e
    exact hk (.inl ⟨i, mem_regList.mp (List.of_mem_zip hp).1, h15, e⟩)

/-! ### Runs of words that may not be read or written -/

/-- A run of reads stops as its first word that may not be read. -/
theorem stopsAsRead_readMany (s : State) {a : Word} {n k : Nat} (hk : k < n)
    (h : ∀ j < k, Readable (slot a j) .word) (f : List Word × State → Except Stop State) :
    StopsAsRead (finish (s.readMany a n >>= f)) (slot a k) .word := by
  induction k generalizing s a n f with
  | zero =>
    obtain ⟨n, rfl⟩ : ∃ m, n = m + 1 := ⟨n - 1, by omega⟩
    rw [slot_zero]
    have e : s.readMany a (n + 1) >>= f = s.load a .word >>= fun p =>
        (p.2.readMany (a + 4#32) n >>= fun q => Except.ok (p.1 :: q.1, q.2)) >>= f := by
      simp only [State.readMany, bind, Except.bind]
      rcases s.load a .word with _ | ⟨v, t⟩
      · rfl
      · dsimp only; cases t.readMany (a + 4#32) n <;> rfl
    rw [e]
    exact stopsAsRead_load s a .word _
  | succ k ih =>
    obtain ⟨n, rfl⟩ : ∃ m, n = m + 1 := ⟨n - 1, by omega⟩
    have h0 := h 0 (by omega)
    rw [slot_zero] at h0
    obtain ⟨v, t, hl, -, -⟩ := load_readable s h0
    have e : s.readMany a (n + 1) >>= f = t.readMany (a + 4#32) n >>= fun q => f (v :: q.1, q.2) := by
      simp only [State.readMany, hl, bind, Except.bind]
      cases t.readMany (a + 4#32) n <;> rfl
    rw [e, ← slot_succ]
    exact ih t (by omega) (fun j hj => by rw [slot_succ]; exact h (j + 1) (by omega)) _

/-- A run of stores stops as its first word that may not be written. -/
theorem stopsAsWrite_storeMany (s : State) (m : Mode) {a : Word} {is : List RegIdx} {k : Nat} (hk : k < is.length)
    (h : ∀ j < k, Writable (slot a j) .word) (f : State → Except Stop State) :
    StopsAsWrite (finish (s.storeMany m a is >>= f)) (slot a k) .word := by
  induction k generalizing s a is with
  | zero =>
    obtain ⟨i, rest, rfl⟩ := List.exists_cons_of_length_pos hk
    rw [slot_zero]
    have e : s.storeMany m a (i :: rest) >>= f = (s.storeOperand m i).2.store a .word (s.storeOperand m i).1 >>=
        fun t => t.storeMany m (a + 4#32) rest >>= f := by
      simp only [State.storeMany, bind, Except.bind]
      cases (s.storeOperand m i).2.store a .word (s.storeOperand m i).1 <;> rfl
    rw [e]
    exact stopsAsWrite_store _ a _ .word _
  | succ k ih =>
    obtain ⟨i, rest, rfl⟩ := List.exists_cons_of_length_pos (Nat.lt_of_le_of_lt (Nat.zero_le _) hk)
    have h0 := h 0 (by omega)
    rw [slot_zero] at h0
    have hs := store_writable (s.storeOperand m i).2 (v := (s.storeOperand m i).1) h0
    rw [State.storeMany, hs, ← slot_succ]
    exact ih _ (by simpa using hk) (fun j hj => by rw [slot_succ]; exact h (j + 1) (by omega))

end Sys2Proof.Laws
end

