-- ==== Sys2Proof/Laws/PerInstr.lean ====
section
/-! SUPPORT. A statement about every instruction as syntax, one lemma per constructor. -/

namespace Sys2Proof.Laws.CondField

/-- A conditional instruction's word holds its condition code in bits 31 to 28 (30_encoding.md R101, R114). -/
def Statement (i : Instr) : Prop :=
  ∀ c, i.cond? = some c → ∃ w, encode i = .arm w ∧ field w 28 4 = c.code

theorem armInvalidNvCondition (raw : Word) : Statement (.armInvalidNvCondition raw) := by intro c h; cases h

theorem armMul (cond : Cond) (s : Bool) (rd rn rs rm : RegIdx) : Statement (.armMul cond s rd rn rs rm) := by
  intro d h; cases h; refine ⟨_, rfl, ?_⟩; unfold field; unfold encodeMultiply; repeat rw [BitVec.extractLsb'_append_eq_of_le (by decide)]
  exact BitVec.extractLsb'_eq_self

theorem armMla (cond : Cond) (s : Bool) (rd rn rs rm : RegIdx) : Statement (.armMla cond s rd rn rs rm) := by
  intro d h; cases h; refine ⟨_, rfl, ?_⟩; unfold field; unfold encodeMultiply; repeat rw [BitVec.extractLsb'_append_eq_of_le (by decide)]
  exact BitVec.extractLsb'_eq_self

theorem armUndefinedMultiply (raw : Word) : Statement (.armUndefinedMultiply raw) := by intro c h; cases h

theorem armUmull (cond : Cond) (s : Bool) (rdHi rdLo rs rm : RegIdx) :
    Statement (.armUmull cond s rdHi rdLo rs rm) := by
  intro d h; cases h; refine ⟨_, rfl, ?_⟩; unfold field; unfold encodeMultiply; repeat rw [BitVec.extractLsb'_append_eq_of_le (by decide)]
  exact BitVec.extractLsb'_eq_self

theorem armUmlal (cond : Cond) (s : Bool) (rdHi rdLo rs rm : RegIdx) :
    Statement (.armUmlal cond s rdHi rdLo rs rm) := by
  intro d h; cases h; refine ⟨_, rfl, ?_⟩; unfold field; unfold encodeMultiply; repeat rw [BitVec.extractLsb'_append_eq_of_le (by decide)]
  exact BitVec.extractLsb'_eq_self

theorem armSmull (cond : Cond) (s : Bool) (rdHi rdLo rs rm : RegIdx) :
    Statement (.armSmull cond s rdHi rdLo rs rm) := by
  intro d h; cases h; refine ⟨_, rfl, ?_⟩; unfold field; unfold encodeMultiply; repeat rw [BitVec.extractLsb'_append_eq_of_le (by decide)]
  exact BitVec.extractLsb'_eq_self

theorem armSmlal (cond : Cond) (s : Bool) (rdHi rdLo rs rm : RegIdx) :
    Statement (.armSmlal cond s rdHi rdLo rs rm) := by
  intro d h; cases h; refine ⟨_, rfl, ?_⟩; unfold field; unfold encodeMultiply; repeat rw [BitVec.extractLsb'_append_eq_of_le (by decide)]
  exact BitVec.extractLsb'_eq_self

theorem armSwp (cond : Cond) (rn rd : RegIdx) (sbz : BitVec 4) (rm : RegIdx) :
    Statement (.armSwp cond rn rd sbz rm) := by
  intro d h; cases h; refine ⟨_, rfl, ?_⟩; unfold field; unfold encodeSwap; repeat rw [BitVec.extractLsb'_append_eq_of_le (by decide)]
  exact BitVec.extractLsb'_eq_self

theorem armSwpb (cond : Cond) (rn rd : RegIdx) (sbz : BitVec 4) (rm : RegIdx) :
    Statement (.armSwpb cond rn rd sbz rm) := by
  intro d h; cases h; refine ⟨_, rfl, ?_⟩; unfold field; unfold encodeSwap; repeat rw [BitVec.extractLsb'_append_eq_of_le (by decide)]
  exact BitVec.extractLsb'_eq_self

theorem armUndefinedSwap (raw : Word) : Statement (.armUndefinedSwap raw) := by intro c h; cases h

theorem armInvalidSignedStore (raw : Word) : Statement (.armInvalidSignedStore raw) := by intro c h; cases h

theorem armStrh (cond : Cond) (p u w : Bool) (rn rd : RegIdx) (off : HalfOffset) :
    Statement (.armStrh cond p u w rn rd off) := by
  intro d h; cases h; refine ⟨_, rfl, ?_⟩; unfold field; unfold encodeHalfword; repeat rw [BitVec.extractLsb'_append_eq_of_le (by decide)]
  exact BitVec.extractLsb'_eq_self

theorem armLdrh (cond : Cond) (p u w : Bool) (rn rd : RegIdx) (off : HalfOffset) :
    Statement (.armLdrh cond p u w rn rd off) := by
  intro d h; cases h; refine ⟨_, rfl, ?_⟩; unfold field; unfold encodeHalfword; repeat rw [BitVec.extractLsb'_append_eq_of_le (by decide)]
  exact BitVec.extractLsb'_eq_self

theorem armLdrsb (cond : Cond) (p u w : Bool) (rn rd : RegIdx) (off : HalfOffset) :
    Statement (.armLdrsb cond p u w rn rd off) := by
  intro d h; cases h; refine ⟨_, rfl, ?_⟩; unfold field; unfold encodeHalfword; repeat rw [BitVec.extractLsb'_append_eq_of_le (by decide)]
  exact BitVec.extractLsb'_eq_self

theorem armLdrsh (cond : Cond) (p u w : Bool) (rn rd : RegIdx) (off : HalfOffset) :
    Statement (.armLdrsh cond p u w rn rd off) := by
  intro d h; cases h; refine ⟨_, rfl, ?_⟩; unfold field; unfold encodeHalfword; repeat rw [BitVec.extractLsb'_append_eq_of_le (by decide)]
  exact BitVec.extractLsb'_eq_self

theorem armBx (cond : Cond) (rn : RegIdx) : Statement (.armBx cond rn) := by
  intro d h; cases h; refine ⟨_, rfl, ?_⟩; unfold field; repeat rw [BitVec.extractLsb'_append_eq_of_le (by decide)]
  exact BitVec.extractLsb'_eq_self

theorem armMrs (cond : Cond) (i p : Bool) (rd : RegIdx) (sbz : BitVec 12) : Statement (.armMrs cond i p rd sbz) := by
  intro d h; cases h; refine ⟨_, rfl, ?_⟩; unfold field; repeat rw [BitVec.extractLsb'_append_eq_of_le (by decide)]
  exact BitVec.extractLsb'_eq_self

theorem armMsr (cond : Cond) (p : Bool) (sbo : BitVec 4) (src : MsrSource) : Statement (.armMsr cond p sbo src) := by
  intro d h; cases h; refine ⟨_, rfl, ?_⟩; unfold field; repeat rw [BitVec.extractLsb'_append_eq_of_le (by decide)]
  exact BitVec.extractLsb'_eq_self

theorem armInvalidMsrFull (raw : Word) : Statement (.armInvalidMsrFull raw) := by intro c h; cases h

theorem armInvalidPsrType (raw : Word) : Statement (.armInvalidPsrType raw) := by intro c h; cases h

theorem armAnd (cond : Cond) (s : Bool) (rn rd : RegIdx) (op2 : Operand2) : Statement (.armAnd cond s rn rd op2) := by
  intro d h; cases h; refine ⟨_, rfl, ?_⟩; unfold field; unfold encodeDp; repeat rw [BitVec.extractLsb'_append_eq_of_le (by decide)]
  exact BitVec.extractLsb'_eq_self

theorem armEor (cond : Cond) (s : Bool) (rn rd : RegIdx) (op2 : Operand2) : Statement (.armEor cond s rn rd op2) := by
  intro d h; cases h; refine ⟨_, rfl, ?_⟩; unfold field; unfold encodeDp; repeat rw [BitVec.extractLsb'_append_eq_of_le (by decide)]
  exact BitVec.extractLsb'_eq_self

theorem armSub (cond : Cond) (s : Bool) (rn rd : RegIdx) (op2 : Operand2) : Statement (.armSub cond s rn rd op2) := by
  intro d h; cases h; refine ⟨_, rfl, ?_⟩; unfold field; unfold encodeDp; repeat rw [BitVec.extractLsb'_append_eq_of_le (by decide)]
  exact BitVec.extractLsb'_eq_self

theorem armRsb (cond : Cond) (s : Bool) (rn rd : RegIdx) (op2 : Operand2) : Statement (.armRsb cond s rn rd op2) := by
  intro d h; cases h; refine ⟨_, rfl, ?_⟩; unfold field; unfold encodeDp; repeat rw [BitVec.extractLsb'_append_eq_of_le (by decide)]
  exact BitVec.extractLsb'_eq_self

theorem armAdd (cond : Cond) (s : Bool) (rn rd : RegIdx) (op2 : Operand2) : Statement (.armAdd cond s rn rd op2) := by
  intro d h; cases h; refine ⟨_, rfl, ?_⟩; unfold field; unfold encodeDp; repeat rw [BitVec.extractLsb'_append_eq_of_le (by decide)]
  exact BitVec.extractLsb'_eq_self

theorem armAdc (cond : Cond) (s : Bool) (rn rd : RegIdx) (op2 : Operand2) : Statement (.armAdc cond s rn rd op2) := by
  intro d h; cases h; refine ⟨_, rfl, ?_⟩; unfold field; unfold encodeDp; repeat rw [BitVec.extractLsb'_append_eq_of_le (by decide)]
  exact BitVec.extractLsb'_eq_self

theorem armSbc (cond : Cond) (s : Bool) (rn rd : RegIdx) (op2 : Operand2) : Statement (.armSbc cond s rn rd op2) := by
  intro d h; cases h; refine ⟨_, rfl, ?_⟩; unfold field; unfold encodeDp; repeat rw [BitVec.extractLsb'_append_eq_of_le (by decide)]
  exact BitVec.extractLsb'_eq_self

theorem armRsc (cond : Cond) (s : Bool) (rn rd : RegIdx) (op2 : Operand2) : Statement (.armRsc cond s rn rd op2) := by
  intro d h; cases h; refine ⟨_, rfl, ?_⟩; unfold field; unfold encodeDp; repeat rw [BitVec.extractLsb'_append_eq_of_le (by decide)]
  exact BitVec.extractLsb'_eq_self

theorem armTst (cond : Cond) (rn rd : RegIdx) (op2 : Operand2) : Statement (.armTst cond rn rd op2) := by
  intro d h; cases h; refine ⟨_, rfl, ?_⟩; unfold field; unfold encodeDp; repeat rw [BitVec.extractLsb'_append_eq_of_le (by decide)]
  exact BitVec.extractLsb'_eq_self

theorem armTeq (cond : Cond) (rn rd : RegIdx) (op2 : Operand2) : Statement (.armTeq cond rn rd op2) := by
  intro d h; cases h; refine ⟨_, rfl, ?_⟩; unfold field; unfold encodeDp; repeat rw [BitVec.extractLsb'_append_eq_of_le (by decide)]
  exact BitVec.extractLsb'_eq_self

theorem armCmp (cond : Cond) (rn rd : RegIdx) (op2 : Operand2) : Statement (.armCmp cond rn rd op2) := by
  intro d h; cases h; refine ⟨_, rfl, ?_⟩; unfold field; unfold encodeDp; repeat rw [BitVec.extractLsb'_append_eq_of_le (by decide)]
  exact BitVec.extractLsb'_eq_self

theorem armCmn (cond : Cond) (rn rd : RegIdx) (op2 : Operand2) : Statement (.armCmn cond rn rd op2) := by
  intro d h; cases h; refine ⟨_, rfl, ?_⟩; unfold field; unfold encodeDp; repeat rw [BitVec.extractLsb'_append_eq_of_le (by decide)]
  exact BitVec.extractLsb'_eq_self

theorem armOrr (cond : Cond) (s : Bool) (rn rd : RegIdx) (op2 : Operand2) : Statement (.armOrr cond s rn rd op2) := by
  intro d h; cases h; refine ⟨_, rfl, ?_⟩; unfold field; unfold encodeDp; repeat rw [BitVec.extractLsb'_append_eq_of_le (by decide)]
  exact BitVec.extractLsb'_eq_self

theorem armMov (cond : Cond) (s : Bool) (rn rd : RegIdx) (op2 : Operand2) : Statement (.armMov cond s rn rd op2) := by
  intro d h; cases h; refine ⟨_, rfl, ?_⟩; unfold field; unfold encodeDp; repeat rw [BitVec.extractLsb'_append_eq_of_le (by decide)]
  exact BitVec.extractLsb'_eq_self

theorem armBic (cond : Cond) (s : Bool) (rn rd : RegIdx) (op2 : Operand2) : Statement (.armBic cond s rn rd op2) := by
  intro d h; cases h; refine ⟨_, rfl, ?_⟩; unfold field; unfold encodeDp; repeat rw [BitVec.extractLsb'_append_eq_of_le (by decide)]
  exact BitVec.extractLsb'_eq_self

theorem armMvn (cond : Cond) (s : Bool) (rn rd : RegIdx) (op2 : Operand2) : Statement (.armMvn cond s rn rd op2) := by
  intro d h; cases h; refine ⟨_, rfl, ?_⟩; unfold field; unfold encodeDp; repeat rw [BitVec.extractLsb'_append_eq_of_le (by decide)]
  exact BitVec.extractLsb'_eq_self

theorem armUndefinedTransfer (raw : Word) : Statement (.armUndefinedTransfer raw) := by intro c h; cases h

theorem armStrt (cond : Cond) (u : Bool) (rn rd : RegIdx) (off : Offset) : Statement (.armStrt cond u rn rd off) := by
  intro d h; cases h; refine ⟨_, rfl, ?_⟩; unfold field; unfold encodeSingle; repeat rw [BitVec.extractLsb'_append_eq_of_le (by decide)]
  exact BitVec.extractLsb'_eq_self

theorem armLdrt (cond : Cond) (u : Bool) (rn rd : RegIdx) (off : Offset) : Statement (.armLdrt cond u rn rd off) := by
  intro d h; cases h; refine ⟨_, rfl, ?_⟩; unfold field; unfold encodeSingle; repeat rw [BitVec.extractLsb'_append_eq_of_le (by decide)]
  exact BitVec.extractLsb'_eq_self

theorem armStrbt (cond : Cond) (u : Bool) (rn rd : RegIdx) (off : Offset) :
    Statement (.armStrbt cond u rn rd off) := by
  intro d h; cases h; refine ⟨_, rfl, ?_⟩; unfold field; unfold encodeSingle; repeat rw [BitVec.extractLsb'_append_eq_of_le (by decide)]
  exact BitVec.extractLsb'_eq_self

theorem armLdrbt (cond : Cond) (u : Bool) (rn rd : RegIdx) (off : Offset) :
    Statement (.armLdrbt cond u rn rd off) := by
  intro d h; cases h; refine ⟨_, rfl, ?_⟩; unfold field; unfold encodeSingle; repeat rw [BitVec.extractLsb'_append_eq_of_le (by decide)]
  exact BitVec.extractLsb'_eq_self

theorem armStr (cond : Cond) (p u w : Bool) (rn rd : RegIdx) (off : Offset) :
    Statement (.armStr cond p u w rn rd off) := by
  intro d h; cases h; refine ⟨_, rfl, ?_⟩; unfold field; unfold encodeSingle; repeat rw [BitVec.extractLsb'_append_eq_of_le (by decide)]
  exact BitVec.extractLsb'_eq_self

theorem armLdr (cond : Cond) (p u w : Bool) (rn rd : RegIdx) (off : Offset) :
    Statement (.armLdr cond p u w rn rd off) := by
  intro d h; cases h; refine ⟨_, rfl, ?_⟩; unfold field; unfold encodeSingle; repeat rw [BitVec.extractLsb'_append_eq_of_le (by decide)]
  exact BitVec.extractLsb'_eq_self

theorem armStrb (cond : Cond) (p u w : Bool) (rn rd : RegIdx) (off : Offset) :
    Statement (.armStrb cond p u w rn rd off) := by
  intro d h; cases h; refine ⟨_, rfl, ?_⟩; unfold field; unfold encodeSingle; repeat rw [BitVec.extractLsb'_append_eq_of_le (by decide)]
  exact BitVec.extractLsb'_eq_self

theorem armLdrb (cond : Cond) (p u w : Bool) (rn rd : RegIdx) (off : Offset) :
    Statement (.armLdrb cond p u w rn rd off) := by
  intro d h; cases h; refine ⟨_, rfl, ?_⟩; unfold field; unfold encodeSingle; repeat rw [BitVec.extractLsb'_append_eq_of_le (by decide)]
  exact BitVec.extractLsb'_eq_self

theorem armStm (cond : Cond) (p u s w : Bool) (rn : RegIdx) (rlist : BitVec 16) :
    Statement (.armStm cond p u s w rn rlist) := by
  intro d h; cases h; refine ⟨_, rfl, ?_⟩; unfold field; unfold encodeBlock; repeat rw [BitVec.extractLsb'_append_eq_of_le (by decide)]
  exact BitVec.extractLsb'_eq_self

theorem armLdm (cond : Cond) (p u s w : Bool) (rn : RegIdx) (rlist : BitVec 16) :
    Statement (.armLdm cond p u s w rn rlist) := by
  intro d h; cases h; refine ⟨_, rfl, ?_⟩; unfold field; unfold encodeBlock; repeat rw [BitVec.extractLsb'_append_eq_of_le (by decide)]
  exact BitVec.extractLsb'_eq_self

theorem armB (cond : Cond) (offset : BitVec 24) : Statement (.armB cond offset) := by
  intro d h; cases h; refine ⟨_, rfl, ?_⟩; unfold field; repeat rw [BitVec.extractLsb'_append_eq_of_le (by decide)]
  exact BitVec.extractLsb'_eq_self

theorem armBl (cond : Cond) (offset : BitVec 24) : Statement (.armBl cond offset) := by
  intro d h; cases h; refine ⟨_, rfl, ?_⟩; unfold field; repeat rw [BitVec.extractLsb'_append_eq_of_le (by decide)]
  exact BitVec.extractLsb'_eq_self

theorem armUnsupportedDataTransfer (raw : Word) : Statement (.armUnsupportedDataTransfer raw) := by intro c h; cases h

theorem armUnsupportedOperation (raw : Word) : Statement (.armUnsupportedOperation raw) := by intro c h; cases h

theorem armSwi (cond : Cond) (imm24 : BitVec 24) : Statement (.armSwi cond imm24) := by
  intro d h; cases h; refine ⟨_, rfl, ?_⟩; unfold field; repeat rw [BitVec.extractLsb'_append_eq_of_le (by decide)]
  exact BitVec.extractLsb'_eq_self

theorem thumbLslImm (off5 : BitVec 5) (rs rd : LowIdx) : Statement (.thumbLslImm off5 rs rd) := by intro c h; cases h

theorem thumbLsrImm (off5 : BitVec 5) (rs rd : LowIdx) : Statement (.thumbLsrImm off5 rs rd) := by intro c h; cases h

theorem thumbAsrImm (off5 : BitVec 5) (rs rd : LowIdx) : Statement (.thumbAsrImm off5 rs rd) := by intro c h; cases h

theorem thumbAddReg (rn rs rd : LowIdx) : Statement (.thumbAddReg rn rs rd) := by intro c h; cases h

theorem thumbSubReg (rn rs rd : LowIdx) : Statement (.thumbSubReg rn rs rd) := by intro c h; cases h

theorem thumbAddImm3 (imm3 : BitVec 3) (rs rd : LowIdx) :
    Statement (.thumbAddImm3 imm3 rs rd) := by intro c h; cases h

theorem thumbSubImm3 (imm3 : BitVec 3) (rs rd : LowIdx) :
    Statement (.thumbSubImm3 imm3 rs rd) := by intro c h; cases h

theorem thumbMovImm8 (rd : LowIdx) (imm8 : BitVec 8) : Statement (.thumbMovImm8 rd imm8) := by intro c h; cases h

theorem thumbCmpImm8 (rd : LowIdx) (imm8 : BitVec 8) : Statement (.thumbCmpImm8 rd imm8) := by intro c h; cases h

theorem thumbAddImm8 (rd : LowIdx) (imm8 : BitVec 8) : Statement (.thumbAddImm8 rd imm8) := by intro c h; cases h

theorem thumbSubImm8 (rd : LowIdx) (imm8 : BitVec 8) : Statement (.thumbSubImm8 rd imm8) := by intro c h; cases h

theorem thumbAnd (rs rd : LowIdx) : Statement (.thumbAnd rs rd) := by intro c h; cases h

theorem thumbEor (rs rd : LowIdx) : Statement (.thumbEor rs rd) := by intro c h; cases h

theorem thumbLslReg (rs rd : LowIdx) : Statement (.thumbLslReg rs rd) := by intro c h; cases h

theorem thumbLsrReg (rs rd : LowIdx) : Statement (.thumbLsrReg rs rd) := by intro c h; cases h

theorem thumbAsrReg (rs rd : LowIdx) : Statement (.thumbAsrReg rs rd) := by intro c h; cases h

theorem thumbAdc (rs rd : LowIdx) : Statement (.thumbAdc rs rd) := by intro c h; cases h

theorem thumbSbc (rs rd : LowIdx) : Statement (.thumbSbc rs rd) := by intro c h; cases h

theorem thumbRorReg (rs rd : LowIdx) : Statement (.thumbRorReg rs rd) := by intro c h; cases h

theorem thumbTst (rs rd : LowIdx) : Statement (.thumbTst rs rd) := by intro c h; cases h

theorem thumbNeg (rs rd : LowIdx) : Statement (.thumbNeg rs rd) := by intro c h; cases h

theorem thumbCmpReg (rs rd : LowIdx) : Statement (.thumbCmpReg rs rd) := by intro c h; cases h

theorem thumbCmn (rs rd : LowIdx) : Statement (.thumbCmn rs rd) := by intro c h; cases h

theorem thumbOrr (rs rd : LowIdx) : Statement (.thumbOrr rs rd) := by intro c h; cases h

theorem thumbMul (rs rd : LowIdx) : Statement (.thumbMul rs rd) := by intro c h; cases h

theorem thumbBic (rs rd : LowIdx) : Statement (.thumbBic rs rd) := by intro c h; cases h

theorem thumbMvn (rs rd : LowIdx) : Statement (.thumbMvn rs rd) := by intro c h; cases h

theorem thumbInvalidHiAdd (raw : Half) : Statement (.thumbInvalidHiAdd raw) := by intro c h; cases h

theorem thumbInvalidHiCmp (raw : Half) : Statement (.thumbInvalidHiCmp raw) := by intro c h; cases h

theorem thumbInvalidHiMov (raw : Half) : Statement (.thumbInvalidHiMov raw) := by intro c h; cases h

theorem thumbInvalidBxH1 (raw : Half) : Statement (.thumbInvalidBxH1 raw) := by intro c h; cases h

theorem thumbAddHi (rs rd : RegIdx) : Statement (.thumbAddHi rs rd) := by intro c h; cases h

theorem thumbCmpHi (rs rd : RegIdx) : Statement (.thumbCmpHi rs rd) := by intro c h; cases h

theorem thumbMovHi (rs rd : RegIdx) : Statement (.thumbMovHi rs rd) := by intro c h; cases h

theorem thumbBx (rs : RegIdx) (sbz : BitVec 3) : Statement (.thumbBx rs sbz) := by intro c h; cases h

theorem thumbLdrPc (rd : LowIdx) (off : BitVec 10) : Statement (.thumbLdrPc rd off) := by intro c h; cases h

theorem thumbStrReg (ro rb rd : LowIdx) : Statement (.thumbStrReg ro rb rd) := by intro c h; cases h

theorem thumbStrbReg (ro rb rd : LowIdx) : Statement (.thumbStrbReg ro rb rd) := by intro c h; cases h

theorem thumbLdrReg (ro rb rd : LowIdx) : Statement (.thumbLdrReg ro rb rd) := by intro c h; cases h

theorem thumbLdrbReg (ro rb rd : LowIdx) : Statement (.thumbLdrbReg ro rb rd) := by intro c h; cases h

theorem thumbStrhReg (ro rb rd : LowIdx) : Statement (.thumbStrhReg ro rb rd) := by intro c h; cases h

theorem thumbLdrhReg (ro rb rd : LowIdx) : Statement (.thumbLdrhReg ro rb rd) := by intro c h; cases h

theorem thumbLdsbReg (ro rb rd : LowIdx) : Statement (.thumbLdsbReg ro rb rd) := by intro c h; cases h

theorem thumbLdshReg (ro rb rd : LowIdx) : Statement (.thumbLdshReg ro rb rd) := by intro c h; cases h

theorem thumbStrImm (off : BitVec 7) (rb rd : LowIdx) : Statement (.thumbStrImm off rb rd) := by intro c h; cases h

theorem thumbLdrImm (off : BitVec 7) (rb rd : LowIdx) : Statement (.thumbLdrImm off rb rd) := by intro c h; cases h

theorem thumbStrbImm (off : BitVec 5) (rb rd : LowIdx) : Statement (.thumbStrbImm off rb rd) := by intro c h; cases h

theorem thumbLdrbImm (off : BitVec 5) (rb rd : LowIdx) : Statement (.thumbLdrbImm off rb rd) := by intro c h; cases h

theorem thumbStrhImm (off : BitVec 6) (rb rd : LowIdx) : Statement (.thumbStrhImm off rb rd) := by intro c h; cases h

theorem thumbLdrhImm (off : BitVec 6) (rb rd : LowIdx) : Statement (.thumbLdrhImm off rb rd) := by intro c h; cases h

theorem thumbStrSp (rd : LowIdx) (off : BitVec 10) : Statement (.thumbStrSp rd off) := by intro c h; cases h

theorem thumbLdrSp (rd : LowIdx) (off : BitVec 10) : Statement (.thumbLdrSp rd off) := by intro c h; cases h

theorem thumbAddPc (rd : LowIdx) (off : BitVec 10) : Statement (.thumbAddPc rd off) := by intro c h; cases h

theorem thumbAddSp (rd : LowIdx) (off : BitVec 10) : Statement (.thumbAddSp rd off) := by intro c h; cases h

theorem thumbAdjustSp (s : Bool) (m : BitVec 9) : Statement (.thumbAdjustSp s m) := by intro c h; cases h

theorem thumbPush (r : Bool) (rlist : BitVec 8) : Statement (.thumbPush r rlist) := by intro c h; cases h

theorem thumbPop (r : Bool) (rlist : BitVec 8) : Statement (.thumbPop r rlist) := by intro c h; cases h

theorem thumbUndefined1011 (raw : Half) : Statement (.thumbUndefined1011 raw) := by intro c h; cases h

theorem thumbStmia (rb : LowIdx) (rlist : BitVec 8) : Statement (.thumbStmia rb rlist) := by intro c h; cases h

theorem thumbLdmia (rb : LowIdx) (rlist : BitVec 8) : Statement (.thumbLdmia rb rlist) := by intro c h; cases h

theorem thumbSwi (imm8 : BitVec 8) : Statement (.thumbSwi imm8) := by intro c h; cases h

theorem thumbUndefinedCond14 (raw : Half) : Statement (.thumbUndefinedCond14 raw) := by intro c h; cases h

theorem thumbBeq (off : BitVec 9) : Statement (.thumbBeq off) := by intro c h; cases h

theorem thumbBne (off : BitVec 9) : Statement (.thumbBne off) := by intro c h; cases h

theorem thumbBcs (off : BitVec 9) : Statement (.thumbBcs off) := by intro c h; cases h

theorem thumbBcc (off : BitVec 9) : Statement (.thumbBcc off) := by intro c h; cases h

theorem thumbBmi (off : BitVec 9) : Statement (.thumbBmi off) := by intro c h; cases h

theorem thumbBpl (off : BitVec 9) : Statement (.thumbBpl off) := by intro c h; cases h

theorem thumbBvs (off : BitVec 9) : Statement (.thumbBvs off) := by intro c h; cases h

theorem thumbBvc (off : BitVec 9) : Statement (.thumbBvc off) := by intro c h; cases h

theorem thumbBhi (off : BitVec 9) : Statement (.thumbBhi off) := by intro c h; cases h

theorem thumbBls (off : BitVec 9) : Statement (.thumbBls off) := by intro c h; cases h

theorem thumbBge (off : BitVec 9) : Statement (.thumbBge off) := by intro c h; cases h

theorem thumbBlt (off : BitVec 9) : Statement (.thumbBlt off) := by intro c h; cases h

theorem thumbBgt (off : BitVec 9) : Statement (.thumbBgt off) := by intro c h; cases h

theorem thumbBle (off : BitVec 9) : Statement (.thumbBle off) := by intro c h; cases h

theorem thumbB (off : BitVec 12) : Statement (.thumbB off) := by intro c h; cases h

theorem thumbUndefined11101 (raw : Half) : Statement (.thumbUndefined11101 raw) := by intro c h; cases h

theorem thumbBlHigh (off : BitVec 23) : Statement (.thumbBlHigh off) := by intro c h; cases h

theorem thumbBlLow (off : BitVec 12) : Statement (.thumbBlLow off) := by intro c h; cases h

end Sys2Proof.Laws.CondField
end

