-- ==== Sys2Proof/Tests/Slice0.lean ====
section
/-! SUPPORT. The model's own tests: ill-formed terms, decoding from words the spec writes out, single steps from the
spec's test vectors (95_test_vectors.md, named by table) or calculated by hand from its rules, and a witness for the
hypotheses of each statement. -/

namespace Sys2Proof.Tests

open Sys2Proof.Machine

/-! ### Well-formedness: each check refuses an ill-formed term -/

theorem test_wf_raw_words :
    [Instr.armInvalidNvCondition 0xE0000000#32, .armUndefinedMultiply 0xE0000091#32, .armUndefinedMultiply 0xF0400091#32,
     .armUndefinedSwap 0xE1010092#32, .armUndefinedSwap 0xE1410092#32, .armInvalidSignedStore 0xE1D100D0#32,
     .armInvalidMsrFull 0xE128F000#32, .armInvalidPsrType 0xE129F000#32, .armInvalidPsrType 0xE10F0000#32,
     .armInvalidPsrType 0xE12FFF10#32, .armUndefinedTransfer 0xE7910002#32, .armUnsupportedDataTransfer 0xEE000000#32,
     .armUnsupportedOperation 0xEF000000#32, .thumbInvalidHiAdd 0x4440#16, .thumbInvalidHiCmp 0x4588#16,
     .thumbInvalidHiMov 0x46C0#16, .thumbInvalidBxH1 0x4700#16, .thumbUndefined1011 0xB000#16,
     .thumbUndefined1011 0xB400#16, .thumbUndefinedCond14 0xDF00#16, .thumbUndefined11101 0xE000#16].map
      Instr.WellFormed = List.replicate 21 false := by decide

theorem test_wf_fields :
    [Instr.armMrs .al false false 0#4 0x90#12, .armMsr .al false 0xF#4 (.reg 9#8 0#4),
     .armStr .al false true true 1#4 0#4 (.imm 0#12), .armLdr .al false true true 1#4 0#4 (.imm 0#12),
     .armStrb .al false true true 1#4 0#4 (.imm 0#12), .armLdrb .al false true true 1#4 0#4 (.imm 0#12),
     .thumbAddHi 1#4 2#4, .thumbCmpHi 1#4 2#4, .thumbMovHi 1#4 2#4, .thumbLdrPc 0#3 2#10, .thumbStrSp 0#3 1#10,
     .thumbLdrSp 0#3 1#10, .thumbAddPc 0#3 2#10, .thumbAddSp 0#3 2#10, .thumbStrImm 1#7 0#3 0#3,
     .thumbLdrImm 2#7 0#3 0#3, .thumbStrhImm 1#6 0#3 0#3, .thumbLdrhImm 1#6 0#3 0#3, .thumbAdjustSp false 1#9,
     .thumbBeq 1#9, .thumbB 1#12, .thumbBlLow 1#12, .thumbBlHigh 1#23].map
      Instr.WellFormed = List.replicate 23 false := by decide

/-! ### Decoding: words of the spec's tables S6 and S7, or written out from a row's encoding -/

theorem test_decode_arm_multiply :
    [0xE0000291#32, 0xE0312394#32, 0xE0400291#32, 0xE0810392#32, 0xE0A10392#32, 0xE0C10392#32, 0xE0F10392#32].map
      decodeArm =
    [.armMul .al false 0#4 0#4 2#4 1#4, .armMla .al true 1#4 2#4 3#4 4#4, .armUndefinedMultiply 0xE0400291#32,
     .armUmull .al false 1#4 0#4 3#4 2#4, .armUmlal .al false 1#4 0#4 3#4 2#4, .armSmull .al false 1#4 0#4 3#4 2#4,
     .armSmlal .al true 1#4 0#4 3#4 2#4] := by decide

theorem test_decode_arm_swap_bx :
    [0xE1010092#32, 0xE1410092#32, 0xE1810092#32, 0x012FFF11#32].map decodeArm =
    [.armSwp .al 1#4 0#4 0#4 2#4, .armSwpb .al 1#4 0#4 0#4 2#4, .armUndefinedSwap 0xE1810092#32, .armBx .eq 1#4] := by
  decide

theorem test_decode_arm_halfword :
    [0xE1C100D0#32, 0xE1C100B2#32, 0xE1D100B2#32, 0xE19100B2#32, 0xE1D100D1#32, 0xE1D100F2#32].map decodeArm =
    [.armInvalidSignedStore 0xE1C100D0#32, .armStrh .al true true false 1#4 0#4 (.imm 2#8),
     .armLdrh .al true true false 1#4 0#4 (.imm 2#8), .armLdrh .al true true false 1#4 0#4 (.reg 0#4 2#4),
     .armLdrsb .al true true false 1#4 0#4 (.imm 1#8), .armLdrsh .al true true false 1#4 0#4 (.imm 2#8)] := by decide

theorem test_decode_arm_psr :
    [0xE14F0000#32, 0xE328F20F#32, 0xE168F001#32, 0xE129F000#32, 0xE12CF000#32].map decodeArm =
    [.armMrs .al false true 0#4 0#12, .armMsr .al false 0xF#4 (.imm 2#4 0x0F#8), .armMsr .al true 0xF#4 (.reg 0#8 1#4),
     .armInvalidMsrFull 0xE129F000#32, .armInvalidPsrType 0xE12CF000#32] := by decide

theorem test_decode_arm_data_processing :
    [0xE0010002#32, 0xE0310002#32, 0xE2400001#32, 0xE0710002#32, 0x10810002#32, 0xE0B10002#32, 0xE0D10002#32,
     0xE0F10002#32].map decodeArm =
    [.armAnd .al false 1#4 0#4 (.regImm 2#4 .lsl 0#5), .armEor .al true 1#4 0#4 (.regImm 2#4 .lsl 0#5),
     .armSub .al false 0#4 0#4 (.imm 0#4 1#8), .armRsb .al true 1#4 0#4 (.regImm 2#4 .lsl 0#5),
     .armAdd .ne false 1#4 0#4 (.regImm 2#4 .lsl 0#5), .armAdc .al true 1#4 0#4 (.regImm 2#4 .lsl 0#5),
     .armSbc .al true 1#4 0#4 (.regImm 2#4 .lsl 0#5), .armRsc .al true 1#4 0#4 (.regImm 2#4 .lsl 0#5)] := by decide

theorem test_decode_arm_data_processing_2 :
    [0xE1110002#32, 0xE13000A1#32, 0xE3500000#32, 0xE1710002#32, 0xE1910002#32, 0xE1A01312#32, 0xE1C00001#32,
     0xE1E00000#32, 0xE3A004FF#32].map decodeArm =
    [.armTst .al 1#4 0#4 (.regImm 2#4 .lsl 0#5), .armTeq .al 0#4 0#4 (.regImm 1#4 .lsr 1#5),
     .armCmp .al 0#4 0#4 (.imm 0#4 0#8), .armCmn .al 1#4 0#4 (.regImm 2#4 .lsl 0#5),
     .armOrr .al true 1#4 0#4 (.regImm 2#4 .lsl 0#5), .armMov .al false 0#4 1#4 (.regReg 2#4 .lsl 3#4),
     .armBic .al false 0#4 0#4 (.regImm 1#4 .lsl 0#5), .armMvn .al false 0#4 0#4 (.regImm 0#4 .lsl 0#5),
     .armMov .al false 0#4 0#4 (.imm 4#4 0xFF#8)] := by decide

theorem test_decode_arm_single :
    [0xE7910012#32, 0xE4B10004#32, 0xE4A10004#32, 0xE4F10004#32, 0xE4E10004#32, 0xE5810004#32, 0xE4110004#32,
     0xE7910102#32, 0xE5C10004#32, 0xE5D10004#32].map decodeArm =
    [.armUndefinedTransfer 0xE7910012#32, .armLdrt .al true 1#4 0#4 (.imm 4#12), .armStrt .al true 1#4 0#4 (.imm 4#12),
     .armLdrbt .al true 1#4 0#4 (.imm 4#12), .armStrbt .al true 1#4 0#4 (.imm 4#12),
     .armStr .al true true false 1#4 0#4 (.imm 4#12), .armLdr .al false false false 1#4 0#4 (.imm 4#12),
     .armLdr .al true true false 1#4 0#4 (.reg 2#4 .lsl 2#5), .armStrb .al true true false 1#4 0#4 (.imm 4#12),
     .armLdrb .al true true false 1#4 0#4 (.imm 4#12)] := by decide

theorem test_decode_arm_block_branch_rest :
    [0xE92D4003#32, 0xE8D10004#32, 0xEAFFFFFE#32, 0x0B000010#32, 0xEF000006#32, 0xEC000000#32, 0xEE000010#32,
     0xF3A00001#32].map decodeArm =
    [.armStm .al true false false true 13#4 0x4003#16, .armLdm .al false true true false 1#4 4#16,
     .armB .al 0xFFFFFE#24, .armBl .eq 16#24, .armSwi .al 6#24, .armUnsupportedDataTransfer 0xEC000000#32,
     .armUnsupportedOperation 0xEE000010#32, .armInvalidNvCondition 0xF3A00001#32] := by decide

theorem test_decode_thumb_shift_add :
    [0x0108#16, 0x0848#16, 0x1048#16, 0x1888#16, 0x1A88#16, 0x1C40#16, 0x1E48#16, 0x23FF#16, 0x2805#16, 0x3001#16,
     0x3801#16].map decodeThumb =
    [.thumbLslImm 4#5 1#3 0#3, .thumbLsrImm 1#5 1#3 0#3, .thumbAsrImm 1#5 1#3 0#3, .thumbAddReg 2#3 1#3 0#3,
     .thumbSubReg 2#3 1#3 0#3, .thumbAddImm3 1#3 0#3 0#3, .thumbSubImm3 1#3 1#3 0#3, .thumbMovImm8 3#3 0xFF#8,
     .thumbCmpImm8 0#3 5#8, .thumbAddImm8 0#3 1#8, .thumbSubImm8 0#3 1#8] := by decide

theorem test_decode_thumb_alu :
    [0x4008#16, 0x4048#16, 0x4088#16, 0x40C8#16, 0x4108#16, 0x4148#16, 0x4188#16, 0x41C8#16, 0x4208#16, 0x4248#16,
     0x4288#16, 0x42C8#16, 0x4308#16, 0x4348#16, 0x4388#16, 0x43C8#16].map decodeThumb =
    [.thumbAnd 1#3 0#3, .thumbEor 1#3 0#3, .thumbLslReg 1#3 0#3, .thumbLsrReg 1#3 0#3, .thumbAsrReg 1#3 0#3,
     .thumbAdc 1#3 0#3, .thumbSbc 1#3 0#3, .thumbRorReg 1#3 0#3, .thumbTst 1#3 0#3, .thumbNeg 1#3 0#3,
     .thumbCmpReg 1#3 0#3, .thumbCmn 1#3 0#3, .thumbOrr 1#3 0#3, .thumbMul 1#3 0#3, .thumbBic 1#3 0#3,
     .thumbMvn 1#3 0#3] := by decide

theorem test_decode_thumb_high :
    [0x4440#16, 0x4588#16, 0x46C0#16, 0x4770#16, 0x4400#16, 0x4500#16, 0x4600#16, 0x4780#16].map decodeThumb =
    [.thumbAddHi 8#4 0#4, .thumbCmpHi 1#4 8#4, .thumbMovHi 8#4 8#4, .thumbBx 14#4 0#3, .thumbInvalidHiAdd 0x4400#16,
     .thumbInvalidHiCmp 0x4500#16, .thumbInvalidHiMov 0x4600#16, .thumbInvalidBxH1 0x4780#16] := by decide

theorem test_decode_thumb_load_store :
    [0x4801#16, 0x5088#16, 0x5488#16, 0x5888#16, 0x5C88#16, 0x5288#16, 0x5A88#16, 0x5688#16, 0x5E88#16].map decodeThumb =
    [.thumbLdrPc 0#3 4#10, .thumbStrReg 2#3 1#3 0#3, .thumbStrbReg 2#3 1#3 0#3, .thumbLdrReg 2#3 1#3 0#3,
     .thumbLdrbReg 2#3 1#3 0#3, .thumbStrhReg 2#3 1#3 0#3, .thumbLdrhReg 2#3 1#3 0#3, .thumbLdsbReg 2#3 1#3 0#3,
     .thumbLdshReg 2#3 1#3 0#3] := by decide

theorem test_decode_thumb_load_store_imm :
    [0x6048#16, 0x6FC8#16, 0x77C8#16, 0x7FC8#16, 0x87C8#16, 0x8848#16, 0x90FF#16, 0x9801#16].map decodeThumb =
    [.thumbStrImm 4#7 1#3 0#3, .thumbLdrImm 124#7 1#3 0#3, .thumbStrbImm 31#5 1#3 0#3, .thumbLdrbImm 31#5 1#3 0#3,
     .thumbStrhImm 62#6 1#3 0#3, .thumbLdrhImm 2#6 1#3 0#3, .thumbStrSp 0#3 1020#10, .thumbLdrSp 0#3 4#10] := by decide

theorem test_decode_thumb_address_block :
    [0xA002#16, 0xA9FF#16, 0xB0FF#16, 0xB503#16, 0xBD03#16, 0xB100#16, 0xC106#16, 0xC806#16].map decodeThumb =
    [.thumbAddPc 0#3 8#10, .thumbAddSp 1#3 1020#10, .thumbAdjustSp true 508#9, .thumbPush true 3#8, .thumbPop true 3#8,
     .thumbUndefined1011 0xB100#16, .thumbStmia 1#3 6#8, .thumbLdmia 0#3 6#8] := by decide

theorem test_decode_thumb_branch :
    [0xD0FE#16, 0xD101#16, 0xD201#16, 0xD301#16, 0xD401#16, 0xD501#16, 0xD601#16, 0xD701#16, 0xD801#16, 0xD901#16,
     0xDA01#16, 0xDB01#16, 0xDC01#16, 0xDD01#16].map decodeThumb =
    [.thumbBeq 0x1FC#9, .thumbBne 2#9, .thumbBcs 2#9, .thumbBcc 2#9, .thumbBmi 2#9, .thumbBpl 2#9, .thumbBvs 2#9,
     .thumbBvc 2#9, .thumbBhi 2#9, .thumbBls 2#9, .thumbBge 2#9, .thumbBlt 2#9, .thumbBgt 2#9, .thumbBle 2#9] := by decide

theorem test_decode_thumb_rest :
    [0xDE00#16, 0xDF06#16, 0xE7FE#16, 0xE800#16, 0xF7FF#16, 0xFFFF#16].map decodeThumb =
    [.thumbUndefinedCond14 0xDE00#16, .thumbSwi 6#8, .thumbB 0xFFC#12, .thumbUndefined11101 0xE800#16,
     .thumbBlHigh 0x7FF000#23, .thumbBlLow 4094#12] := by decide

/-- Too few bytes are rejected by name, and the bytes after an instruction are handed on. -/
theorem test_decode_bytes :
    decodeBytes false [0x01#8, 0x00#8, 0xA0#8] = .error .truncatedArm ∧
    decodeBytes true [0x40#8] = .error .truncatedThumb ∧
    decodeBytes true [0x40#8, 0x1C#8, 0xFF#8] = .ok (.thumbAddImm3 1#3 0#3 0#3, [0xFF#8]) := by decide

/-- The table's numbering of bits, and the placed instruction run as the first after reset. -/
theorem test_table_word :
    decodeTableWord 32 0xE3A00001 = some (.armMov .al false 0#4 0#4 (.imm 0#4 1#8)) ∧
    decodeTableWord 16 0x1C40 = some (.thumbAddImm3 1#3 0#3 0#3) ∧ decodeTableWord 8 0 = none := by decide

theorem test_fetch_word :
    step (State.reset.withFetchWord 16 0x1C40) =
      exec (.thumbAddImm3 1#3 0#3 0#3) (State.reset.withFetchWord 16 0x1C40) := rfl

/-! ### Rendering: tables S6, S7 and 48_renderer.md -/

theorem test_render_arm :
    [0xE0910002#32, 0xE1A00061#32, 0xE1A00021#32, 0xE1A01312#32, 0xE3A004FF#32, 0xE3500000#32, 0xE14F0000#32,
     0xE328F20F#32, 0xE0312394#32, 0xE0F10392#32, 0xE1410092#32, 0x012FFF11#32, 0xE4110004#32, 0xE7910102#32,
     0xE4B10004#32, 0xE1D100D1#32, 0xEAFFFFFE#32, 0xEC000000#32, 0xF3A00001#32, 0xE7F000F0#32].map
      (fun w => render swiNames (decodeArm w)) =
    ["ADDS R0,R1,R2", "MOV R0,R1,RRX", "MOV R0,R1,LSR #32", "MOV R1,R2,LSL R3", "MOV R0,#4278190080", "CMPS R0,#0",
     "MRS R0,SPSR", "MSR CPSR_flg,#4026531840", "MLAS R1,R4,R3,R2", "SMLALS R0,R1,R2,R3", "SWPB R0,R2,[R1]", "BXEQ R1",
     "LDR R0,[R1],#-4", "LDR R0,[R1,R2,LSL #2]", "LDRT R0,[R1],#4", "LDRSB R0,[R1,#1]", "B #-2",
     "<UNSUPPORTED CoprocessorDataTransfer 0xec000000>", "<INVALID NvCondition 0xf3a00001>", "<UNDEFINED 0xe7f000f0>"]
    := by decide

theorem test_render_thumb :
    [0x0108#16, 0x1E48#16, 0x23FF#16, 0x4248#16, 0x4588#16, 0x4780#16, 0x4801#16, 0x5688#16, 0x6FC8#16, 0x87C8#16,
     0x90FF#16, 0xA002#16, 0xB0FF#16, 0xB080#16, 0xD0FE#16, 0xDF63#16, 0xE7FE#16, 0xF7FF#16, 0xFFFF#16].map
      (fun h => render swiNames (decodeThumb h)) =
    ["LSL R0,R1,#4", "SUB R0,R1,#1", "MOV R3,#255", "NEG R0,R1", "CMP R8,R1", "<INVALID BxH1 0x4780>", "LDR R0,[PC,#4]",
     "LDSB R0,[R1,R2]", "LDR R0,[R1,#124]", "STRH R0,[R1,#62]", "STR R0,[SP,#1020]", "ADD R0,PC,#8", "ADD SP,#-508",
     "ADD SP,#-0", "BEQ #-4", "SWI #0x63 (unknown)", "B #-4", "BLH #-4096", "BLL #4094"] := by decide

/-- 48_renderer.md R552. -/
theorem test_listing_line :
    listing swiNames (State.reset.withFetchWord 32 0xE3A00001) false 0x08000000#32 1 =
      (["0x08000000: e3a00001 MOV R0,#1"], none) ∧
    (listing swiNames State.reset false 0x08000002#32 3).1 = [] := by decide

/-! ### Single steps -/

/-- All flags clear. -/
def noFlags : StatusFlags := ⟨false, false, false, false⟩

/-- A state whose next instruction has the given bits; RAM at 0x03000000 holds the bytes of table E4, and the literal
of table E7 is at 0x08000008. -/
def start (nbits w : Nat) (f : StatusFlags) (regs : List (RegIdx × Word)) : State :=
  let s := (State.reset.withFetchWord nbits w).setFlags f
  let s := regs.foldl (fun s r => s.setReg r.1 r.2) s
  { s with mem := placeBytes (placeBytes s.mem 0x08000008 4 0x12345678) 0x03000000 16 0x080001010000FFF084838281 }

/-- The same in the profile that refuses what R611 lists. -/
def reference (s : State) : State := { s with profile := .executorReference }

/-- The same in a mode, whose SPSR is given. -/
def inMode (m : Mode) (p : Psr) (s : State) : State :=
  ({ s with cpsr := { s.cpsr with mode := m } }).setSpsr m p

/-- A next state with a pc, T, the flags, registers and bytes of memory. -/
def ends (o : Out) (pc : Word) (thumb : Bool) (f : StatusFlags) (regs : List (RegIdx × Word)) (bytes : List (Nat × Byte)) :
    Bool :=
  match o with
  | .next t => t.pc == pc && t.cpsr.thumb == thumb && decide (t.flags = f) && regs.all (fun r => t.reg r.1 == r.2) &&
      bytes.all (fun b => t.byteAt b.1 == b.2)
  | _ => false

/-- A fault. -/
def faults (o : Out) (f : Fault) : Bool :=
  match o with
  | .fault g => decide (g = f)
  | _ => false

/-- A refusal. -/
def refuses (o : Out) (r : Refusal) : Bool :=
  match o with
  | .refused q => decide (q = r)
  | _ => false

/-- The same with any C. -/
def endsOpenC (o : Out) (pc : Word) (thumb : Bool) (f : StatusFlags) (regs : List (RegIdx × Word))
    (bytes : List (Nat × Byte)) : Bool :=
  match o with
  | .next t => ends (.next (t.setFlags { t.flags with c := f.c })) pc thumb f regs bytes
  | _ => false

/-! Tables E1 to E7. The rows in which a register or flag holds no value are not here: log entries 2 and 3. -/

/-- A THUMB halfword at 0x08000002. -/
def atTwo (w : Nat) : State :=
  ({ State.reset with pc := 0x08000002#32 }).withFetchWord 16 w

theorem test_arm_add :
    ends (step (start 32 0xE0910002 noFlags [(1#4, 0x7FFFFFFF#32), (2#4, 0x1#32)]))
      0x8000004#32 false ⟨true, false, false, true⟩ [(0#4, 0x80000000#32), (1#4, 0x7FFFFFFF#32), (2#4, 0x1#32)] [] = true ∧
    ends (step (start 32 0xE28F0000 noFlags []))
      0x8000004#32 false noFlags [(0#4, 0x8000008#32)] [] = true ∧
    ends (step (start 32 0xE08F011F noFlags [(1#4, 0#32)]))
      0x8000004#32 false noFlags [(0#4, 0x10000018#32), (1#4, 0#32)] [] = true ∧
    ends (step (start 32 0x00810002 noFlags [(1#4, 0x1#32), (2#4, 0x2#32)]))
      0x8000004#32 false noFlags [(1#4, 0x1#32), (2#4, 0x2#32)] [] = true := by decide

theorem test_arm_sub :
    ends (step (start 32 0xE0510002 noFlags [(1#4, 0#32), (2#4, 0x1#32)]))
      0x8000004#32 false ⟨true, false, false, false⟩ [(0#4, 0xFFFFFFFF#32), (1#4, 0#32), (2#4, 0x1#32)] [] = true := by decide

theorem test_arm_mov :
    ends (step (start 32 0xE3A00001 noFlags []))
      0x8000004#32 false noFlags [(0#4, 0x1#32)] [] = true ∧
    ends (step (start 32 0xE1B00021 noFlags [(1#4, 0x80000000#32)]))
      0x8000004#32 false ⟨false, true, true, false⟩ [(0#4, 0#32), (1#4, 0x80000000#32)] [] = true ∧
    ends (step (start 32 0xE1B00061 ⟨false, false, true, false⟩ [(1#4, 0x3#32)]))
      0x8000004#32 false ⟨true, false, true, false⟩ [(0#4, 0x80000001#32), (1#4, 0x3#32)] [] = true ∧
    ends (step (start 32 0xE1B00211 noFlags [(1#4, 0x1#32), (2#4, 0x100#32)]))
      0x8000004#32 false noFlags [(0#4, 0x1#32), (1#4, 0x1#32), (2#4, 0x100#32)] [] = true ∧
    ends (step (start 32 0xE1B00211 noFlags [(1#4, 0x1#32), (2#4, 0x20#32)]))
      0x8000004#32 false ⟨false, true, true, false⟩ [(0#4, 0#32), (1#4, 0x1#32), (2#4, 0x20#32)] [] = true ∧
    ends (step (start 32 0xE3A0F010 noFlags []))
      0x10#32 false noFlags [] [] = true ∧
    refuses (step (reference (start 32 0xE1B0F00E noFlags [(14#4, 0x8000100#32)]))) (.spsrCopy) = true := by decide

theorem test_arm_cmp :
    ends (step (start 32 0xE3510001 noFlags [(1#4, 0x1#32)]))
      0x8000004#32 false ⟨false, true, true, false⟩ [(1#4, 0x1#32)] [] = true := by decide

theorem test_arm_adc :
    ends (step (start 32 0xE0B10002 ⟨false, false, true, false⟩ [(1#4, 0xFFFFFFFF#32), (2#4, 0#32)]))
      0x8000004#32 false ⟨false, true, true, false⟩ [(0#4, 0#32), (1#4, 0xFFFFFFFF#32), (2#4, 0#32)] [] = true := by decide

theorem test_arm_sbc :
    ends (step (start 32 0xE0D10002 noFlags [(1#4, 0x3#32), (2#4, 0x3#32)]))
      0x8000004#32 false ⟨true, false, false, false⟩ [(0#4, 0xFFFFFFFF#32), (1#4, 0x3#32), (2#4, 0x3#32)] [] = true := by decide

theorem test_arm_mrs :
    refuses (step (reference (start 32 0xE10F0000 noFlags []))) (.mrs) = true := by decide

theorem test_arm_msr :
    ends (step (start 32 0xE128F001 noFlags [(1#4, 0xF0000000#32)]))
      0x8000004#32 false ⟨true, true, true, true⟩ [(1#4, 0xF0000000#32)] [] = true ∧
    ends (step (start 32 0xE328F206 noFlags []))
      0x8000004#32 false ⟨false, true, true, false⟩ [] [] = true ∧
    refuses (step (reference (start 32 0xE168F001 noFlags [(1#4, 0#32)]))) (.msrSpsr) = true := by decide

theorem test_arm_invalid :
    refuses (step (reference (start 32 0xE129F000 noFlags [(0#4, 0#32)]))) (.invalid .msrFull) = true ∧
    refuses (step (reference (start 32 0xF3A00001 noFlags []))) (.invalid .nvCondition) = true := by decide

theorem test_arm_mul :
    ends (step (start 32 0xE0000291 noFlags [(1#4, 0x6#32), (2#4, 0x7#32)]))
      0x8000004#32 false noFlags [(0#4, 0x2A#32), (1#4, 0x6#32), (2#4, 0x7#32)] [] = true ∧
    endsOpenC (step (start 32 0xE0100291 noFlags [(1#4, 0xFFFFFFFF#32), (2#4, 0x1#32)]))
      0x8000004#32 false ⟨true, false, false, false⟩ [(0#4, 0xFFFFFFFF#32), (1#4, 0xFFFFFFFF#32), (2#4, 0x1#32)] [] = true ∧
    faults (step (start 32 0xE0000290 noFlags [(0#4, 0x6#32), (2#4, 0x7#32)])) (.unpredictable .mulOperands) = true := by decide

theorem test_arm_mla :
    ends (step (start 32 0xE0203291 noFlags [(1#4, 0x6#32), (2#4, 0x7#32), (3#4, 0x64#32)]))
      0x8000004#32 false noFlags [(0#4, 0x8E#32), (1#4, 0x6#32), (2#4, 0x7#32), (3#4, 0x64#32)] [] = true := by decide

theorem test_arm_umull :
    ends (step (start 32 0xE0810392 noFlags [(2#4, 0xFFFFFFFF#32), (3#4, 0x2#32)]))
      0x8000004#32 false noFlags [(0#4, 0xFFFFFFFE#32), (1#4, 0x1#32), (2#4, 0xFFFFFFFF#32), (3#4, 0x2#32)] [] = true ∧
    faults (step (start 32 0xE0800392 noFlags [(2#4, 0x1#32), (3#4, 0x1#32)])) (.unpredictable .longMulOperands) = true := by decide

theorem test_arm_smull :
    ends (step (start 32 0xE0C10392 noFlags [(2#4, 0xFFFFFFFF#32), (3#4, 0x2#32)]))
      0x8000004#32 false noFlags [(0#4, 0xFFFFFFFE#32), (1#4, 0xFFFFFFFF#32), (2#4, 0xFFFFFFFF#32), (3#4, 0x2#32)] [] = true := by decide

theorem test_arm_umlal :
    ends (step (start 32 0xE0A10392 noFlags [(0#4, 0x1#32), (1#4, 0x1#32), (2#4, 0xFFFFFFFF#32), (3#4, 0xFFFFFFFF#32)]))
      0x8000004#32 false noFlags [(0#4, 0x2#32), (1#4, 0xFFFFFFFF#32), (2#4, 0xFFFFFFFF#32), (3#4, 0xFFFFFFFF#32)] [] = true := by decide

theorem test_arm_smlal :
    ends (step (start 32 0xE0E10392 noFlags [(0#4, 0#32), (1#4, 0#32), (2#4, 0xFFFFFFFF#32), (3#4, 0xFFFFFFFF#32)]))
      0x8000004#32 false noFlags [(0#4, 0x1#32), (1#4, 0#32), (2#4, 0xFFFFFFFF#32), (3#4, 0xFFFFFFFF#32)] [] = true := by decide

theorem test_arm_swp :
    ends (step (start 32 0xE1010092 noFlags [(1#4, 0x3000000#32), (2#4, 0x11223344#32)]))
      0x8000004#32 false noFlags [(0#4, 0x84838281#32), (1#4, 0x3000000#32), (2#4, 0x11223344#32)] [(0x3000000, 0x44#8), (0x3000001, 0x33#8), (0x3000002, 0x22#8), (0x3000003, 0x11#8)] = true ∧
    faults (step (start 32 0xE1010092 noFlags [(1#4, 0x3000002#32), (2#4, 0#32)])) (.alignmentViolation 0x3000002#32) = true := by decide

theorem test_arm_swpb :
    ends (step (start 32 0xE1410092 noFlags [(1#4, 0x3000000#32), (2#4, 0x11223344#32)]))
      0x8000004#32 false noFlags [(0#4, 0x81#32), (1#4, 0x3000000#32), (2#4, 0x11223344#32)] [(0x3000000, 0x44#8)] = true := by decide

theorem test_arm_bx :
    ends (step (start 32 0xE12FFF10 noFlags [(0#4, 0x8000101#32)]))
      0x8000100#32 true noFlags [(0#4, 0x8000101#32)] [] = true ∧
    ends (step (start 32 0xE12FFF10 noFlags [(0#4, 0x8000100#32)]))
      0x8000100#32 false noFlags [(0#4, 0x8000100#32)] [] = true ∧
    ends (step (start 32 0xE12FFF10 noFlags [(0#4, 0x8000102#32)]))
      0x8000102#32 false noFlags [(0#4, 0x8000102#32)] [] = true ∧
    faults (step (start 32 0xE12FFF1F noFlags [])) (.unpredictable .bxPc) = true := by decide

theorem test_arm_ldr :
    ends (step (start 32 0xE5910004 noFlags [(1#4, 0x3000000#32)]))
      0x8000004#32 false noFlags [(0#4, 0xFFF0#32), (1#4, 0x3000000#32)] [] = true ∧
    ends (step (start 32 0xE5B10004 noFlags [(1#4, 0x3000000#32)]))
      0x8000004#32 false noFlags [(0#4, 0xFFF0#32), (1#4, 0x3000004#32)] [] = true ∧
    ends (step (start 32 0xE4910004 noFlags [(1#4, 0x3000000#32)]))
      0x8000004#32 false noFlags [(0#4, 0x84838281#32), (1#4, 0x3000004#32)] [] = true ∧
    faults (step (start 32 0xE5910001 noFlags [(1#4, 0x3000000#32)])) (.alignmentViolation 0x3000001#32) = true ∧
    ends (step (start 32 0xE7910102 noFlags [(1#4, 0x3000000#32), (2#4, 0x1#32)]))
      0x8000004#32 false noFlags [(0#4, 0xFFF0#32), (1#4, 0x3000000#32), (2#4, 0x1#32)] [] = true ∧
    ends (step (start 32 0xE5110004 noFlags [(1#4, 0x3000008#32)]))
      0x8000004#32 false noFlags [(0#4, 0xFFF0#32), (1#4, 0x3000008#32)] [] = true ∧
    refuses (step (reference (start 32 0xE5B11004 noFlags [(1#4, 0x3000000#32)]))) (.writeBackConflict) = true ∧
    faults (step (start 32 0xE5910000 noFlags [(1#4, 0x10000000#32)])) (.outOfRange 0x10000000#32) = true ∧
    ends (step (start 32 0xE59F0000 noFlags []))
      0x8000004#32 false noFlags [(0#4, 0x12345678#32)] [] = true := by decide

theorem test_arm_ldrb :
    ends (step (start 32 0xE5D10001 noFlags [(1#4, 0x3000000#32)]))
      0x8000004#32 false noFlags [(0#4, 0x82#32), (1#4, 0x3000000#32)] [] = true := by decide

theorem test_arm_str :
    ends (step (start 32 0xE5810000 noFlags [(0#4, 0xAABBCCDD#32), (1#4, 0x3000000#32)]))
      0x8000004#32 false noFlags [(0#4, 0xAABBCCDD#32), (1#4, 0x3000000#32)] [(0x3000000, 0xDD#8), (0x3000001, 0xCC#8), (0x3000002, 0xBB#8), (0x3000003, 0xAA#8)] = true ∧
    refuses (step (reference (start 32 0xE581F000 noFlags [(1#4, 0x3000000#32)]))) (.storePc) = true ∧
    faults (step (start 32 0xE5810000 noFlags [(0#4, 0#32), (1#4, 0x8000000#32)])) (.writeToReadOnly 0x8000000#32) = true ∧
    refuses (step (reference (start 32 0xE5810000 noFlags [(0#4, 0#32), (1#4, 0x4000000#32)]))) (.ioWrite) = true := by decide

theorem test_arm_strb :
    ends (step (start 32 0xE5C10000 noFlags [(0#4, 0xAABBCCDD#32), (1#4, 0x3000000#32)]))
      0x8000004#32 false noFlags [(0#4, 0xAABBCCDD#32), (1#4, 0x3000000#32)] [(0x3000000, 0xDD#8)] = true := by decide

theorem test_arm_ldrt :
    refuses (step (reference (start 32 0xE4B10000 noFlags [(1#4, 0x3000000#32)]))) (.userAccess) = true := by decide

theorem test_arm_ldrh :
    ends (step (start 32 0xE1D100B4 noFlags [(1#4, 0x3000000#32)]))
      0x8000004#32 false noFlags [(0#4, 0xFFF0#32), (1#4, 0x3000000#32)] [] = true ∧
    refuses (step (reference (start 32 0xE0F100B2 noFlags [(1#4, 0x3000000#32)]))) (.halfwordPostWriteBack) = true := by decide

theorem test_arm_ldrsb :
    ends (step (start 32 0xE1D100D0 noFlags [(1#4, 0x3000000#32)]))
      0x8000004#32 false noFlags [(0#4, 0xFFFFFF81#32), (1#4, 0x3000000#32)] [] = true := by decide

theorem test_arm_ldrsh :
    ends (step (start 32 0xE1D100F4 noFlags [(1#4, 0x3000000#32)]))
      0x8000004#32 false noFlags [(0#4, 0xFFFFFFF0#32), (1#4, 0x3000000#32)] [] = true ∧
    faults (step (start 32 0xE1D100F1 noFlags [(1#4, 0x3000000#32)])) (.alignmentViolation 0x3000001#32) = true := by decide

theorem test_arm_strh :
    ends (step (start 32 0xE1C100B2 noFlags [(0#4, 0xAABBCCDD#32), (1#4, 0x3000000#32)]))
      0x8000004#32 false noFlags [(0#4, 0xAABBCCDD#32), (1#4, 0x3000000#32)] [(0x3000002, 0xDD#8), (0x3000003, 0xCC#8)] = true := by decide

theorem test_arm_ldm :
    ends (step (start 32 0xE891000C noFlags [(1#4, 0x3000000#32)]))
      0x8000004#32 false noFlags [(2#4, 0x84838281#32), (3#4, 0xFFF0#32), (1#4, 0x3000000#32)] [] = true ∧
    ends (step (start 32 0xE8B1000C noFlags [(1#4, 0x3000000#32)]))
      0x8000004#32 false noFlags [(1#4, 0x3000008#32), (2#4, 0x84838281#32), (3#4, 0xFFF0#32)] [] = true ∧
    ends (step (start 32 0xE991000C noFlags [(1#4, 0x3000000#32)]))
      0x8000004#32 false noFlags [(2#4, 0xFFF0#32), (3#4, 0x8000101#32), (1#4, 0x3000000#32)] [] = true ∧
    ends (step (start 32 0xE811000C noFlags [(1#4, 0x3000004#32)]))
      0x8000004#32 false noFlags [(2#4, 0x84838281#32), (3#4, 0xFFF0#32), (1#4, 0x3000004#32)] [] = true ∧
    refuses (step (reference (start 32 0xE8910000 noFlags [(1#4, 0x3000000#32)]))) (.emptyList) = true ∧
    refuses (step (reference (start 32 0xE8B10002 noFlags [(1#4, 0x3000000#32)]))) (.baseInList) = true ∧
    refuses (step (reference (start 32 0xE8D10004 noFlags [(1#4, 0x3000000#32)]))) (.userBankTransfer) = true ∧
    faults (step (start 32 0xE8910004 noFlags [(1#4, 0x3000002#32)])) (.alignmentViolation 0x3000002#32) = true := by decide

theorem test_arm_stm :
    ends (step (start 32 0xE92D0003 noFlags [(0#4, 0x1#32), (1#4, 0x2#32), (13#4, 0x3000008#32)]))
      0x8000004#32 false noFlags [(13#4, 0x3000000#32), (0#4, 0x1#32), (1#4, 0x2#32)] [(0x3000000, 0x01#8), (0x3000001, 0x00#8), (0x3000002, 0x00#8), (0x3000003, 0x00#8), (0x3000004, 0x02#8), (0x3000005, 0x00#8), (0x3000006, 0x00#8), (0x3000007, 0x00#8)] = true ∧
    ends (step (start 32 0xE92D4003 noFlags [(0#4, 0x1#32), (1#4, 0x2#32), (13#4, 0x3000010#32), (14#4, 0x8000123#32)]))
      0x8000004#32 false noFlags [(13#4, 0x3000004#32), (0#4, 0x1#32), (1#4, 0x2#32), (14#4, 0x8000123#32)] [(0x3000004, 0x01#8), (0x3000005, 0x00#8), (0x3000006, 0x00#8), (0x3000007, 0x00#8), (0x3000008, 0x02#8), (0x3000009, 0x00#8), (0x300000A, 0x00#8), (0x300000B, 0x00#8), (0x300000C, 0x23#8), (0x300000D, 0x01#8), (0x300000E, 0x00#8), (0x300000F, 0x08#8)] = true ∧
    refuses (step (reference (start 32 0xE8818000 noFlags [(1#4, 0x3000000#32)]))) (.storePc) = true := by decide

theorem test_arm_b :
    ends (step (start 32 0xEA000000 noFlags []))
      0x8000008#32 false noFlags [] [] = true ∧
    ends (step (start 32 0xEAFFFFFE noFlags []))
      0x8000000#32 false noFlags [] [] = true := by decide

theorem test_arm_bl :
    ends (step (start 32 0xEB000005 noFlags []))
      0x800001C#32 false noFlags [(14#4, 0x8000004#32)] [] = true ∧
    ends (step (start 32 0x1BFFFFFD ⟨false, true, false, false⟩ []))
      0x8000004#32 false ⟨false, true, false, false⟩ [] [] = true := by decide

theorem test_arm_swi :
    refuses (step (reference (start 32 0xEF000006 noFlags []))) (.softwareInterrupt) = true ∧
    ends (step (start 32 0x0F000006 noFlags []))
      0x8000004#32 false noFlags [] [] = true := by decide

theorem test_arm_coprocessor :
    refuses (step (reference (start 32 0xEE000000 noFlags []))) (.unsupported .coprocessorOperation) = true := by decide

theorem test_arm_undefined :
    refuses (step (reference (start 32 0xE7F000F0 noFlags []))) (.undefinedWord) = true ∧
    refuses (step (reference (start 32 0xE0400091 noFlags []))) (.undefinedWord) = true := by decide

theorem test_thumb_lsl :
    ends (step (start 16 0x0108 noFlags [(1#4, 0x8000000F#32)]))
      0x8000002#32 true noFlags [(0#4, 0xF0#32), (1#4, 0x8000000F#32)] [] = true ∧
    ends (step (start 16 0x4088 noFlags [(0#4, 0x1#32), (1#4, 0x20#32)]))
      0x8000002#32 true ⟨false, true, true, false⟩ [(0#4, 0#32), (1#4, 0x20#32)] [] = true := by decide

theorem test_thumb_lsr :
    ends (step (start 16 0x0808 noFlags [(1#4, 0x80000000#32)]))
      0x8000002#32 true ⟨false, true, true, false⟩ [(0#4, 0#32), (1#4, 0x80000000#32)] [] = true := by decide

theorem test_thumb_asr :
    ends (step (start 16 0x1008 noFlags [(1#4, 0x80000000#32)]))
      0x8000002#32 true ⟨true, false, true, false⟩ [(0#4, 0xFFFFFFFF#32), (1#4, 0x80000000#32)] [] = true := by decide

theorem test_thumb_add :
    ends (step (start 16 0x1888 noFlags [(1#4, 0x7FFFFFFF#32), (2#4, 0x1#32)]))
      0x8000002#32 true ⟨true, false, false, true⟩ [(0#4, 0x80000000#32), (1#4, 0x7FFFFFFF#32), (2#4, 0x1#32)] [] = true ∧
    ends (step (start 16 0x3001 noFlags [(0#4, 0xFFFFFFFF#32)]))
      0x8000002#32 true ⟨false, true, true, false⟩ [(0#4, 0#32)] [] = true ∧
    ends (step (start 16 0x4488 noFlags [(1#4, 0x5#32), (8#4, 0xA#32)]))
      0x8000002#32 true noFlags [(8#4, 0xF#32), (1#4, 0x5#32)] [] = true ∧
    ends (step (atTwo 0xA002))
      0x8000004#32 true noFlags [(0#4, 0x800000C#32)] [] = true ∧
    ends (step (start 16 0xA9FF noFlags [(13#4, 0x3007F00#32)]))
      0x8000002#32 true noFlags [(1#4, 0x30082FC#32), (13#4, 0x3007F00#32)] [] = true ∧
    ends (step (start 16 0xB0FF noFlags [(13#4, 0x3007000#32)]))
      0x8000002#32 true noFlags [(13#4, 0x3006E04#32)] [] = true := by decide

theorem test_thumb_sub :
    ends (step (start 16 0x1E08 noFlags [(1#4, 0x5#32)]))
      0x8000002#32 true ⟨false, false, true, false⟩ [(0#4, 0x5#32), (1#4, 0x5#32)] [] = true := by decide

theorem test_thumb_mov :
    ends (step (start 16 0x2000 ⟨true, false, true, true⟩ []))
      0x8000002#32 true ⟨false, true, true, true⟩ [(0#4, 0#32)] [] = true ∧
    ends (step (start 16 0x4678 noFlags []))
      0x8000002#32 true noFlags [(0#4, 0x8000004#32)] [] = true ∧
    ends (step (start 16 0x4687 noFlags [(0#4, 0x8000101#32)]))
      0x8000100#32 true noFlags [(0#4, 0x8000101#32)] [] = true := by decide

theorem test_thumb_cmp :
    ends (step (start 16 0x2805 noFlags [(0#4, 0x5#32)]))
      0x8000002#32 true ⟨false, true, true, false⟩ [(0#4, 0x5#32)] [] = true := by decide

theorem test_thumb_ror :
    ends (step (start 16 0x41C8 noFlags [(0#4, 0x80000001#32), (1#4, 0x20#32)]))
      0x8000002#32 true ⟨true, false, true, false⟩ [(0#4, 0x80000001#32), (1#4, 0x20#32)] [] = true := by decide

theorem test_thumb_neg :
    ends (step (start 16 0x4248 noFlags [(1#4, 0#32)]))
      0x8000002#32 true ⟨false, true, true, false⟩ [(0#4, 0#32), (1#4, 0#32)] [] = true ∧
    ends (step (start 16 0x4248 noFlags [(1#4, 0x80000000#32)]))
      0x8000002#32 true ⟨true, false, false, true⟩ [(0#4, 0x80000000#32), (1#4, 0x80000000#32)] [] = true := by decide

theorem test_thumb_mul :
    endsOpenC (step (start 16 0x4348 noFlags [(0#4, 0x6#32), (1#4, 0x7#32)]))
      0x8000002#32 true noFlags [(0#4, 0x2A#32), (1#4, 0x7#32)] [] = true ∧
    faults (step (start 16 0x4340 noFlags [(0#4, 0x6#32)])) (.unpredictable .thumbMulOperands) = true := by decide

theorem test_thumb_mvn :
    ends (step (start 16 0x43C8 noFlags [(1#4, 0#32)]))
      0x8000002#32 true ⟨true, false, false, false⟩ [(0#4, 0xFFFFFFFF#32), (1#4, 0#32)] [] = true := by decide

theorem test_thumb_bx :
    ends (step (start 16 0x4700 noFlags [(0#4, 0x8000101#32)]))
      0x8000100#32 true noFlags [(0#4, 0x8000101#32)] [] = true ∧
    ends (step (start 16 0x4708 noFlags [(1#4, 0x8000200#32)]))
      0x8000200#32 false noFlags [(1#4, 0x8000200#32)] [] = true := by decide

theorem test_thumb_invalid :
    refuses (step (reference (start 16 0x4780 noFlags []))) (.invalid .bxH1) = true := by decide

theorem test_thumb_ldr :
    ends (step (start 16 0x4801 noFlags []))
      0x8000002#32 true noFlags [(0#4, 0x12345678#32)] [] = true ∧
    ends (step (start 16 0x6848 noFlags [(1#4, 0x3000000#32)]))
      0x8000002#32 true noFlags [(0#4, 0xFFF0#32), (1#4, 0x3000000#32)] [] = true ∧
    ends (step (start 16 0x9801 noFlags [(13#4, 0x3000000#32)]))
      0x8000002#32 true noFlags [(0#4, 0xFFF0#32), (13#4, 0x3000000#32)] [] = true := by decide

theorem test_thumb_ldrb :
    ends (step (start 16 0x5C88 noFlags [(1#4, 0x3000000#32), (2#4, 0x1#32)]))
      0x8000002#32 true noFlags [(0#4, 0x82#32), (1#4, 0x3000000#32), (2#4, 0x1#32)] [] = true := by decide

theorem test_thumb_ldsb :
    ends (step (start 16 0x5688 noFlags [(1#4, 0x3000000#32), (2#4, 0#32)]))
      0x8000002#32 true noFlags [(0#4, 0xFFFFFF81#32), (1#4, 0x3000000#32), (2#4, 0#32)] [] = true := by decide

theorem test_thumb_ldsh :
    ends (step (start 16 0x5E88 noFlags [(1#4, 0x3000000#32), (2#4, 0#32)]))
      0x8000002#32 true noFlags [(0#4, 0xFFFF8281#32), (1#4, 0x3000000#32), (2#4, 0#32)] [] = true ∧
    faults (step (start 16 0x5E88 noFlags [(1#4, 0x3000000#32), (2#4, 0x1#32)])) (.alignmentViolation 0x3000001#32) = true := by decide

theorem test_thumb_strh :
    ends (step (start 16 0x8048 noFlags [(0#4, 0xAABBCCDD#32), (1#4, 0x3000000#32)]))
      0x8000002#32 true noFlags [(0#4, 0xAABBCCDD#32), (1#4, 0x3000000#32)] [(0x3000002, 0xDD#8), (0x3000003, 0xCC#8)] = true := by decide

theorem test_thumb_push :
    ends (step (start 16 0xB503 noFlags [(0#4, 0x1#32), (1#4, 0x2#32), (13#4, 0x300000C#32), (14#4, 0x8000041#32)]))
      0x8000002#32 true noFlags [(13#4, 0x3000000#32), (0#4, 0x1#32), (1#4, 0x2#32), (14#4, 0x8000041#32)] [(0x3000000, 0x01#8), (0x3000001, 0x00#8), (0x3000002, 0x00#8), (0x3000003, 0x00#8), (0x3000004, 0x02#8), (0x3000005, 0x00#8), (0x3000006, 0x00#8), (0x3000007, 0x00#8), (0x3000008, 0x41#8), (0x3000009, 0x00#8), (0x300000A, 0x00#8), (0x300000B, 0x08#8)] = true := by decide

theorem test_thumb_pop :
    ends (step (start 16 0xBD03 noFlags [(13#4, 0x3000000#32)]))
      0x8000100#32 true noFlags [(0#4, 0x84838281#32), (1#4, 0xFFF0#32), (13#4, 0x300000C#32)] [] = true ∧
    refuses (step (reference (start 16 0xBC00 noFlags [(13#4, 0x3000000#32)]))) (.emptyList) = true := by decide

theorem test_thumb_ldm :
    ends (step (start 16 0xC806 noFlags [(0#4, 0x3000000#32)]))
      0x8000002#32 true noFlags [(0#4, 0x3000008#32), (1#4, 0x84838281#32), (2#4, 0xFFF0#32)] [] = true := by decide

theorem test_thumb_stm :
    refuses (step (reference (start 16 0xC106 noFlags [(1#4, 0x3000000#32), (2#4, 0x5#32)]))) (.baseInList) = true := by decide

theorem test_thumb_beq :
    ends (step (start 16 0xD0FE ⟨false, true, false, false⟩ []))
      0x8000000#32 true ⟨false, true, false, false⟩ [] [] = true ∧
    ends (step (start 16 0xD0FE noFlags []))
      0x8000002#32 true noFlags [] [] = true := by decide

theorem test_thumb_undefined :
    refuses (step (reference (start 16 0xDE00 noFlags []))) (.undefinedWord) = true := by decide

theorem test_thumb_swi :
    refuses (step (reference (start 16 0xDF06 noFlags []))) (.softwareInterrupt) = true := by decide

theorem test_thumb_b :
    ends (step (start 16 0xE7FE noFlags []))
      0x8000000#32 true noFlags [] [] = true := by decide

theorem test_thumb_blh :
    ends (step (start 16 0xF7FF noFlags []))
      0x8000002#32 true noFlags [(14#4, 0x7FFF004#32)] [] = true := by decide

theorem test_thumb_bll :
    ends (step (start 16 0xF802 noFlags [(14#4, 0x8000100#32)]))
      0x8000104#32 true noFlags [(14#4, 0x8000003#32)] [] = true := by decide

/-! Calculated by hand from the rules: R1 = 0xFF00FF00, R2 = 0x0FF00FF0. -/

theorem test_arm_and : ends (step (start 32 0xE0110002 noFlags [(1#4, 0xFF00FF00#32), (2#4, 0x0FF00FF0#32)]))
    0x08000004#32 false noFlags [(0#4, 0x0F000F00#32)] [] = true := by decide
theorem test_arm_eor : ends (step (start 32 0xE0310002 noFlags [(1#4, 0xFF00FF00#32), (2#4, 0x0FF00FF0#32)]))
    0x08000004#32 false ⟨true, false, false, false⟩ [(0#4, 0xF0F0F0F0#32)] [] = true := by decide
theorem test_arm_rsb : ends (step (start 32 0xE0710002 noFlags [(1#4, 0xFF00FF00#32), (2#4, 0x0FF00FF0#32)]))
    0x08000004#32 false noFlags [(0#4, 0x10EF10F0#32)] [] = true := by decide
theorem test_arm_rsc : ends (step (start 32 0xE0F10002 noFlags [(1#4, 0xFF00FF00#32), (2#4, 0x0FF00FF0#32)]))
    0x08000004#32 false noFlags [(0#4, 0x10EF10EF#32)] [] = true := by decide
theorem test_arm_tst : ends (step (start 32 0xE1110002 noFlags [(0#4, 5#32), (1#4, 0xFF00FF00#32), (2#4, 0x00FF00FF#32)]))
    0x08000004#32 false ⟨false, true, false, false⟩ [(0#4, 5#32)] [] = true := by decide
theorem test_arm_teq : ends (step (start 32 0xE1310002 ⟨false, false, true, true⟩ [(1#4, 0xFF00FF00#32), (2#4, 1#32)]))
    0x08000004#32 false ⟨true, false, true, true⟩ [(0#4, 0#32)] [] = true := by decide
theorem test_arm_cmn : ends (step (start 32 0xE1710002 noFlags [(1#4, 0xFF00FF00#32), (2#4, 0x0FF00FF0#32)]))
    0x08000004#32 false ⟨false, false, true, false⟩ [(0#4, 0#32)] [] = true := by decide
theorem test_arm_orr : ends (step (start 32 0xE1910002 noFlags [(1#4, 0xFF00FF00#32), (2#4, 0x0FF00FF0#32)]))
    0x08000004#32 false ⟨true, false, false, false⟩ [(0#4, 0xFFF0FFF0#32)] [] = true := by decide
theorem test_arm_bic : ends (step (start 32 0xE1D10002 noFlags [(1#4, 0xFF00FF00#32), (2#4, 0x0FF00FF0#32)]))
    0x08000004#32 false ⟨true, false, false, false⟩ [(0#4, 0xF000F000#32)] [] = true := by decide
theorem test_arm_mvn : ends (step (start 32 0xE1F00002 noFlags [(2#4, 0x0FF00FF0#32)]))
    0x08000004#32 false ⟨true, false, false, false⟩ [(0#4, 0xF00FF00F#32)] [] = true := by decide

/-- The T forms in profile arm7tdmi: post-indexed, the base written back. -/
theorem test_arm_ldrbt : ends (step (start 32 0xE4F10004 noFlags [(1#4, 0x03000001#32)]))
    0x08000004#32 false noFlags [(0#4, 0x82#32), (1#4, 0x03000005#32)] [] = true := by decide
theorem test_arm_ldrt_runs : ends (step (start 32 0xE4B10004 noFlags [(1#4, 0x03000000#32)]))
    0x08000004#32 false noFlags [(0#4, 0x84838281#32), (1#4, 0x03000004#32)] [] = true := by decide
theorem test_arm_strt : ends (step (start 32 0xE4A10004 noFlags [(0#4, 0xAABBCCDD#32), (1#4, 0x03000000#32)]))
    0x08000004#32 false noFlags [(1#4, 0x03000004#32)] [(0x03000000, 0xDD#8), (0x03000003, 0xAA#8)] = true := by decide
theorem test_arm_strbt : ends (step (start 32 0xE4E10001 noFlags [(0#4, 0xAABBCCDD#32), (1#4, 0x03000000#32)]))
    0x08000004#32 false noFlags [(1#4, 0x03000001#32)] [(0x03000000, 0xDD#8), (0x03000001, 0x82#8)] = true := by decide

/-- R614: the entries of SWI, an Undefined word and a coprocessor word: the vector, R14, I and the saved CPSR. -/
def entered (o : Out) (m : Mode) (vector link : Word) (old : Psr) : Bool :=
  match o with
  | .next t => decide (t.cpsr = ⟨old.flags, true, old.fiqDisable, false, m⟩) && t.pc == vector && t.reg 14#4 == link &&
      decide (t.spsrNow = some old)
  | _ => false

/-- A CPSR of User mode with Z and C set, interrupts enabled. -/
def userPsr (t : Bool) : Psr := ⟨⟨false, true, true, false⟩, false, false, t, .user⟩

theorem test_arm_swi_enters : entered (step { start 32 0xEF000006 noFlags [] with cpsr := userPsr false })
    .supervisor 0x08#32 0x08000004#32 (userPsr false) = true := by decide
theorem test_thumb_swi_enters : entered (step { start 16 0xDF06 noFlags [] with cpsr := userPsr true })
    .supervisor 0x08#32 0x08000002#32 (userPsr true) = true := by decide
theorem test_arm_undefined_enters : [0xE0400091, 0xE1810092, 0xE7F000F0, 0xEC000000, 0xEE000010].all (fun w =>
    entered (step { start 32 w noFlags [] with cpsr := userPsr false }) .undefined 0x04#32 0x08000004#32
      (userPsr false)) = true := by decide
theorem test_thumb_undefined_enters : [0xB100, 0xDE00, 0xE800].all (fun w =>
    entered (step { start 16 w noFlags [] with cpsr := userPsr true }) .undefined 0x04#32 0x08000002#32
      (userPsr true)) = true := by decide

/-- R615: MOVS PC,R14 in Supervisor mode, and refused in System mode. -/
theorem test_arm_movs_pc_returns :
    ends (step ((inMode .supervisor (userPsr true) (start 32 0xE1B0F00E noFlags [])).setReg 14#4 0x08000102#32))
      0x08000102#32 true ⟨false, true, true, false⟩ [] [] = true ∧
    refuses (step (start 32 0xE1B0F00E noFlags [])) .noSpsr = true := by decide
/-- R353: LDMFD R13!,R0 and R15, with S = 1, in IRQ mode. -/
theorem test_arm_ldm_returns :
    ends (step ((inMode .irq (userPsr false) (start 32 0xE8FD8001 noFlags [])).setReg 13#4 0x03000004#32))
      0x08000101#32 false ⟨false, true, true, false⟩ [(0#4, 0xFFF0#32), (13#4, 0#32)] [] = true := by decide
/-- R353: STMIA R1,R13 with S = 1 in IRQ mode stores User R13. -/
theorem test_arm_stm_user_bank :
    ends (step ((inMode .irq (userPsr false) (start 32 0xE8C12000 noFlags [(1#4, 0x03000000#32), (13#4, 0x1234#32)])).setReg
      13#4 0x99#32)) 0x08000004#32 false noFlags [(13#4, 0x99#32)] [(0x03000000, 0x34#8), (0x03000001, 0x12#8)] = true := by
  decide
/-- R280, R48: MRS's bits 31 to 28 and 7 to 0, in System mode with I = F = 1 and N = C = 1, beside reserved bits 0. -/
theorem test_arm_mrs_word : ({ State.reset.cpsr with flags := ⟨true, false, true, false⟩ } : Psr).toWord 0#20 =
    0xA00000DF#32 := by decide
/-- R281: MSR SPSR_flg,R1 in IRQ mode. -/
theorem test_arm_msr_spsr_runs :
    (match step (inMode .irq (userPsr true) (start 32 0xE168F001 noFlags [(1#4, 0xA0000000#32)])) with
      | .next t => decide (t.spsrNow = some { userPsr true with flags := ⟨true, false, true, false⟩ })
      | _ => false) = true := by decide
/-- R182. -/
theorem test_arm_sbz_check :
    refuses (step { start 32 0xE0003291 noFlags [] with sbzCheck := true }) .shouldBeZero = true ∧
    ends (step (start 32 0xE0003291 noFlags [(1#4, 6#32), (2#4, 7#32)])) 0x08000004#32 false noFlags [(0#4, 42#32)] []
      = true := by decide
/-- R75: a byte write to Palette RAM, and a halfword write there. -/
theorem test_arm_video :
    refuses (step (start 32 0xE5C10000 noFlags [(1#4, 0x05000000#32)])) .videoByteWrite = true ∧
    ends (step (start 32 0xE1C100B0 noFlags [(0#4, 0xAABB#32), (1#4, 0x05000000#32)])) 0x08000004#32 false noFlags []
      [(0x05000000, 0xBB#8), (0x05000001, 0xAA#8)] = true := by decide
/-- R78, R79. -/
theorem test_fetch_faults :
    faults (step { State.reset with pc := 0x07FFFFFC#32 }) (.outOfRange 0x07FFFFFC#32) = true ∧
    faults (step { State.reset with pc := 0x0A000000#32 }) (.outOfRange 0x0A000000#32) = true ∧
    faults (step { State.reset with pc := 0x08000002#32 }) (.alignmentViolation 0x08000002#32) = true ∧
    faults (step { State.reset with pc := 2#32 }) (.alignmentViolation 2#32) = true := by decide

/-! THUMB, with R0 and R1 the operands. -/

theorem test_thumb_and : ends (step (start 16 0x4008 ⟨false, false, true, true⟩ [(0#4, 0xFF00#32), (1#4, 0x0FF0#32)]))
    0x08000002#32 true ⟨false, false, true, true⟩ [(0#4, 0x0F00#32)] [] = true := by decide
theorem test_thumb_eor : ends (step (start 16 0x4048 noFlags [(0#4, 0xFF00#32), (1#4, 0xFF00#32)]))
    0x08000002#32 true ⟨false, true, false, false⟩ [(0#4, 0#32)] [] = true := by decide
theorem test_thumb_lsr_reg : ends (step (start 16 0x40C8 noFlags [(0#4, 0x80000000#32), (1#4, 0x20#32)]))
    0x08000002#32 true ⟨false, true, true, false⟩ [(0#4, 0#32)] [] = true := by decide
theorem test_thumb_asr_reg : ends (step (start 16 0x4108 noFlags [(0#4, 0x80000000#32), (1#4, 0xC8#32)]))
    0x08000002#32 true ⟨true, false, true, false⟩ [(0#4, 0xFFFFFFFF#32)] [] = true := by decide
theorem test_thumb_adc : ends (step (start 16 0x4148 ⟨false, false, true, false⟩ [(0#4, 0xFFFFFFFF#32), (1#4, 0#32)]))
    0x08000002#32 true ⟨false, true, true, false⟩ [(0#4, 0#32)] [] = true := by decide
theorem test_thumb_sbc : ends (step (start 16 0x4188 noFlags [(0#4, 3#32), (1#4, 3#32)]))
    0x08000002#32 true ⟨true, false, false, false⟩ [(0#4, 0xFFFFFFFF#32)] [] = true := by decide
theorem test_thumb_tst : ends (step (start 16 0x4208 noFlags [(0#4, 0xF0#32), (1#4, 0x0F#32)]))
    0x08000002#32 true ⟨false, true, false, false⟩ [(0#4, 0xF0#32)] [] = true := by decide
theorem test_thumb_cmp_reg : ends (step (start 16 0x4288 noFlags [(0#4, 0x80000000#32), (1#4, 1#32)]))
    0x08000002#32 true ⟨false, false, true, true⟩ [(0#4, 0x80000000#32)] [] = true := by decide
theorem test_thumb_cmn : ends (step (start 16 0x42C8 noFlags [(0#4, 0xFFFFFFFF#32), (1#4, 1#32)]))
    0x08000002#32 true ⟨false, true, true, false⟩ [(0#4, 0xFFFFFFFF#32)] [] = true := by decide
theorem test_thumb_orr : ends (step (start 16 0x4308 noFlags [(0#4, 0xF0#32), (1#4, 0x0F#32)]))
    0x08000002#32 true noFlags [(0#4, 0xFF#32)] [] = true := by decide
theorem test_thumb_bic : ends (step (start 16 0x4388 noFlags [(0#4, 0xFF#32), (1#4, 0x0F#32)]))
    0x08000002#32 true noFlags [(0#4, 0xF0#32)] [] = true := by decide
theorem test_thumb_sub_reg : ends (step (start 16 0x1A88 noFlags [(1#4, 0#32), (2#4, 1#32)]))
    0x08000002#32 true ⟨true, false, false, false⟩ [(0#4, 0xFFFFFFFF#32)] [] = true := by decide
theorem test_thumb_add_imm3 : ends (step (start 16 0x1C48 noFlags [(1#4, 0x7FFFFFFF#32)]))
    0x08000002#32 true ⟨true, false, false, true⟩ [(0#4, 0x80000000#32)] [] = true := by decide
theorem test_thumb_sub_imm8 : ends (step (start 16 0x3801 noFlags [(0#4, 0x80000000#32)]))
    0x08000002#32 true ⟨false, false, true, true⟩ [(0#4, 0x7FFFFFFF#32)] [] = true := by decide
theorem test_thumb_cmp_hi : ends (step (start 16 0x4588 noFlags [(8#4, 5#32), (1#4, 5#32)]))
    0x08000002#32 true ⟨false, true, true, false⟩ [(8#4, 5#32)] [] = true := by decide
theorem test_thumb_ldrh_reg : ends (step (start 16 0x5A88 noFlags [(1#4, 0x03000000#32), (2#4, 4#32)]))
    0x08000002#32 true noFlags [(0#4, 0xFFF0#32)] [] = true := by decide
theorem test_thumb_ldr_reg : ends (step (start 16 0x5888 noFlags [(1#4, 0x03000000#32), (2#4, 0#32)]))
    0x08000002#32 true noFlags [(0#4, 0x84838281#32)] [] = true := by decide
theorem test_thumb_ldrb_imm : ends (step (start 16 0x78C8 noFlags [(1#4, 0x03000000#32)]))
    0x08000002#32 true noFlags [(0#4, 0x84#32)] [] = true := by decide
theorem test_thumb_ldrh_imm : ends (step (start 16 0x8848 noFlags [(1#4, 0x03000000#32)]))
    0x08000002#32 true noFlags [(0#4, 0x8483#32)] [] = true := by decide
theorem test_thumb_str_reg : ends (step (start 16 0x5088 noFlags [(0#4, 0xAABBCCDD#32), (1#4, 0x03000000#32)]))
    0x08000002#32 true noFlags [] [(0x03000000, 0xDD#8), (0x03000003, 0xAA#8)] = true := by decide
theorem test_thumb_strb_reg : ends (step (start 16 0x5488 noFlags [(0#4, 0xAABBCCDD#32), (1#4, 0x03000000#32)]))
    0x08000002#32 true noFlags [] [(0x03000000, 0xDD#8), (0x03000001, 0x82#8)] = true := by decide
theorem test_thumb_strh_reg : ends (step (start 16 0x5288 noFlags [(0#4, 0xAABBCCDD#32), (1#4, 0x03000000#32)]))
    0x08000002#32 true noFlags [] [(0x03000001, 0xCC#8), (0x03000002, 0x83#8)] = true := by decide
theorem test_thumb_str_imm : ends (step (start 16 0x6048 noFlags [(0#4, 0xAABBCCDD#32), (1#4, 0x03000000#32)]))
    0x08000002#32 true noFlags [] [(0x03000004, 0xDD#8), (0x03000000, 0x81#8)] = true := by decide
theorem test_thumb_strb_imm : ends (step (start 16 0x77C8 noFlags [(0#4, 0xAABBCCDD#32), (1#4, 0x03000000#32)]))
    0x08000002#32 true noFlags [] [(0x0300001F, 0xDD#8)] = true := by decide
theorem test_thumb_str_sp : ends (step (start 16 0x9001 noFlags [(0#4, 0xAABBCCDD#32), (13#4, 0x03000000#32)]))
    0x08000002#32 true noFlags [] [(0x03000004, 0xDD#8), (0x03000007, 0xAA#8)] = true := by decide
theorem test_thumb_stmia : ends (step (start 16 0xC106 noFlags [(1#4, 0x03000000#32)])) 0 false noFlags [] [] = false ∧
    ends (step (start 16 0xC00C noFlags [(0#4, 0x03000000#32), (2#4, 0x12#32), (3#4, 0x34#32)])) 0x08000002#32 true noFlags
      [(0#4, 0x03000008#32)] [(0x03000000, 0x12#8), (0x03000004, 0x34#8)] = true := by decide
theorem test_thumb_pop_no_pc : ends (step (start 16 0xBC03 noFlags [(13#4, 0x03000000#32)]))
    0x08000002#32 true noFlags [(0#4, 0x84838281#32), (1#4, 0xFFF0#32), (13#4, 0x03000008#32)] [] = true := by decide
/-- R215, R500: which of the fourteen conditional branches are taken with N = C = 1, Z = V = 0. -/
theorem test_thumb_conditional :
    [0xD001, 0xD101, 0xD201, 0xD301, 0xD401, 0xD501, 0xD601, 0xD701, 0xD801, 0xD901, 0xDA01, 0xDB01, 0xDC01, 0xDD01].map
      (fun w => ends (step (start 16 w ⟨true, false, true, false⟩ [])) 0x08000006#32 true ⟨true, false, true, false⟩ [] []) =
    [false, true, true, false, true, false, false, true, true, false, false, true, false, true] := by decide

/-! ### Witnesses: a state and operands that meet a statement's hypotheses, clause by clause at its boundaries -/

/-- A step that goes on. -/
def goesOn (o : Out) : Bool :=
  match o with
  | .next _ => true
  | _ => false

theorem test_witness_encodingsDecodeBack :
    (Instr.armMsr .al true 0xF#4 (.reg 8#8 1#4)).WellFormed = true ∧ (Instr.thumbBlHigh 0x7FF000#23).WellFormed = true := by
  decide
theorem test_witness_nvWordsAreInvalid :
    (0xF0000000#32 : Word).extractLsb' 28 4 = 15#4 ∧ (decodeArm 0xE3A00001#32).cond? = some .al := by decide
theorem test_witness_stepRunsTheDecodedInstruction :
    [0x08000000#32, 0x09FFFFFC#32].all (fun p : Word =>
      0x08000000 ≤ p.toNat && p.toNat ≤ 0x09FFFFFC && p.toNat % 4 == 0) = true ∧
    [0x08000000#32, 0x09FFFFFE#32].all (fun p : Word =>
      0x08000000 ≤ p.toNat && p.toNat ≤ 0x09FFFFFE && p.toNat % 2 == 0) = true ∧
    State.reset.cpsr.thumb = false ∧ (State.reset.withFetchWord 16 0).cpsr.thumb = true := by decide
/-- Both clauses at the ends of the window, in both states. -/
theorem test_witness_fetchErrorsInOrder :
    [(false, 0x08000001#32), (false, 0x07FFFFFE#32), (true, 0x09FFFFFF#32), (false, 0x07FFFFFC#32), (true, 0x07FFFFFE#32),
     (false, 0x0A000000#32), (true, 0x0A000000#32), (true, 0xFFFFFFFE#32)].map
      (fun (p : Bool × Word) => let s : State := { State.reset with pc := p.2, cpsr := { State.reset.cpsr with thumb := p.1 } }
        faults (step s) (.alignmentViolation p.2) || faults (step s) (.outOfRange p.2)) = List.replicate 8 true := by decide
theorem test_witness_stepKeepsMemoryForm :
    (start 32 0xE5810000 noFlags [(1#4, 0x03000000#32)]).Inv ∧
      goesOn (step (start 32 0xE5810000 noFlags [(1#4, 0x03000000#32)])) = true := by decide
theorem test_witness_stepNeverWritesReadOnly :
    goesOn (step (start 32 0xE5810000 noFlags [(1#4, 0x03000000#32)])) = true ∧
    ([0, 0x3FFF, 0x04000000, 0x040003FE, 0x08000000, 0x09FFFFFF].map regionOf) =
      [some .bios, some .bios, some .io, some .io, some .rom, some .rom] := by decide
theorem test_witness_referenceHasOneMode :
    (reference (start 32 0xE12FFF10 noFlags [])).profile = .executorReference ∧
      goesOn (step (reference (start 32 0xE12FFF10 noFlags []))) = true := by decide
theorem test_witness_flagSettingPcWritesReturn :
    evaluate .al State.reset.flags = true ∧ State.reset.sbzCheck = false ∧ State.reset.spsrNow = none ∧
    (inMode .irq (userPsr true) State.reset).spsrNow = some (userPsr true) ∧ State.reset.profile = .arm7tdmi := by decide
theorem test_witness_flagSettingPcWritesReturn_operand :
    operand2Value (inMode .irq (userPsr true) State.reset) (.imm 0#4 4#8) = .ok ⟨4#32, false⟩ := rfl
/-- The banks' ends: FIQ has its own R8 and shares R7, IRQ its own R13 and shares R12, System shares User's R14. -/
theorem test_witness_exceptionEntryEffect :
    [(Mode.fiq, Mode.user, 7#4, 7#4), (.fiq, .user, 8#4, 8#4), (.irq, .fiq, 12#4, 12#4), (.irq, .user, 12#4, 12#4),
     (.irq, .supervisor, 13#4, 13#4), (.irq, .irq, 13#4, 13#4), (.system, .user, 14#4, 14#4), (.abort, .undefined, 14#4, 14#4),
     (.user, .user, 13#4, 14#4)].map (fun (c : Mode × Mode × RegIdx × RegIdx) =>
        (State.reset.setRegIn c.1 c.2.2.1 5#32).regIn c.2.1 c.2.2.2 == 5#32) =
      [true, false, false, true, false, true, true, false, false] ∧
    (inMode .irq (userPsr true) State.reset).spsrNow ≠ none ∧ State.reset.spsrNow = none ∧
    ((State.reset.setSpsr .abort (userPsr true)).setSpsr .undefined (userPsr false)).spsr.get 3 = userPsr true := by decide
theorem test_witness_softwareInterruptsTrap :
    evaluate .al State.reset.flags = true ∧ State.reset.profile = .arm7tdmi ∧
      (reference State.reset).profile = .executorReference ∧ goesOn (exec (.armSwi .al 6#24) State.reset) = true ∧
      goesOn (exec (.thumbSwi 6#8) State.reset) = true := by decide
theorem test_witness_failedConditionOnlyAdvances :
    (Instr.armSwi .eq 6#24).cond? = some .eq ∧ evaluate .eq noFlags = false := by decide
/-- Stores of R15 in each form: post-indexed, with write-back, R15 the base, a halfword register offset, a list. -/
theorem test_witness_referenceRefusesModeForms :
    let s := reference State.reset
    s.profile = .executorReference ∧ evaluate .al s.flags = true ∧ s.sbzCheck = false ∧
    [exec (.armStr .al false true false 1#4 15#4 (.imm 0#12)) s, exec (.armStrb .al true true true 1#4 15#4 (.imm 0#12)) s,
     exec (.armStr .al true true false 15#4 15#4 (.imm 0#12)) s, exec (.armStrh .al true true false 1#4 15#4 (.imm 0#8)) s,
     exec (.armStrh .al false true false 1#4 15#4 (.reg 0#4 2#4)) s, exec (.armStm .al false true false true 1#4 0x8001#16) s].all
      (refuses · .storePc) = true := by decide
theorem test_witness_unpredictableOperandsFault :
    let s := State.reset
    s.sbzCheck = false ∧ evaluate .al s.flags = true ∧
    [(exec (.armMul .al false 2#4 0#4 1#4 2#4) s, Unpredictable.mulOperands),
     (exec (.armMla .al false 0#4 15#4 1#4 2#4) s, .mulOperands), (exec (.armUmull .al false 0#4 0#4 1#4 2#4) s, .longMulOperands),
     (exec (.armSwp .al 15#4 0#4 0#4 1#4) s, .swapOperands), (exec (.armMsr .al false 0xF#4 (.reg 0#8 15#4)) s, .msrFromPc),
     (exec (.armMsr .al true 0xF#4 (.reg 0#8 15#4)) (inMode .irq (userPsr true) s), .msrFromPc),
     (exec (.armAdd .al false 1#4 15#4 (.regReg 2#4 .lsl 15#4)) s, .shiftByPc),
     (exec (.armMov .al true 0#4 15#4 (.regReg 2#4 .lsl 15#4)) (inMode .irq (userPsr true) s), .shiftByPc),
     (exec (.armCmp .al 1#4 15#4 (.regReg 2#4 .lsl 15#4)) (inMode .irq (userPsr true) s), .shiftByPc),
     (exec (.armLdr .al true true false 15#4 15#4 (.reg 15#4 .lsl 0#5)) s, .offsetPc),
     (exec (.armStr .al false true false 1#4 15#4 (.reg 15#4 .lsl 0#5)) s, .offsetPc),
     (exec (.armStrh .al true true true 1#4 0#4 (.reg 0#4 15#4)) s, .offsetPc),
     (exec (.armLdrbt .al true 1#4 0#4 (.reg 15#4 .lsl 0#5)) s, .offsetPc),
     (exec (.armLdm .al false true true false 15#4 0x8000#16) (inMode .irq (userPsr true) s), .blockBasePc),
     (exec (.armStm .al false true false true 15#4 0x8000#16) s, .blockBasePc)].all
      (fun c => faults c.1 (.unpredictable c.2)) = true := by decide
/-- The last four reach the check in profile arm7tdmi alone: an SPSR's MRS and MSR, and MOVS and CMP with Rd = R15. -/
theorem test_witness_wrongFixedFieldsAreRefused :
    let s : State := { State.reset with sbzCheck := true }
    let q := inMode .irq (userPsr true) s
    s.sbzCheck = true ∧ evaluate .al s.flags = true ∧ q.spsrNow ≠ none ∧
    [exec (.armMul .al false 0#4 1#4 1#4 2#4) s, exec (.armMov .al true 1#4 0#4 (.imm 0#4 0#8)) s,
     exec (.armMrs .al false true 0#4 1#12) q, exec (.armMsr .al true 0xE#4 (.imm 0#4 0#8)) q,
     exec (.armMov .al true 1#4 15#4 (.imm 0#4 0#8)) q, exec (.armCmp .al 0#4 15#4 (.imm 0#4 0#8)) q].all
      (refuses · .shouldBeZero) = true := by decide
/-- Each clause at the ends of a region, and the word that straddles the end of IO. -/
theorem test_witness_dataReads :
    (0x03000001 % Width.half.bytes ≠ 0 ∧ 0x03000002 % Width.word.bytes ≠ 0) ∧
    ([0x00003FFF, 0x00004000, 0x01FFFFFF, 0x02000000, 0x0203FFFF, 0x02040000, 0x02FFFFFF, 0x03000000, 0x03007FFF,
      0x03008000].map regionOf) =
      [some .bios, none, none, some .wram1, some .wram1, none, none, some .wram2, some .wram2, none] ∧
    ([0x03FFFFFF, 0x04000000, 0x040003FE, 0x040003FF, 0x04FFFFFF, 0x05000000, 0x050003FF, 0x05000400, 0x05FFFFFF,
      0x06000000, 0x06017FFF, 0x06018000].map regionOf) =
      [none, some .io, some .io, none, none, some .palette, some .palette, none, none, some .vram, some .vram, none] ∧
    ([0x06FFFFFF, 0x07000000, 0x070003FF, 0x07000400, 0x07FFFFFF, 0x08000000, 0x09FFFFFF, 0x0A000000].map regionOf) =
      [none, some .oam, some .oam, none, none, some .rom, some .rom, none] := by decide
/-- The widest values whose top bit is clear, and the first whose top bit is set (R81, R343, R344). -/
theorem test_witness_dataReads_extend :
    [extend false .byte 0x80#32, extend true .byte 0x7F#32, extend true .byte 0x80#32, extend false .half 0x8000#32,
     extend true .half 0x7FFF#32, extend true .half 0x8000#32, extend true .word 0x80000000#32] =
      [0x80#32, 0x7F#32, 0xFFFFFF80#32, 0x8000#32, 0x7FFF#32, 0xFFFF8000#32, 0x80000000#32] := by decide
/-- Reads at the end of IO, which is 0x040003FE: the halfword and the word that run past it fault at 0x040003FF. -/
theorem test_witness_dataReads_io :
    [((State.reset.load 0x040003FE#32 .byte) matches .ok _), ((State.reset.load 0x040003FC#32 .half) matches .ok _),
     ((State.reset.load 0x040003F8#32 .word) matches .ok _),
     ((State.reset.load 0x040003FE#32 .half) matches .error (.fault (.outOfRange 0x040003FF#32))),
     ((State.reset.load 0x040003FC#32 .word) matches .error (.fault (.outOfRange 0x040003FF#32)))] =
      List.replicate 5 true := by decide
/-- R1 and R13 the bases of the accesses that the next two theorems name. -/
def bases (a : Word) : State := (State.reset.setReg 1#4 a).setReg 13#4 a
theorem test_witness_dataReads_stops :
    let o : Offset := .imm 0#12
    [faults (exec (.armLdr .al true true false 1#4 0#4 o) (bases 0x03000002#32)) (.alignmentViolation 0x03000002#32),
     faults (exec (.armLdrb .al false true false 1#4 0#4 o) (bases 0x00004000#32)) (.outOfRange 0x00004000#32),
     faults (exec (.armLdrt .al true 1#4 0#4 o) (bases 0x040003FC#32)) (.outOfRange 0x040003FF#32),
     faults (exec (.armLdrsh .al true true true 1#4 0#4 (.imm 0#8)) (bases 0x03007FFF#32)) (.alignmentViolation 0x03007FFF#32),
     faults (exec (.armSwp .al 1#4 0#4 0#4 2#4) (bases 0x040003FC#32)) (.outOfRange 0x040003FF#32),
     faults (exec (.thumbLdrhImm 0#6 1#3 0#3) (bases 0x040003FE#32)) (.outOfRange 0x040003FF#32),
     faults (exec (.armLdm .al false true false true 1#4 1#16) (bases 0x03000001#32)) (.alignmentViolation 0x03000001#32),
     faults (exec (.armLdm .al false true false true 1#4 0xC#16) (bases 0x03007FFC#32)) (.outOfRange 0x03008000#32),
     faults (exec (.thumbPop true 0#8) (bases 0x02000002#32)) (.alignmentViolation 0x02000002#32),
     faults (exec (.thumbLdmia 1#3 1#8) (bases 0x02040000#32)) (.outOfRange 0x02040000#32)] = List.replicate 10 true := by decide
theorem test_witness_writesByRegion_stops :
    let o : Offset := .imm 0#12
    [faults (exec (.armStr .al true true false 1#4 15#4 o) (bases 0x03000002#32)) (.alignmentViolation 0x03000002#32),
     faults (exec (.armStrt .al true 1#4 0#4 o) (bases 0x09FFFFFC#32)) (.writeToReadOnly 0x09FFFFFC#32),
     refuses (exec (.armStrb .al true true false 1#4 0#4 o) (bases 0x07000000#32)) .videoByteWrite,
     refuses (exec (.armStrh .al true true false 1#4 0#4 (.imm 0#8)) (bases 0x040003FE#32)) .ioWrite,
     faults (exec (.armSwp .al 1#4 0#4 0#4 2#4) (bases 0x00000000#32)) (.writeToReadOnly 0x00000000#32),
     faults (exec (.thumbStrImm 0#7 1#3 0#3) (bases 0x03008000#32)) (.outOfRange 0x03008000#32),
     faults (exec (.armStm .al false true false true 1#4 1#16) (bases 0x03000001#32)) (.alignmentViolation 0x03000001#32),
     faults (exec (.thumbPush false 3#8) (bases 0x03000004#32)) (.outOfRange 0x02FFFFFC#32),
     refuses (exec (.thumbStmia 1#3 1#8) (bases 0x04000000#32)) .ioWrite] = List.replicate 9 true := by decide
/-- Each clause at a boundary of its region. -/
theorem test_witness_writesByRegion :
    [((State.reset.store 0x03007FFE#32 .word 1#32) matches .error (.fault (.alignmentViolation _))),
     ((State.reset.store 0x03008000#32 .word 1#32) matches .error (.fault (.outOfRange _))),
     ((State.reset.store 0x00003FFC#32 .word 1#32) matches .error (.fault (.writeToReadOnly _))),
     ((State.reset.store 0x09FFFFFF#32 .byte 1#32) matches .error (.fault (.writeToReadOnly _))),
     ((State.reset.store 0x040003FC#32 .word 1#32) matches .error (.refuse .ioWrite)),
     ((State.reset.store 0x040003FE#32 .half 1#32) matches .error (.refuse .ioWrite)),
     ((State.reset.store 0x070003FF#32 .byte 1#32) matches .error (.refuse .videoByteWrite)),
     ((State.reset.store 0x070003FC#32 .word 1#32) matches .ok _),
     ((State.reset.store 0x0203FFFF#32 .byte 1#32) matches .ok _),
     ((State.reset.store 0x03007FFC#32 .word 1#32) matches .ok _)] = List.replicate 10 true := by decide
theorem test_witness_readAfterWrite :
    ((State.reset.store 0x02000000#32 .half 0xAABBCCDD#32) matches .ok _) = true := by decide
theorem test_witness_shifterForms :
    (31#5 : BitVec 5) ≠ 0#5 ∧ [0#8, 1#8, 31#8, 32#8, 33#8, 64#8, 255#8].map (fun (b : Byte) => b.toNat) =
      [0, 1, 31, 32, 33, 64, 255] := by decide
theorem test_witness_secondOperandForms : (14#4 : RegIdx) ≠ 15#4 := by decide
/-- A compare whose Rd is R15 returns: the flags are the SPSR's, not the compare's own (R261, R43). -/
theorem test_witness_armCompareResults :
    let q := inMode .irq (userPsr true) State.reset
    q.spsrNow = some (userPsr true) ∧ q.sbzCheck = false ∧ (0#4 : RegIdx) ≠ 15#4 ∧
    ends (exec (.armCmp .al 1#4 15#4 (.imm 0#4 1#8)) q) 0x08000004#32 true ⟨false, true, true, false⟩ [] [] = true ∧
    [exec (.armTst .al 1#4 15#4 (.imm 0#4 0#8)) State.reset,
     exec (.armCmn .al 1#4 15#4 (.regReg 2#4 .lsl 15#4)) State.reset].all (refuses · .noSpsr) = true ∧
    refuses (exec (.armTeq .al 1#4 15#4 (.imm 0#4 0#8)) (reference q)) .spsrCopy = true := by decide
/-- For the three statements about data processing: both operands R15. -/
theorem test_witness_dataProcessing :
    evaluate .al State.reset.flags = true ∧ State.reset.sbzCheck = false ∧ (0#4 : RegIdx) ≠ 15#4 ∧
      State.reset.profile = .arm7tdmi ∧ (reference State.reset).profile = .executorReference := by decide
theorem test_witness_dataProcessing_operand :
    operand2Value State.reset (.regReg 15#4 .lsl 0#4) = .ok ⟨0x0800000C#32, false⟩ := rfl
theorem test_witness_mrsReadsThePsr :
    State.reset.spsrNow = none ∧ State.reset.profile = .arm7tdmi ∧
      (inMode .fiq (userPsr true) State.reset).spsrNow = some (userPsr true) ∧
      (inMode .fiq (userPsr true) State.reset).sbzCheck = false := by decide
theorem test_witness_msrWritesTheFlags :
    (shifterImm 6#8 2#4 State.reset.flags.c).value = 0x60000000#32 ∧ State.reset.sbzCheck = false ∧
      (inMode .fiq (userPsr true) State.reset).spsrNow = some (userPsr true) ∧ State.reset.spsrNow = none := by decide
theorem test_witness_multiplies :
    evaluate .al State.reset.flags = true ∧ State.reset.sbzCheck = false ∧ ([0#4, 1#4, 2#4, 3#4] : List RegIdx).Nodup ∧
      (15#4 : RegIdx) ∉ [0#4, 1#4, 2#4, 3#4] ∧ (0#3 : LowIdx) ≠ 1#3 := by decide
/-- A write is allowed at the last word of WRAM2, and at a halfword of video memory. -/
theorem test_witness_writable : Writable 0x03007FFC#32 .word ∧ Writable 0x02000000#32 .byte ∧ Writable 0x06017FFE#32 .half :=
  ⟨⟨by decide, .wram2, by decide, by decide⟩, ⟨by decide, .wram1, by decide, by decide⟩,
    ⟨by decide, .vram, by decide, by decide⟩⟩
/-- A read may be made at the last word of the ROM, and of a halfword in IO. -/
theorem test_witness_readable :
    Readable 0x09FFFFFC#32 .word ∧ Readable 0x040003FC#32 .half ∧ Readable 0x00003FFF#32 .byte := by
  refine ⟨⟨by decide, ?_⟩, ⟨by decide, ?_⟩, ⟨by decide, ?_⟩⟩ <;> decide
theorem test_witness_swapResults :
    let s := start 32 0xE1010092 noFlags [(1#4, 0x03000000#32), (2#4, 0x11223344#32)]
    evaluate .al s.flags = true ∧ s.sbzCheck = false ∧ s.reg 1#4 = 0x03000000#32 ∧ Writable (s.reg 1#4) .word :=
  ⟨rfl, rfl, rfl, by decide, .wram2, by decide, by decide⟩
theorem test_witness_branchExchangeResults :
    evaluate .al State.reset.flags = true ∧ (14#4 : RegIdx) ≠ 15#4 ∧ State.reset.sbzCheck = false := by decide
/-- For the loads and the stores, R1 the base: LDR R0,[R1,#4]! and STR R0,[R1],#4, and LDR R0,[R15,#0]. -/
theorem test_witness_transfers :
    let s := start 32 0xE5B10004 noFlags [(1#4, 0x03000000#32)]
    evaluate .al s.flags = true ∧ s.profile = .arm7tdmi ∧ (1#4 : RegIdx) ≠ 15#4 ∧ (1#4 : RegIdx) ≠ 0#4 ∧
      Writable (s.reg 1#4) .word ∧ Writable (s.reg 1#4) .half ∧ Readable (s.reg 1#4 + 4#32) .word ∧
      Readable (s.pc + 8#32 + 0#32) .word := by
  refine ⟨rfl, rfl, by decide, by decide, ⟨by decide, .wram2, by decide, by decide⟩,
    ⟨by decide, .wram2, by decide, by decide⟩, ⟨by decide, ?_⟩, ⟨by decide, ?_⟩⟩ <;> decide
/-- For the three statements about LDM and STM, R1 the base, upwards; the list of the second holds R15. -/
theorem test_witness_block :
    let s := inMode .irq (userPsr false) (start 32 0xE8B1000C noFlags [(1#4, 0x03000000#32)])
    evaluate .al s.flags = true ∧ s.profile = .arm7tdmi ∧ s.spsrNow = some (userPsr false) ∧
      (0xC#16 : BitVec 16).getLsbD 1 = false ∧ (0x800C#16 : BitVec 16).getLsbD 15 = true ∧ (s.reg 1#4).toNat % 4 = 0 ∧
      rank 0x800C#16 15 = 2 ∧
      (∀ i < 16, (0x800C#16 : BitVec 16).getLsbD i = true →
        Readable (s.reg 1#4 + BitVec.ofNat 32 (4 * rank 0x800C#16 i)) .word) ∧
      (∀ i < 16, (0x800C#16 : BitVec 16).getLsbD i = true →
        Writable (s.reg 1#4 + BitVec.ofNat 32 (4 * rank 0x800C#16 i)) .word) := by
  have e : ∀ i < 16, (0x800C#16 : BitVec 16).getLsbD i = true → rank 0x800C#16 i = 0 ∨ rank 0x800C#16 i = 1 ∨
      rank 0x800C#16 i = 2 := by decide
  refine ⟨rfl, rfl, rfl, rfl, rfl, by decide, rfl, ?_, ?_⟩
  · intro i hi h
    rcases e i hi h with h | h | h <;> rw [h] <;> refine ⟨by decide, ?_⟩ <;> decide
  · intro i hi h
    rcases e i hi h with h | h | h <;> rw [h] <;> exact ⟨by decide, .wram2, by decide, by decide⟩
theorem test_witness_armBranchResults : evaluate .eq ⟨false, true, false, false⟩ = true := by decide
/-- For PUSH, from the top of WRAM2, and for POP, from its bottom: one word. -/
theorem test_witness_push_pop :
    rank ((1#8 : BitVec 8).setWidth 16) 8 + false.toNat = 1 ∧ rank ((0#8 : BitVec 8).setWidth 16) 8 + true.toNat = 1 ∧
      Writable (0x03008000#32 - BitVec.ofNat 32 (4 * 1) + BitVec.ofNat 32 (4 * 0)) .word ∧
      Readable (0x03000000#32 + BitVec.ofNat 32 (4 * 0)) .word := by
  refine ⟨by decide, by decide, ⟨by decide, .wram2, by decide, by decide⟩, ⟨by decide, ?_⟩⟩
  decide
theorem test_witness_thumbBlockResults :
    (4#8 : BitVec 8) ≠ 0#8 ∧ (4#8 : BitVec 8).getLsbD 1 = false ∧ rank ((4#8 : BitVec 8).setWidth 16) 8 = 1 ∧
      Writable (0x03000000#32 + BitVec.ofNat 32 (4 * 0)) .word ∧ Readable (0x03000000#32 + BitVec.ofNat 32 (4 * 0)) .word := by
  refine ⟨by decide, by decide, by decide, ⟨by decide, .wram2, by decide, by decide⟩, ⟨by decide, ?_⟩⟩
  decide
theorem test_witness_transferRefusals :
    evaluate .al State.reset.flags = true ∧ State.reset.sbzCheck = false ∧ (2#16 : BitVec 16).getLsbD 1 = true ∧
      (2#8 : BitVec 8).getLsbD 1 = true ∧ (1#4 : RegIdx) ≠ 15#4 := by decide
/-- The forms that meet these refusals in profile arm7tdmi alone, R15 in an LDM's list with S = 1 among them, and the
halfword forms with SBZ_CHECK = 1. -/
theorem test_witness_transferRefusals_forms :
    let q := inMode .irq (userPsr true) State.reset
    let z : State := { State.reset with sbzCheck := true }
    State.reset.profile = .arm7tdmi ∧ q.spsrNow ≠ none ∧
    [exec (.armLdm .al false true true true 1#4 2#16) State.reset, exec (.armLdm .al false true true true 1#4 0x8002#16) q,
     exec (.armStm .al true false true true 1#4 0x8002#16) State.reset].all (refuses · .baseInList) = true ∧
    [exec (.armLdrt .al true 1#4 1#4 (.imm 4#12)) State.reset, exec (.armStrbt .al true 15#4 0#4 (.imm 4#12)) State.reset,
     exec (.armLdrsh .al true true true 1#4 1#4 (.imm 4#8)) z,
     exec (.armStrh .al false true false 15#4 1#4 (.reg 0#4 2#4)) z].all (refuses · .writeBackConflict) = true := by decide
theorem test_witness_runEndsAtEndPcOrStop :
    goesOn (step (start 32 0xE3A00001 noFlags [])) = true ∧ State.reset.pc ≠ 0x08000004#32 ∧
      refuses (step (start 32 0xF0000000 noFlags [])) (.invalid .nvCondition) = true ∧
      faults (step { State.reset with pc := 1#32 }) (.alignmentViolation 1#32) = true := by decide

end Sys2Proof.Tests
end

section
/-! PROOFS. The state at reset and the block's address helpers (10_state.md R45, R46, R53; 70_reset_and_hazards.md
R641). -/

namespace Sys2Proof.Proofs

open Sys2Proof.Machine

/-! ### The state at reset -/

@[simp] theorem reset_regIn (m : Mode) (i : RegIdx) : State.reset.regIn m i = 0#32 :=
  Vector.getElem_replicate (physIndex m i).isLt

@[simp] theorem reset_spsr_get (k : Fin 5) : State.reset.spsr.get k = .initialSpsr :=
  Vector.getElem_replicate k.isLt

@[simp] theorem reset_mem_get (a : Nat) : Memory.get State.reset.mem a = none := rfl

/-- Settles O8: the vectors read as the value they replicate, and the empty memory is in its canonical form; the other
fields stand in the definition of `State.reset`. -/
theorem resetLeavesTheseValues : Obligations.ResetLeavesTheseValues :=
  have hregs : ∀ m i, i ≠ 15#4 → State.reset.regIn m i = 0#32 := fun m i _ => reset_regIn m i
  ⟨rfl, rfl, rfl, rfl, rfl, hregs, rfl, reset_spsr_get, rfl, rfl, reset_mem_get, Laws.reset_mem_wf⟩

/-! ### The address helpers -/

/-- Scaling a signed offset by 4 in the integers is shifting its sign extension left by 2. -/
theorem signExtend_shiftLeft_two {n : Nat} (w : Nat) (off : BitVec n) :
    off.signExtend w <<< 2 = BitVec.ofInt w (4 * off.toInt) := by
  have hfour : BitVec.twoPow w 2 = BitVec.ofInt w 4 := BitVec.eq_of_toNat_eq (by simp)
  calc off.signExtend w <<< 2
      = BitVec.ofInt w off.toInt * BitVec.twoPow w 2 := BitVec.shiftLeft_eq_mul_twoPow _ 2
    _ = BitVec.ofInt w (4 * off.toInt) := by rw [hfour, ← BitVec.ofInt_mul, Int.mul_comm]

/-- R46, ARM: the offset is a signed number of words. -/
theorem armBranchTarget_eq (addr : Word) (off : BitVec 24) :
    armBranchTarget addr off = addr + 8#32 + BitVec.ofInt 32 (4 * off.toInt) :=
  congrArg (addr + 8#32 + ·) (signExtend_shiftLeft_two 32 off)

/-- R46, THUMB: the offset is a signed number of bytes, of any width. -/
theorem thumbBranchTarget_eq (addr : Word) {n : Nat} (off : BitVec n) :
    thumbBranchTarget addr off = addr + 4#32 + BitVec.ofInt 32 off.toInt := rfl

/-- Settles O29: sign extension keeps the offset's integer value, and the shift by 2 of the ARM target multiplies it
by 4. -/
theorem addressHelpers : Obligations.AddressHelpers :=
  have hbase (addr : Word) : thumbPcBase addr = (addr + 4#32) &&& ~~~2#32 := rfl
  ⟨hbase, armBranchTarget_eq, fun addr off => thumbBranchTarget_eq addr off,
    fun addr off => thumbBranchTarget_eq addr off⟩

end Sys2Proof.Proofs
end

section
/-! PROOFS. What a step can do to memory (20_memory.md R71, R75): it makes data writes, each aligned and allowed, so the
memory's canonical form is kept. -/

namespace Sys2Proof.Proofs

open Sys2Proof.Machine Sys2Proof.Laws

/-! ### The writes of a step -/

/-- One data write: aligned, allowed at every byte, its bytes put into the list (R75, R80). -/
def DataWrite (m m' : List Host.Cell) : Prop :=
  ∃ (a v : Word) (w : Width), aligned a w = true ∧ checkWrite a w.bytes a w.bytes = .ok () ∧ m' = writeLe m a v w.bytes

/-- Some data writes, one after the other, or none. -/
abbrev DataWrites : List Host.Cell → List Host.Cell → Prop := Relation.ReflTransGen DataWrite

/-- An instruction that answers a state has changed memory by data writes alone. -/
def WritesOnly (s : State) (o : Out) : Prop := ∀ t, o = .next t → DataWrites s.mem t.mem

theorem dataWrites_of_eq {m m' : List Host.Cell} (h : m' = m) : DataWrites m m' := h ▸ .refl

theorem dataWrites_wf {m m' : List Host.Cell} (h : DataWrites m m') (hw : Memory.wf m = true) : Memory.wf m' = true := by
  induction h with
  | refl => exact hw
  | tail _ h ih =>
    obtain ⟨a, v, w, -, -, rfl⟩ := h
    exact wf_writeLe a v w.bytes ih

theorem store_dataWrite {s t : State} {a v : Word} {w : Width} (h : s.store a w v = .ok t) : DataWrite s.mem t.mem := by
  obtain ⟨ha, hc, rfl⟩ := store_ok h
  exact ⟨a, v, w, ha, hc, rfl⟩

@[simp] theorem storeOperand_mem (s : State) (m : Mode) (i : RegIdx) : (s.storeOperand m i).2.mem = s.mem := by
  rw [storeOperand_eq]

theorem storeMany_dataWrites {s t : State} {m : Mode} {a : Word} {is : List RegIdx} (h : s.storeMany m a is = .ok t) :
    DataWrites s.mem t.mem := by
  induction is generalizing s a with
  | nil => cases h; exact .refl
  | cons i rest ih =>
    rw [State.storeMany] at h
    split at h
    · cases h
    · next h1 =>
      have h1 := store_dataWrite h1
      rw [storeOperand_mem] at h1
      exact .head h1 (ih h)

theorem load_mem {s t : State} {a v : Word} {w : Width} (h : s.load a w = .ok (v, t)) : t.mem = s.mem := by
  rw [load_ok h]

theorem readMany_mem {s t : State} {a : Word} {n : Nat} {vs : List Word} (h : s.readMany a n = .ok (vs, t)) :
    t.mem = s.mem := by
  rw [(readMany_ok h).1]

theorem returnFromException_mem {s t : State} {a : Word} (h : s.returnFromException a = .ok t) : t.mem = s.mem := by
  obtain ⟨_, -, rfl⟩ := returnFromException_ok h
  rfl

/-! ### Rules that write no memory -/

theorem softwareInterrupt_mem {width : Word} {s t : State} (h : softwareInterrupt width s = .ok t) : t.mem = s.mem := by
  obtain ⟨_, -, h⟩ := bind_ok h
  cases h
  simp

theorem dataProcessing_mem {op : AluOp} {f : Bool} {rn rd : RegIdx} {op2 : Operand2} {s t : State}
    (h : dataProcessing op f rn rd op2 s = .ok t) : t.mem = s.mem := (dataProcessing_ok h).1

theorem moveFromPsr_mem {p : Bool} {rd : RegIdx} {sbz : BitVec 12} {s t : State} (h : moveFromPsr p rd sbz s = .ok t) :
    t.mem = s.mem := by
  obtain ⟨_, -, h⟩ := bind_ok h
  cases p
  all_goals
    obtain ⟨_, -, h⟩ := bind_ok h
    obtain ⟨_, -, h⟩ := bind_ok h
    cases h
    exact writeArm_mem _ _ _

theorem moveToPsr_mem {p : Bool} {sbo : BitVec 4} {src : MsrSource} {s t : State} (h : moveToPsr p sbo src s = .ok t) :
    t.mem = s.mem := by
  obtain ⟨_, -, h⟩ := bind_ok h
  obtain ⟨_, -, h⟩ := bind_ok h
  obtain ⟨_, -, h⟩ := bind_ok h
  obtain ⟨_, -, h⟩ := bind_ok h
  split at h
  · obtain ⟨_, -, h⟩ := bind_ok h
    cases h
    simp
  · cases h
    simp

theorem multiply_mem {acc f : Bool} {rd rn rs rm : RegIdx} {s t : State} (h : multiply acc f rd rn rs rm s = .ok t) :
    t.mem = s.mem := by
  obtain ⟨_, -, h⟩ := bind_ok h
  obtain ⟨_, -, h⟩ := bind_ok h
  cases h
  cases f <;> rfl

theorem longMultiply_mem {signed acc f : Bool} {rdHi rdLo rs rm : RegIdx} {s t : State}
    (h : longMultiply signed acc f rdHi rdLo rs rm s = .ok t) : t.mem = s.mem := by
  obtain ⟨_, -, h⟩ := bind_ok h
  cases h
  cases f <;> rfl

theorem branchExchange_mem {rn : RegIdx} {s t : State} (h : branchExchange rn s = .ok t) : t.mem = s.mem := by
  obtain ⟨_, -, h⟩ := bind_ok h
  cases h
  rfl

theorem thumbBranchExchange_mem {rs : RegIdx} {sbz : BitVec 3} {s t : State}
    (h : thumbBranchExchange rs sbz s = .ok t) : t.mem = s.mem := by
  obtain ⟨_, -, h⟩ := bind_ok h
  cases h
  rfl

theorem thumbMultiply_mem {rs rd : LowIdx} {s t : State} (h : thumbMultiply rs rd s = .ok t) : t.mem = s.mem := by
  obtain ⟨_, -, h⟩ := bind_ok h
  cases h
  rfl

theorem loadTransfer_mem {w : Width} {signed wb : Bool} {rn rd : RegIdx} {a ea : Word} {s t : State}
    (h : loadTransfer s w signed wb rn rd a ea = .ok t) : t.mem = s.mem := by
  obtain ⟨⟨v, s1⟩, h1, h⟩ := bind_ok h
  cases h
  simp [load_mem h1]

theorem loadMultiple_mem {p u sb w : Bool} {rn : RegIdx} {rl : BitVec 16} {s t : State}
    (h : loadMultiple p u sb w rn rl s = .ok t) : t.mem = s.mem := by
  obtain ⟨_, -, h⟩ := bind_ok h
  obtain ⟨⟨vs, s1⟩, h1, h⟩ := bind_ok h
  have h1 := readMany_mem h1
  dsimp only at h
  split at h
  · split at h
    · simpa [h1] using returnFromException_mem h
    · cases h
      simp [h1]
  · cases h
    simp [h1]

theorem thumbLoad_mem {w : Width} {signed : Bool} {a : Word} {rd : LowIdx} {s t : State}
    (h : thumbLoad w signed a rd s = .ok t) : t.mem = s.mem := by
  obtain ⟨⟨v, s1⟩, h1, h⟩ := bind_ok h
  cases h
  simp [load_mem h1]

theorem pop_mem {r : Bool} {rl : BitVec 8} {s t : State} (h : pop r rl s = .ok t) : t.mem = s.mem := by
  obtain ⟨_, -, h⟩ := bind_ok h
  obtain ⟨_, -, h⟩ := bind_ok h
  obtain ⟨⟨vs, s1⟩, h1, h⟩ := bind_ok h
  cases h
  cases r <;> simp [readMany_mem h1]

theorem thumbLoadMultiple_mem {rb : LowIdx} {rl : BitVec 8} {s t : State} (h : thumbLoadMultiple rb rl s = .ok t) :
    t.mem = s.mem := by
  obtain ⟨_, -, h⟩ := bind_ok h
  obtain ⟨⟨vs, s1⟩, h1, h⟩ := bind_ok h
  cases h
  simp [readMany_mem h1]

@[simp] theorem thumbAluWrite_mem (s : State) (rd : LowIdx) (r : AluResult) : (thumbAluWrite s rd r).mem = s.mem := by
  unfold thumbAluWrite
  split <;> rfl

@[simp] theorem thumbBranchIf_mem (c : Cond) (off : BitVec 9) (s : State) : (thumbBranchIf c off s).mem = s.mem := by
  unfold thumbBranchIf
  split <;> rfl

/-! ### Rules that write memory -/

/-- A store is its write to memory, then its write-back. -/
theorem storeTransfer_eq (s : State) (w : Width) (wb : Bool) (rn rd : RegIdx) (a ea : Word) :
    storeTransfer s w wb rn rd a ea =
      (s.storeOperand s.cpsr.mode rd).2.store a w (s.storeOperand s.cpsr.mode rd).1 >>= fun t =>
        .ok (t.writeBack wb rn ea).nextArm := rfl

theorem storeTransfer_dataWrites {w : Width} {wb : Bool} {rn rd : RegIdx} {a ea : Word} {s t : State}
    (h : storeTransfer s w wb rn rd a ea = .ok t) : DataWrites s.mem t.mem := by
  rw [storeTransfer_eq] at h
  obtain ⟨s2, h2, h⟩ := bind_ok h
  have h2 := store_dataWrite h2
  rw [storeOperand_mem] at h2
  cases h
  simpa using Relation.ReflTransGen.single h2

theorem transfer_dataWrites {load : Bool} {w : Width} {signed wb : Bool} {rn rd : RegIdx} {a ea : Word} {s t : State}
    (h : (if load then loadTransfer s w signed wb rn rd a ea else storeTransfer s w wb rn rd a ea) = .ok t) :
    DataWrites s.mem t.mem := by
  split at h
  · exact dataWrites_of_eq (loadTransfer_mem h)
  · exact storeTransfer_dataWrites h

theorem singleTransfer_dataWrites {load : Bool} {width : Width} {p u w : Bool} {rn rd : RegIdx} {off : Offset}
    {s t : State} (h : singleTransfer load width p u w rn rd off s = .ok t) : DataWrites s.mem t.mem := by
  obtain ⟨_, -, h⟩ := bind_ok h
  obtain ⟨_, -, h⟩ := bind_ok h
  obtain ⟨_, -, h⟩ := bind_ok h
  exact transfer_dataWrites h

theorem halfwordTransfer_dataWrites {load : Bool} {width : Width} {signed p u w : Bool} {rn rd : RegIdx}
    {off : HalfOffset} {s t : State} (h : halfwordTransfer load width signed p u w rn rd off s = .ok t) :
    DataWrites s.mem t.mem := by
  obtain ⟨_, -, h⟩ := bind_ok h
  obtain ⟨_, -, h⟩ := bind_ok h
  obtain ⟨_, -, h⟩ := bind_ok h
  obtain ⟨_, -, h⟩ := bind_ok h
  exact transfer_dataWrites h

theorem storeMultiple_dataWrites {p u sb w : Bool} {rn : RegIdx} {rl : BitVec 16} {s t : State}
    (h : storeMultiple p u sb w rn rl s = .ok t) : DataWrites s.mem t.mem := by
  obtain ⟨_, -, h⟩ := bind_ok h
  obtain ⟨s1, h1, h⟩ := bind_ok h
  cases h
  simpa using storeMany_dataWrites h1

theorem swap_dataWrites {w : Width} {rn rd : RegIdx} {sbz : BitVec 4} {rm : RegIdx} {s t : State}
    (h : swap w rn rd sbz rm s = .ok t) : DataWrites s.mem t.mem := by
  obtain ⟨_, -, h⟩ := bind_ok h
  obtain ⟨_, -, h⟩ := bind_ok h
  obtain ⟨⟨old, s1⟩, h1, h⟩ := bind_ok h
  obtain ⟨s2, h2, h⟩ := bind_ok h
  cases h
  have h2 := store_dataWrite h2
  rw [load_mem h1] at h2
  exact .single h2

theorem thumbStore_dataWrites {w : Width} {a : Word} {rd : LowIdx} {s t : State} (h : thumbStore w a rd s = .ok t) :
    DataWrites s.mem t.mem := by
  obtain ⟨s1, h1, h⟩ := bind_ok h
  have h1 := store_dataWrite h1
  cases h
  exact .single h1

theorem push_dataWrites {r : Bool} {rl : BitVec 8} {s t : State} (h : push r rl s = .ok t) : DataWrites s.mem t.mem := by
  obtain ⟨_, -, h⟩ := bind_ok h
  obtain ⟨_, -, h⟩ := bind_ok h
  obtain ⟨s1, h1, h⟩ := bind_ok h
  have h1 := storeMany_dataWrites h1
  cases h
  exact h1

theorem thumbStoreMultiple_dataWrites {rb : LowIdx} {rl : BitVec 8} {s t : State}
    (h : thumbStoreMultiple rb rl s = .ok t) : DataWrites s.mem t.mem := by
  obtain ⟨_, -, h⟩ := bind_ok h
  obtain ⟨s1, h1, h⟩ := bind_ok h
  have h1 := storeMany_dataWrites h1
  cases h
  exact h1

/-! ### Every instruction -/

theorem writesOnly_refused (s : State) (r : Refusal) : WritesOnly s (.refused r) := by
  rintro t ⟨⟩

theorem writesOnly_next {s t : State} (h : t.mem = s.mem) : WritesOnly s (.next t) := by
  rintro _ ⟨⟩
  exact dataWrites_of_eq h

theorem writesOnly_finish {s : State} {x : Except Stop State} (h : ∀ t, x = .ok t → DataWrites s.mem t.mem) :
    WritesOnly s (finish x) := fun t ht => h t (finish_next ht)

theorem writesOnly_finish_of_mem {s : State} {x : Except Stop State} (h : ∀ t, x = .ok t → t.mem = s.mem) :
    WritesOnly s (finish x) := writesOnly_finish fun t ht => dataWrites_of_eq (h t ht)

theorem writesOnly_conditional {c : Cond} {s : State} {x : Except Stop State}
    (h : ∀ t, x = .ok t → DataWrites s.mem t.mem) : WritesOnly s (conditional c s x) := by
  intro t ht
  obtain ⟨-, hx⟩ | ⟨-, rfl⟩ := conditional_next ht
  · exact h t hx
  · exact dataWrites_of_eq (nextArm_mem s)

theorem writesOnly_conditional_of_mem {c : Cond} {s : State} {x : Except Stop State}
    (h : ∀ t, x = .ok t → t.mem = s.mem) : WritesOnly s (conditional c s x) :=
  writesOnly_conditional fun t ht => dataWrites_of_eq (h t ht)

theorem writesOnly_undefinedTrap (r : Refusal) (width : Word) (s : State) : WritesOnly s (undefinedTrap r width s) := by
  unfold undefinedTrap
  split
  · exact writesOnly_refused s r
  · exact writesOnly_next (takeException_mem s _ _)

/-- Whatever the instruction, a next state differs in memory by aligned, allowed data writes alone. -/
theorem exec_writesOnly (i : Instr) (s : State) : WritesOnly s (exec i s) := by
  cases i with
  | armInvalidNvCondition | armInvalidSignedStore | armInvalidMsrFull | armInvalidPsrType | thumbInvalidHiAdd
  | thumbInvalidHiCmp | thumbInvalidHiMov | thumbInvalidBxH1 => exact writesOnly_refused s _
  | armUndefinedMultiply | armUndefinedSwap | armUndefinedTransfer | armUnsupportedDataTransfer
  | armUnsupportedOperation | thumbUndefined1011 | thumbUndefinedCond14 | thumbUndefined11101 =>
    exact writesOnly_undefinedTrap _ _ s
  | armAnd | armEor | armSub | armRsb | armAdd | armAdc | armSbc | armRsc | armTst | armTeq | armCmp | armCmn | armOrr
  | armMov | armBic | armMvn => exact writesOnly_conditional_of_mem fun t => dataProcessing_mem
  | armMul | armMla => exact writesOnly_conditional_of_mem fun t => multiply_mem
  | armUmull | armUmlal | armSmull | armSmlal => exact writesOnly_conditional_of_mem fun t => longMultiply_mem
  | armBx => exact writesOnly_conditional_of_mem fun t => branchExchange_mem
  | armMrs => exact writesOnly_conditional_of_mem fun t => moveFromPsr_mem
  | armMsr => exact writesOnly_conditional_of_mem fun t => moveToPsr_mem
  | armB | armBl => exact writesOnly_conditional_of_mem fun t h => by cases h; rfl
  | armSwi => exact writesOnly_conditional_of_mem fun t => softwareInterrupt_mem
  | armLdm => exact writesOnly_conditional_of_mem fun t => loadMultiple_mem
  | armStm => exact writesOnly_conditional fun t => storeMultiple_dataWrites
  | armSwp | armSwpb => exact writesOnly_conditional fun t => swap_dataWrites
  | armStrh | armLdrh | armLdrsb | armLdrsh => exact writesOnly_conditional fun t => halfwordTransfer_dataWrites
  | armStrt | armLdrt | armStrbt | armLdrbt | armStr | armLdr | armStrb | armLdrb =>
    exact writesOnly_conditional fun t => singleTransfer_dataWrites
  | thumbLslImm | thumbLsrImm | thumbAsrImm | thumbAddReg | thumbSubReg | thumbAddImm3 | thumbSubImm3 | thumbMovImm8
  | thumbCmpImm8 | thumbAddImm8 | thumbSubImm8 | thumbAnd | thumbEor | thumbLslReg | thumbLsrReg | thumbAsrReg
  | thumbAdc | thumbSbc | thumbRorReg | thumbTst | thumbNeg | thumbCmpReg | thumbCmn | thumbOrr | thumbBic | thumbMvn
  | thumbCmpHi => exact writesOnly_next (thumbAluWrite_mem s _ _)
  | thumbAddHi | thumbMovHi => exact writesOnly_next (writeThumb_mem s _ _)
  | thumbAddPc | thumbAddSp | thumbAdjustSp | thumbB | thumbBlHigh | thumbBlLow => exact writesOnly_next rfl
  | thumbBeq | thumbBne | thumbBcs | thumbBcc | thumbBmi | thumbBpl | thumbBvs | thumbBvc | thumbBhi | thumbBls
  | thumbBge | thumbBlt | thumbBgt | thumbBle => exact writesOnly_next (thumbBranchIf_mem _ _ s)
  | thumbMul => exact writesOnly_finish_of_mem fun t => thumbMultiply_mem
  | thumbBx => exact writesOnly_finish_of_mem fun t => thumbBranchExchange_mem
  | thumbSwi => exact writesOnly_finish_of_mem fun t => softwareInterrupt_mem
  | thumbLdrPc | thumbLdrReg | thumbLdrbReg | thumbLdrhReg | thumbLdsbReg | thumbLdshReg | thumbLdrImm | thumbLdrbImm
  | thumbLdrhImm | thumbLdrSp => exact writesOnly_finish_of_mem fun t => thumbLoad_mem
  | thumbPop => exact writesOnly_finish_of_mem fun t => pop_mem
  | thumbLdmia => exact writesOnly_finish_of_mem fun t => thumbLoadMultiple_mem
  | thumbStrReg | thumbStrbReg | thumbStrhReg | thumbStrImm | thumbStrbImm | thumbStrhImm | thumbStrSp =>
    exact writesOnly_finish fun t => thumbStore_dataWrites
  | thumbPush => exact writesOnly_finish fun t => push_dataWrites
  | thumbStmia => exact writesOnly_finish fun t => thumbStoreMultiple_dataWrites

/-- A step that answers has fetched and executed an instruction. -/
theorem step_next {s t : State} (h : step s = .next t) : ∃ i, s.fetch = .ok i ∧ exec i s = .next t := by
  unfold step at h
  split at h
  · cases finish_next h
  · next i hi => exact ⟨i, hi, h⟩

theorem step_writesOnly (s : State) : WritesOnly s (step s) := by
  intro t h
  obtain ⟨i, -, h⟩ := step_next h
  exact exec_writesOnly i s t h

/-- Settles O7: a step makes data writes alone, and each of them keeps the list of bytes in rising order. -/
theorem stepKeepsMemoryForm : Obligations.StepKeepsMemoryForm :=
  fun s t hs h => dataWrites_wf (step_writesOnly s t h) hs

end Sys2Proof.Proofs
end

section
/-! PROOFS. Fetch, and the read of what a write of the same width left (20_memory.md R76, R77, R84). -/

namespace Sys2Proof.Proofs

open Sys2Proof.Machine Sys2Proof.Laws

/-! ### Fetch -/

/-- An aligned fetch inside the ROM window reads the word there (R77). -/
theorem fetchAt_window (s : State) {t : Bool} {n : Nat} {a : Word} (hn : (if t then 2 else 4) = n)
    (ha : a.toNat % n = 0) (hlo : 0x08000000 ≤ a.toNat) (hhi : a.toNat + n ≤ 0x0A000000) :
    s.fetchAt t a = .ok (s.wordAt t a.toNat) := by
  subst hn
  cases t <;> simp_all [State.fetchAt, aligned, Width.bytes, inRomWindow]

theorem step_of_fetchAt {s : State} {e : Encoding} (h : s.fetchAt s.cpsr.thumb s.pc = .ok e) :
    step s = exec (decode e) s := by
  simp [step, State.fetch, h]

/-- Settles O5: in each state the fetch is the word at the pc, and `exec` runs what it decodes to. -/
theorem stepRunsTheDecodedInstruction : Obligations.StepRunsTheDecodedInstruction := by
  constructor
  · intro s ht ha hlo hhi
    refine step_of_fetchAt (e := .arm _) ?_
    rw [ht]
    exact fetchAt_window (n := 4) s rfl ha hlo (by omega)
  · intro s ht ha hlo hhi
    refine step_of_fetchAt (e := .thumb _) ?_
    rw [ht]
    exact fetchAt_window (n := 2) s rfl ha hlo (by omega)

/-! ### Read after write -/

/-- A store that answers begins in a region, and not in IO. -/
theorem store_region {s t : State} {a v : Word} {w : Width} (h : s.store a w v = .ok t) :
    ∃ r, regionOf a.toNat = some r ∧ r ≠ .io := by
  obtain ⟨-, hc, -⟩ := store_ok h
  obtain ⟨r, hr, -, -, hio⟩ := checkWrite_ok hc 0 (by cases w <;> decide)
  exact ⟨r, by simpa using hr, hio⟩

/-- Two neighbouring fields of a word, one above the other, are one field. -/
theorem setWidth_ushiftRight_append (v : Word) (k m n : Nat) :
    (v >>> (m + n)).setWidth k ++ (v >>> n).setWidth m = (v >>> n).setWidth (k + m) := by
  apply BitVec.eq_of_getLsbD_eq
  intro i hi
  simp only [BitVec.getLsbD_append, BitVec.getLsbD_setWidth, BitVec.getLsbD_ushiftRight]
  grind

/-- The bytes of a value, read little-endian, are its low bits. -/
theorem leValue_of_holds {t : State} {a : Nat} {w : Width} {v : Word} (h : Holds t a w.bytes v) :
    leValue t a w = (v.setWidth (8 * w.bytes)).setWidth 32 := by
  have h0 : t.byteAt a = (v >>> 0).setWidth 8 := h 0 (by cases w <;> decide)
  cases w with
  | byte =>
    rw [leValue, h0]
    rfl
  | half =>
    rw [leValue, h0, h 1 (by decide)]
    exact congrArg (BitVec.setWidth 32) (setWidth_ushiftRight_append v 8 8 0)
  | word =>
    have h32 : (v >>> 24).setWidth 8 ++ (v >>> 16).setWidth 8 = (v >>> 16).setWidth 16 :=
      setWidth_ushiftRight_append v 8 8 16
    have h321 : (v >>> 16).setWidth 16 ++ (v >>> 8).setWidth 8 = (v >>> 8).setWidth 24 :=
      setWidth_ushiftRight_append v 16 8 8
    rw [leValue, h0, h 1 (by decide), h 2 (by decide), h 3 (by decide), h32, h321,
      setWidth_ushiftRight_append v 24 8 0]
    exact BitVec.setWidth_eq _

/-- Keeping the low `n` bits of a word is masking them. -/
theorem setWidth_setWidth_eq_and (v : Word) {n : Nat} (hn : n ≤ 32) :
    (v.setWidth n).setWidth 32 = v &&& BitVec.ofNat 32 (2 ^ n - 1) := by
  have hp : 2 ^ n ≤ 2 ^ 32 := Nat.pow_le_pow_right (by decide) hn
  have hm : 2 ^ n - 1 < 2 ^ 32 := by omega
  have hlt : v.toNat % 2 ^ n < 2 ^ 32 := Nat.lt_of_le_of_lt (Nat.mod_le _ _) v.isLt
  apply BitVec.eq_of_toNat_eq
  rw [BitVec.toNat_setWidth, BitVec.toNat_setWidth, BitVec.toNat_and, BitVec.toNat_ofNat, Nat.mod_eq_of_lt hm,
    Nat.and_two_pow_sub_one_eq_mod, Nat.mod_eq_of_lt hlt]

/-- Settles O23: the bytes written are the bytes read, and an address that may be written lies outside IO, where a read
changes nothing. -/
theorem readAfterWrite : Obligations.ReadAfterWrite := by
  intro s t a v w h
  obtain ⟨r, hr, hio⟩ := store_region h
  have ha : a.toNat % w.bytes = 0 := by simpa [aligned] using (store_ok h).1
  rw [load_memory hr hio ha, leValue_of_holds (store_holds h),
    setWidth_setWidth_eq_and v (by cases w <;> decide)]
  cases w <;> rfl

end Sys2Proof.Proofs
end

section
/-! PROOFS. Data reads and writes: what each region gives, and that every instruction that reads or writes data stops as
its access does (20_memory.md R71 to R83; the transfers of 42, 43 and 46). -/

namespace Sys2Proof.Proofs

open Sys2Proof.Machine Sys2Proof.Laws

/-! ### Rules that pass their checks -/

theorem conditional_pass {c : Cond} {s : State} (x : Except Stop State) (hc : evaluate c s.flags = true) :
    conditional c s x = finish x := if_pos hc

theorem isReference_arm7tdmi {s : State} (h : s.profile = .arm7tdmi) : s.isReference = false := by
  simp [State.isReference, h]

theorem offsetValue_of {s : State} {off : Offset} {o : Word}
    (h : match off with
      | .imm off12 => o = off12.setWidth 32
      | .reg rm ty n => rm ≠ 15#4 ∧ o = (shifterReg (s.reg rm) ty (.imm n) s.flags.c).value) :
    offsetValue s off = .ok o := by
  cases off with
  | imm off12 => exact congrArg Except.ok h.symm
  | reg rm ty n => exact (if_neg h.1).trans (congrArg Except.ok h.2.symm)

theorem halfOffsetValue_of {s : State} {off : HalfOffset} {o : Word}
    (h : match off with
      | .imm off8 => o = off8.setWidth 32
      | .reg sbz rm => o = s.reg rm ∧ rm ≠ 15#4 ∧ (s.sbzCheck = false ∨ sbz = 0#4)) :
    halfOffsetValue s off = .ok o ∧ (s.sbzCheck && halfOffsetBadSbz off) = false := by
  cases off with
  | imm off8 => exact ⟨congrArg Except.ok h.symm, Bool.and_false _⟩
  | reg sbz rm =>
    obtain ⟨rfl, hrm, hz⟩ := h
    exact ⟨if_neg hrm, by rcases hz with hz | hz <;> simp [hz, halfOffsetBadSbz]⟩

/-- Write-back is refused for no base but R15 and the register transferred. -/
theorem writeBack_allowed {p w : Bool} {rn rd : RegIdx} (h : p = false ∨ w = true → rn ≠ 15#4 ∧ rn ≠ rd) :
    (writesBack p w && (rn == 15#4 || rn == rd)) = false := by
  cases hb : writesBack p w with
  | false => rfl
  | true =>
    obtain ⟨h1, h2⟩ := h (by simpa [writesBack] using hb)
    simp [h1, h2]

theorem storePc_allowed {load : Bool} {rd : RegIdx} {s : State}
    (h : load = true ∨ rd ≠ 15#4 ∨ s.profile = .arm7tdmi) : (!load && rd == 15#4 && s.isReference) = false := by
  rcases h with h | h | h
  · simp [h]
  · simp [h]
  · simp [isReference_arm7tdmi h]

/-- The address of an ARM transfer (R330, R340). -/
def transferAddress (s : State) (p u : Bool) (rn : RegIdx) (o : Word) : Word :=
  if p then effectiveAddress u (s.readReg 8#32 rn) o else s.readReg 8#32 rn

/-- The access of a single data transfer that passes its checks. -/
theorem conditional_singleTransfer {c : Cond} {load : Bool} {width : Width} {p u w : Bool} {rn rd : RegIdx}
    {off : Offset} {s : State} {o : Word} (hc : evaluate c s.flags = true)
    (hT : p = true ∨ w = false ∨ s.profile = .arm7tdmi) (hwb : p = false ∨ w = true → rn ≠ 15#4 ∧ rn ≠ rd)
    (hst : load = true ∨ rd ≠ 15#4 ∨ s.profile = .arm7tdmi) (ho : offsetValue s off = .ok o) :
    conditional c s (singleTransfer load width p u w rn rd off s) =
      finish (if load then loadTransfer s width false (writesBack p w) rn rd (transferAddress s p u rn o)
          (effectiveAddress u (s.readReg 8#32 rn) o)
        else storeTransfer s width (writesBack p w) rn rd (transferAddress s p u rn o)
          (effectiveAddress u (s.readReg 8#32 rn) o)) := by
  have hT' : (!p && w && s.isReference) = false := by
    rcases hT with h | h | h
    · simp [h]
    · simp [h]
    · simp [isReference_arm7tdmi h]
  rw [conditional_pass _ hc, singleTransfer_eq hT' (writeBack_allowed hwb) (storePc_allowed hst) ho]
  rfl

/-- The access of a halfword or signed transfer that passes its checks. -/
theorem conditional_halfwordTransfer {c : Cond} {load : Bool} {width : Width} {signed p u w : Bool} {rn rd : RegIdx}
    {off : HalfOffset} {s : State} {o : Word} (hc : evaluate c s.flags = true) (hT : p = true ∨ w = false)
    (hwb : p = false ∨ w = true → rn ≠ 15#4 ∧ rn ≠ rd) (hst : load = true ∨ rd ≠ 15#4 ∨ s.profile = .arm7tdmi)
    (ho : halfOffsetValue s off = .ok o ∧ (s.sbzCheck && halfOffsetBadSbz off) = false) :
    conditional c s (halfwordTransfer load width signed p u w rn rd off s) =
      finish (if load then loadTransfer s width signed (writesBack p w) rn rd (transferAddress s p u rn o)
          (effectiveAddress u (s.readReg 8#32 rn) o)
        else storeTransfer s width (writesBack p w) rn rd (transferAddress s p u rn o)
          (effectiveAddress u (s.readReg 8#32 rn) o)) := by
  have hT' : (!p && w) = false := by rcases hT with h | h <;> simp [h]
  rw [conditional_pass _ hc, halfwordTransfer_eq ho.2 hT' (writeBack_allowed hwb) (storePc_allowed hst) ho.1]
  rfl

/-- A swap that passes its checks is a read, then a write. -/
theorem swap_eq {width : Width} {rn rd : RegIdx} {sbz : BitVec 4} {rm : RegIdx} {s : State}
    (hz : s.sbzCheck = false ∨ sbz = 0#4) (hn : rn ≠ 15#4) (hd : rd ≠ 15#4) (hm : rm ≠ 15#4) (hnd : rn ≠ rd)
    (hnm : rn ≠ rm) :
    swap width rn rd sbz rm s =
      s.load (s.reg rn) width >>= fun p => p.2.store (s.reg rn) width (s.reg rm) >>= fun t =>
        .ok (t.setReg rd p.1).nextArm := by
  have hz' : (s.sbzCheck && sbz != 0#4) = false := by rcases hz with h | h <;> simp [h]
  have hf : (rn == 15#4 || rd == 15#4 || rm == 15#4 || rn == rd || rn == rm) = false := by
    simp [hn, hd, hm, hnd, hnm]
  rw [swap, State.checkSbz, hz', hf]
  rfl

/-- A block transfer that passes its other checks is stopped by a misaligned base alone. -/
theorem blockChecks_eq {s : State} {load sbit w : Bool} {rn : RegIdx} {rl : BitVec 16} (hl : rl ≠ 0#16)
    (hn : rn ≠ 15#4) (hw : w = true → rl.getLsbD rn.toNat = false)
    (hu : sbit = true ∨ (load = false ∧ rl.getLsbD 15 = true) → s.profile = .arm7tdmi)
    (hs : sbit = true → load = true → rl.getLsbD 15 = true → s.spsrNow ≠ none) :
    blockChecks s load sbit w rn rl = faultIf (!aligned (s.reg rn) .word) (.alignmentViolation (s.reg rn)) := by
  have h1 : (rl == 0#16) = false := by simpa using hl
  have h2 : (sbit && s.isReference) = false := by
    cases sbit with
    | false => rfl
    | true => exact isReference_arm7tdmi (hu (.inl rfl))
  have h3 : (sbit && load && rl.getLsbD 15 && s.spsrNow.isNone) = false := by
    by_contra h
    simp only [Bool.not_eq_false, Bool.and_eq_true, Option.isNone_iff_eq_none] at h
    obtain ⟨⟨⟨h1, h2⟩, h3⟩, h4⟩ := h
    exact hs h1 h2 h3 h4
  have h4 : (rn == 15#4) = false := by simpa using hn
  have h5 : (w && rl.getLsbD rn.toNat) = false := by
    cases w with
    | false => rfl
    | true => exact hw rfl
  have h6 : (!load && rl.getLsbD 15 && s.isReference) = false := by
    by_contra h
    simp only [Bool.not_eq_false, Bool.and_eq_true, Bool.not_eq_true'] at h
    rw [isReference_arm7tdmi (hu (.inr h.1))] at h
    cases h.2
  rw [blockChecks, h1, h2, h3, h4, h5, h6]
  rfl

theorem thumbBlockChecks_eq {s : State} {rb : LowIdx} {rl : BitVec 8} (hl : rl ≠ 0#8)
    (hb : rl.getLsbD rb.toNat = false) :
    thumbBlockChecks s rb rl = faultIf (!aligned (s.reg (low rb)) .word) (.alignmentViolation (s.reg (low rb))) := by
  have h1 : (rl == 0#8) = false := by simpa using hl
  rw [thumbBlockChecks, h1, hb]
  rfl

/-! ### How one access stops a rule -/

theorem stopsAsRead_singleTransfer {c : Cond} {width : Width} {p u w : Bool} {rn rd : RegIdx} {off : Offset}
    {s : State} {o : Word} (hc : evaluate c s.flags = true) (hT : p = true ∨ w = false ∨ s.profile = .arm7tdmi)
    (hwb : p = false ∨ w = true → rn ≠ 15#4 ∧ rn ≠ rd) (ho : offsetValue s off = .ok o) :
    StopsAsRead (conditional c s (singleTransfer true width p u w rn rd off s)) (transferAddress s p u rn o) width := by
  rw [conditional_singleTransfer hc hT hwb (.inl rfl) ho]
  exact stopsAsRead_load s _ width _

theorem stopsAsWrite_singleTransfer {c : Cond} {width : Width} {p u w : Bool} {rn rd : RegIdx} {off : Offset}
    {s : State} {o : Word} (hc : evaluate c s.flags = true) (hT : p = true ∨ w = false ∨ s.profile = .arm7tdmi)
    (hwb : p = false ∨ w = true → rn ≠ 15#4 ∧ rn ≠ rd) (hst : rd ≠ 15#4 ∨ s.profile = .arm7tdmi)
    (ho : offsetValue s off = .ok o) :
    StopsAsWrite (conditional c s (singleTransfer false width p u w rn rd off s)) (transferAddress s p u rn o)
      width := by
  rw [conditional_singleTransfer hc hT hwb (.inr hst) ho]
  exact stopsAsWrite_store _ _ _ width _

theorem stopsAsRead_halfwordTransfer {c : Cond} {width : Width} {signed p u w : Bool} {rn rd : RegIdx}
    {off : HalfOffset} {s : State} {o : Word} (hc : evaluate c s.flags = true) (hT : p = true ∨ w = false)
    (hwb : p = false ∨ w = true → rn ≠ 15#4 ∧ rn ≠ rd)
    (ho : halfOffsetValue s off = .ok o ∧ (s.sbzCheck && halfOffsetBadSbz off) = false) :
    StopsAsRead (conditional c s (halfwordTransfer true width signed p u w rn rd off s)) (transferAddress s p u rn o)
      width := by
  rw [conditional_halfwordTransfer hc hT hwb (.inl rfl) ho]
  exact stopsAsRead_load s _ width _

theorem stopsAsWrite_halfwordTransfer {c : Cond} {width : Width} {signed p u w : Bool} {rn rd : RegIdx}
    {off : HalfOffset} {s : State} {o : Word} (hc : evaluate c s.flags = true) (hT : p = true ∨ w = false)
    (hwb : p = false ∨ w = true → rn ≠ 15#4 ∧ rn ≠ rd) (hst : rd ≠ 15#4 ∨ s.profile = .arm7tdmi)
    (ho : halfOffsetValue s off = .ok o ∧ (s.sbzCheck && halfOffsetBadSbz off) = false) :
    StopsAsWrite (conditional c s (halfwordTransfer false width signed p u w rn rd off s)) (transferAddress s p u rn o)
      width := by
  rw [conditional_halfwordTransfer hc hT hwb (.inr hst) ho]
  exact stopsAsWrite_store _ _ _ width _

theorem stopsAsRead_thumbLoad (s : State) (w : Width) (signed : Bool) (a : Word) (rd : LowIdx) :
    StopsAsRead (finish (thumbLoad w signed a rd s)) a w := stopsAsRead_load s a w _

theorem stopsAsWrite_thumbStore (s : State) (w : Width) (a : Word) (rd : LowIdx) :
    StopsAsWrite (finish (thumbStore w a rd s)) a w := stopsAsWrite_store s a _ w _

theorem stopsAsRead_swap {c : Cond} {width : Width} {rn rd : RegIdx} {sbz : BitVec 4} {rm : RegIdx} {s : State}
    (hc : evaluate c s.flags = true) (hz : s.sbzCheck = false ∨ sbz = 0#4) (hn : rn ≠ 15#4) (hd : rd ≠ 15#4)
    (hm : rm ≠ 15#4) (hnd : rn ≠ rd) (hnm : rn ≠ rm) :
    StopsAsRead (conditional c s (swap width rn rd sbz rm s)) (s.reg rn) width := by
  rw [conditional_pass _ hc, swap_eq hz hn hd hm hnd hnm]
  exact stopsAsRead_load s _ width _

/-- Once a swap's address can be read, its write decides. -/
theorem stopsAsWrite_swap {c : Cond} {width : Width} {rn rd : RegIdx} {sbz : BitVec 4} {rm : RegIdx} {s : State}
    (hc : evaluate c s.flags = true) (hz : s.sbzCheck = false ∨ sbz = 0#4) (hn : rn ≠ 15#4) (hd : rd ≠ 15#4)
    (hm : rm ≠ 15#4) (hnd : rn ≠ rd) (hnm : rn ≠ rm) (hr : Readable (s.reg rn) width) :
    StopsAsWrite (conditional c s (swap width rn rd sbz rm s)) (s.reg rn) width := by
  obtain ⟨v, t, hl, -, -⟩ := load_readable s hr
  rw [conditional_pass _ hc, swap_eq hz hn hd hm hnd hnm, hl]
  exact stopsAsWrite_store t _ _ width _

/-! ### How a block of accesses stops a rule -/

theorem aligned_word_iff {a : Word} : aligned a .word = true ↔ a.toNat % 4 = 0 := by
  simp [aligned, Width.bytes]

/-- A misaligned base stops a block rule; from an aligned one the rule goes on. -/
theorem faultIf_misaligned {α : Type} (base : Word) (x : Except Stop α) :
    (faultIf (!aligned base .word) (.alignmentViolation base) >>= fun _ => x) =
      if base.toNat % 4 = 0 then x else .error (.fault (.alignmentViolation base)) := by
  split
  · next h =>
    rw [aligned_word_iff.mpr h]
    rfl
  · next h =>
    rw [Bool.eq_false_iff.mpr (mt aligned_word_iff.mp h)]
    rfl

theorem stopsAsReads_readMany (s : State) (base start : Word) (n : Nat) (f : List Word × State → Except Stop State) :
    StopsAsReads (finish (faultIf (!aligned base .word) (.alignmentViolation base) >>= fun _ =>
      s.readMany start n >>= f)) base start n := by
  rw [faultIf_misaligned]
  constructor
  · intro h
    rw [if_neg h]
    rfl
  · intro h k hk hr
    rw [if_pos h]
    exact stopsAsRead_readMany s hk hr f

theorem stopsAsWrites_storeMany (s : State) (m : Mode) (base start : Word) (is : List RegIdx)
    (f : State → Except Stop State) :
    StopsAsWrites (finish (faultIf (!aligned base .word) (.alignmentViolation base) >>= fun _ =>
      s.storeMany m start is >>= f)) base start is.length := by
  rw [faultIf_misaligned]
  constructor
  · intro h
    rw [if_neg h]
    rfl
  · intro h k hk hw
    rw [if_pos h]
    exact stopsAsWrite_storeMany s m hk hw f

theorem stopsAsReads_loadMultiple {s : State} {p u sb w : Bool} {rn : RegIdx} {rl : BitVec 16}
    (hb : blockChecks s true sb w rn rl = faultIf (!aligned (s.reg rn) .word) (.alignmentViolation (s.reg rn))) :
    StopsAsReads (finish (loadMultiple p u sb w rn rl s)) (s.reg rn) (blockStart p u (s.reg rn) (rank rl 16))
      (rank rl 16) := by
  rw [loadMultiple, hb, ← regList_length]
  exact stopsAsReads_readMany s _ _ _ _

theorem stopsAsWrites_storeMultiple {s : State} {p u sb w : Bool} {rn : RegIdx} {rl : BitVec 16}
    (hb : blockChecks s false sb w rn rl = faultIf (!aligned (s.reg rn) .word) (.alignmentViolation (s.reg rn))) :
    StopsAsWrites (finish (storeMultiple p u sb w rn rl s)) (s.reg rn) (blockStart p u (s.reg rn) (rank rl 16))
      (rank rl 16) := by
  rw [storeMultiple, hb, ← regList_length]
  exact stopsAsWrites_storeMany s _ _ _ _ _

theorem stopsAsReads_pop (s : State) (r : Bool) {rl : BitVec 8} {n : Nat}
    (hn : n = rank (rl.setWidth 16) 8 + r.toNat) (h0 : n ≠ 0) :
    StopsAsReads (finish (pop r rl s)) (s.reg 13#4) (s.reg 13#4) n := by
  have hlen : (regList (rl.setWidth 16)).length + (if r then 1 else 0) = n := by
    rw [hn, rank_regs]
    cases r <;> rfl
  have he : (n == 0) = false := by simpa using h0
  rw [pop, hlen, he]
  exact stopsAsReads_readMany s _ _ _ _

theorem stopsAsWrites_push (s : State) (r : Bool) {rl : BitVec 8} {n : Nat}
    (hn : n = rank (rl.setWidth 16) 8 + r.toNat) (h0 : n ≠ 0) :
    StopsAsWrites (finish (push r rl s)) (s.reg 13#4) (s.reg 13#4 - BitVec.ofNat 32 (4 * n)) n := by
  have hlen : (regList (rl.setWidth 16) ++ if r then [14#4] else []).length = n := by
    rw [hn, ← rank_regs, List.length_append]
    cases r <;> rfl
  have he : (regList (rl.setWidth 16) ++ if r then [14#4] else []).isEmpty = false := by
    rw [← Bool.not_eq_true, List.isEmpty_iff_length_eq_zero, hlen]
    exact h0
  rw [push, he]
  subst hlen
  exact stopsAsWrites_storeMany s _ _ _ _ _

theorem stopsAsReads_thumbLoadMultiple (s : State) {rb : LowIdx} {rl : BitVec 8} (hl : rl ≠ 0#8)
    (hb : rl.getLsbD rb.toNat = false) :
    StopsAsReads (finish (thumbLoadMultiple rb rl s)) (s.reg (low rb)) (s.reg (low rb)) (rank (rl.setWidth 16) 8) := by
  rw [thumbLoadMultiple, thumbBlockChecks_eq hl hb, ← rank_regs]
  exact stopsAsReads_readMany s _ _ _ _

theorem stopsAsWrites_thumbStoreMultiple (s : State) {rb : LowIdx} {rl : BitVec 8} (hl : rl ≠ 0#8)
    (hb : rl.getLsbD rb.toNat = false) :
    StopsAsWrites (finish (thumbStoreMultiple rb rl s)) (s.reg (low rb)) (s.reg (low rb))
      (rank (rl.setWidth 16) 8) := by
  rw [thumbStoreMultiple, thumbBlockChecks_eq hl hb, ← rank_regs]
  exact stopsAsWrites_storeMany s _ _ _ _ _

/-! ### Data reads -/

/-- A read that answers gives a value of its width. -/
theorem load_bound {s t : State} {a v : Word} {w : Width} (h : s.load a w = .ok (v, t)) :
    v.toNat < 2 ^ (8 * w.bytes) := by
  rw [State.load, if_pos (load_aligned h)] at h
  exact readLe_bound (by cases w <;> decide) h

theorem extend_unsigned (w : Width) (v : Word) : extend false w v = v := by
  cases w <;> rfl

/-- Bit 7 of a signed byte fills the bits above it (R81, R343). -/
theorem extend_signed_byte {v : Word} (h : v.toNat < 2 ^ 8) :
    extend true .byte v = if v.getLsbD 7 then v + 0xFFFFFF00#32 else v := by
  have hm : (v.setWidth 8).msb = v.getLsbD 7 := by simp [BitVec.msb_eq_getLsbD_last]
  rw [← hm]
  exact signExtend_fits (by decide) rfl h

/-- Bit 15 of a signed halfword fills the bits above it (R81, R344). -/
theorem extend_signed_half {v : Word} (h : v.toNat < 2 ^ 16) :
    extend true .half v = if v.getLsbD 15 then v + 0xFFFF0000#32 else v := by
  have hm : (v.setWidth 16).msb = v.getLsbD 15 := by simp [BitVec.msb_eq_getLsbD_last]
  rw [← hm]
  exact signExtend_fits (by decide) rfl h

/-- Settles O21: the regions and a load are as their laws say, and every rule that passes its checks begins with its
load or its run of loads. -/
theorem dataReads : Obligations.DataReads := by
  refine ⟨fun a => ?regions, fun w v hv => ⟨extend_unsigned w v, ?signed⟩, fun s a w => ?loads, ?single, ?half, ?swap,
    ?thumb, ?ldm, fun s r rl => stopsAsReads_pop s r rfl,
    fun s rb rl hl hb => stopsAsReads_thumbLoadMultiple s hl hb⟩
  case regions =>
    exact ⟨regionOf_iff.trans (and_iff_right (Nat.zero_le a)), regionOf_iff, regionOf_iff, regionOf_iff, regionOf_iff,
      regionOf_iff, regionOf_iff, regionOf_iff⟩
  case signed =>
    cases w with
    | byte => exact extend_signed_byte hv
    | half => exact extend_signed_half hv
    | word => rfl
  case loads =>
    refine ⟨load_misaligned s, load_outside s, fun ha r hr hio => load_memory hr hio ha, fun ha hr =>
      ⟨fun he => ?_, load_pastIo s ha hr⟩⟩
    obtain ⟨v, hl, hk⟩ := load_io s ha hr he
    exact ⟨v, hl, load_bound hl, hk⟩
  case single =>
    intro s c p u w rn rd off o hc ho base ea a
    have ho := offsetValue_of ho
    refine ⟨fun hT hwb => ?_, fun hp hn hd => ?_⟩
    · have hT := hT.imp_right (Or.inl (b := s.profile = .arm7tdmi))
      exact ⟨stopsAsRead_singleTransfer hc hT hwb ho, stopsAsRead_singleTransfer hc hT hwb ho⟩
    · have hwb := fun _ : false = false ∨ true = true => And.intro hn hd
      exact ⟨stopsAsRead_singleTransfer hc (.inr (.inr hp)) hwb ho,
        stopsAsRead_singleTransfer hc (.inr (.inr hp)) hwb ho⟩
  case half =>
    intro s c p u w rn rd off o hc ho base ea a hT hwb
    have ho := halfOffsetValue_of ho
    exact ⟨stopsAsRead_halfwordTransfer hc hT hwb ho, stopsAsRead_halfwordTransfer hc hT hwb ho,
      stopsAsRead_halfwordTransfer hc hT hwb ho⟩
  case swap =>
    intro s c rn rd sbz rm hc hz hn hd hm hnd hnm
    exact ⟨stopsAsRead_swap hc hz hn hd hm hnd hnm, stopsAsRead_swap hc hz hn hd hm hnd hnm⟩
  case thumb =>
    intro s ro rb rd b a
    exact ⟨stopsAsRead_thumbLoad .., stopsAsRead_thumbLoad .., stopsAsRead_thumbLoad .., stopsAsRead_thumbLoad ..,
      stopsAsRead_thumbLoad .., fun off => ⟨stopsAsRead_thumbLoad .., stopsAsRead_thumbLoad ..⟩,
      fun off => stopsAsRead_thumbLoad .., fun off => stopsAsRead_thumbLoad .., fun off => stopsAsRead_thumbLoad ..⟩
  case ldm =>
    intro s c p u sb w rn rl hc hl hn hw hs base size start
    have hu : sb = true ∨ (true = false ∧ rl.getLsbD 15 = true) → s.profile = .arm7tdmi := by
      rintro (h | ⟨⟨⟩, -⟩)
      exact (hs h).1
    have hb := blockChecks_eq hl hn hw hu fun h _ => (hs h).2
    have h := stopsAsReads_loadMultiple (p := p) (u := u) hb
    rw [blockStart_eq, ← conditional_pass _ hc] at h
    exact h

/-! ### Data writes -/

theorem finish_eq_fault {x : Except Stop State} {f : Fault} : finish x = .fault f ↔ x = .error (.fault f) := by
  rcases x with (_ | _) | _ <;> simp [finish]

theorem finish_eq_refused {x : Except Stop State} {r : Refusal} : finish x = .refused r ↔ x = .error (.refuse r) := by
  rcases x with (_ | _) | _ <;> simp [finish]

/-- A write that may not be made stops as a rule that is that write alone. -/
theorem stopsAsWrite_finish_store (s : State) (a v : Word) (w : Width) : StopsAsWrite (finish (s.store a w v)) a w := by
  rw [← bind_pure (s.store a w v)]
  exact stopsAsWrite_store s a v w pure

/-- Settles O22: a store is as its laws say, and every rule that passes its checks begins with its store or its run of
stores; a swap's store follows its load. -/
theorem writesByRegion : Obligations.WritesByRegion := by
  refine ⟨fun s a v w => ?stores, ?single, ?half, ?swap, ?thumb, ?stm, fun s r rl => stopsAsWrites_push s r rfl,
    fun s rb rl hl hb => stopsAsWrites_thumbStoreMultiple s hl hb⟩
  case stores =>
    obtain ⟨hmis, hregion⟩ := stopsAsWrite_finish_store s a v w
    refine ⟨fun h => finish_eq_fault.mp (hmis h), fun ha => ?_⟩
    obtain ⟨hout, hin⟩ := hregion ha
    refine ⟨fun h => finish_eq_fault.mp (hout h), fun r hr => ?_⟩
    obtain ⟨hro, hio, hvideo⟩ := hin r hr
    refine ⟨fun h => finish_eq_fault.mp (hro h), fun h => finish_eq_refused.mp (hio h),
      fun h hw => finish_eq_refused.mp (hvideo h hw), fun hw => ?_⟩
    have hs := store_writable s (v := v) ⟨ha, r, hr, hw⟩
    exact ⟨_, hs, store_holds hs, store_sameOutside hs, rfl, rfl, rfl, rfl, rfl⟩
  case single =>
    intro s c p u w rn rd off o hc hst ho base ea a
    have ho := offsetValue_of ho
    refine ⟨fun hT hwb => ?_, fun hp hn hd => ?_⟩
    · have hT := hT.imp_right (Or.inl (b := s.profile = .arm7tdmi))
      exact ⟨stopsAsWrite_singleTransfer hc hT hwb hst ho, stopsAsWrite_singleTransfer hc hT hwb hst ho⟩
    · have hwb := fun _ : false = false ∨ true = true => And.intro hn hd
      exact ⟨stopsAsWrite_singleTransfer hc (.inr (.inr hp)) hwb hst ho,
        stopsAsWrite_singleTransfer hc (.inr (.inr hp)) hwb hst ho⟩
  case half =>
    intro s c p u w rn rd off o hc hst ho base ea a hT hwb
    exact stopsAsWrite_halfwordTransfer hc hT hwb hst (halfOffsetValue_of ho)
  case swap =>
    intro s c rn rd sbz rm hc hz hn hd hm hnd hnm
    exact ⟨stopsAsWrite_swap hc hz hn hd hm hnd hnm, stopsAsWrite_swap hc hz hn hd hm hnd hnm⟩
  case thumb =>
    intro s ro rb rd b a
    exact ⟨stopsAsWrite_thumbStore .., stopsAsWrite_thumbStore .., stopsAsWrite_thumbStore ..,
      fun off => stopsAsWrite_thumbStore .., fun off => stopsAsWrite_thumbStore ..,
      fun off => stopsAsWrite_thumbStore .., fun off => stopsAsWrite_thumbStore ..⟩
  case stm =>
    intro s c p u sb w rn rl hc hl hn hw hu base size start
    have hb := blockChecks_eq hl hn hw (fun h => hu (h.imp_right And.right)) fun _ h => absurd h Bool.false_ne_true
    have h := stopsAsWrites_storeMultiple (p := p) (u := u) hb
    rw [blockStart_eq, ← conditional_pass _ hc] at h
    exact h

end Sys2Proof.Proofs
end

section
/-! PROOFS. The fields of a word, and each encoding's format field by field (30_encoding.md sections 3 and 5). -/

namespace Sys2Proof.Proofs

open Sys2Proof.Machine Sys2Proof.Laws
open BitVec (allOnes)

/-! ### Fields -/

section Fields
variable {n m k l : Nat}

theorem field_field {lo b : Nat} (w : BitVec n) (h : b + l ≤ k) : field (field w lo k) b l = field w (lo + b) l := by
  ext i hi
  have : b + i < k := by omega
  simp [this, Nat.add_assoc]

theorem getLsbD_field {lo i : Nat} (w : BitVec n) (h : i < k) : (field w lo k).getLsbD i = w.getLsbD (lo + i) := by
  simp [h]

/-- A value laid out as two parts is read part by part; every encoding is such a layout. -/
theorem append_eq_iff {a : BitVec n} {b : BitVec m} {w : BitVec (n + m)} :
    a ++ b = w ↔ a = field w m n ∧ b = field w 0 m := by
  constructor
  · rintro rfl
    exact ⟨BitVec.extractLsb'_append_eq_left.symm, BitVec.extractLsb'_append_eq_right.symm⟩
  · rintro ⟨rfl, rfl⟩
    exact BitVec.extractLsb'_append_extractLsb'

theorem field_eq_append_iff {lo : Nat} {w : BitVec k} {a : BitVec n} {b : BitVec m} :
    field w lo (n + m) = a ++ b ↔ field w (lo + m) n = a ∧ field w lo m = b := by
  rw [eq_comm, append_eq_iff, field_field _ (by omega), field_field _ (by omega), Nat.add_zero, eq_comm,
    eq_comm (a := b)]

theorem field_one_eq_bit_iff {i : Nat} {w : BitVec n} {b : Bool} : field w i 1 = bit b ↔ w.getLsbD i = b := by
  have h : field w i 1 = bit (w.getLsbD i) := by
    ext j hj
    simp [Nat.lt_one_iff.mp hj]
  rw [h]
  exact BitVec.ofBool_eq_iff_eq

/-- A mask and its pattern are tested part by part (R190). -/
theorem append_and_eq_iff {w : BitVec (n + m)} {a c : BitVec n} {b d : BitVec m} :
    (a ++ b) &&& w = c ++ d ↔ a &&& field w m n = c ∧ b &&& field w 0 m = d := by
  rw [eq_comm, append_eq_iff, eq_comm, eq_comm (a := d)]
  simp only [field, BitVec.extractLsb'_and, BitVec.extractLsb'_append_eq_left, BitVec.extractLsb'_append_eq_right]

/-- What a field's value says of a narrower field inside it. -/
theorem subfield {lo b : Nat} {w : BitVec n} {v : BitVec k} (hw : field w lo k = v) (h : b + l ≤ k) :
    field w (lo + b) l = field v b l := by
  rw [← hw, field_field w h]

theorem getLsbD_of_field {lo b : Nat} {w : BitVec n} {v : BitVec k} (hw : field w lo k = v) (h : b < k) :
    w.getLsbD (lo + b) = v.getLsbD b := by
  rw [← hw, getLsbD_field w h]

/-- A mask with one run of ones tests one field. -/
theorem mask_field_iff {a lo : Nat} {w : BitVec (a + l + lo)} {v : BitVec l} :
    (w &&& (0#a ++ allOnes l ++ 0#lo) == 0#a ++ v ++ 0#lo) = true ↔ field w lo l = v := by
  rw [beq_iff_eq, BitVec.and_comm, append_and_eq_iff, append_and_eq_iff]
  simp only [BitVec.zero_and, BitVec.allOnes_and, true_and, and_true, field_field w (show 0 + l ≤ a + l by omega),
    Nat.add_zero]

theorem scaled_append_zero (x : BitVec n) : scaled (x ++ 0#k) k = true :=
  beq_iff_eq.2 BitVec.extractLsb'_append_eq_right

/-- A scaled offset is its high field with zeros below. -/
theorem append_zero_of_scaled {off : BitVec (n + k)} (hs : scaled off k = true) : field off k n ++ 0#k = off :=
  append_eq_iff.2 ⟨rfl, (eq_of_beq hs).symm⟩

end Fields

/-! ### Codes of a few bits -/

theorem bitVec_two_cases (x : BitVec 2) : x = 0#2 ∨ x = 1#2 ∨ x = 2#2 ∨ x = 3#2 := by
  revert x; decide

theorem bitVec_three_cases (x : BitVec 3) :
    x = 0#3 ∨ x = 1#3 ∨ x = 2#3 ∨ x = 3#3 ∨ x = 4#3 ∨ x = 5#3 ∨ x = 6#3 ∨ x = 7#3 := by
  revert x; decide

theorem bitVec_four_cases (x : BitVec 4) :
    x = 0#4 ∨ x = 1#4 ∨ x = 2#4 ∨ x = 3#4 ∨ x = 4#4 ∨ x = 5#4 ∨ x = 6#4 ∨ x = 7#4 ∨ x = 8#4 ∨ x = 9#4 ∨ x = 10#4 ∨
      x = 11#4 ∨ x = 12#4 ∨ x = 13#4 ∨ x = 14#4 ∨ x = 15#4 := by
  revert x; decide

@[simp] theorem condOf_code (c : Cond) : condOf c.code = some c := by cases c <;> rfl

theorem code_of_condOf {x : BitVec 4} {c : Cond} (h : condOf x = some c) : x = c.code := by
  revert x; cases c <;> decide

theorem condOf_eq_none_iff {x : BitVec 4} : condOf x = none ↔ x = 15#4 := by
  revert x; decide

@[simp] theorem shiftTypeOf_code (t : ShiftType) : shiftTypeOf t.code = t := by cases t <;> rfl

@[simp] theorem code_shiftTypeOf (x : BitVec 2) : (shiftTypeOf x).code = x := by revert x; decide

/-! ### The ARM formats (R111, R122 to R130) -/

section Arm
variable {w : Word} {c : Cond}

theorem encodeDp_eq_iff {c op s rn rd op2 w} : encodeDp c op s rn rd op2 = w ↔
    field w 28 4 = c.code ∧ field w 26 2 = 0#2 ∧ w.getLsbD 25 = op2.isImm ∧ field w 21 4 = op ∧ w.getLsbD 20 = s ∧
      field w 16 4 = rn ∧ field w 12 4 = rd ∧ field w 0 12 = op2.bits := by
  unfold encodeDp
  repeat rw [append_eq_iff]
  simp only [field_field, field_one_eq_bit_iff, Nat.reduceLeDiff, Nat.reduceAdd, and_assoc,
    eq_comm (b := field w _ _)]

theorem encodeMultiply_eq_iff {c k s hi lo rs rm w} : encodeMultiply c k s hi lo rs rm = w ↔
    field w 28 4 = c.code ∧ field w 21 7 = k ∧ w.getLsbD 20 = s ∧ field w 16 4 = hi ∧ field w 12 4 = lo ∧
      field w 8 4 = rs ∧ field w 4 4 = 9#4 ∧ field w 0 4 = rm := by
  unfold encodeMultiply
  repeat rw [append_eq_iff]
  simp only [field_field, field_one_eq_bit_iff, Nat.reduceLeDiff, Nat.reduceAdd, and_assoc,
    eq_comm (b := field w _ _)]

theorem encodeSwap_eq_iff {c b rn rd sbz rm w} : encodeSwap c b rn rd sbz rm = w ↔
    field w 28 4 = c.code ∧ field w 23 5 = 2#5 ∧ w.getLsbD 22 = b ∧ field w 20 2 = 0#2 ∧ field w 16 4 = rn ∧
      field w 12 4 = rd ∧ field w 8 4 = sbz ∧ field w 4 4 = 9#4 ∧ field w 0 4 = rm := by
  unfold encodeSwap
  repeat rw [append_eq_iff]
  simp only [field_field, field_one_eq_bit_iff, Nat.reduceLeDiff, Nat.reduceAdd, and_assoc,
    eq_comm (b := field w _ _)]

theorem encodeHalfword_eq_iff {c p u wb l sh rn rd off w} : encodeHalfword c p u wb l sh rn rd off = w ↔
    field w 28 4 = c.code ∧ field w 25 3 = 0#3 ∧ w.getLsbD 24 = p ∧ w.getLsbD 23 = u ∧ w.getLsbD 22 = off.isImm ∧
      w.getLsbD 21 = wb ∧ w.getLsbD 20 = l ∧ field w 16 4 = rn ∧ field w 12 4 = rd ∧ field w 8 4 = off.high ∧
      w.getLsbD 7 = true ∧ field w 5 2 = sh ∧ w.getLsbD 4 = true ∧ field w 0 4 = off.low := by
  unfold encodeHalfword
  change _ ++ bit true ++ sh ++ bit true ++ off.low = w ↔ _
  repeat rw [append_eq_iff]
  simp only [field_field, field_one_eq_bit_iff, Nat.reduceLeDiff, Nat.reduceAdd, and_assoc,
    eq_comm (b := field w _ _)]

theorem encodeSingle_eq_iff {c p u b wb l rn rd off w} : encodeSingle c p u b wb l rn rd off = w ↔
    field w 28 4 = c.code ∧ field w 26 2 = 1#2 ∧ w.getLsbD 25 = off.isReg ∧ w.getLsbD 24 = p ∧ w.getLsbD 23 = u ∧
      w.getLsbD 22 = b ∧ w.getLsbD 21 = wb ∧ w.getLsbD 20 = l ∧ field w 16 4 = rn ∧ field w 12 4 = rd ∧
      field w 0 12 = off.bits := by
  unfold encodeSingle
  repeat rw [append_eq_iff]
  simp only [field_field, field_one_eq_bit_iff, Nat.reduceLeDiff, Nat.reduceAdd, and_assoc,
    eq_comm (b := field w _ _)]

theorem encodeBlock_eq_iff {c p u s wb l rn rlist w} : encodeBlock c p u s wb l rn rlist = w ↔
    field w 28 4 = c.code ∧ field w 25 3 = 4#3 ∧ w.getLsbD 24 = p ∧ w.getLsbD 23 = u ∧ w.getLsbD 22 = s ∧
      w.getLsbD 21 = wb ∧ w.getLsbD 20 = l ∧ field w 16 4 = rn ∧ field w 0 16 = rlist := by
  unfold encodeBlock
  repeat rw [append_eq_iff]
  simp only [field_field, field_one_eq_bit_iff, Nat.reduceLeDiff, Nat.reduceAdd, and_assoc,
    eq_comm (b := field w _ _)]

theorem field_eq_regImm_iff {rm : RegIdx} {ty : ShiftType} {amount : BitVec 5} :
    field w 0 12 = (amount ++ ty.code ++ 0#1 ++ rm : BitVec 12) ↔
      field w 7 5 = amount ∧ field w 5 2 = ty.code ∧ w.getLsbD 4 = false ∧ field w 0 4 = rm := by
  rw [eq_comm]
  change _ ++ bit false ++ rm = _ ↔ _
  repeat rw [append_eq_iff]
  simp only [field_field, field_one_eq_bit_iff, Nat.reduceLeDiff, Nat.reduceAdd, and_assoc,
    eq_comm (b := field w _ _)]

theorem field_eq_regReg_iff {rm rs : RegIdx} {ty : ShiftType} :
    field w 0 12 = (rs ++ 0#1 ++ ty.code ++ 1#1 ++ rm : BitVec 12) ↔
      field w 8 4 = rs ∧ w.getLsbD 7 = false ∧ field w 5 2 = ty.code ∧ w.getLsbD 4 = true ∧ field w 0 4 = rm := by
  rw [eq_comm]
  change _ ++ bit false ++ _ ++ bit true ++ rm = _ ↔ _
  repeat rw [append_eq_iff]
  simp only [field_field, field_one_eq_bit_iff, Nat.reduceLeDiff, Nat.reduceAdd, and_assoc,
    eq_comm (b := field w _ _)]

theorem field_eq_rotatedImm_iff {rot : BitVec 4} {imm8 : BitVec 8} :
    field w 0 12 = (rot ++ imm8 : BitVec 12) ↔ field w 8 4 = rot ∧ field w 0 8 = imm8 :=
  field_eq_append_iff (n := 4) (m := 8)

theorem encode_mrs_eq_iff {i p rd sbz} : encode (.armMrs c i p rd sbz) = .arm w ↔
    field w 28 4 = c.code ∧ field w 26 2 = 0#2 ∧ w.getLsbD 25 = i ∧ field w 23 2 = 2#2 ∧ w.getLsbD 22 = p ∧
      field w 16 6 = 15#6 ∧ field w 12 4 = rd ∧ field w 0 12 = sbz := by
  rw [encode, Encoding.arm.injEq]
  repeat rw [append_eq_iff]
  simp only [field_field, field_one_eq_bit_iff, Nat.reduceLeDiff, Nat.reduceAdd, and_assoc,
    eq_comm (b := field w _ _)]

theorem encode_msr_eq_iff {p sbo src} : encode (.armMsr c p sbo src) = .arm w ↔
    field w 28 4 = c.code ∧ field w 26 2 = 0#2 ∧ w.getLsbD 25 = src.isImm ∧ field w 23 2 = 2#2 ∧ w.getLsbD 22 = p ∧
      field w 16 6 = 40#6 ∧ field w 12 4 = sbo ∧ field w 0 12 = src.bits := by
  rw [encode, Encoding.arm.injEq]
  repeat rw [append_eq_iff]
  simp only [field_field, field_one_eq_bit_iff, Nat.reduceLeDiff, Nat.reduceAdd, and_assoc,
    eq_comm (b := field w _ _)]

/-- A word of group 5 or 7 whose encoding is its condition, a 4-bit opcode and a 24-bit field. -/
theorem encodeOffset_eq_iff {op : BitVec 4} {x : BitVec 24} : c.code ++ op ++ x = w ↔
    field w 28 4 = c.code ∧ field w 24 4 = op ∧ field w 0 24 = x := by
  repeat rw [append_eq_iff]
  simp only [field_field, Nat.reduceLeDiff, Nat.reduceAdd, and_assoc, eq_comm (b := field w _ _)]

end Arm

/-! ### The THUMB formats (R150 to R169) -/

section Thumb
variable {h : Half}

theorem encodeThree_eq_iff {k : BitVec 7} {x y z : BitVec 3} : encodeThree k x y z = h ↔
    field h 9 7 = k ∧ field h 6 3 = x ∧ field h 3 3 = y ∧ field h 0 3 = z := by
  unfold encodeThree
  repeat rw [append_eq_iff]
  simp only [field_field, Nat.reduceLeDiff, Nat.reduceAdd, and_assoc, eq_comm (b := field h _ _)]

theorem encodeT4_eq_iff {op : BitVec 4} {rs rd : LowIdx} : encodeT4 op rs rd = h ↔
    field h 10 6 = 0x10#6 ∧ field h 6 4 = op ∧ field h 3 3 = rs ∧ field h 0 3 = rd := by
  unfold encodeT4
  repeat rw [append_eq_iff]
  simp only [field_field, Nat.reduceLeDiff, Nat.reduceAdd, and_assoc, eq_comm (b := field h _ _)]

theorem encodeT5_eq_iff {op : BitVec 2} {rs : RegIdx} {h1 : BitVec 1} {low : BitVec 3} : encodeT5 op rs h1 low = h ↔
    field h 10 6 = 0x11#6 ∧ field h 8 2 = op ∧ field h 7 1 = h1 ∧ field h 3 4 = rs ∧ field h 0 3 = low := by
  unfold encodeT5
  repeat rw [append_eq_iff]
  simp only [field_field, Nat.reduceLeDiff, Nat.reduceAdd, and_assoc, eq_comm (b := field h _ _)]

theorem encodeT16_eq_iff {op : BitVec 4} {off : BitVec 9} : encodeT16 op off = h ↔
    field h 12 4 = 0xD#4 ∧ field h 8 4 = op ∧ field h 0 8 = field off 1 8 := by
  unfold encodeT16
  repeat rw [append_eq_iff]
  simp only [field_field, Nat.reduceLeDiff, Nat.reduceAdd, and_assoc, eq_comm (b := field h _ _)]

theorem encodeFive_eq_iff {k f : BitVec 5} {rb rd : LowIdx} : encodeFive k f rb rd = h ↔
    field h 11 5 = k ∧ field h 6 5 = f ∧ field h 3 3 = rb ∧ field h 0 3 = rd := by
  unfold encodeFive
  repeat rw [append_eq_iff]
  simp only [field_field, Nat.reduceLeDiff, Nat.reduceAdd, and_assoc, eq_comm (b := field h _ _)]

theorem encodeByte_eq_iff {k : BitVec 5} {rd : LowIdx} {x : BitVec 8} : encodeByte k rd x = h ↔
    field h 11 5 = k ∧ field h 8 3 = rd ∧ field h 0 8 = x := by
  unfold encodeByte
  repeat rw [append_eq_iff]
  simp only [field_field, Nat.reduceLeDiff, Nat.reduceAdd, and_assoc, eq_comm (b := field h _ _)]

theorem append_bit_append_eq_iff {k : BitVec 7} {b : Bool} {x : BitVec 8} : k ++ bit b ++ x = h ↔
    field h 9 7 = k ∧ h.getLsbD 8 = b ∧ field h 0 8 = x := by
  repeat rw [append_eq_iff]
  simp only [field_field, field_one_eq_bit_iff, Nat.reduceLeDiff, Nat.reduceAdd, and_assoc,
    eq_comm (b := field h _ _)]

theorem adjustSp_eq_iff {s : Bool} {x : BitVec 7} : 0xB0#8 ++ bit s ++ x = h ↔
    field h 8 8 = 0xB0#8 ∧ h.getLsbD 7 = s ∧ field h 0 7 = x := by
  repeat rw [append_eq_iff]
  simp only [field_field, field_one_eq_bit_iff, Nat.reduceLeDiff, Nat.reduceAdd, and_assoc,
    eq_comm (b := field h _ _)]

end Thumb

end Sys2Proof.Proofs
end

section
/-! PROOFS. The words and halfwords that are no instruction: which fields each well-formedness test fixes
(30_encoding.md R101, R104 to R109, R141, R142, R190). -/

namespace Sys2Proof.Proofs

open Sys2Proof.Machine Sys2Proof.Laws
open BitVec (allOnes)

/-! ### ARM words -/

section Arm
variable {w : Word}

theorem matches_nvCondition : matches32 w 0xF0000000#32 0xF0000000#32 = true ↔ field w 28 4 = 15#4 :=
  mask_field_iff (a := 0) (lo := 28) (v := 15#4)

theorem matches_bx : matches32 w 0x0FFFFFF0#32 0x012FFF10#32 = true ↔ field w 4 24 = 0x12FFF1#24 :=
  mask_field_iff (a := 4) (lo := 4) (v := 0x12FFF1#24)

theorem matches_coprocessorTransfer : matches32 w 0x0E000000#32 0x0C000000#32 = true ↔ field w 25 3 = 6#3 :=
  mask_field_iff (a := 4) (lo := 25) (v := 6#3)

theorem matches_multiplySpace : matches32 w 0x0E000090#32 0x00000090#32 = true ↔
    field w 25 3 = 0#3 ∧ w.getLsbD 7 = true ∧ w.getLsbD 4 = true := by
  rw [beq_iff_eq, BitVec.and_comm]
  change (0#4 ++ allOnes 3 ++ 0#17 ++ allOnes 1 ++ 0#2 ++ allOnes 1 ++ 0#4 : Word) &&& w =
    0#4 ++ 0#3 ++ 0#17 ++ bit true ++ 0#2 ++ bit true ++ 0#4 ↔ _
  repeat rw [append_and_eq_iff]
  simp only [BitVec.allOnes_and, BitVec.zero_and, true_and, and_true, field_field, field_one_eq_bit_iff,
    Nat.reduceLeDiff, Nat.reduceAdd, and_assoc]

theorem matches_undefinedMultiply : matches32 w 0x0FC000F0#32 0x00400090#32 = true ↔
    field w 25 3 = 0#3 ∧ field w 23 2 = 0#2 ∧ w.getLsbD 22 = true ∧
      w.getLsbD 7 = true ∧ field w 5 2 = 0#2 ∧ w.getLsbD 4 = true := by
  rw [beq_iff_eq, BitVec.and_comm]
  change (0#4 ++ allOnes 3 ++ allOnes 2 ++ allOnes 1 ++ 0#14 ++ allOnes 1 ++ allOnes 2 ++ allOnes 1 ++
      0#4 : Word) &&& w =
    0#4 ++ 0#3 ++ 0#2 ++ bit true ++ 0#14 ++ bit true ++ 0#2 ++ bit true ++ 0#4 ↔ _
  repeat rw [append_and_eq_iff]
  simp only [BitVec.allOnes_and, BitVec.zero_and, true_and, and_true, field_field, field_one_eq_bit_iff,
    Nat.reduceLeDiff, Nat.reduceAdd, and_assoc]

theorem matches_swapSpace : matches32 w 0x0F0000F0#32 0x01000090#32 = true ↔
    field w 25 3 = 0#3 ∧ w.getLsbD 24 = true ∧ w.getLsbD 7 = true ∧ field w 5 2 = 0#2 ∧ w.getLsbD 4 = true := by
  rw [beq_iff_eq, BitVec.and_comm]
  change (0#4 ++ allOnes 3 ++ allOnes 1 ++ 0#16 ++ allOnes 1 ++ allOnes 2 ++ allOnes 1 ++ 0#4 : Word) &&& w =
    0#4 ++ 0#3 ++ bit true ++ 0#16 ++ bit true ++ 0#2 ++ bit true ++ 0#4 ↔ _
  repeat rw [append_and_eq_iff]
  simp only [BitVec.allOnes_and, BitVec.zero_and, true_and, and_true, field_field, field_one_eq_bit_iff,
    Nat.reduceLeDiff, Nat.reduceAdd, and_assoc]

theorem matches_swap {b : Bool} : matches32 w 0x0FF000F0#32
    (0#4 ++ 0#3 ++ 2#2 ++ bit b ++ 0#2 ++ 0#12 ++ bit true ++ 0#2 ++ bit true ++ 0#4) = true ↔
    field w 25 3 = 0#3 ∧ field w 23 2 = 2#2 ∧ w.getLsbD 22 = b ∧ field w 20 2 = 0#2 ∧
      w.getLsbD 7 = true ∧ field w 5 2 = 0#2 ∧ w.getLsbD 4 = true := by
  rw [beq_iff_eq, BitVec.and_comm]
  change (0#4 ++ allOnes 3 ++ allOnes 2 ++ allOnes 1 ++ allOnes 2 ++ 0#12 ++ allOnes 1 ++ allOnes 2 ++
      allOnes 1 ++ 0#4 : Word) &&& w =
    0#4 ++ 0#3 ++ 2#2 ++ bit b ++ 0#2 ++ 0#12 ++ bit true ++ 0#2 ++ bit true ++ 0#4 ↔ _
  repeat rw [append_and_eq_iff]
  simp only [BitVec.allOnes_and, BitVec.zero_and, true_and, and_true, field_field, field_one_eq_bit_iff,
    Nat.reduceLeDiff, Nat.reduceAdd, and_assoc]

theorem matches_signedStore : matches32 w 0x0E1000D0#32 0x000000D0#32 = true ↔
    field w 25 3 = 0#3 ∧ w.getLsbD 20 = false ∧ w.getLsbD 7 = true ∧ w.getLsbD 6 = true ∧ w.getLsbD 4 = true := by
  rw [beq_iff_eq, BitVec.and_comm]
  change (0#4 ++ allOnes 3 ++ 0#4 ++ allOnes 1 ++ 0#12 ++ allOnes 1 ++ allOnes 1 ++ 0#1 ++ allOnes 1 ++
      0#4 : Word) &&& w =
    0#4 ++ 0#3 ++ 0#4 ++ bit false ++ 0#12 ++ bit true ++ bit true ++ 0#1 ++ bit true ++ 0#4 ↔ _
  repeat rw [append_and_eq_iff]
  simp only [BitVec.allOnes_and, BitVec.zero_and, true_and, and_true, field_field, field_one_eq_bit_iff,
    Nat.reduceLeDiff, Nat.reduceAdd, and_assoc]

theorem matches_transferType {t : BitVec 6} : matches32 w 0x0DBF0000#32
    (0#4 ++ 0#2 ++ 0#1 ++ 2#2 ++ 0#1 ++ t ++ 0#16) = true ↔
    field w 26 2 = 0#2 ∧ field w 23 2 = 2#2 ∧ field w 16 6 = t := by
  rw [beq_iff_eq, BitVec.and_comm]
  change (0#4 ++ allOnes 2 ++ 0#1 ++ allOnes 2 ++ 0#1 ++ allOnes 6 ++ 0#16 : Word) &&& w =
    0#4 ++ 0#2 ++ 0#1 ++ 2#2 ++ 0#1 ++ t ++ 0#16 ↔ _
  repeat rw [append_and_eq_iff]
  simp only [BitVec.allOnes_and, BitVec.zero_and, true_and, and_true, field_field,
    Nat.reduceLeDiff, Nat.reduceAdd, and_assoc]

theorem matches_psrSpace : matches32 w 0x0D900000#32 0x01000000#32 = true ↔
    field w 26 2 = 0#2 ∧ field w 23 2 = 2#2 ∧ w.getLsbD 20 = false := by
  rw [beq_iff_eq, BitVec.and_comm]
  change (0#4 ++ allOnes 2 ++ 0#1 ++ allOnes 2 ++ 0#2 ++ allOnes 1 ++ 0#20 : Word) &&& w =
    0#4 ++ 0#2 ++ 0#1 ++ 2#2 ++ 0#2 ++ bit false ++ 0#20 ↔ _
  repeat rw [append_and_eq_iff]
  simp only [BitVec.allOnes_and, BitVec.zero_and, true_and, and_true, field_field, field_one_eq_bit_iff,
    Nat.reduceLeDiff, Nat.reduceAdd, and_assoc]

theorem matches_undefinedTransfer : matches32 w 0x0E000010#32 0x06000010#32 = true ↔
    field w 25 3 = 3#3 ∧ w.getLsbD 4 = true := by
  rw [beq_iff_eq, BitVec.and_comm]
  change (0#4 ++ allOnes 3 ++ 0#20 ++ allOnes 1 ++ 0#4 : Word) &&& w =
    0#4 ++ 3#3 ++ 0#20 ++ bit true ++ 0#4 ↔ _
  repeat rw [append_and_eq_iff]
  simp only [BitVec.allOnes_and, BitVec.zero_and, true_and, and_true, field_field, field_one_eq_bit_iff,
    Nat.reduceLeDiff, Nat.reduceAdd]

theorem matches_coprocessorOperation : matches32 w 0x0F000000#32 0x0E000000#32 = true ↔
    field w 25 3 = 7#3 ∧ w.getLsbD 24 = false := by
  rw [beq_iff_eq, BitVec.and_comm]
  change (0#4 ++ allOnes 3 ++ allOnes 1 ++ 0#24 : Word) &&& w =
    0#4 ++ 7#3 ++ bit false ++ 0#24 ↔ _
  repeat rw [append_and_eq_iff]
  simp only [BitVec.allOnes_and, BitVec.zero_and, true_and, and_true, field_field, field_one_eq_bit_iff,
    Nat.reduceLeDiff, Nat.reduceAdd]

theorem condOk_iff : condOk w = true ↔ ∃ c : Cond, field w 28 4 = c.code := by
  have hnv : condOk w = true ↔ field w 28 4 ≠ 15#4 := by
    rw [condOk, Bool.not_eq_true', ← Bool.not_eq_true, matches_nvCondition]
  rw [hnv, ne_eq, ← condOf_eq_none_iff]
  constructor
  · intro h
    obtain ⟨c, hc⟩ := Option.ne_none_iff_exists'.1 h
    exact ⟨c, code_of_condOf hc⟩
  · rintro ⟨c, hc⟩
    simp [hc]

theorem wellFormed_undefinedMultiply_iff : (Instr.armUndefinedMultiply w).WellFormed = true ↔
    (∃ c : Cond, field w 28 4 = c.code) ∧ field w 25 3 = 0#3 ∧ field w 23 2 = 0#2 ∧ w.getLsbD 22 = true ∧
      w.getLsbD 7 = true ∧ field w 5 2 = 0#2 ∧ w.getLsbD 4 = true := by
  simp only [Instr.WellFormed, Bool.and_eq_true, condOk_iff, matches_undefinedMultiply]

theorem wellFormed_undefinedSwap_iff : (Instr.armUndefinedSwap w).WellFormed = true ↔
    (∃ c : Cond, field w 28 4 = c.code) ∧ (field w 25 3 = 0#3 ∧ w.getLsbD 24 = true ∧ w.getLsbD 7 = true ∧
      field w 5 2 = 0#2 ∧ w.getLsbD 4 = true) ∧ ¬ (field w 23 2 = 2#2 ∧ field w 20 2 = 0#2) := by
  have hswp : matches32 w 0x0FF000F0#32 0x01000090#32 = true ↔ _ := matches_swap (b := false)
  have hswpb : matches32 w 0x0FF000F0#32 0x01400090#32 = true ↔ _ := matches_swap (b := true)
  simp only [Instr.WellFormed, Bool.and_eq_true, condOk_iff, matches_swapSpace, and_assoc]
  rw [Bool.not_eq_true', Bool.not_eq_true', ← Bool.not_eq_true, ← Bool.not_eq_true, hswp, hswpb]
  clear hswp hswpb
  cases w.getLsbD 22 <;> tauto

theorem wellFormed_signedStore_iff : (Instr.armInvalidSignedStore w).WellFormed = true ↔
    (∃ c : Cond, field w 28 4 = c.code) ∧ field w 25 3 = 0#3 ∧ w.getLsbD 20 = false ∧ w.getLsbD 7 = true ∧
      w.getLsbD 6 = true ∧ w.getLsbD 4 = true := by
  simp only [Instr.WellFormed, Bool.and_eq_true, condOk_iff, matches_signedStore]

/-- Outside the data-processing words of group 0 with w[7] = w[4] = 1 (R104). -/
theorem multiplySpace_eq_false_iff (h26 : field w 26 2 = 0#2) : inMultiplySpace w = false ↔
    (w.getLsbD 25 = false → (w.getLsbD 7 && w.getLsbD 4) = false) := by
  have hg : field w 25 3 = 0#3 ↔ w.getLsbD 25 = false :=
    (field_eq_append_iff (n := 2) (m := 1) (a := 0#2) (b := bit false)).trans
      ((and_iff_right h26).trans field_one_eq_bit_iff)
  rw [← Bool.not_eq_true, matches_multiplySpace, hg, ← Bool.not_eq_true (_ && _), Bool.and_eq_true, not_and]

theorem wellFormed_msrFull_iff : (Instr.armInvalidMsrFull w).WellFormed = true ↔
    (∃ c : Cond, field w 28 4 = c.code) ∧ field w 26 2 = 0#2 ∧ field w 23 2 = 2#2 ∧ field w 16 6 = 41#6 ∧
      (w.getLsbD 25 = false → (w.getLsbD 7 && w.getLsbD 4) = false) := by
  have hfull : matches32 w 0x0DBF0000#32 0x01290000#32 = true ↔ _ := matches_transferType (t := 41#6)
  simp only [Instr.WellFormed, Bool.and_eq_true, condOk_iff, hfull, and_assoc]
  refine and_congr_right fun _ => and_congr_right fun h26 => ?_
  rw [Bool.not_eq_true', multiplySpace_eq_false_iff h26]

theorem wellFormed_psrType_iff : (Instr.armInvalidPsrType w).WellFormed = true ↔
    (∃ c : Cond, field w 28 4 = c.code) ∧ field w 26 2 = 0#2 ∧ field w 23 2 = 2#2 ∧ w.getLsbD 20 = false ∧
      (w.getLsbD 25 = false → (w.getLsbD 7 && w.getLsbD 4) = false) ∧ field w 4 24 ≠ 0x12FFF1#24 ∧
      field w 16 6 ≠ 15#6 ∧ field w 16 6 ≠ 40#6 ∧ field w 16 6 ≠ 41#6 := by
  have hmrs : matches32 w 0x0DBF0000#32 0x010F0000#32 = true ↔ _ := matches_transferType (t := 15#6)
  have hmsr : matches32 w 0x0DBF0000#32 0x01280000#32 = true ↔ _ := matches_transferType (t := 40#6)
  have hfull : matches32 w 0x0DBF0000#32 0x01290000#32 = true ↔ _ := matches_transferType (t := 41#6)
  simp only [Instr.WellFormed, Bool.and_eq_true, condOk_iff, matches_psrSpace, and_assoc]
  refine and_congr_right fun _ => and_congr_right fun h26 => and_congr_right fun h23 => and_congr_right fun _ => ?_
  rw [Bool.not_eq_true', multiplySpace_eq_false_iff h26]
  simp only [Bool.not_eq_true', ← Bool.not_eq_true (matches32 _ _ _), matches_bx, hmrs, hmsr, hfull, h26, h23, true_and,
    ne_eq]

theorem wellFormed_undefinedTransfer_iff : (Instr.armUndefinedTransfer w).WellFormed = true ↔
    (∃ c : Cond, field w 28 4 = c.code) ∧ field w 25 3 = 3#3 ∧ w.getLsbD 4 = true := by
  simp only [Instr.WellFormed, Bool.and_eq_true, condOk_iff, matches_undefinedTransfer]

theorem wellFormed_unsupportedDataTransfer_iff : (Instr.armUnsupportedDataTransfer w).WellFormed = true ↔
    (∃ c : Cond, field w 28 4 = c.code) ∧ field w 25 3 = 6#3 := by
  simp only [Instr.WellFormed, Bool.and_eq_true, condOk_iff, matches_coprocessorTransfer]

theorem wellFormed_unsupportedOperation_iff : (Instr.armUnsupportedOperation w).WellFormed = true ↔
    (∃ c : Cond, field w 28 4 = c.code) ∧ field w 25 3 = 7#3 ∧ w.getLsbD 24 = false := by
  simp only [Instr.WellFormed, Bool.and_eq_true, condOk_iff, matches_coprocessorOperation]

end Arm

/-! ### THUMB halfwords -/

section Thumb
variable {h : Half}

/-- The Invalid T5 words with H1 = H2 = 0 (R141), by the operation. -/
theorem matches_hiRegNone {op : BitVec 2} :
    matches16 h 0xFFC0#16 (0#0 ++ (0x11#6 ++ op ++ 0#2) ++ 0#6) = true ↔
      field h 10 6 = 0x11#6 ∧ field h 8 2 = op ∧ field h 6 2 = 0#2 := by
  have hmask := mask_field_iff (a := 0) (lo := 6) (w := h) (v := 0x11#6 ++ op ++ 0#2)
  rw [field_eq_append_iff, field_eq_append_iff, and_assoc] at hmask
  exact hmask

theorem wellFormed_bxH1_iff : (Instr.thumbInvalidBxH1 h).WellFormed = true ↔ field h 7 9 = 0x8F#9 :=
  mask_field_iff (a := 0) (lo := 7) (v := 0x8F#9)

theorem wellFormed_undefinedCond14_iff : (Instr.thumbUndefinedCond14 h).WellFormed = true ↔ field h 8 8 = 0xDE#8 :=
  mask_field_iff (a := 0) (lo := 8) (v := 0xDE#8)

theorem wellFormed_undefined11101_iff : (Instr.thumbUndefined11101 h).WellFormed = true ↔ field h 11 5 = 0x1D#5 :=
  mask_field_iff (a := 0) (lo := 11) (v := 0x1D#5)

theorem wellFormed_undefined1011_iff : (Instr.thumbUndefined1011 h).WellFormed = true ↔
    field h 12 4 = 0xB#4 ∧ field h 8 4 ≠ 0#4 ∧ field h 9 2 ≠ 2#2 := by
  have hgroup : matches16 h 0xF000#16 0xB000#16 = true ↔ field h 12 4 = 0xB#4 :=
    mask_field_iff (a := 0) (lo := 12) (v := 0xB#4)
  have hadjust : matches16 h 0x0F00#16 0x0000#16 = true ↔ field h 8 4 = 0#4 :=
    mask_field_iff (a := 4) (lo := 8) (v := 0#4)
  have hpushPop : matches16 h 0x0600#16 0x0400#16 = true ↔ field h 9 2 = 2#2 :=
    mask_field_iff (a := 5) (lo := 9) (v := 2#2)
  rw [Instr.WellFormed, Bool.and_eq_true, Bool.and_eq_true, Bool.not_eq_true', Bool.not_eq_true', ← Bool.not_eq_true,
    ← Bool.not_eq_true, hgroup, hadjust, hpushPop, and_assoc]

end Thumb

end Sys2Proof.Proofs
end

section
/-! PROOFS. Decoding loses no bit: every word and halfword decodes to a well-formed instruction that encodes back to it
(30_encoding.md R100, R140, R180). -/

namespace Sys2Proof.Proofs

open Sys2Proof.Machine Sys2Proof.Laws

/-! ### The group of a word -/

section Arm
variable {w : Word} {c : Cond}

theorem decodeArm_nv (h : field w 28 4 = 15#4) : decodeArm w = .armInvalidNvCondition w := by
  rw [decodeArm, condOf_eq_none_iff.2 h]

theorem decodeArm_group0 (hc : field w 28 4 = c.code) (hg : field w 25 3 = 0#3) : decodeArm w = decodeGroup0 c w := by
  simp only [decodeArm, hc, condOf_code, hg, BitVec.reduceToNat]

theorem decodeArm_group1 (hc : field w 28 4 = c.code) (hg : field w 25 3 = 1#3) :
    decodeArm w = decodeDpOrPsr c w true := by
  simp only [decodeArm, hc, condOf_code, hg, BitVec.reduceToNat]

theorem decodeArm_group2 (hc : field w 28 4 = c.code) (hg : field w 25 3 = 2#3) :
    decodeArm w = decodeSingleTransfer c w := by
  simp only [decodeArm, hc, condOf_code, hg, BitVec.reduceToNat]

theorem decodeArm_group3 (hc : field w 28 4 = c.code) (hg : field w 25 3 = 3#3) :
    decodeArm w = if w.getLsbD 4 then .armUndefinedTransfer w else decodeSingleTransfer c w := by
  simp only [decodeArm, hc, condOf_code, hg, BitVec.reduceToNat]

theorem decodeArm_group4 (hc : field w 28 4 = c.code) (hg : field w 25 3 = 4#3) :
    decodeArm w = decodeBlockTransfer c w := by
  simp only [decodeArm, hc, condOf_code, hg, BitVec.reduceToNat]

theorem decodeArm_group5 (hc : field w 28 4 = c.code) (hg : field w 25 3 = 5#3) :
    decodeArm w = if w.getLsbD 24 then .armBl c (field w 0 24) else .armB c (field w 0 24) := by
  simp only [decodeArm, hc, condOf_code, hg, BitVec.reduceToNat]

theorem decodeArm_group6 (hc : field w 28 4 = c.code) (hg : field w 25 3 = 6#3) :
    decodeArm w = .armUnsupportedDataTransfer w := by
  simp only [decodeArm, hc, condOf_code, hg, BitVec.reduceToNat]

theorem decodeArm_group7 (hc : field w 28 4 = c.code) (hg : field w 25 3 = 7#3) :
    decodeArm w = if w.getLsbD 24 then .armSwi c (field w 0 24) else .armUnsupportedOperation w := by
  simp only [decodeArm, hc, condOf_code, hg, BitVec.reduceToNat]

/-- A BX word would be a PSR transfer if it were no BX (R107, R108). -/
theorem psr_of_bx (h : field w 4 24 = 0x12FFF1#24) :
    w.getLsbD 25 = false ∧ field w 23 2 = 2#2 ∧ w.getLsbD 20 = false ∧ field w 16 6 = 47#6 :=
  ⟨getLsbD_of_field (b := 21) h (by decide), subfield (b := 19) h (by decide), getLsbD_of_field (b := 16) h (by decide),
    subfield (b := 12) h (by decide)⟩

/-! ### Operands keep their bits -/

theorem operand2Of_isImm {imm : Bool} : (operand2Of w imm).isImm = imm := by
  unfold operand2Of
  split
  · next h => exact h.symm
  · next h => split <;> exact (Bool.eq_false_of_not_eq_true h).symm

theorem operand2Of_bits {imm : Bool} (hm : imm = false → (w.getLsbD 7 && w.getLsbD 4) = false) :
    field w 0 12 = (operand2Of w imm).bits := by
  unfold operand2Of
  split
  · exact field_eq_rotatedImm_iff.2 ⟨rfl, rfl⟩
  · next himm =>
    split
    · next h4 =>
      have h7 := hm (Bool.eq_false_of_not_eq_true himm)
      rw [h4, Bool.and_true] at h7
      exact field_eq_regReg_iff.2 ⟨rfl, h7, (code_shiftTypeOf _).symm, h4, rfl⟩
    · next h4 => exact field_eq_regImm_iff.2 ⟨rfl, (code_shiftTypeOf _).symm, Bool.eq_false_of_not_eq_true h4, rfl⟩

theorem offsetOf_isReg : (offsetOf w).isReg = w.getLsbD 25 := by
  unfold offsetOf
  split
  · next h => exact h.symm
  · next h => exact (Bool.eq_false_of_not_eq_true h).symm

theorem offsetOf_bits (h : w.getLsbD 25 = true → w.getLsbD 4 = false) : field w 0 12 = (offsetOf w).bits := by
  unfold offsetOf
  split
  · next h25 => exact field_eq_regImm_iff.2 ⟨rfl, (code_shiftTypeOf _).symm, h h25, rfl⟩
  · rfl

theorem halfOffsetOf_isImm : (halfOffsetOf w).isImm = w.getLsbD 22 := by
  unfold halfOffsetOf
  split
  · next h => exact h.symm
  · next h => exact (Bool.eq_false_of_not_eq_true h).symm

theorem halfOffsetOf_high : (halfOffsetOf w).high = field w 8 4 := by
  unfold halfOffsetOf
  split
  · exact BitVec.extractLsb'_append_eq_left
  · rfl

theorem halfOffsetOf_low : (halfOffsetOf w).low = field w 0 4 := by
  unfold halfOffsetOf
  split
  · exact BitVec.extractLsb'_append_eq_right
  · rfl

/-! ### Every ARM word -/

/-- The instruction is well formed and `e` is its encoding. -/
def EncodesTo (i : Instr) (e : Encoding) : Prop := i.WellFormed = true ∧ encode i = e

theorem nine_of_bits (h7 : w.getLsbD 7 = true) (h5 : field w 5 2 = 0#2) (h4 : w.getLsbD 4 = true) :
    field w 4 4 = 9#4 :=
  field_eq_append_iff.2 ⟨field_eq_append_iff.2 ⟨field_one_eq_bit_iff.2 h7, h5⟩, field_one_eq_bit_iff.2 h4⟩

theorem decodeMultiplyFamily_encodesTo (hc : field w 28 4 = c.code) (hg : field w 25 3 = 0#3)
    (h7 : w.getLsbD 7 = true) (h5 : field w 5 2 = 0#2) (h4 : w.getLsbD 4 = true) :
    EncodesTo (decodeMultiplyFamily c w) (.arm w) := by
  have hnine := nine_of_bits h7 h5 h4
  have hk {a t : BitVec 2} (ha : field w 23 2 = a) (ht : field w 21 2 = t) : field w 21 7 = 0#3 ++ a ++ t :=
    field_eq_append_iff.2 ⟨field_eq_append_iff.2 ⟨hg, ha⟩, ht⟩
  have hmul {k : BitVec 7} (hk : field w 21 7 = k) :
      encodeMultiply c k (w.getLsbD 20) (field w 16 4) (field w 12 4) (field w 8 4) (field w 0 4) = w :=
    encodeMultiply_eq_iff.2 ⟨hc, hk, rfl, rfl, rfl, rfl, hnine, rfl⟩
  have hbits {a b : Bool} (ha : w.getLsbD 22 = a) (hb : w.getLsbD 21 = b) : field w 21 2 = bit a ++ bit b :=
    field_eq_append_iff.2 ⟨field_one_eq_bit_iff.2 ha, field_one_eq_bit_iff.2 hb⟩
  have hswap (h24 : w.getLsbD 24 = true) (hno : ¬ (field w 23 2 = 2#2 ∧ field w 20 2 = 0#2)) :
      EncodesTo (.armUndefinedSwap w) (.arm w) :=
    ⟨wellFormed_undefinedSwap_iff.2 ⟨⟨c, hc⟩, ⟨hg, h24, h7, h5, h4⟩, hno⟩, rfl⟩
  rcases bitVec_two_cases (field w 23 2) with h | h | h | h <;> simp only [decodeMultiplyFamily, h, BitVec.reduceToNat]
  · split
    · next h22 => exact ⟨wellFormed_undefinedMultiply_iff.2 ⟨⟨c, hc⟩, hg, h, h22, h7, h5, h4⟩, rfl⟩
    · next h22 =>
      have h22 := Bool.eq_false_of_not_eq_true h22
      split
      · next h21 => exact ⟨rfl, congrArg Encoding.arm (hmul (hk h (hbits h22 h21)))⟩
      · next h21 =>
        have h21 := Bool.eq_false_of_not_eq_true h21
        exact ⟨rfl, congrArg Encoding.arm (hmul (hk h (hbits h22 h21)))⟩
  · rcases bitVec_two_cases (field w 21 2) with ht | ht | ht | ht <;> simp only [ht, BitVec.reduceToNat] <;>
      exact ⟨rfl, congrArg Encoding.arm (hmul (hk h ht))⟩
  · have h24 : w.getLsbD 24 = true := getLsbD_of_field (b := 1) h (by decide)
    split
    · next h20 =>
      have h23 : field w 23 5 = 0#3 ++ 2#2 := field_eq_append_iff.2 ⟨hg, h⟩
      split
      · next h22 => exact ⟨rfl, congrArg Encoding.arm
          (encodeSwap_eq_iff.2 ⟨hc, h23, h22, eq_of_beq h20, rfl, rfl, rfl, hnine, rfl⟩)⟩
      · next h22 => exact ⟨rfl, congrArg Encoding.arm (encodeSwap_eq_iff.2
          ⟨hc, h23, Bool.eq_false_of_not_eq_true h22, eq_of_beq h20, rfl, rfl, rfl, hnine, rfl⟩)⟩
    · next h20 => exact hswap h24 fun hno => h20 (beq_iff_eq.2 hno.2)
  · exact hswap (getLsbD_of_field (b := 1) h (by decide)) fun hno => by
      rw [h] at hno
      exact absurd hno.1 (by decide)

theorem decodeHalfword_encodesTo (hc : field w 28 4 = c.code) (hg : field w 25 3 = 0#3) (h7 : w.getLsbD 7 = true)
    (h5 : field w 5 2 ≠ 0#2) (h4 : w.getLsbD 4 = true) : EncodesTo (decodeHalfword c w) (.arm w) := by
  have hsh {a b : Bool} (ha : w.getLsbD 6 = a) (hb : w.getLsbD 5 = b) : field w 5 2 = bit a ++ bit b :=
    field_eq_append_iff.2 ⟨field_one_eq_bit_iff.2 ha, field_one_eq_bit_iff.2 hb⟩
  have hhalf {l : Bool} {sh : BitVec 2} (hl : w.getLsbD 20 = l) (hsh : field w 5 2 = sh) :
      encodeHalfword c (w.getLsbD 24) (w.getLsbD 23) (w.getLsbD 21) l sh (field w 16 4) (field w 12 4)
        (halfOffsetOf w) = w :=
    encodeHalfword_eq_iff.2 ⟨hc, hg, rfl, rfl, halfOffsetOf_isImm.symm, rfl, hl, rfl, rfl, halfOffsetOf_high.symm, h7,
      hsh, h4, halfOffsetOf_low.symm⟩
  have hb (ha : w.getLsbD 6 = false) : w.getLsbD 5 = true := by
    by_contra hb
    exact h5 (hsh ha (Bool.eq_false_of_not_eq_true hb))
  cases hl : w.getLsbD 20 <;> cases ha : w.getLsbD 6 <;> simp only [decodeHalfword, hl, ha]
  · exact ⟨rfl, congrArg Encoding.arm (hhalf hl (hsh ha (hb ha)))⟩
  · exact ⟨wellFormed_signedStore_iff.2 ⟨⟨c, hc⟩, hg, hl, h7, ha, h4⟩, rfl⟩
  · exact ⟨rfl, congrArg Encoding.arm (hhalf hl (hsh ha (hb ha)))⟩
  · cases hb : w.getLsbD 5 <;> exact ⟨rfl, congrArg Encoding.arm (hhalf hl (hsh ha hb))⟩

theorem decodeDataProcessing_encodesTo {imm : Bool} (hc : field w 28 4 = c.code) (h26 : field w 26 2 = 0#2)
    (h25 : w.getLsbD 25 = imm) (hm : imm = false → (w.getLsbD 7 && w.getLsbD 4) = false)
    (hs : field w 23 2 = 2#2 → w.getLsbD 20 = true) : EncodesTo (decodeDataProcessing c w imm) (.arm w) := by
  -- A compare, op 8 to 11, carries no S: its S bit is 1.
  have hdp {op : BitVec 4} (hop : field w 21 4 = op) :
      encodeDp c op (field op 2 2 == 2#2 || w.getLsbD 20) (field w 16 4) (field w 12 4) (operand2Of w imm) = w := by
    have hs' : w.getLsbD 20 = (field op 2 2 == 2#2 || w.getLsbD 20) := by
      cases ht : field op 2 2 == 2#2
      · rfl
      · exact hs ((subfield hop (b := 2) (by decide)).trans (eq_of_beq ht))
    exact encodeDp_eq_iff.2 ⟨hc, h26, h25.trans operand2Of_isImm.symm, hop, hs', rfl, rfl, operand2Of_bits hm⟩
  rcases bitVec_four_cases (field w 21 4) with h | h | h | h | h | h | h | h | h | h | h | h | h | h | h | h <;>
    simp only [decodeDataProcessing, h, BitVec.reduceToNat] <;> exact ⟨rfl, congrArg Encoding.arm (hdp h)⟩

theorem decodePsr_encodesTo {imm : Bool} (hc : field w 28 4 = c.code) (h26 : field w 26 2 = 0#2)
    (h25 : w.getLsbD 25 = imm) (h23 : field w 23 2 = 2#2) (h20 : w.getLsbD 20 = false)
    (hm : imm = false → (w.getLsbD 7 && w.getLsbD 4) = false) (hbx : field w 4 24 ≠ 0x12FFF1#24) :
    EncodesTo (decodePsr c w imm) (.arm w) := by
  have hm' : w.getLsbD 25 = false → (w.getLsbD 7 && w.getLsbD 4) = false := h25 ▸ hm
  unfold decodePsr
  split
  · next ht =>
    refine ⟨?_, encode_mrs_eq_iff.2 ⟨hc, h26, h25, h23, rfl, eq_of_beq ht, rfl, rfl⟩⟩
    rw [Instr.WellFormed, getLsbD_field w (by decide), getLsbD_field w (by decide)]
    cases imm
    · rw [hm rfl]; rfl
    · rfl
  · next hmrs =>
    split
    · next ht =>
      cases imm
      · have hbits : field w 0 12 = (MsrSource.reg (field w 4 8) (field w 0 4)).bits :=
          (field_eq_append_iff (n := 8) (m := 4)).2 ⟨rfl, rfl⟩
        refine ⟨?_, encode_msr_eq_iff.2 ⟨hc, h26, h25, h23, rfl, eq_of_beq ht, rfl, hbits⟩⟩
        change (!((field w 4 8).getLsbD 3 && (field w 4 8).getLsbD 0)) = true
        rw [getLsbD_field w (by decide), getLsbD_field w (by decide), hm rfl]
        rfl
      · have hbits : field w 0 12 = (MsrSource.imm (field w 8 4) (field w 0 8)).bits :=
          field_eq_rotatedImm_iff.2 ⟨rfl, rfl⟩
        exact ⟨rfl, encode_msr_eq_iff.2 ⟨hc, h26, h25, h23, rfl, eq_of_beq ht, rfl, hbits⟩⟩
    · next hmsr =>
      split
      · next ht => exact ⟨wellFormed_msrFull_iff.2 ⟨⟨c, hc⟩, h26, h23, eq_of_beq ht, hm'⟩, rfl⟩
      · next hfull =>
        have hne {t : BitVec 6} (h : ¬ (field w 16 6 == t) = true) : field w 16 6 ≠ t := fun he => h (beq_iff_eq.2 he)
        exact ⟨wellFormed_psrType_iff.2 ⟨⟨c, hc⟩, h26, h23, h20, hm', hbx, hne hmrs, hne hmsr, hne hfull⟩, rfl⟩

theorem decodeDpOrPsr_encodesTo {imm : Bool} (hc : field w 28 4 = c.code) (h26 : field w 26 2 = 0#2)
    (h25 : w.getLsbD 25 = imm) (hm : imm = false → (w.getLsbD 7 && w.getLsbD 4) = false)
    (hbx : field w 4 24 ≠ 0x12FFF1#24) : EncodesTo (decodeDpOrPsr c w imm) (.arm w) := by
  unfold decodeDpOrPsr
  split
  · next h =>
    rw [Bool.and_eq_true, beq_iff_eq, Bool.not_eq_true'] at h
    exact decodePsr_encodesTo hc h26 h25 h.1 h.2 hm hbx
  · next h =>
    refine decodeDataProcessing_encodesTo hc h26 h25 hm fun h23 => ?_
    by_contra h20
    exact h (by rw [h23, Bool.eq_false_of_not_eq_true h20]; rfl)

theorem decodeGroup0_encodesTo (hc : field w 28 4 = c.code) (hg : field w 25 3 = 0#3) :
    EncodesTo (decodeGroup0 c w) (.arm w) := by
  unfold decodeGroup0
  split
  · next h =>
    obtain ⟨h7, h4⟩ := Bool.and_eq_true_iff.1 h
    split
    · next h5 => exact decodeMultiplyFamily_encodesTo hc hg h7 (eq_of_beq h5) h4
    · next h5 => exact decodeHalfword_encodesTo hc hg h7 (fun he => h5 (beq_iff_eq.2 he)) h4
  · next hm =>
    split
    · next hbx => exact ⟨rfl, congrArg Encoding.arm
        (append_eq_iff.2 ⟨(field_eq_append_iff.2 ⟨hc, eq_of_beq hbx⟩).symm, rfl⟩)⟩
    · next hbx =>
      exact decodeDpOrPsr_encodesTo hc (subfield (b := 1) hg (by decide))
        (getLsbD_of_field (b := 0) hg (by decide)) (fun _ => Bool.eq_false_of_not_eq_true hm)
        (fun he => hbx (beq_iff_eq.2 he))

theorem decodeSingleTransfer_encodesTo (hc : field w 28 4 = c.code) (h26 : field w 26 2 = 1#2)
    (hreg : w.getLsbD 25 = true → w.getLsbD 4 = false) : EncodesTo (decodeSingleTransfer c w) (.arm w) := by
  have hsingle {p b wb l : Bool} (hp : w.getLsbD 24 = p) (hb : w.getLsbD 22 = b) (hw : w.getLsbD 21 = wb)
      (hl : w.getLsbD 20 = l) :
      encodeSingle c p (w.getLsbD 23) b wb l (field w 16 4) (field w 12 4) (offsetOf w) = w :=
    encodeSingle_eq_iff.2 ⟨hc, h26, offsetOf_isReg.symm, hp, rfl, hb, hw, hl, rfl, rfl, offsetOf_bits hreg⟩
  cases hp : w.getLsbD 24 <;> cases hw : w.getLsbD 21 <;> cases hb : w.getLsbD 22 <;> cases hl : w.getLsbD 20 <;>
    simp only [decodeSingleTransfer, hp, hw, hb, hl] <;> exact ⟨rfl, congrArg Encoding.arm (hsingle hp hb hw hl)⟩

theorem decodeBlockTransfer_encodesTo (hc : field w 28 4 = c.code) (hg : field w 25 3 = 4#3) :
    EncodesTo (decodeBlockTransfer c w) (.arm w) := by
  cases hl : w.getLsbD 20 <;> simp only [decodeBlockTransfer, hl] <;>
    exact ⟨rfl, congrArg Encoding.arm (encodeBlock_eq_iff.2 ⟨hc, hg, rfl, rfl, rfl, rfl, hl, rfl, rfl⟩)⟩

theorem decodeArm_encodesTo (w : Word) : EncodesTo (decodeArm w) (.arm w) := by
  cases h : condOf (field w 28 4) with
  | none =>
    have hnv := condOf_eq_none_iff.1 h
    rw [decodeArm_nv hnv]
    exact ⟨matches_nvCondition.2 hnv, rfl⟩
  | some c =>
    have hc := code_of_condOf h
    have hop {g : BitVec 3} {b : Bool} (hg : field w 25 3 = g) (hb : w.getLsbD 24 = b) : field w 24 4 = g ++ bit b :=
      field_eq_append_iff.2 ⟨hg, field_one_eq_bit_iff.2 hb⟩
    rcases bitVec_three_cases (field w 25 3) with hg | hg | hg | hg | hg | hg | hg | hg
    · rw [decodeArm_group0 hc hg]
      exact decodeGroup0_encodesTo hc hg
    · rw [decodeArm_group1 hc hg]
      have h25 : w.getLsbD 25 = true := getLsbD_of_field (b := 0) hg (by decide)
      refine decodeDpOrPsr_encodesTo hc (subfield (b := 1) hg (by decide)) h25 nofun fun hbx => ?_
      exact absurd (h25.symm.trans (psr_of_bx hbx).1) (by decide)
    · rw [decodeArm_group2 hc hg]
      have h25 : w.getLsbD 25 = false := getLsbD_of_field (b := 0) hg (by decide)
      exact decodeSingleTransfer_encodesTo hc (subfield (b := 1) hg (by decide))
        fun h => absurd (h25.symm.trans h) (by decide)
    · rw [decodeArm_group3 hc hg]
      split
      · next h4 => exact ⟨wellFormed_undefinedTransfer_iff.2 ⟨⟨c, hc⟩, hg, h4⟩, rfl⟩
      · next h4 =>
        exact decodeSingleTransfer_encodesTo hc (subfield (b := 1) hg (by decide))
          fun _ => Bool.eq_false_of_not_eq_true h4
    · rw [decodeArm_group4 hc hg]
      exact decodeBlockTransfer_encodesTo hc hg
    · rw [decodeArm_group5 hc hg]
      split
      · next h24 => exact ⟨rfl, congrArg Encoding.arm (encodeOffset_eq_iff.2 ⟨hc, hop hg h24, rfl⟩)⟩
      · next h24 =>
        have h24 := Bool.eq_false_of_not_eq_true h24
        exact ⟨rfl, congrArg Encoding.arm (encodeOffset_eq_iff.2 ⟨hc, hop hg h24, rfl⟩)⟩
    · rw [decodeArm_group6 hc hg]
      exact ⟨wellFormed_unsupportedDataTransfer_iff.2 ⟨⟨c, hc⟩, hg⟩, rfl⟩
    · rw [decodeArm_group7 hc hg]
      split
      · next h24 => exact ⟨rfl, congrArg Encoding.arm (encodeOffset_eq_iff.2 ⟨hc, hop hg h24, rfl⟩)⟩
      · next h24 =>
        exact ⟨wellFormed_unsupportedOperation_iff.2 ⟨⟨c, hc⟩, hg, Bool.eq_false_of_not_eq_true h24⟩, rfl⟩

end Arm

/-! ### Every THUMB halfword -/

section Thumb
variable {h : Half}

theorem decodeThumb_group0 (hg : field h 13 3 = 0#3) : decodeThumb h = decodeThumb0 h := by
  rw [decodeThumb, hg]; rfl

theorem decodeThumb_group1 (hg : field h 13 3 = 1#3) : decodeThumb h = decodeThumb1 h := by
  rw [decodeThumb, hg]; rfl

theorem decodeThumb_group2 (hg : field h 13 3 = 2#3) : decodeThumb h = decodeThumb2 h := by
  rw [decodeThumb, hg]; rfl

theorem decodeThumb_group3 (hg : field h 13 3 = 3#3) : decodeThumb h = decodeThumb3 h := by
  rw [decodeThumb, hg]; rfl

theorem decodeThumb_group4 (hg : field h 13 3 = 4#3) : decodeThumb h = decodeThumb4 h := by
  rw [decodeThumb, hg]; rfl

theorem decodeThumb_group5 (hg : field h 13 3 = 5#3) : decodeThumb h = decodeThumb5 h := by
  rw [decodeThumb, hg]; rfl

theorem decodeThumb_group6 (hg : field h 13 3 = 6#3) : decodeThumb h = decodeThumb6 h := by
  rw [decodeThumb, hg]; rfl

theorem decodeThumb_group7 (hg : field h 13 3 = 7#3) : decodeThumb h = decodeThumb7 h := by
  rw [decodeThumb, hg]; rfl

theorem decodeThumb0_encodesTo (hg : field h 13 3 = 0#3) : EncodesTo (decodeThumb0 h) (.thumb h) := by
  have hfive {k : BitVec 5} (hk : field h 11 5 = k) : encodeFive k (field h 6 5) (field h 3 3) (field h 0 3) = h :=
    encodeFive_eq_iff.2 ⟨hk, rfl, rfl, rfl⟩
  have hthree {k : BitVec 7} (hk : field h 9 7 = k) : encodeThree k (field h 6 3) (field h 3 3) (field h 0 3) = h :=
    encodeThree_eq_iff.2 ⟨hk, rfl, rfl, rfl⟩
  have hk {v : BitVec 2} (hv : field h 11 2 = v) : field h 11 5 = 0#3 ++ v := field_eq_append_iff.2 ⟨hg, hv⟩
  rcases bitVec_two_cases (field h 11 2) with hv | hv | hv | hv <;> simp only [decodeThumb0, hv, BitVec.reduceToNat]
  iterate 3 exact ⟨rfl, congrArg Encoding.thumb (hfive (hk hv))⟩
  have hk' {t : BitVec 2} (ht : field h 9 2 = t) : field h 9 7 = 0#3 ++ 3#2 ++ t := field_eq_append_iff.2 ⟨hk hv, ht⟩
  rcases bitVec_two_cases (field h 9 2) with ht | ht | ht | ht <;> simp only [ht, BitVec.reduceToNat] <;>
    exact ⟨rfl, congrArg Encoding.thumb (hthree (hk' ht))⟩

theorem decodeThumb1_encodesTo (hg : field h 13 3 = 1#3) : EncodesTo (decodeThumb1 h) (.thumb h) := by
  have hk {v : BitVec 2} (hv : field h 11 2 = v) : field h 11 5 = 1#3 ++ v := field_eq_append_iff.2 ⟨hg, hv⟩
  have hbyte {k : BitVec 5} (hk : field h 11 5 = k) : encodeByte k (field h 8 3) (field h 0 8) = h :=
    encodeByte_eq_iff.2 ⟨hk, rfl, rfl⟩
  rcases bitVec_two_cases (field h 11 2) with hv | hv | hv | hv <;>
    simp only [decodeThumb1, hv, BitVec.reduceToNat] <;> exact ⟨rfl, congrArg Encoding.thumb (hbyte (hk hv))⟩

theorem decodeT4_encodesTo (hk : field h 10 6 = 0x10#6) : EncodesTo (decodeT4 h) (.thumb h) := by
  have ht4 {op : BitVec 4} (hop : field h 6 4 = op) : encodeT4 op (field h 3 3) (field h 0 3) = h :=
    encodeT4_eq_iff.2 ⟨hk, hop, rfl, rfl⟩
  rcases bitVec_four_cases (field h 6 4) with hop | hop | hop | hop | hop | hop | hop | hop | hop | hop | hop | hop |
      hop | hop | hop | hop <;>
    simp only [decodeT4, hop, BitVec.reduceToNat] <;> exact ⟨rfl, congrArg Encoding.thumb (ht4 hop)⟩

theorem decodeT5_encodesTo (hk : field h 10 6 = 0x11#6) : EncodesTo (decodeT5 h) (.thumb h) := by
  have hrs : field h 3 4 = field h 6 1 ++ field h 3 3 := (field_eq_append_iff (n := 1) (m := 3)).2 ⟨rfl, rfl⟩
  have ht5 {op : BitVec 2} {h1 : BitVec 1} {low : BitVec 3} (hop : field h 8 2 = op) (hh : field h 7 1 = h1)
      (hlow : field h 0 3 = low) : encodeT5 op (field h 6 1 ++ field h 3 3) h1 low = h :=
    encodeT5_eq_iff.2 ⟨hk, hop, hh, hrs, hlow⟩
  have hhigh (hn : ¬ (field h 6 2 == 0#2) = true) :
      notBothLow (field h 6 1 ++ field h 3 3) (field h 7 1 ++ field h 0 3) = true := by
    have hbit (i : Nat) (x : BitVec 3) : (field h i 1 ++ x).getLsbD 3 = h.getLsbD i :=
      field_one_eq_bit_iff.1 (BitVec.extractLsb'_append_eq_left.trans (field_one_eq_bit_iff.2 rfl))
    rw [notBothLow, hbit, hbit, ← Bool.not_eq_false, Bool.or_eq_false_iff]
    rintro ⟨h6, h7⟩
    have hlow : field h 6 2 = bit false ++ bit false :=
      field_eq_append_iff.2 ⟨field_one_eq_bit_iff.2 h7, field_one_eq_bit_iff.2 h6⟩
    exact hn (beq_iff_eq.2 hlow)
  have h1 : field h 7 1 = field (field h 7 1 ++ field h 0 3) 3 1 := BitVec.extractLsb'_append_eq_left.symm
  have hlow : field h 0 3 = field (field h 7 1 ++ field h 0 3) 0 3 := BitVec.extractLsb'_append_eq_right.symm
  rcases bitVec_two_cases (field h 8 2) with hop | hop | hop | hop <;> simp only [decodeT5, hop, BitVec.reduceToNat]
  · split
    · next hn => exact ⟨(matches_hiRegNone (op := 0#2)).2 ⟨hk, hop, eq_of_beq hn⟩, rfl⟩
    · next hn => exact ⟨hhigh hn, congrArg Encoding.thumb (ht5 hop h1 hlow)⟩
  · split
    · next hn => exact ⟨(matches_hiRegNone (op := 1#2)).2 ⟨hk, hop, eq_of_beq hn⟩, rfl⟩
    · next hn => exact ⟨hhigh hn, congrArg Encoding.thumb (ht5 hop h1 hlow)⟩
  · split
    · next hn => exact ⟨(matches_hiRegNone (op := 2#2)).2 ⟨hk, hop, eq_of_beq hn⟩, rfl⟩
    · next hn => exact ⟨hhigh hn, congrArg Encoding.thumb (ht5 hop h1 hlow)⟩
  · split
    · next h7 =>
      have hraw : field h 7 9 = 0x11#6 ++ 3#2 ++ bit true :=
        field_eq_append_iff.2 ⟨field_eq_append_iff.2 ⟨hk, hop⟩, field_one_eq_bit_iff.2 h7⟩
      exact ⟨wellFormed_bxH1_iff.2 hraw, rfl⟩
    · next h7 =>
      have h7' : field h 7 1 = bit false := field_one_eq_bit_iff.2 (Bool.eq_false_of_not_eq_true h7)
      exact ⟨rfl, congrArg Encoding.thumb (ht5 hop h7' rfl)⟩

theorem decodeT7T8_encodesTo (hk : field h 12 4 = 5#4) : EncodesTo (decodeT7T8 h) (.thumb h) := by
  have hk' {t : BitVec 3} (ht : field h 9 3 = t) : field h 9 7 = 5#4 ++ t := field_eq_append_iff.2 ⟨hk, ht⟩
  have hthree {k : BitVec 7} (hk : field h 9 7 = k) : encodeThree k (field h 6 3) (field h 3 3) (field h 0 3) = h :=
    encodeThree_eq_iff.2 ⟨hk, rfl, rfl, rfl⟩
  rcases bitVec_three_cases (field h 9 3) with ht | ht | ht | ht | ht | ht | ht | ht <;>
    simp only [decodeT7T8, ht, BitVec.reduceToNat] <;> exact ⟨rfl, congrArg Encoding.thumb (hthree (hk' ht))⟩

theorem encodeByte_scaled {k : BitVec 5} (hk : field h 11 5 = k) :
    encodeByte k (field h 8 3) (field (field h 0 8 ++ 0#2) 2 8) = h :=
  encodeByte_eq_iff.2 ⟨hk, rfl, BitVec.extractLsb'_append_eq_left.symm⟩

theorem decodeThumb2_encodesTo (hg : field h 13 3 = 2#3) : EncodesTo (decodeThumb2 h) (.thumb h) := by
  have hk {v : BitVec 3} (hv : field h 10 3 = v) : field h 10 6 = 2#3 ++ v := field_eq_append_iff.2 ⟨hg, hv⟩
  have hldr {v : BitVec 3} (hv : field h 10 3 = v) (h1 : field v 1 2 = 1#2) :
      EncodesTo (.thumbLdrPc (field h 8 3) (field h 0 8 ++ 0#2)) (.thumb h) := by
    have hop : field h 11 5 = 2#3 ++ 1#2 :=
      field_eq_append_iff.2 ⟨hg, (subfield hv (b := 1) (by decide)).trans h1⟩
    exact ⟨scaled_append_zero _, congrArg Encoding.thumb (encodeByte_scaled hop)⟩
  have ht7 {v : BitVec 3} (hv : field h 10 3 = v) (h1 : field v 2 1 = 1#1) : EncodesTo (decodeT7T8 h) (.thumb h) := by
    have hop : field h 12 4 = 2#3 ++ 1#1 :=
      field_eq_append_iff.2 ⟨hg, (subfield hv (b := 2) (by decide)).trans h1⟩
    exact decodeT7T8_encodesTo hop
  rcases bitVec_three_cases (field h 10 3) with hv | hv | hv | hv | hv | hv | hv | hv <;>
    simp only [decodeThumb2, hv, BitVec.reduceToNat]
  · exact decodeT4_encodesTo (hk hv)
  · exact decodeT5_encodesTo (hk hv)
  · exact hldr hv rfl
  · exact hldr hv rfl
  all_goals exact ht7 hv rfl

theorem decodeThumb3_encodesTo (hg : field h 13 3 = 3#3) : EncodesTo (decodeThumb3 h) (.thumb h) := by
  have hk {v : BitVec 2} (hv : field h 11 2 = v) : field h 11 5 = 3#3 ++ v := field_eq_append_iff.2 ⟨hg, hv⟩
  have hfive {k f : BitVec 5} (hk : field h 11 5 = k) (hf : field h 6 5 = f) :
      encodeFive k f (field h 3 3) (field h 0 3) = h :=
    encodeFive_eq_iff.2 ⟨hk, hf, rfl, rfl⟩
  have hoff : field h 6 5 = field (field h 6 5 ++ 0#2) 2 5 := BitVec.extractLsb'_append_eq_left.symm
  rcases bitVec_two_cases (field h 11 2) with hv | hv | hv | hv <;> simp only [decodeThumb3, hv, BitVec.reduceToNat]
  · exact ⟨scaled_append_zero _, congrArg Encoding.thumb (hfive (hk hv) hoff)⟩
  · exact ⟨scaled_append_zero _, congrArg Encoding.thumb (hfive (hk hv) hoff)⟩
  · exact ⟨rfl, congrArg Encoding.thumb (hfive (hk hv) rfl)⟩
  · exact ⟨rfl, congrArg Encoding.thumb (hfive (hk hv) rfl)⟩

theorem decodeThumb4_encodesTo (hg : field h 13 3 = 4#3) : EncodesTo (decodeThumb4 h) (.thumb h) := by
  have hk {v : BitVec 2} (hv : field h 11 2 = v) : field h 11 5 = 4#3 ++ v := field_eq_append_iff.2 ⟨hg, hv⟩
  have hfive {k : BitVec 5} (hk : field h 11 5 = k) :
      encodeFive k (field (field h 6 5 ++ 0#1) 1 5) (field h 3 3) (field h 0 3) = h :=
    encodeFive_eq_iff.2 ⟨hk, BitVec.extractLsb'_append_eq_left.symm, rfl, rfl⟩
  rcases bitVec_two_cases (field h 11 2) with hv | hv | hv | hv <;> simp only [decodeThumb4, hv, BitVec.reduceToNat]
  · exact ⟨scaled_append_zero _, congrArg Encoding.thumb (hfive (hk hv))⟩
  · exact ⟨scaled_append_zero _, congrArg Encoding.thumb (hfive (hk hv))⟩
  · exact ⟨scaled_append_zero _, congrArg Encoding.thumb (encodeByte_scaled (hk hv))⟩
  · exact ⟨scaled_append_zero _, congrArg Encoding.thumb (encodeByte_scaled (hk hv))⟩

theorem decodeThumb5_encodesTo (hg : field h 13 3 = 5#3) : EncodesTo (decodeThumb5 h) (.thumb h) := by
  have h4 {a : Bool} (ha : h.getLsbD 12 = a) : field h 12 4 = 5#3 ++ bit a :=
    field_eq_append_iff.2 ⟨hg, field_one_eq_bit_iff.2 ha⟩
  have h5 {a b : Bool} (ha : h.getLsbD 12 = a) (hb : h.getLsbD 11 = b) : field h 11 5 = 5#3 ++ bit a ++ bit b :=
    field_eq_append_iff.2 ⟨h4 ha, field_one_eq_bit_iff.2 hb⟩
  cases ha : h.getLsbD 12 <;>
    simp only [decodeThumb5, ha, Bool.not_true, Bool.not_false, Bool.false_eq_true, if_true, if_false]
  · cases hb : h.getLsbD 11 <;>
      exact ⟨scaled_append_zero _, congrArg Encoding.thumb (encodeByte_scaled (h5 ha hb))⟩
  · split
    · next hadj =>
      have hk : field h 8 8 = 0xB#4 ++ 0#4 := field_eq_append_iff.2 ⟨h4 ha, eq_of_beq hadj⟩
      exact ⟨scaled_append_zero _, congrArg Encoding.thumb
        (adjustSp_eq_iff.2 ⟨hk, rfl, BitVec.extractLsb'_append_eq_left.symm⟩)⟩
    · next hadj =>
      split
      · next hpp =>
        have hk {b : Bool} (hb : h.getLsbD 11 = b) : field h 9 7 = 0xB#4 ++ bit b ++ 2#2 :=
          field_eq_append_iff.2 ⟨h5 ha hb, eq_of_beq hpp⟩
        cases hb : h.getLsbD 11 <;>
          exact ⟨rfl, congrArg Encoding.thumb (append_bit_append_eq_iff.2 ⟨hk hb, rfl, rfl⟩)⟩
      · next hpp =>
        exact ⟨wellFormed_undefined1011_iff.2
          ⟨h4 ha, fun he => hadj (beq_iff_eq.2 he), fun he => hpp (beq_iff_eq.2 he)⟩, rfl⟩

theorem decodeT16T17_encodesTo (hk : field h 12 4 = 0xD#4) : EncodesTo (decodeT16T17 h) (.thumb h) := by
  have h8 {op : BitVec 4} (hop : field h 8 4 = op) : field h 8 8 = 0xD#4 ++ op := field_eq_append_iff.2 ⟨hk, hop⟩
  have ht16 {op : BitVec 4} (hop : field h 8 4 = op) : encodeT16 op (field h 0 8 ++ 0#1) = h :=
    encodeT16_eq_iff.2 ⟨hk, hop, BitVec.extractLsb'_append_eq_left.symm⟩
  have hbranch : scaled (field h 0 8 ++ 0#1) 1 = true := scaled_append_zero _
  rcases bitVec_four_cases (field h 8 4) with hop | hop | hop | hop | hop | hop | hop | hop | hop | hop | hop | hop |
      hop | hop | hop | hop <;>
    simp only [decodeT16T17, hop, BitVec.reduceToNat]
  iterate 14 exact ⟨hbranch, congrArg Encoding.thumb (ht16 hop)⟩
  · exact ⟨wellFormed_undefinedCond14_iff.2 (h8 hop), rfl⟩
  · exact ⟨rfl, congrArg Encoding.thumb (append_eq_iff.2 ⟨(h8 hop).symm, rfl⟩)⟩

theorem decodeThumb6_encodesTo (hg : field h 13 3 = 6#3) : EncodesTo (decodeThumb6 h) (.thumb h) := by
  have h4 {a : Bool} (ha : h.getLsbD 12 = a) : field h 12 4 = 6#3 ++ bit a :=
    field_eq_append_iff.2 ⟨hg, field_one_eq_bit_iff.2 ha⟩
  cases ha : h.getLsbD 12 <;>
    simp only [decodeThumb6, ha, Bool.not_true, Bool.not_false, Bool.false_eq_true, if_true, if_false]
  · have h5 {b : Bool} (hb : h.getLsbD 11 = b) : field h 11 5 = 6#3 ++ bit false ++ bit b :=
      field_eq_append_iff.2 ⟨h4 ha, field_one_eq_bit_iff.2 hb⟩
    cases hb : h.getLsbD 11 <;>
      exact ⟨rfl, congrArg Encoding.thumb (encodeByte_eq_iff.2 ⟨h5 hb, rfl, rfl⟩)⟩
  · exact decodeT16T17_encodesTo (h4 ha)

theorem decodeThumb7_encodesTo (hg : field h 13 3 = 7#3) : EncodesTo (decodeThumb7 h) (.thumb h) := by
  have hk {v : BitVec 2} (hv : field h 11 2 = v) : field h 11 5 = 7#3 ++ v := field_eq_append_iff.2 ⟨hg, hv⟩
  have hoff {k : BitVec 5} {x : BitVec 11} (hk : field h 11 5 = k) (hx : x = field h 0 11) : k ++ x = h :=
    append_eq_iff.2 ⟨hk.symm, hx⟩
  rcases bitVec_two_cases (field h 11 2) with hv | hv | hv | hv <;> simp only [decodeThumb7, hv, BitVec.reduceToNat]
  · exact ⟨scaled_append_zero _, congrArg Encoding.thumb (hoff (hk hv) BitVec.extractLsb'_append_eq_left)⟩
  · exact ⟨wellFormed_undefined11101_iff.2 (hk hv), rfl⟩
  · exact ⟨scaled_append_zero _, congrArg Encoding.thumb (hoff (hk hv) BitVec.extractLsb'_append_eq_left)⟩
  · exact ⟨scaled_append_zero _, congrArg Encoding.thumb (hoff (hk hv) BitVec.extractLsb'_append_eq_left)⟩

theorem decodeThumb_encodesTo (h : Half) : EncodesTo (decodeThumb h) (.thumb h) := by
  rcases bitVec_three_cases (field h 13 3) with hg | hg | hg | hg | hg | hg | hg | hg
  · exact decodeThumb_group0 hg ▸ decodeThumb0_encodesTo hg
  · exact decodeThumb_group1 hg ▸ decodeThumb1_encodesTo hg
  · exact decodeThumb_group2 hg ▸ decodeThumb2_encodesTo hg
  · exact decodeThumb_group3 hg ▸ decodeThumb3_encodesTo hg
  · exact decodeThumb_group4 hg ▸ decodeThumb4_encodesTo hg
  · exact decodeThumb_group5 hg ▸ decodeThumb5_encodesTo hg
  · exact decodeThumb_group6 hg ▸ decodeThumb6_encodesTo hg
  · exact decodeThumb_group7 hg ▸ decodeThumb7_encodesTo hg

end Thumb

/-- Settles O2: a decoder's branch fixes the fields it tested and carries the others. -/
theorem decodedWordsEncodeBack : Obligations.DecodedWordsEncodeBack := by
  intro e
  cases e with
  | arm w => exact decodeArm_encodesTo w
  | thumb h => exact decodeThumb_encodesTo h

end Sys2Proof.Proofs
end

section
/-! PROOFS. Every well-formed instruction is decoded from its encoding (30_encoding.md R110, R150, R182). -/

namespace Sys2Proof.Proofs

open Sys2Proof.Machine Sys2Proof.Laws

/-! ### The branches of the ARM decoder -/

section Arm
variable {w : Word} {c : Cond}

theorem decodeGroup0_multiply (h7 : w.getLsbD 7 = true) (h5 : field w 5 2 = 0#2) (h4 : w.getLsbD 4 = true) :
    decodeGroup0 c w = decodeMultiplyFamily c w := by
  rw [decodeGroup0, h7, h4, h5]; rfl

theorem decodeGroup0_halfword (h7 : w.getLsbD 7 = true) (h5 : field w 5 2 ≠ 0#2) (h4 : w.getLsbD 4 = true) :
    decodeGroup0 c w = decodeHalfword c w := by
  rw [decodeGroup0, h7, h4, beq_eq_false_iff_ne.2 h5]; rfl

theorem decodeGroup0_bx (hm : (w.getLsbD 7 && w.getLsbD 4) = false) (hbx : field w 4 24 = 0x12FFF1#24) :
    decodeGroup0 c w = .armBx c (field w 0 4) := by
  rw [decodeGroup0, hm, hbx]; rfl

theorem decodeGroup0_dpOrPsr (hm : (w.getLsbD 7 && w.getLsbD 4) = false) (hbx : field w 4 24 ≠ 0x12FFF1#24) :
    decodeGroup0 c w = decodeDpOrPsr c w false := by
  rw [decodeGroup0, hm, beq_eq_false_iff_ne.2 hbx]; rfl

theorem decodeArm_dpOrPsr {imm : Bool} (hc : field w 28 4 = c.code) (h26 : field w 26 2 = 0#2)
    (h25 : w.getLsbD 25 = imm) (hm : imm = false → (w.getLsbD 7 && w.getLsbD 4) = false)
    (hbx : field w 4 24 ≠ 0x12FFF1#24) : decodeArm w = decodeDpOrPsr c w imm := by
  have hg : field w 25 3 = 0#2 ++ bit imm := field_eq_append_iff.2 ⟨h26, field_one_eq_bit_iff.2 h25⟩
  cases imm
  · rw [decodeArm_group0 hc hg, decodeGroup0_dpOrPsr (hm rfl) hbx]
  · exact decodeArm_group1 hc hg

theorem decodeDpOrPsr_psr {imm : Bool} (h23 : field w 23 2 = 2#2) (h20 : w.getLsbD 20 = false) :
    decodeDpOrPsr c w imm = decodePsr c w imm := by
  rw [decodeDpOrPsr, h23, h20]; rfl

theorem decodeDpOrPsr_dataProcessing {imm : Bool} (h : field w 23 2 = 2#2 → w.getLsbD 20 = true) :
    decodeDpOrPsr c w imm = decodeDataProcessing c w imm := by
  refine if_neg fun hp => ?_
  rw [Bool.and_eq_true, beq_iff_eq, Bool.not_eq_true'] at hp
  exact absurd ((h hp.1).symm.trans hp.2) (by decide)

theorem decodeArm_singleTransfer (hc : field w 28 4 = c.code) (h26 : field w 26 2 = 1#2)
    (hreg : w.getLsbD 25 = true → w.getLsbD 4 = false) : decodeArm w = decodeSingleTransfer c w := by
  cases h25 : w.getLsbD 25
  · have hg : field w 25 3 = 1#2 ++ bit false := field_eq_append_iff.2 ⟨h26, field_one_eq_bit_iff.2 h25⟩
    exact decodeArm_group2 hc hg
  · have hg : field w 25 3 = 1#2 ++ bit true := field_eq_append_iff.2 ⟨h26, field_one_eq_bit_iff.2 h25⟩
    rw [decodeArm_group3 hc hg, hreg h25]; rfl

/-! ### Operands read back from their bits -/

theorem operand2Of_eq {op2 : Operand2} (h : field w 0 12 = op2.bits) : operand2Of w op2.isImm = op2 := by
  cases op2 with
  | imm rot imm8 =>
    obtain ⟨hrot, himm⟩ := field_eq_rotatedImm_iff.1 h
    simp only [operand2Of, Operand2.isImm, hrot, himm, if_true]
  | regImm rm ty amount =>
    obtain ⟨ha, ht, h4, hrm⟩ := field_eq_regImm_iff.1 h
    rw [operand2Of, h4, ha, ht, hrm, shiftTypeOf_code]; rfl
  | regReg rm ty rs =>
    obtain ⟨hrs, -, ht, h4, hrm⟩ := field_eq_regReg_iff.1 h
    rw [operand2Of, h4, hrs, ht, hrm, shiftTypeOf_code]; rfl

theorem notMultiply_of_operand2 {op2 : Operand2} (h : field w 0 12 = op2.bits) :
    op2.isImm = false → (w.getLsbD 7 && w.getLsbD 4) = false := by
  cases op2 with
  | imm rot imm8 => exact nofun
  | regImm rm ty amount =>
    obtain ⟨-, -, h4, -⟩ := field_eq_regImm_iff.1 h
    exact fun _ => by rw [h4, Bool.and_false]
  | regReg rm ty rs =>
    obtain ⟨-, h7, -⟩ := field_eq_regReg_iff.1 h
    exact fun _ => by rw [h7, Bool.false_and]

theorem offsetOf_eq {off : Offset} (h25 : w.getLsbD 25 = off.isReg) (h : field w 0 12 = off.bits) :
    offsetOf w = off := by
  cases off with
  | imm off12 => rw [offsetOf, h25, h]; rfl
  | reg rm ty amount =>
    obtain ⟨ha, ht, -, hrm⟩ := field_eq_regImm_iff.1 h
    rw [offsetOf, h25, ha, ht, hrm, shiftTypeOf_code]; rfl

theorem bit_four_of_offset {off : Offset} (h : field w 0 12 = off.bits) : off.isReg = true → w.getLsbD 4 = false := by
  cases off with
  | imm off12 => exact nofun
  | reg rm ty amount =>
    obtain ⟨-, -, h4, -⟩ := field_eq_regImm_iff.1 h
    exact fun _ => h4

theorem halfOffsetOf_eq {off : HalfOffset} (h22 : w.getLsbD 22 = off.isImm) (hh : field w 8 4 = off.high)
    (hl : field w 0 4 = off.low) : halfOffsetOf w = off := by
  cases off with
  | imm off8 =>
    rw [halfOffsetOf, h22, hh, hl]
    exact congrArg HalfOffset.imm (append_eq_iff.2 ⟨rfl, rfl⟩)
  | reg sbz rm => rw [halfOffsetOf, h22, hh, hl]; rfl

/-! ### Every ARM instruction -/

section Formats
variable {s p u b wb l : Bool} {rn rd rs rm hi lo : RegIdx}

theorem decodeArm_encodeDp {op : BitVec 4} {op2 : Operand2} (hs : field op 2 2 = 2#2 → s = true) :
    decodeArm (encodeDp c op s rn rd op2) = decodeDataProcessing c (encodeDp c op s rn rd op2) op2.isImm := by
  generalize hw : encodeDp c op s rn rd op2 = w
  obtain ⟨hc, h26, h25, hop, h20, -, -, hbits⟩ := encodeDp_eq_iff.1 hw
  have hs' : field w 23 2 = 2#2 → w.getLsbD 20 = true := fun h23 =>
    h20.trans (hs ((subfield hop (b := 2) (by decide)).symm.trans h23))
  have hbx : field w 4 24 ≠ 0x12FFF1#24 := fun hbx => by
    obtain ⟨-, h23, h20, -⟩ := psr_of_bx hbx
    exact absurd (h20.symm.trans (hs' h23)) (by decide)
  rw [decodeArm_dpOrPsr hc h26 h25 (notMultiply_of_operand2 hbits) hbx, decodeDpOrPsr_dataProcessing hs']

theorem operand2Of_encodeDp {op : BitVec 4} {op2 : Operand2} :
    operand2Of (encodeDp c op s rn rd op2) op2.isImm = op2 := by
  obtain ⟨-, -, -, -, -, -, -, hbits⟩ := encodeDp_eq_iff.1 (rfl : encodeDp c op s rn rd op2 = _)
  exact operand2Of_eq hbits

theorem bits_of_nine (h : field w 4 4 = 9#4) : w.getLsbD 7 = true ∧ field w 5 2 = 0#2 ∧ w.getLsbD 4 = true :=
  ⟨getLsbD_of_field (b := 3) h (by decide), subfield (b := 1) h (by decide), getLsbD_of_field (b := 0) h (by decide)⟩

theorem decodeArm_multiplyFamily (hc : field w 28 4 = c.code) (hg : field w 25 3 = 0#3) (h9 : field w 4 4 = 9#4) :
    decodeArm w = decodeMultiplyFamily c w := by
  obtain ⟨h7, h5, h4⟩ := bits_of_nine h9
  rw [decodeArm_group0 hc hg, decodeGroup0_multiply h7 h5 h4]

theorem decodeArm_encodeMultiply {k : BitVec 7} (hk : field k 4 3 = 0#3) :
    decodeArm (encodeMultiply c k s hi lo rs rm) = decodeMultiplyFamily c (encodeMultiply c k s hi lo rs rm) := by
  generalize hw : encodeMultiply c k s hi lo rs rm = w
  obtain ⟨hc, h21, -, -, -, -, h9, -⟩ := encodeMultiply_eq_iff.1 hw
  exact decodeArm_multiplyFamily hc ((subfield h21 (b := 4) (by decide)).trans hk) h9

theorem encodeMultiply_opcode {k : BitVec 7} :
    field (encodeMultiply c k s hi lo rs rm) 23 2 = field k 2 2 ∧
    field (encodeMultiply c k s hi lo rs rm) 21 2 = field k 0 2 ∧
    (encodeMultiply c k s hi lo rs rm).getLsbD 22 = k.getLsbD 1 ∧
    (encodeMultiply c k s hi lo rs rm).getLsbD 21 = k.getLsbD 0 := by
  obtain ⟨-, h21, -⟩ := encodeMultiply_eq_iff.1 (rfl : encodeMultiply c k s hi lo rs rm = _)
  exact ⟨subfield h21 (b := 2) (by decide), subfield h21 (b := 0) (by decide),
    getLsbD_of_field h21 (b := 1) (by decide), getLsbD_of_field h21 (b := 0) (by decide)⟩

theorem decodeArm_encodeSwap {sbz : BitVec 4} :
    decodeArm (encodeSwap c b rn rd sbz rm) = if b then .armSwpb c rn rd sbz rm else .armSwp c rn rd sbz rm := by
  generalize hw : encodeSwap c b rn rd sbz rm = w
  obtain ⟨hc, h23, h22, h20, hrn, hrd, hsbz, h9, hrm⟩ := encodeSwap_eq_iff.1 hw
  have hk : field w 23 2 = 2#2 := subfield h23 (b := 0) (by decide)
  rw [decodeArm_multiplyFamily hc (subfield h23 (b := 2) (by decide)) h9, decodeMultiplyFamily, hk, h22, h20, hrn, hrd,
    hsbz, hrm]
  rfl

theorem decodeArm_encodeHalfword {sh : BitVec 2} {off : HalfOffset} (hsh : sh ≠ 0#2) :
    decodeArm (encodeHalfword c p u wb l sh rn rd off) = decodeHalfword c (encodeHalfword c p u wb l sh rn rd off) := by
  generalize hw : encodeHalfword c p u wb l sh rn rd off = w
  obtain ⟨hc, hg, -, -, -, -, -, -, -, -, h7, h5, h4, -⟩ := encodeHalfword_eq_iff.1 hw
  rw [decodeArm_group0 hc hg, decodeGroup0_halfword h7 (h5 ▸ hsh) h4]

theorem encodeHalfword_opcode {sh : BitVec 2} {off : HalfOffset} :
    (encodeHalfword c p u wb l sh rn rd off).getLsbD 6 = sh.getLsbD 1 ∧
    (encodeHalfword c p u wb l sh rn rd off).getLsbD 5 = sh.getLsbD 0 ∧
    halfOffsetOf (encodeHalfword c p u wb l sh rn rd off) = off := by
  obtain ⟨-, -, -, -, h22, -, -, -, -, hh, -, h5, -, hl⟩ :=
    encodeHalfword_eq_iff.1 (rfl : encodeHalfword c p u wb l sh rn rd off = _)
  exact ⟨getLsbD_of_field h5 (b := 1) (by decide), getLsbD_of_field h5 (b := 0) (by decide), halfOffsetOf_eq h22 hh hl⟩

theorem decodeArm_encodeSingle {off : Offset} :
    decodeArm (encodeSingle c p u b wb l rn rd off) = decodeSingleTransfer c (encodeSingle c p u b wb l rn rd off) := by
  generalize hw : encodeSingle c p u b wb l rn rd off = w
  obtain ⟨hc, h26, h25, -, -, -, -, -, -, -, hbits⟩ := encodeSingle_eq_iff.1 hw
  exact decodeArm_singleTransfer hc h26 fun h => bit_four_of_offset hbits (h25.symm.trans h)

theorem offsetOf_encodeSingle {off : Offset} : offsetOf (encodeSingle c p u b wb l rn rd off) = off := by
  obtain ⟨-, -, h25, -, -, -, -, -, -, -, hbits⟩ :=
    encodeSingle_eq_iff.1 (rfl : encodeSingle c p u b wb l rn rd off = _)
  exact offsetOf_eq h25 hbits

theorem decodeArm_encodeBlock {rlist : BitVec 16} :
    decodeArm (encodeBlock c p u s wb l rn rlist) = decodeBlockTransfer c (encodeBlock c p u s wb l rn rlist) := by
  obtain ⟨hc, hg, -⟩ := encodeBlock_eq_iff.1 (rfl : encodeBlock c p u s wb l rn rlist = _)
  exact decodeArm_group4 hc hg

theorem decode_encode_bx : decode (encode (.armBx c rn)) = .armBx c rn := by
  change decodeArm (c.code ++ 0x12FFF1#24 ++ rn) = _
  generalize hw : (c.code ++ 0x12FFF1#24 ++ rn : Word) = w
  obtain ⟨hword, hrn⟩ := append_eq_iff.1 hw
  obtain ⟨hc, hbx⟩ := field_eq_append_iff.1 hword.symm
  have hm : w.getLsbD 7 = false := getLsbD_of_field hbx (b := 3) (by decide)
  rw [decodeArm_group0 hc (subfield hbx (b := 21) (by decide)), decodeGroup0_bx (by rw [hm]; rfl) hbx, hrn]

theorem decodeArm_branch {x : BitVec 24} :
    decodeArm (c.code ++ (5#3 ++ bit b) ++ x) = if b then .armBl c x else .armB c x := by
  generalize hw : (c.code ++ (5#3 ++ bit b) ++ x : Word) = w
  obtain ⟨hc, hop, hx⟩ := encodeOffset_eq_iff.1 hw
  obtain ⟨hg, h24⟩ := (field_eq_append_iff (n := 3) (m := 1)).1 hop
  rw [decodeArm_group5 hc hg, field_one_eq_bit_iff.1 h24, hx]

theorem decode_encode_swi {x : BitVec 24} : decode (encode (.armSwi c x)) = .armSwi c x := by
  change decodeArm (c.code ++ 0xF#4 ++ x) = _
  generalize hw : (c.code ++ 0xF#4 ++ x : Word) = w
  obtain ⟨hc, hop, hx⟩ := encodeOffset_eq_iff.1 hw
  have h24 : w.getLsbD 24 = true := getLsbD_of_field hop (b := 0) (by decide)
  rw [decodeArm_group7 hc (subfield hop (b := 1) (by decide)), h24, hx]
  rfl

theorem decodeArm_psr {imm : Bool} {t : BitVec 6} (hc : field w 28 4 = c.code) (h26 : field w 26 2 = 0#2)
    (h25 : w.getLsbD 25 = imm) (h23 : field w 23 2 = 2#2) (h20 : w.getLsbD 20 = false) (ht : field w 16 6 = t)
    (hm : imm = false → (w.getLsbD 7 && w.getLsbD 4) = false) (hbx : t ≠ 47#6) : decodeArm w = decodePsr c w imm := by
  have hbx' : field w 4 24 ≠ 0x12FFF1#24 := fun he => by
    obtain ⟨-, -, -, ht'⟩ := psr_of_bx he
    exact hbx (ht.symm.trans ht')
  rw [decodeArm_dpOrPsr hc h26 h25 hm hbx', decodeDpOrPsr_psr h23 h20]

theorem decode_encode_mrs {i : Bool} {sbz : BitVec 12} (h : (Instr.armMrs c i p rd sbz).WellFormed = true) :
    decode (encode (.armMrs c i p rd sbz)) = .armMrs c i p rd sbz := by
  obtain ⟨w, hw⟩ : ∃ w, encode (.armMrs c i p rd sbz) = .arm w := ⟨_, rfl⟩
  obtain ⟨hc, h26, h25, h23, h22, ht, hrd, hsbz⟩ := encode_mrs_eq_iff.1 hw
  have hm : i = false → (w.getLsbD 7 && w.getLsbD 4) = false := by
    rintro rfl
    have h7 : w.getLsbD 7 = sbz.getLsbD 7 := getLsbD_of_field hsbz (b := 7) (by decide)
    have h4 : w.getLsbD 4 = sbz.getLsbD 4 := getLsbD_of_field hsbz (b := 4) (by decide)
    rw [h7, h4]
    exact (Bool.not_eq_true' _).mp h
  have h20 : w.getLsbD 20 = false := getLsbD_of_field ht (b := 4) (by decide)
  rw [hw, decode, decodeArm_psr hc h26 h25 h23 h20 ht hm (by decide), decodePsr, ht, h22, hrd, hsbz]
  rfl

theorem decode_encode_msr {sbo : BitVec 4} {src : MsrSource} (h : (Instr.armMsr c p sbo src).WellFormed = true) :
    decode (encode (.armMsr c p sbo src)) = .armMsr c p sbo src := by
  obtain ⟨w, hw⟩ : ∃ w, encode (.armMsr c p sbo src) = .arm w := ⟨_, rfl⟩
  obtain ⟨hc, h26, h25, h23, h22, ht, hsbo, hbits⟩ := encode_msr_eq_iff.1 hw
  have h20 : w.getLsbD 20 = false := getLsbD_of_field ht (b := 4) (by decide)
  cases src with
  | imm rot imm8 =>
    obtain ⟨hrot, himm⟩ := field_eq_rotatedImm_iff.1 hbits
    rw [hw, decode, decodeArm_psr hc h26 h25 h23 h20 ht nofun (by decide), decodePsr, ht, h22, hsbo, hrot, himm]
    rfl
  | reg sbz rm =>
    obtain ⟨hsbz, hrm⟩ := (field_eq_append_iff (n := 8) (m := 4)).1 hbits
    have h7 : w.getLsbD 7 = sbz.getLsbD 3 := getLsbD_of_field hsbz (b := 3) (by decide)
    have h4 : w.getLsbD 4 = sbz.getLsbD 0 := getLsbD_of_field hsbz (b := 0) (by decide)
    have hm : (w.getLsbD 7 && w.getLsbD 4) = false := by
      rw [h7, h4]
      exact (Bool.not_eq_true' _).mp h
    rw [hw, decode, decodeArm_psr hc h26 h25 h23 h20 ht (fun _ => hm) (by decide), decodePsr, ht, h22, hsbo, hsbz, hrm]
    rfl

end Formats

/-! ### The ARM words that are no instruction -/

theorem decodeArm_undefinedMultiply (h : (Instr.armUndefinedMultiply w).WellFormed = true) :
    decodeArm w = .armUndefinedMultiply w := by
  obtain ⟨⟨c, hc⟩, hg, h23, h22, h7, h5, h4⟩ := wellFormed_undefinedMultiply_iff.1 h
  rw [decodeArm_group0 hc hg, decodeGroup0_multiply h7 h5 h4, decodeMultiplyFamily, h23, h22]
  rfl

theorem decodeArm_undefinedSwap (h : (Instr.armUndefinedSwap w).WellFormed = true) :
    decodeArm w = .armUndefinedSwap w := by
  obtain ⟨⟨c, hc⟩, ⟨hg, h24, h7, h5, h4⟩, hno⟩ := wellFormed_undefinedSwap_iff.1 h
  have h23 : field w 23 2 = bit true ++ bit (w.getLsbD 23) :=
    field_eq_append_iff.2 ⟨field_one_eq_bit_iff.2 h24, field_one_eq_bit_iff.2 rfl⟩
  rw [decodeArm_group0 hc hg, decodeGroup0_multiply h7 h5 h4, decodeMultiplyFamily, h23]
  cases hb : w.getLsbD 23
  · rw [hb] at h23
    have h20 : (field w 20 2 == 0) = false := beq_eq_false_iff_ne.2 fun h20 => hno ⟨h23, h20⟩
    rw [h20]
    rfl
  · rfl

theorem decodeArm_signedStore (h : (Instr.armInvalidSignedStore w).WellFormed = true) :
    decodeArm w = .armInvalidSignedStore w := by
  obtain ⟨⟨c, hc⟩, hg, h20, h7, h6, h4⟩ := wellFormed_signedStore_iff.1 h
  have h5 : field w 5 2 ≠ 0#2 := fun h5 =>
    absurd (h6.symm.trans (getLsbD_of_field h5 (b := 1) (by decide))) (by decide)
  rw [decodeArm_group0 hc hg, decodeGroup0_halfword h7 h5 h4, decodeHalfword, h20, h6]
  rfl

theorem decodeArm_msrFull (h : (Instr.armInvalidMsrFull w).WellFormed = true) :
    decodeArm w = .armInvalidMsrFull w := by
  obtain ⟨⟨c, hc⟩, h26, h23, ht, hm⟩ := wellFormed_msrFull_iff.1 h
  have h20 : w.getLsbD 20 = false := getLsbD_of_field ht (b := 4) (by decide)
  rw [decodeArm_psr hc h26 rfl h23 h20 ht hm (by decide), decodePsr, ht]
  rfl

theorem decodeArm_psrType (h : (Instr.armInvalidPsrType w).WellFormed = true) :
    decodeArm w = .armInvalidPsrType w := by
  obtain ⟨⟨c, hc⟩, h26, h23, h20, hm, hbx, hmrs, hmsr, hfull⟩ := wellFormed_psrType_iff.1 h
  rw [decodeArm_dpOrPsr hc h26 rfl hm hbx, decodeDpOrPsr_psr h23 h20, decodePsr, beq_eq_false_iff_ne.2 hmrs,
    beq_eq_false_iff_ne.2 hmsr, beq_eq_false_iff_ne.2 hfull]
  rfl

theorem decodeArm_undefinedTransfer (h : (Instr.armUndefinedTransfer w).WellFormed = true) :
    decodeArm w = .armUndefinedTransfer w := by
  obtain ⟨⟨c, hc⟩, hg, h4⟩ := wellFormed_undefinedTransfer_iff.1 h
  rw [decodeArm_group3 hc hg, h4]
  rfl

theorem decodeArm_unsupportedDataTransfer (h : (Instr.armUnsupportedDataTransfer w).WellFormed = true) :
    decodeArm w = .armUnsupportedDataTransfer w := by
  obtain ⟨⟨c, hc⟩, hg⟩ := wellFormed_unsupportedDataTransfer_iff.1 h
  exact decodeArm_group6 hc hg

theorem decodeArm_unsupportedOperation (h : (Instr.armUnsupportedOperation w).WellFormed = true) :
    decodeArm w = .armUnsupportedOperation w := by
  obtain ⟨⟨c, hc⟩, hg, h24⟩ := wellFormed_unsupportedOperation_iff.1 h
  rw [decodeArm_group7 hc hg, h24]
  rfl

/-- P = 0 with W = 1 is the T form (R335). -/
theorem tForm_eq_false : ∀ {p w : Bool}, transferBitsOk p w = true → (!p && w) = false := by decide

end Arm

/-! ### Every THUMB instruction -/

section Thumb
variable {h : Half}

theorem encodeThree_opcode {k : BitVec 7} {x y z : BitVec 3} :
    field (encodeThree k x y z) 13 3 = field k 4 3 ∧ field (encodeThree k x y z) 11 2 = field k 2 2 ∧
    field (encodeThree k x y z) 9 2 = field k 0 2 ∧ field (encodeThree k x y z) 10 3 = field k 1 3 ∧
    field (encodeThree k x y z) 9 3 = field k 0 3 := by
  obtain ⟨hk, -⟩ := encodeThree_eq_iff.1 (rfl : encodeThree k x y z = _)
  exact ⟨subfield hk (b := 4) (by decide), subfield hk (b := 2) (by decide), subfield hk (b := 0) (by decide),
    subfield hk (b := 1) (by decide), subfield hk (b := 0) (by decide)⟩

theorem encodeFive_opcode {k f : BitVec 5} {rb rd : LowIdx} :
    field (encodeFive k f rb rd) 13 3 = field k 2 3 ∧ field (encodeFive k f rb rd) 11 2 = field k 0 2 := by
  obtain ⟨hk, -⟩ := encodeFive_eq_iff.1 (rfl : encodeFive k f rb rd = _)
  exact ⟨subfield hk (b := 2) (by decide), subfield hk (b := 0) (by decide)⟩

theorem encodeByte_opcode {k : BitVec 5} {rd : LowIdx} {x : BitVec 8} :
    field (encodeByte k rd x) 13 3 = field k 2 3 ∧ field (encodeByte k rd x) 11 2 = field k 0 2 ∧
    (encodeByte k rd x).getLsbD 12 = k.getLsbD 1 ∧ (encodeByte k rd x).getLsbD 11 = k.getLsbD 0 := by
  obtain ⟨hk, -⟩ := encodeByte_eq_iff.1 (rfl : encodeByte k rd x = _)
  exact ⟨subfield hk (b := 2) (by decide), subfield hk (b := 0) (by decide), getLsbD_of_field hk (b := 1) (by decide),
    getLsbD_of_field hk (b := 0) (by decide)⟩

theorem decodeThumb_encodeT4 {op : BitVec 4} {rs rd : LowIdx} :
    decodeThumb (encodeT4 op rs rd) = decodeT4 (encodeT4 op rs rd) := by
  generalize hw : encodeT4 op rs rd = h
  obtain ⟨hk, -⟩ := encodeT4_eq_iff.1 hw
  have hv : field h 10 3 = 0#3 := subfield hk (b := 0) (by decide)
  rw [decodeThumb_group2 (subfield hk (b := 3) (by decide)), decodeThumb2, hv]
  rfl

theorem decodeThumb_t5 (hk : field h 10 6 = 0x11#6) : decodeThumb h = decodeT5 h := by
  have hv : field h 10 3 = 1#3 := subfield hk (b := 0) (by decide)
  rw [decodeThumb_group2 (subfield hk (b := 3) (by decide)), decodeThumb2, hv]
  rfl

theorem decodeThumb_encodeT5 {op : BitVec 2} {rs : RegIdx} {h1 : BitVec 1} {low : BitVec 3} :
    decodeThumb (encodeT5 op rs h1 low) = decodeT5 (encodeT5 op rs h1 low) := by
  obtain ⟨hk, -⟩ := encodeT5_eq_iff.1 (rfl : encodeT5 op rs h1 low = _)
  exact decodeThumb_t5 hk

theorem encodeT5_source {op : BitVec 2} {rs : RegIdx} {h1 : BitVec 1} {low : BitVec 3} :
    field (encodeT5 op rs h1 low) 6 1 ++ field (encodeT5 op rs h1 low) 3 3 = rs := by
  obtain ⟨-, -, -, hrs, -⟩ := encodeT5_eq_iff.1 (rfl : encodeT5 op rs h1 low = _)
  exact ((field_eq_append_iff (n := 1) (m := 3)).2 ⟨rfl, rfl⟩).symm.trans hrs

theorem encodeT5_notBothLow {op : BitVec 2} {rs rd : RegIdx} {low : BitVec 3} (h : notBothLow rs rd = true) :
    (field (encodeT5 op rs (field rd 3 1) low) 6 2 == 0#2) = false := by
  obtain ⟨-, -, h1, hrs, -⟩ := encodeT5_eq_iff.1 (rfl : encodeT5 op rs (field rd 3 1) low = _)
  rw [beq_eq_false_iff_ne]
  intro h0
  have hs := (getLsbD_of_field hrs (b := 3) (by decide)).symm.trans (getLsbD_of_field h0 (b := 0) (by decide))
  have hd := (getLsbD_field rd (by decide : 0 < 1)).symm.trans
    ((getLsbD_of_field h1 (b := 0) (by decide)).symm.trans (getLsbD_of_field h0 (b := 1) (by decide)))
  rw [notBothLow, hs, hd] at h
  exact absurd h (by decide)

theorem decode_encode_thumbBx {rs : RegIdx} {sbz : BitVec 3} :
    decode (encode (.thumbBx rs sbz)) = .thumbBx rs sbz := by
  obtain ⟨-, h8, h1, -, hlow⟩ := encodeT5_eq_iff.1 (rfl : encodeT5 3#2 rs 0#1 sbz = _)
  have h7 : (encodeT5 3#2 rs 0#1 sbz).getLsbD 7 = false := field_one_eq_bit_iff.1 h1
  rw [encode, decode, decodeThumb_encodeT5, decodeT5, encodeT5_source, h8, h7, hlow]
  rfl

theorem decodeThumb_bxH1 (hi : (Instr.thumbInvalidBxH1 h).WellFormed = true) :
    decodeThumb h = .thumbInvalidBxH1 h := by
  have hk := wellFormed_bxH1_iff.1 hi
  have h8 : field h 8 2 = 3#2 := subfield hk (b := 1) (by decide)
  have h7 : h.getLsbD 7 = true := getLsbD_of_field hk (b := 0) (by decide)
  rw [decodeThumb_t5 (subfield hk (b := 3) (by decide)), decodeT5, h8, h7]
  rfl

theorem decode_encode_ldrPc {rd : LowIdx} {off : BitVec 10} (hs : scaled off 2 = true) :
    decode (encode (.thumbLdrPc rd off)) = .thumbLdrPc rd off := by
  change decodeThumb (encodeByte 9#5 rd (field off 2 8)) = _
  generalize hw : encodeByte 9#5 rd (field off 2 8) = h
  obtain ⟨hk, hrd, hoff⟩ := encodeByte_eq_iff.1 hw
  have hv {b : Bool} (hb : h.getLsbD 10 = b) : field h 10 3 = 1#2 ++ bit b :=
    (field_eq_append_iff (n := 2) (m := 1)).2 ⟨subfield hk (b := 0) (by decide), field_one_eq_bit_iff.2 hb⟩
  have hoff' : field h 0 8 ++ 0#2 = off := hoff ▸ append_zero_of_scaled (n := 8) (k := 2) hs
  rw [decodeThumb_group2 (subfield hk (b := 2) (by decide)), decodeThumb2]
  cases hb : h.getLsbD 10 <;> rw [hv hb, hrd, hoff'] <;> rfl

theorem decode_encode_adjustSp {s : Bool} {m : BitVec 9} (hs : scaled m 2 = true) :
    decode (encode (.thumbAdjustSp s m)) = .thumbAdjustSp s m := by
  change decodeThumb (0xB0#8 ++ bit s ++ field m 2 7) = _
  generalize hw : (0xB0#8 ++ bit s ++ field m 2 7 : Half) = h
  obtain ⟨hk, h7, hm⟩ := adjustSp_eq_iff.1 hw
  have h12 : h.getLsbD 12 = true := getLsbD_of_field hk (b := 4) (by decide)
  have h8 : field h 8 4 = 0#4 := subfield hk (b := 0) (by decide)
  have hm' : field h 0 7 ++ 0#2 = m := hm ▸ append_zero_of_scaled (n := 7) (k := 2) hs
  rw [decodeThumb_group5 (subfield hk (b := 5) (by decide)), decodeThumb5, h12, h8, h7, hm']
  rfl

theorem decodeThumb_pushPop {pop r : Bool} {rlist : BitVec 8} :
    decodeThumb (0xB#4 ++ bit pop ++ 2#2 ++ bit r ++ rlist) =
      if pop then .thumbPop r rlist else .thumbPush r rlist := by
  generalize hw : (0xB#4 ++ bit pop ++ 2#2 ++ bit r ++ rlist : Half) = h
  obtain ⟨hk, h8, hrlist⟩ := append_bit_append_eq_iff.1 hw
  obtain ⟨hk5, h9⟩ := (field_eq_append_iff (n := 5) (m := 2)).1 hk
  obtain ⟨hk4, h11⟩ := (field_eq_append_iff (n := 4) (m := 1)).1 hk5
  have h12 : h.getLsbD 12 = true := getLsbD_of_field hk4 (b := 0) (by decide)
  have hadj : (field h 8 4 == 0#4) = false := beq_eq_false_iff_ne.2 fun h0 => by
    exact absurd (h9.symm.trans (subfield h0 (b := 1) (by decide))) (by decide)
  rw [decodeThumb_group5 (subfield hk4 (b := 1) (by decide)), decodeThumb5, h12, hadj, h9,
    field_one_eq_bit_iff.1 h11, h8, hrlist]
  rfl

theorem decodeThumb_undefined1011 (hi : (Instr.thumbUndefined1011 h).WellFormed = true) :
    decodeThumb h = .thumbUndefined1011 h := by
  obtain ⟨hk, hadj, hpp⟩ := wellFormed_undefined1011_iff.1 hi
  have h12 : h.getLsbD 12 = true := getLsbD_of_field hk (b := 0) (by decide)
  rw [decodeThumb_group5 (subfield hk (b := 1) (by decide)), decodeThumb5, h12, beq_eq_false_iff_ne.2 hadj,
    beq_eq_false_iff_ne.2 hpp]
  rfl

theorem decodeThumb_of_conditional (hk : field h 12 4 = 0xD#4) : decodeThumb h = decodeT16T17 h := by
  have h12 : h.getLsbD 12 = true := getLsbD_of_field hk (b := 0) (by decide)
  rw [decodeThumb_group6 (subfield hk (b := 1) (by decide)), decodeThumb6, h12]
  rfl

theorem decodeThumb_encodeT16 {op : BitVec 4} {off : BitVec 9} :
    decodeThumb (encodeT16 op off) = decodeT16T17 (encodeT16 op off) := by
  obtain ⟨hk, -⟩ := encodeT16_eq_iff.1 (rfl : encodeT16 op off = _)
  exact decodeThumb_of_conditional hk

theorem decode_encode_thumbSwi {imm8 : BitVec 8} : decode (encode (.thumbSwi imm8)) = .thumbSwi imm8 := by
  change decodeThumb (0xDF#8 ++ imm8) = _
  generalize hw : (0xDF#8 ++ imm8 : Half) = h
  obtain ⟨hk, himm⟩ := append_eq_iff.1 hw
  have h8 : field h 8 4 = 0xF#4 := subfield hk.symm (b := 0) (by decide)
  rw [decodeThumb_of_conditional (subfield hk.symm (b := 4) (by decide)), decodeT16T17, h8, himm]
  rfl

theorem decodeThumb_undefinedCond14 (hi : (Instr.thumbUndefinedCond14 h).WellFormed = true) :
    decodeThumb h = .thumbUndefinedCond14 h := by
  have hk := wellFormed_undefinedCond14_iff.1 hi
  have h8 : field h 8 4 = 0xE#4 := subfield hk (b := 0) (by decide)
  rw [decodeThumb_of_conditional (subfield hk (b := 4) (by decide)), decodeT16T17, h8]
  rfl

theorem decodeThumb_undefined11101 (hi : (Instr.thumbUndefined11101 h).WellFormed = true) :
    decodeThumb h = .thumbUndefined11101 h := by
  have hk := wellFormed_undefined11101_iff.1 hi
  have h11 : field h 11 2 = 1#2 := subfield hk (b := 0) (by decide)
  rw [decodeThumb_group7 (subfield hk (b := 2) (by decide)), decodeThumb7, h11]
  rfl

theorem longBranch_fields {k : BitVec 5} {x : BitVec 11} :
    field (k ++ x : Half) 13 3 = field k 2 3 ∧ field (k ++ x : Half) 11 2 = field k 0 2 ∧
    field (k ++ x : Half) 0 11 = x := by
  obtain ⟨hk, hx⟩ := append_eq_iff.1 (rfl : k ++ x = _)
  exact ⟨subfield hk.symm (b := 2) (by decide), subfield hk.symm (b := 0) (by decide), hx.symm⟩

end Thumb

/-- Settles O1: the fields of each encoding lead the decoder to the branch that reads the operands back. -/
theorem encodingsDecodeBack : Obligations.EncodingsDecodeBack := by
  intro i hi
  cases i with
  | armLdm c p u s wb rn rlist | armStm c p u s wb rn rlist =>
     simp only [decode, encode, decodeArm_encodeBlock, decodeBlockTransfer, encodeBlock_eq_iff.1 rfl]
     rfl
  | armMul c s rd rn rs rm | armMla c s rd rn rs rm =>
    rw [encode, decode, decodeArm_encodeMultiply rfl]
    simp only [decodeMultiplyFamily, encodeMultiply_opcode, encodeMultiply_eq_iff.1 rfl]
    rfl
  | armUmull c s hi lo rs rm | armUmlal c s hi lo rs rm | armSmull c s hi lo rs rm | armSmlal c s hi lo rs rm =>
    rw [encode, decode, decodeArm_encodeMultiply rfl]
    simp only [decodeMultiplyFamily, encodeMultiply_opcode, encodeMultiply_eq_iff.1 rfl]
    rfl
  | armSwp | armSwpb => exact decodeArm_encodeSwap
  | armStrh c p u w rn rd off | armLdrh c p u w rn rd off | armLdrsb c p u w rn rd off | armLdrsh c p u w rn rd off =>
    rw [encode, decode, decodeArm_encodeHalfword (by decide)]
    simp only [decodeHalfword, encodeHalfword_opcode, encodeHalfword_eq_iff.1 rfl]
    rfl
  | armAnd c s rn rd op2 | armEor c s rn rd op2 | armSub c s rn rd op2 | armRsb c s rn rd op2
  | armAdd c s rn rd op2 | armAdc c s rn rd op2 | armSbc c s rn rd op2 | armRsc c s rn rd op2
  | armOrr c s rn rd op2 | armMov c s rn rd op2 | armBic c s rn rd op2 | armMvn c s rn rd op2 =>
    rw [encode, decode, decodeArm_encodeDp]
    · simp only [decodeDataProcessing, operand2Of_encodeDp, encodeDp_eq_iff.1 rfl]
      rfl
    · exact fun h => absurd h (by decide)
  | armTst c rn rd op2 | armTeq c rn rd op2 | armCmp c rn rd op2 | armCmn c rn rd op2 =>
    rw [encode, decode, decodeArm_encodeDp fun _ => rfl]
    simp only [decodeDataProcessing, operand2Of_encodeDp, encodeDp_eq_iff.1 rfl]
    rfl
  | armLdrt c u rn rd off | armStrt c u rn rd off | armLdrbt c u rn rd off | armStrbt c u rn rd off =>
    rw [encode, decode, decodeArm_encodeSingle]
    simp only [decodeSingleTransfer, offsetOf_encodeSingle, encodeSingle_eq_iff.1 rfl]
    rfl
  | armLdr c p u w rn rd off | armStr c p u w rn rd off | armLdrb c p u w rn rd off | armStrb c p u w rn rd off =>
    rw [encode, decode, decodeArm_encodeSingle]
    simp only [decodeSingleTransfer, offsetOf_encodeSingle, encodeSingle_eq_iff.1 rfl, tForm_eq_false hi]
    rfl
  | armBl => exact decodeArm_branch (b := true)
  | armB => exact decodeArm_branch (b := false)
  | armBx => exact decode_encode_bx
  | armSwi => exact decode_encode_swi
  | armMrs => exact decode_encode_mrs hi
  | armMsr => exact decode_encode_msr hi
  | armInvalidNvCondition raw => exact decodeArm_nv (matches_nvCondition.1 hi)
  | armUndefinedMultiply raw => exact decodeArm_undefinedMultiply hi
  | armUndefinedSwap raw => exact decodeArm_undefinedSwap hi
  | armInvalidSignedStore raw => exact decodeArm_signedStore hi
  | armInvalidMsrFull raw => exact decodeArm_msrFull hi
  | armInvalidPsrType raw => exact decodeArm_psrType hi
  | armUndefinedTransfer raw => exact decodeArm_undefinedTransfer hi
  | armUnsupportedDataTransfer raw => exact decodeArm_unsupportedDataTransfer hi
  | armUnsupportedOperation raw => exact decodeArm_unsupportedOperation hi
  | thumbLslImm off5 rs rd | thumbLsrImm off5 rs rd | thumbAsrImm off5 rs rd =>
    simp only [encode, decode, decodeThumb, decodeThumb0, encodeFive_opcode, encodeFive_eq_iff.1 rfl]
    rfl
  | thumbAddReg rn rs rd | thumbSubReg rn rs rd | thumbAddImm3 rn rs rd | thumbSubImm3 rn rs rd =>
    simp only [encode, decode, decodeThumb, decodeThumb0, encodeThree_opcode, encodeThree_eq_iff.1 rfl]
    rfl
  | thumbMovImm8 rd imm8 | thumbCmpImm8 rd imm8 | thumbAddImm8 rd imm8 | thumbSubImm8 rd imm8 =>
    simp only [encode, decode, decodeThumb, decodeThumb1, encodeByte_opcode, encodeByte_eq_iff.1 rfl]
    rfl
  | thumbAnd rs rd | thumbEor rs rd | thumbLslReg rs rd | thumbLsrReg rs rd | thumbAsrReg rs rd | thumbAdc rs rd
  | thumbSbc rs rd | thumbRorReg rs rd | thumbTst rs rd | thumbNeg rs rd | thumbCmpReg rs rd | thumbCmn rs rd
  | thumbOrr rs rd | thumbMul rs rd | thumbBic rs rd | thumbMvn rs rd =>
    simp only [encode, decode, decodeThumb_encodeT4, decodeT4, encodeT4_eq_iff.1 rfl]
    rfl
  | thumbStrReg ro rb rd | thumbStrbReg ro rb rd | thumbLdrReg ro rb rd | thumbLdrbReg ro rb rd
  | thumbStrhReg ro rb rd | thumbLdrhReg ro rb rd | thumbLdsbReg ro rb rd | thumbLdshReg ro rb rd =>
    simp only [encode, decode, decodeThumb, decodeThumb2, decodeT7T8, encodeThree_opcode, encodeThree_eq_iff.1 rfl]
    rfl
  | thumbStrbImm off rb rd | thumbLdrbImm off rb rd =>
    simp only [encode, decode, decodeThumb, decodeThumb3, encodeFive_opcode, encodeFive_eq_iff.1 rfl]
    rfl
  | thumbStrImm off rb rd | thumbLdrImm off rb rd =>
    simp only [encode, decode, decodeThumb, decodeThumb3, encodeFive_opcode, encodeFive_eq_iff.1 rfl,
      append_zero_of_scaled (n := 5) (k := 2) hi]
    rfl
  | thumbStrhImm off rb rd | thumbLdrhImm off rb rd =>
    simp only [encode, decode, decodeThumb, decodeThumb4, encodeFive_opcode, encodeFive_eq_iff.1 rfl,
      append_zero_of_scaled (n := 5) (k := 1) hi]
    rfl
  | thumbStrSp rd off | thumbLdrSp rd off =>
    simp only [encode, decode, decodeThumb, decodeThumb4, encodeByte_opcode, encodeByte_eq_iff.1 rfl,
      append_zero_of_scaled (n := 8) (k := 2) hi]
    rfl
  | thumbAddSp rd off | thumbAddPc rd off =>
    simp only [encode, decode, decodeThumb, decodeThumb5, encodeByte_opcode, encodeByte_eq_iff.1 rfl,
      append_zero_of_scaled (n := 8) (k := 2) hi]
    rfl
  | thumbStmia rb rlist | thumbLdmia rb rlist =>
    simp only [encode, decode, decodeThumb, decodeThumb6, encodeByte_opcode, encodeByte_eq_iff.1 rfl]
    rfl
  | thumbAddHi rs rd | thumbCmpHi rs rd | thumbMovHi rs rd =>
    have hrd : field rd 3 1 ++ field rd 0 3 = rd := append_eq_iff.2 ⟨rfl, rfl⟩
    simp only [encode, decode, decodeThumb_encodeT5, decodeT5, encodeT5_source, encodeT5_notBothLow hi,
      encodeT5_eq_iff.1 rfl, hrd]
    rfl
  | thumbBx => exact decode_encode_thumbBx
  | thumbLdrPc => exact decode_encode_ldrPc hi
  | thumbAdjustSp => exact decode_encode_adjustSp hi
  | thumbPush => exact decodeThumb_pushPop (pop := false)
  | thumbPop => exact decodeThumb_pushPop (pop := true)
  | thumbUndefined1011 => exact decodeThumb_undefined1011 hi
  | thumbSwi => exact decode_encode_thumbSwi
  | thumbUndefinedCond14 => exact decodeThumb_undefinedCond14 hi
  | thumbUndefined11101 => exact decodeThumb_undefined11101 hi
  | thumbBeq off | thumbBne off | thumbBcs off | thumbBcc off | thumbBmi off | thumbBpl off | thumbBvs off
  | thumbBvc off | thumbBhi off | thumbBls off | thumbBge off | thumbBlt off | thumbBgt off | thumbBle off =>
    simp only [encode, decode, decodeThumb_encodeT16, decodeT16T17, encodeT16_eq_iff.1 rfl,
      append_zero_of_scaled (n := 8) (k := 1) hi]
    rfl
  | thumbB off | thumbBlLow off =>
    simp only [encode, decode, decodeThumb, decodeThumb7, longBranch_fields,
      append_zero_of_scaled (n := 11) (k := 1) hi]
    rfl
  | thumbBlHigh off =>
    simp only [encode, decode, decodeThumb, decodeThumb7, longBranch_fields,
      append_zero_of_scaled (n := 11) (k := 12) hi]
    rfl
  | thumbInvalidHiAdd raw =>
    obtain ⟨hk, h8, h6⟩ := (matches_hiRegNone (op := 0#2)).1 hi
    rw [encode, decode, decodeThumb_t5 hk, decodeT5, h8, h6]
    rfl
  | thumbInvalidHiCmp raw =>
    obtain ⟨hk, h8, h6⟩ := (matches_hiRegNone (op := 1#2)).1 hi
    rw [encode, decode, decodeThumb_t5 hk, decodeT5, h8, h6]
    rfl
  | thumbInvalidHiMov raw =>
    obtain ⟨hk, h8, h6⟩ := (matches_hiRegNone (op := 2#2)).1 hi
    rw [encode, decode, decodeThumb_t5 hk, decodeT5, h8, h6]
    rfl
  | thumbInvalidBxH1 raw => exact decodeThumb_bxH1 hi

end Sys2Proof.Proofs
end

section
/-! PROOFS. Sample words, and the condition field (30_encoding.md R101, R103). -/

namespace Sys2Proof.Proofs

open Sys2Proof.Machine Sys2Proof.Laws

/-- Settles O3: the words are closed, and each is decoded by evaluation. -/
theorem sampleWordsDecode : Obligations.SampleWordsDecode :=
  ⟨rfl, rfl, rfl, rfl, rfl, rfl, rfl⟩

/-- Every conditional instruction's word holds its condition code, by the law of its constructor. -/
theorem condField_statement (i : Instr) : CondField.Statement i := by
  cases i with
  | armMul => apply CondField.armMul
  | armMla => apply CondField.armMla
  | armUmull => apply CondField.armUmull
  | armUmlal => apply CondField.armUmlal
  | armSmull => apply CondField.armSmull
  | armSmlal => apply CondField.armSmlal
  | armSwp => apply CondField.armSwp
  | armSwpb => apply CondField.armSwpb
  | armStrh => apply CondField.armStrh
  | armLdrh => apply CondField.armLdrh
  | armLdrsb => apply CondField.armLdrsb
  | armLdrsh => apply CondField.armLdrsh
  | armBx => apply CondField.armBx
  | armMrs => apply CondField.armMrs
  | armMsr => apply CondField.armMsr
  | armAnd => apply CondField.armAnd
  | armEor => apply CondField.armEor
  | armSub => apply CondField.armSub
  | armRsb => apply CondField.armRsb
  | armAdd => apply CondField.armAdd
  | armAdc => apply CondField.armAdc
  | armSbc => apply CondField.armSbc
  | armRsc => apply CondField.armRsc
  | armTst => apply CondField.armTst
  | armTeq => apply CondField.armTeq
  | armCmp => apply CondField.armCmp
  | armCmn => apply CondField.armCmn
  | armOrr => apply CondField.armOrr
  | armMov => apply CondField.armMov
  | armBic => apply CondField.armBic
  | armMvn => apply CondField.armMvn
  | armStrt => apply CondField.armStrt
  | armLdrt => apply CondField.armLdrt
  | armStrbt => apply CondField.armStrbt
  | armLdrbt => apply CondField.armLdrbt
  | armStr => apply CondField.armStr
  | armLdr => apply CondField.armLdr
  | armStrb => apply CondField.armStrb
  | armLdrb => apply CondField.armLdrb
  | armStm => apply CondField.armStm
  | armLdm => apply CondField.armLdm
  | armB => apply CondField.armB
  | armBl => apply CondField.armBl
  | armSwi => apply CondField.armSwi
  | _ =>
    intro c hc
    cases hc

/-- Settles O4: condition code 15 is tested first, and a decoded instruction's encoding, the word itself, holds its
condition code. -/
theorem nvWordsAreInvalid : Obligations.NvWordsAreInvalid := by
  refine fun w => ⟨decodeArm_nv, fun c hc => ?_⟩
  obtain ⟨w', henc, hcode⟩ := condField_statement (decodeArm w) c hc
  obtain ⟨-, hw⟩ := decodeArm_encodesTo w
  obtain rfl : w' = w := Encoding.arm.inj (henc.symm.trans hw)
  exact hcode.symm

end Sys2Proof.Proofs
end

section
/-! PROOFS. Should-be-zero and should-be-one fields (30_encoding.md R182). -/

namespace Sys2Proof.Proofs

open Sys2Proof.Machine Sys2Proof.Laws

/-! ### Rules with a wrong fixed field -/

theorem checkSbz_bind {s : State} {bad : Bool} (hz : s.sbzCheck = true) (hbad : bad = true) {α : Type}
    (f : Unit → Except Stop α) : (s.checkSbz bad >>= f) = .error (.refuse .shouldBeZero) := by
  rw [State.checkSbz, hz, hbad]
  rfl

theorem refuseIf_bind {b : Bool} (hb : b = false) (r : Refusal) {α : Type} (f : Unit → Except Stop α) :
    (refuseIf b r >>= f) = f () := by
  rw [hb]
  rfl

/-- A condition that passes leaves a rule's refusal as the instruction's. -/
theorem conditional_refuse {c : Cond} {s : State} {body : Except Stop State} {r : Refusal}
    (hc : evaluate c s.flags = true) (h : body = .error (.refuse r)) : conditional c s body = .refused r := by
  rw [conditional_pass body hc, h]
  rfl

theorem isNone_eq_false {α : Type} {o : Option α} (h : o ≠ none) : o.isNone = false :=
  Bool.eq_false_of_not_eq_true (mt Option.isNone_iff_eq_none.1 h)

section WrongFixedField
variable {s : State} (hz : s.sbzCheck = true)
include hz

theorem multiply_shouldBeZero {f : Bool} {rd rn rs rm : RegIdx} (hn : rn ≠ 0#4) :
    multiply false f rd rn rs rm s = .error (.refuse .shouldBeZero) :=
  checkSbz_bind hz (bne_iff_ne.2 hn) _

theorem swap_shouldBeZero {width : Width} {rn rd rm : RegIdx} {sbz : BitVec 4} (hb : sbz ≠ 0#4) :
    swap width rn rd sbz rm s = .error (.refuse .shouldBeZero) :=
  checkSbz_bind hz (bne_iff_ne.2 hb) _

theorem halfwordTransfer_shouldBeZero {load : Bool} {width : Width} {signed p u w : Bool} {rn rd rm : RegIdx}
    {sbz : BitVec 4} (hb : sbz ≠ 0#4) :
    halfwordTransfer load width signed p u w rn rd (.reg sbz rm) s = .error (.refuse .shouldBeZero) :=
  checkSbz_bind hz (bne_iff_ne.2 hb) _

theorem thumbBranchExchange_shouldBeZero {rs : RegIdx} {sbz : BitVec 3} (hb : sbz ≠ 0#3) :
    thumbBranchExchange rs sbz s = .error (.refuse .shouldBeZero) :=
  checkSbz_bind hz (bne_iff_ne.2 hb) _

/-- A copy of the SPSR to the CPSR passes both its checks in profile arm7tdmi when there is an SPSR. -/
theorem dataProcessing_shouldBeZero {op : AluOp} {f : Bool} {rn rd : RegIdx} {op2 : Operand2}
    (hbad : dpBadSbz op rn rd = true)
    (hspsr : f = true → rd = 15#4 → s.profile = .arm7tdmi ∧ s.spsrNow ≠ none) :
    dataProcessing op f rn rd op2 s = .error (.refuse .shouldBeZero) := by
  have hcopy : (f && rd == 15#4) = true → s.isReference = false ∧ s.spsrNow.isNone = false := by
    rw [Bool.and_eq_true, beq_iff_eq]
    rintro ⟨hf, hd⟩
    obtain ⟨hp, hs⟩ := hspsr hf hd
    exact ⟨isReference_arm7tdmi hp, isNone_eq_false hs⟩
  have hr : (f && rd == 15#4 && s.isReference) = false := by
    cases h : f && rd == 15#4
    · rfl
    · exact (hcopy h).1
  have hn : (f && rd == 15#4 && s.spsrNow.isNone) = false := by
    cases h : f && rd == 15#4
    · rfl
    · exact (hcopy h).2
  rw [dataProcessing, refuseIf_bind hr, refuseIf_bind hn, checkSbz_bind hz hbad]

theorem moveFromPsr_shouldBeZero {p : Bool} {rd : RegIdx} {sbz : BitVec 12} (hb : sbz ≠ 0#12)
    (hp : s.profile = .arm7tdmi) (hspsr : p = true → s.spsrNow ≠ none) :
    moveFromPsr p rd sbz s = .error (.refuse .shouldBeZero) := by
  rw [moveFromPsr, refuseIf_bind (isReference_arm7tdmi hp)]
  cases p with
  | false => exact checkSbz_bind hz (bne_iff_ne.2 hb) _
  | true =>
    obtain ⟨psr, h⟩ := Option.ne_none_iff_exists'.1 (hspsr rfl)
    rw [State.needSpsr, h]
    exact checkSbz_bind hz (bne_iff_ne.2 hb) _

theorem moveToPsr_shouldBeZero {p : Bool} {sbo : BitVec 4} {src : MsrSource} (hbad : msrBadSbz sbo src = true)
    (hspsr : p = true → s.profile = .arm7tdmi ∧ s.spsrNow ≠ none) :
    moveToPsr p sbo src s = .error (.refuse .shouldBeZero) := by
  have hr : (p && s.isReference) = false := by
    cases p with
    | false => rfl
    | true => exact isReference_arm7tdmi (hspsr rfl).1
  have hn : (p && s.spsrNow.isNone) = false := by
    cases p with
    | false => rfl
    | true => exact isNone_eq_false (hspsr rfl).2
  rw [moveToPsr, refuseIf_bind hr, refuseIf_bind hn, checkSbz_bind hz hbad]

end WrongFixedField

/-- Settles O20: each rule tests its fixed fields before anything else that could stop it, but for the checks of the
SPSR, which the hypotheses pass. -/
theorem wrongFixedFieldsAreRefused : Obligations.WrongFixedFieldsAreRefused := by
  intro s c hz hc
  refine ⟨?_, ?_, ?_, ?_, ?_, ?_, ?_, ?_⟩
  · intro f rd rn rs rm hn
    exact conditional_refuse hc (multiply_shouldBeZero hz hn)
  · intro rn rd sbz rm hb
    exact ⟨conditional_refuse hc (swap_shouldBeZero hz hb), conditional_refuse hc (swap_shouldBeZero hz hb)⟩
  · intro f rn rd op2 hn hspsr
    have hbad : ∀ op : AluOp, op.readsRn = false → dpBadSbz op rn rd = true := fun op hop => by simp [dpBadSbz, hop, hn]
    exact ⟨conditional_refuse hc (dataProcessing_shouldBeZero hz (hbad _ rfl) hspsr),
      conditional_refuse hc (dataProcessing_shouldBeZero hz (hbad _ rfl) hspsr)⟩
  · intro rn rd op2 hd hspsr
    have hcmp {op : AluOp} (hop : op.writes = false) :
        conditional c s (dataProcessing op true rn rd op2 s) = .refused .shouldBeZero :=
      have hbad : dpBadSbz op rn rd = true := by simp [dpBadSbz, hop, hd]
      conditional_refuse hc (dataProcessing_shouldBeZero hz hbad fun _ => hspsr)
    exact ⟨hcmp rfl, hcmp rfl, hcmp rfl, hcmp rfl⟩
  · intro i p rd sbz hb hp hspsr
    exact conditional_refuse hc (moveFromPsr_shouldBeZero hz hb hp hspsr)
  · intro p sbo hspsr
    have hmsr {src : MsrSource} (hbad : msrBadSbz sbo src = true) :
        exec (.armMsr c p sbo src) s = .refused .shouldBeZero :=
      conditional_refuse hc (moveToPsr_shouldBeZero hz hbad hspsr)
    refine ⟨fun rot imm8 hb => hmsr ?_, fun sbz rm hb => hmsr ?_⟩
    · simp [msrBadSbz, hb]
    · simpa [msrBadSbz] using hb
  · intro p u w rn rd sbz rm hb
    have hhalf {load : Bool} {width : Width} {signed : Bool} :
        conditional c s (halfwordTransfer load width signed p u w rn rd (.reg sbz rm) s) = .refused .shouldBeZero :=
      conditional_refuse hc (halfwordTransfer_shouldBeZero hz hb)
    exact ⟨hhalf, hhalf, hhalf, hhalf⟩
  · intro rs sbz hb
    exact congrArg finish (thumbBranchExchange_shouldBeZero hz hb)

end Sys2Proof.Proofs
end

section
/-! PROOFS. The shifter, the condition evaluator and the second operand (40_shifter_condition_alu.md R200 to R216,
R235). -/

namespace Sys2Proof.Proofs

open Sys2Proof.Machine Sys2Proof.Laws

/-! ### Rotation, the sign and the extended rotate, bit by bit -/

theorem ror_eq_rotateRight (x : Word) (n : Nat) : ror x n = x.rotateRight n := rfl

theorem getLsbD_ror (x : Word) (n : Nat) {k : Nat} (hk : k < 32) :
    (ror x n).getLsbD k = x.getLsbD ((k + n) % 32) := by
  rw [ror_eq_rotateRight, BitVec.getLsbD_rotateRight]
  rcases Nat.lt_or_ge k (32 - n % 32) with hlow | hwrap
  · have hsrc : n % 32 + k = (k + n) % 32 := by omega
    rw [decide_eq_true hlow, cond_true, hsrc]
  · have hsrc : k - (32 - n % 32) = (k + n) % 32 := by omega
    rw [decide_eq_false (Nat.not_lt.2 hwrap), cond_false, decide_eq_true hk, Bool.true_and, hsrc]

theorem msb_eq_bit31 (x : Word) : x.msb = x.getLsbD 31 := BitVec.msb_eq_getLsbD_last x

theorem signFill_eq (x : Word) : signFill x = if x.getLsbD 31 then 0xFFFFFFFF#32 else 0#32 := by
  rw [signFill, msb_eq_bit31]

/-- R207: every bit moves down one and the carry in enters at the top. -/
theorem getLsbD_rrx (x : Word) (cIn : Bool) {k : Nat} (hk : k < 32) :
    (shiftImmZero x .ror cIn).value.getLsbD k = if k = 31 then cIn else x.getLsbD (k + 1) := by
  rw [shiftImmZero, BitVec.getLsbD_or, BitVec.getLsbD_shiftLeft, BitVec.getLsbD_setWidth, BitVec.getLsbD_ofBool,
    BitVec.getLsbD_ushiftRight]
  split
  · next htop =>
    subst htop
    simp
  · next htop =>
    have hlow : k < 31 := by omega
    simp [hlow, Nat.add_comm]

/-- Settles O25: the model's rotate is the library's, whose bits are known; bit 31 is the sign bit. -/
theorem rotatedImmediate : Obligations.RotatedImmediate := by
  intro imm8 rot cIn
  refine ⟨fun k hk => getLsbD_ror _ _ hk, ?_⟩
  rw [← msb_eq_bit31]
  rfl

/-! ### The register form, by the ranges of its amount -/

section RegisterForm
variable {x : Word} {ty : ShiftType} {cIn : Bool} {b : Byte}

theorem shifterReg_imm {n : BitVec 5} (h : n ≠ 0#5) : shifterReg x ty (.imm n) cIn = shiftBy x ty n.toNat := if_neg h

@[simp] theorem shifterReg_reg_zero : shifterReg x ty (.reg 0#8) cIn = ⟨x, cIn⟩ := rfl

theorem shifterReg_reg_small (h1 : 1 ≤ b.toNat) (h31 : b.toNat ≤ 31) :
    shifterReg x ty (.reg b) cIn = shiftBy x ty b.toNat := by
  have hb : b ≠ 0#8 := by bv_omega
  rw [shifterReg, if_neg hb, if_pos (Nat.lt_succ_of_le h31)]

theorem shifterReg_reg_big (h : 32 ≤ b.toNat) : shifterReg x ty (.reg b) cIn = shiftRegBig x ty b.toNat := by
  have hb : b ≠ 0#8 := by bv_omega
  rw [shifterReg, if_neg hb, if_neg (Nat.not_lt.2 h)]

end RegisterForm

/-- Settles O26: each range of the amount has its equation, and what is left is that bit 31 is the sign bit. -/
theorem shifterForms : Obligations.ShifterForms := by
  intro x cIn fill plain
  have hplain : ∀ ty n, shiftBy x ty n = plain ty n := fun ty n => by cases ty <;> rfl
  have hfill : (⟨signFill x, x.msb⟩ : ShiftedOperand) = ⟨fill, x.getLsbD 31⟩ := by
    rw [signFill_eq, msb_eq_bit31]
  have hlsr : (⟨0#32, x.msb⟩ : ShiftedOperand) = ⟨0#32, x.getLsbD 31⟩ := by rw [msb_eq_bit31]
  refine ⟨rfl, hlsr, hfill, rfl, fun k hk => getLsbD_rrx x cIn hk, ?_, ?_⟩
  · intro n ty hn
    rw [shifterReg_imm hn, hplain]
  · intro b n
    refine ⟨?zero, ?small, ?at32, ?above32, ?asrBig, ?rorWhole, ?rorRest⟩
    case zero =>
      intro h ty
      obtain rfl : b = 0#8 := BitVec.eq_of_toNat_eq h
      exact shifterReg_reg_zero
    case small =>
      intro h1 h31 ty
      rw [shifterReg_reg_small h1 h31, hplain]
    case at32 =>
      intro h
      rw [shifterReg_reg_big h.ge, shifterReg_reg_big h.ge, shiftRegBig, shiftRegBig, if_pos h, if_pos h]
      exact ⟨rfl, hlsr⟩
    case above32 =>
      intro h
      have hne : b.toNat ≠ 32 := Nat.ne_of_gt h
      rw [shifterReg_reg_big (Nat.le_of_lt h), shifterReg_reg_big (Nat.le_of_lt h), shiftRegBig, shiftRegBig,
        if_neg hne, if_neg hne]
      exact ⟨rfl, rfl⟩
    case asrBig =>
      intro h
      rw [shifterReg_reg_big h]
      exact hfill
    case rorWhole =>
      intro h h0
      rw [shifterReg_reg_big h, shiftRegBig, if_pos h0, msb_eq_bit31]
    case rorRest =>
      intro h h0
      rw [shifterReg_reg_big h, shiftRegBig, if_neg h0]
      exact hplain .ror _

/-! ### The second operand of data processing -/

theorem operand2Value_regReg {s : State} {rm rs : RegIdx} {ty : ShiftType} (h : rs ≠ 15#4) :
    operand2Value s (.regReg rm ty rs) =
      .ok (shifterReg (s.readReg 12#32 rm) ty (.reg ((s.reg rs).setWidth 8)) s.flags.c) := if_neg h

/-- Settles O28: every form but the register amount is its equation; there R15 is the case apart. -/
theorem secondOperandForms : Obligations.SecondOperandForms := by
  intro s
  refine ⟨fun _ _ => rfl, fun _ _ _ => rfl, ?_, fun _ _ => rfl⟩
  intro rm ty rs h
  exact operand2Value_regReg h

/-! ### The conditions -/

section Conditions
variable (f : StatusFlags)

theorem evaluate_hi : evaluate .hi f = true ↔ f.c = true ∧ f.z = false := by simp [evaluate]

theorem evaluate_ls : evaluate .ls f = true ↔ f.c = false ∨ f.z = true := by simp [evaluate]

theorem evaluate_gt : evaluate .gt f = true ↔ f.z = false ∧ f.n = f.v := by simp [evaluate]

theorem evaluate_le : evaluate .le f = true ↔ f.z = true ∨ f.n ≠ f.v := by simp [evaluate]

theorem evaluateCode_code (c : Cond) : evaluateCode c.code f = .ok (evaluate c f) := by
  rw [evaluateCode, condOf_code]

end Conditions

/-- Settles O24: the rows of one flag hold as they stand or by negation, and reading a code back gives its condition. -/
theorem conditionTruthTable : Obligations.ConditionTruthTable := by
  intro f
  have hclear (b : Bool) : (!b) = true ↔ b = false := iff_of_eq (Bool.not_eq_true' b)
  exact ⟨Iff.rfl, hclear f.z, Iff.rfl, hclear f.c, Iff.rfl, hclear f.n, Iff.rfl, hclear f.v, evaluate_hi f,
    evaluate_ls f, beq_iff_eq, bne_iff_ne, evaluate_gt f, evaluate_le f, rfl, rfl, rfl, evaluateCode_code f⟩

end Sys2Proof.Proofs
end

section
/-! PROOFS. The ALU: its carries and overflows as the statements write them, and its sixteen operations
(40_shifter_condition_alu.md R221 to R230). -/

namespace Sys2Proof.Proofs

open Sys2Proof.Machine Sys2Proof.Laws

/-! ### Carries -/

theorem toInt_carryWord (ci : Bool) : (carryWord ci).toInt = ci.toNat := by cases ci <;> rfl

theorem ofNat_carryNat (ci : Bool) : BitVec.ofNat 32 (carryNat ci) = carryWord ci := by cases ci <;> rfl

theorem carryNat_eq_toNat (ci : Bool) : carryNat ci = ci.toNat := by cases ci <;> rfl

theorem subCarry_true (a b : Word) : subCarry a b true = decide (b.toNat ≤ a.toNat) :=
  decide_eq_decide.2 Nat.add_le_add_iff_right

/-! ### Overflow by the signs is overflow of the exact result -/

/-- R227, R228: a sum that wraps has the sign that neither operand has. -/
theorem addOverflow_eq_overflows (x y : Word) (ci : Bool) :
    addOverflow x y (x + y + carryWord ci) = overflows (x.toInt + y.toInt + ci.toNat) := by
  have hci : ci.toNat ≤ 1 := ci.toNat_le
  have hx := x.toInt_lt
  have hx' := x.le_toInt
  have hy := y.toInt_lt
  have hy' := y.le_toInt
  have hwrap : (x + y + carryWord ci).toInt = (x.toInt + y.toInt + ci.toNat).bmod (2 ^ 32) := by
    rw [BitVec.toInt_add, BitVec.toInt_add, toInt_carryWord, Int.bmod_add_bmod]
  have hneg : (x + y + carryWord ci).toInt < 0 ↔
      -2 ^ 31 ≤ x.toInt + y.toInt + ci.toNat ∧ x.toInt + y.toInt + ci.toNat < 0 ∨
        2 ^ 31 ≤ x.toInt + y.toInt + ci.toNat := by
    rw [hwrap, Int.bmod_neg_iff (by omega) (by omega)]
    rfl
  rw [addOverflow, overflows, BitVec.msb_eq_toInt, BitVec.msb_eq_toInt, BitVec.msb_eq_toInt]
  generalize (x + y + carryWord ci).toInt = r at hneg
  simp only [bool_to_prop, bne_iff_ne, ne_eq]
  omega

theorem toInt_complement (y : Word) : (~~~y).toInt = -y.toInt - 1 := by
  have hy := y.isLt
  rw [BitVec.toInt_eq_toNat_cond, BitVec.toInt_eq_toNat_cond, BitVec.toNat_not]
  split <;> split <;> omega

theorem sub_add_sub_one (x y c : Word) : x - y + c - 1#32 = x + ~~~y + c := by
  rw [BitVec.not_eq_neg_add]
  bv_omega

theorem subOverflow_eq_addOverflow (x y r : Word) : subOverflow x y r = addOverflow x (~~~y) r := by
  rw [subOverflow, addOverflow, BitVec.msb_not]
  cases x.msb <;> cases y.msb <;> rfl

/-- R225, R229: a subtraction is the addition of the complement. -/
theorem subOverflow_eq_overflows (x y : Word) (ci : Bool) :
    subOverflow x y (x - y + carryWord ci - 1#32) = overflows (x.toInt - y.toInt + ci.toNat - 1) := by
  have hexact : x.toInt + (~~~y).toInt + ci.toNat = x.toInt - y.toInt + ci.toNat - 1 := by
    rw [toInt_complement]
    omega
  rw [subOverflow_eq_addOverflow, sub_add_sub_one, addOverflow_eq_overflows, hexact]

theorem addOverflow_add (x y : Word) : addOverflow x y (x + y) = overflows (x.toInt + y.toInt) := by
  have h := addOverflow_eq_overflows x y false
  rwa [carryWord, if_neg Bool.false_ne_true, BitVec.add_zero, Bool.toNat_false, Int.ofNat_zero, Int.add_zero] at h

theorem subOverflow_sub (x y : Word) : subOverflow x y (x - y) = overflows (x.toInt - y.toInt) := by
  have h := subOverflow_eq_overflows x y true
  rwa [carryWord, if_pos rfl, BitVec.add_sub_cancel, Bool.toNat_true, Int.ofNat_one, Int.add_sub_cancel] at h

theorem overflows_eq (z : Int) : overflows z = (decide (z < -2 ^ 31) || decide (2 ^ 31 ≤ z)) := by
  have hlow : z < -2147483648 ↔ z < -2 ^ 31 := by omega
  have hhigh : 2147483647 < z ↔ 2 ^ 31 ≤ z := by omega
  rw [overflows, decide_eq_decide.2 hlow, decide_eq_decide.2 hhigh]

/-! ### The operations -/

section Operations
variable {op : AluOp} {a b : Word} {sc : Bool} {f : StatusFlags}

/-- R222, R223: the engine answers the core's result, with flags made of it when they are set. -/
theorem alu_eq {sh : ShiftedOperand} {setFlags : Bool} {r : Word} {c v : Bool}
    (h : aluCore op a sh.value sh.carryOut f = (r, c, v)) :
    alu op a sh f setFlags = ⟨r, if setFlags then flagsFrom r c v else f, op.writes⟩ := by
  rw [alu, h]
  rfl

theorem aluCore_sub : aluCore .sub a b sc f = (a - b, subCarry a b true, subOverflow a b (a - b)) := by
  rw [subCarry_true, subOverflow_sub]
  rfl

theorem aluCore_add : aluCore .add a b sc f = (a + b, addCarry a b false, addOverflow a b (a + b)) := by
  rw [addOverflow_add]
  rfl

theorem aluCore_adc : aluCore .adc a b sc f =
    (a + b + carryWord f.c, addCarry a b f.c, addOverflow a b (a + b + carryWord f.c)) := by
  rw [addOverflow_eq_overflows, addCarry, ← ofNat_carryNat, ← carryNat_eq_toNat]
  rfl

theorem aluCore_sbc : aluCore .sbc a b sc f =
    (a - b + carryWord f.c - 1#32, subCarry a b f.c, subOverflow a b (a - b + carryWord f.c - 1#32)) := by
  rw [subOverflow_eq_overflows, subCarry, ← ofNat_carryNat, ← carryNat_eq_toNat]
  rfl

theorem aluCore_cmp : aluCore .cmp a b sc f = aluCore .sub a b sc f := rfl

theorem aluCore_cmn : aluCore .cmn a b sc f = aluCore .add a b sc f := rfl

theorem aluCore_rsb : aluCore .rsb a b sc f = aluCore .sub b a sc f := rfl

theorem aluCore_rsc : aluCore .rsc a b sc f = aluCore .sbc b a sc f := rfl

end Operations

/-- Settles O27: each operation's core as the statement writes it, a compare being its arithmetic operation and a
reversed one its operation with the operands exchanged. -/
theorem aluResultsAndFlags : Obligations.AluResultsAndFlags := by
  intro a sh f b logical arith
  have harith {op : AluOp} {r : Word} {c v : Bool} (h : aluCore op a b sh.carryOut f = (r, c, v)) :
      arith op r c v op.writes := ⟨alu_eq h, alu_eq h⟩
  have hlogical {op : AluOp} {r : Word} (h : aluCore op a b sh.carryOut f = (r, sh.carryOut, f.v)) :
      logical op r op.writes := harith h
  refine ⟨hlogical rfl, hlogical rfl, hlogical rfl, hlogical rfl, hlogical rfl, hlogical rfl, hlogical rfl,
    hlogical rfl, harith aluCore_sub, harith (aluCore_cmp.trans aluCore_sub), harith (aluCore_rsb.trans aluCore_sub),
    harith aluCore_add, harith (aluCore_cmn.trans aluCore_add), harith aluCore_adc, harith aluCore_sbc,
    harith (aluCore_rsc.trans aluCore_sbc), ?_⟩
  intro outside x y ci
  have houtside (z : Int) : overflows z = outside z := overflows_eq z
  rw [addOverflow_eq_overflows, subOverflow_eq_overflows, houtside, houtside]
  exact ⟨rfl, rfl⟩

end Sys2Proof.Proofs
end

section
/-! PROOFS. ARM data processing: an instruction whose condition fails, the results and flags of the logical and
arithmetic operations, and the compares (41_arm_data_processing.md R260 to R277). -/

namespace Sys2Proof.Proofs

open Sys2Proof.Machine Sys2Proof.Laws

/-! ### Failing conditions -/

/-- R260: every instruction with a condition, SWI included, is a rule behind that condition. -/
theorem exec_eq_conditional {i : Instr} {c : Cond} (s : State) (h : i.cond? = some c) :
    ∃ body, exec i s = conditional c s body := by
  cases i with
  | armMul | armMla | armUmull | armUmlal | armSmull | armSmlal | armSwp | armSwpb | armStrh | armLdrh | armLdrsb
  | armLdrsh | armBx | armMrs | armMsr | armAnd | armEor | armSub | armRsb | armAdd | armAdc | armSbc | armRsc | armTst
  | armTeq | armCmp | armCmn | armOrr | armMov | armBic | armMvn | armStrt | armLdrt | armStrbt | armLdrbt | armStr
  | armLdr | armStrb | armLdrb | armStm | armLdm | armB | armBl | armSwi =>
    cases h
    exact ⟨_, rfl⟩
  | _ => cases h

/-- Settles O17: a conditional instruction is a rule behind its condition, and a failing condition skips the rule. -/
theorem failedConditionOnlyAdvances : Obligations.FailedConditionOnlyAdvances := by
  intro i c s hi hc
  obtain ⟨body, hbody⟩ := exec_eq_conditional s hi
  exact hbody.trans (conditional_skip hc)

/-! ### Rules that pass their checks -/

theorem checkSbz_bind_ok {s : State} {bad : Bool} (h : s.sbzCheck = false ∨ bad = false) {α : Type}
    (f : Unit → Except Stop α) : (s.checkSbz bad >>= f) = f () := by
  rw [State.checkSbz, refuseIf_bind]
  rcases h with h | h <;> simp [h]

theorem isReference_executorReference {s : State} (h : s.profile = .executorReference) : s.isReference = true := by
  simp [State.isReference, h]

theorem needSpsr_eq {s : State} {p : Psr} (h : s.spsrNow = some p) : s.needSpsr = .ok p := by
  rw [State.needSpsr, h]

theorem returnFromException_eq {s : State} {p : Psr} (h : s.spsrNow = some p) (target : Word) :
    s.returnFromException target = .ok { s with cpsr := p, pc := target } := by
  rw [State.returnFromException, needSpsr_eq h]

/-! ### Results and flags -/

section Operation
variable {s : State} {c : Cond} {op : AluOp} {f : Bool} {rn rd : RegIdx} {op2 : Operand2} {sh : ShiftedOperand}

/-- R41, R261: as the first operand R15 reads as pc + 8, or pc + 12 beside a register amount. -/
theorem dpOp1_of_readsRn (h : op.readsRn = true) :
    dpOp1 s op rn op2 =
      if rn = 15#4 then s.pc + (match op2 with | .regReg _ _ _ => 12#32 | .imm _ _ | .regImm _ _ _ => 8#32)
      else s.reg rn := by
  rw [dpOp1, if_pos h, State.readReg]
  cases op2 <;> rfl

theorem dataProcessing_plain {r : Word} {cy v : Bool} (h2 : operand2Value s op2 = .ok sh) (hd : f = false ∨ rd ≠ 15#4)
    (hz : s.sbzCheck = false ∨ dpBadSbz op rn rd = false)
    (hcore : aluCore op (dpOp1 s op rn op2) sh.value sh.carryOut s.flags = (r, cy, v)) :
    let s1 := s.setFlags (if f then flagsFrom r cy v else s.flags)
    dataProcessing op f rn rd op2 s = .ok (if op.writes then s1.writeArm rd r else s1.nextArm) := by
  have hz' : (s.sbzCheck && dpBadSbz op rn rd) = false := by rcases hz with h | h <;> simp [h]
  rw [dataProcessing_eq h2 hd hz', alu_eq hcore]
  exact dpWrite_plain _ hd

/-- R261: an operation that has a result writes it to Rd, and with S = 1 sets the flags of it. -/
theorem dataProcessing_endsArm {r : Word} {cy v : Bool} (hc : evaluate c s.flags = true)
    (h2 : operand2Value s op2 = .ok sh) (hd : f = false ∨ rd ≠ 15#4) (hw : op.writes = true)
    (hz : s.sbzCheck = false ∨ dpBadSbz op rn rd = false)
    (hcore : aluCore op (dpOp1 s op rn op2) sh.value sh.carryOut s.flags = (r, cy, v)) :
    EndsArm s (conditional c s (dataProcessing op f rn rd op2 s)) rd r
      (if f then flagsFrom r cy v else s.flags) := by
  rw [conditional_ok hc (dataProcessing_plain h2 hd hz hcore), if_pos hw]
  exact endsArm_write s rd r _

/-- R270 to R273: a compare sets the flags and writes no register. -/
theorem dataProcessing_endsFlags {r : Word} {cy v : Bool} (hc : evaluate c s.flags = true)
    (h2 : operand2Value s op2 = .ok sh) (hd : rd ≠ 15#4) (hw : op.writes = false)
    (hz : s.sbzCheck = false ∨ dpBadSbz op rn rd = false)
    (hcore : aluCore op (dpOp1 s op rn op2) sh.value sh.carryOut s.flags = (r, cy, v)) :
    EndsFlags s (conditional c s (dataProcessing op true rn rd op2 s)) (s.pc + 4#32) (flagsFrom r cy v) := by
  rw [conditional_ok hc (dataProcessing_plain h2 (.inr hd) hz hcore), if_neg (Bool.eq_false_iff.1 hw)]
  exact endsFlags_arm s _

/-! ### S = 1 with Rd = R15 -/

theorem dataProcessing_spsrCopy (hp : s.profile = .executorReference) :
    dataProcessing op true rn 15#4 op2 s = .error (.refuse .spsrCopy) := by
  rw [dataProcessing, isReference_executorReference hp]
  rfl

theorem dataProcessing_noSpsr (hp : s.profile = .arm7tdmi) (hs : s.spsrNow = none) :
    dataProcessing op true rn 15#4 op2 s = .error (.refuse .noSpsr) := by
  rw [dataProcessing, isReference_arm7tdmi hp, hs]
  rfl

/-- R43: the SPSR is copied to the CPSR, and the pc takes the result or, after a compare, advances. -/
theorem dataProcessing_return {p : Psr} (hp : s.profile = .arm7tdmi) (hs : s.spsrNow = some p)
    (hz : s.sbzCheck = false ∨ dpBadSbz op rn 15#4 = false) (h2 : operand2Value s op2 = .ok sh) :
    dataProcessing op true rn 15#4 op2 s =
      let r := alu op (dpOp1 s op rn op2) sh s.flags true
      .ok { s with cpsr := p, pc := if op.writes then r.result else s.pc + 4#32 } := by
  have href : (true && (15#4 : RegIdx) == 15#4 && s.isReference) = false := isReference_arm7tdmi hp
  have hspsr : (true && (15#4 : RegIdx) == 15#4 && s.spsrNow.isNone) = false := by rw [hs]; rfl
  rw [dataProcessing, refuseIf_bind href, refuseIf_bind hspsr, checkSbz_bind_ok hz, h2]
  exact returnFromException_eq hs _

end Operation

/-- Settles O30: each operation's core is its definition, and the operation ends by writing its result. -/
theorem armLogicalResults : Obligations.ArmLogicalResults := by
  intro s c f rn rd op2 sh hc h2 hd a ends
  have hop1 {op : AluOp} (h : op.readsRn = true) : dpOp1 s op rn op2 = a := dpOp1_of_readsRn h
  have hends {op : AluOp} {r : Word} (hw : op.writes = true) (hz : s.sbzCheck = false ∨ dpBadSbz op rn rd = false)
      (hcore : aluCore op (dpOp1 s op rn op2) sh.value sh.carryOut s.flags = (r, sh.carryOut, s.flags.v)) :
      ends (conditional c s (dataProcessing op f rn rd op2 s)) r := dataProcessing_endsArm hc h2 hd hw hz hcore
  refine ⟨hends rfl (.inr rfl) ?and, hends rfl (.inr rfl) ?eor, hends rfl (.inr rfl) ?orr, hends rfl (.inr rfl) ?bic,
    ?mov⟩
  case and | eor | orr | bic =>
    rw [hop1 rfl]
    rfl
  case mov =>
    intro hz
    have hmov {op : AluOp} (hw : op.writes = true) : s.sbzCheck = false ∨ dpBadSbz op rn rd = false :=
      hz.imp_right fun h => by simp [dpBadSbz, h, hw]
    exact ⟨hends rfl (hmov rfl) rfl, hends rfl (hmov rfl) rfl⟩

/-- Settles O31: each operation's core as the statement writes it, a reversed one being its operation with the operands
exchanged; the operation ends by writing its result. -/
theorem armArithmeticResults : Obligations.ArmArithmeticResults := by
  intro s c f rn rd op2 sh hc h2 hd a b ends
  have hends {op : AluOp} {r : Word} {cy v : Bool} (hw : op.writes = true) (hr : op.readsRn = true)
      (hcore : aluCore op a b sh.carryOut s.flags = (r, cy, v)) :
      ends (conditional c s (dataProcessing op f rn rd op2 s)) r cy v := by
    have hop1 : dpOp1 s op rn op2 = a := dpOp1_of_readsRn hr
    have hz : dpBadSbz op rn rd = false := by simp [dpBadSbz, hw, hr]
    exact dataProcessing_endsArm hc h2 hd hw (.inr hz) (hop1 ▸ hcore)
  exact ⟨hends rfl rfl aluCore_sub, hends rfl rfl (aluCore_rsb.trans aluCore_sub), hends rfl rfl aluCore_add,
    hends rfl rfl aluCore_adc, hends rfl rfl aluCore_sbc, hends rfl rfl (aluCore_rsc.trans aluCore_sbc)⟩

/-- Settles O32: a compare has no result to write, so its end is the flags or, with Rd = R15, the copy of the SPSR. -/
theorem armCompareResults : Obligations.ArmCompareResults := by
  intro s c rn rd op2 sh hc a b ends
  have hends {op : AluOp} {r : Word} {cy v : Bool} (hw : op.writes = false) (hr : op.readsRn = true)
      (hcore : aluCore op a b sh.carryOut s.flags = (r, cy, v)) :
      ends (conditional c s (dataProcessing op true rn rd op2 s)) (flagsFrom r cy v) := by
    refine ⟨fun h2 hz hd => ?flags, ?pc⟩
    case flags =>
      have hop1 : dpOp1 s op rn op2 = a := dpOp1_of_readsRn hr
      have hz' : s.sbzCheck = false ∨ dpBadSbz op rn rd = false := hz.imp_right fun h => by simp [dpBadSbz, h, hr]
      exact dataProcessing_endsFlags hc h2 hd hw hz' (hop1 ▸ hcore)
    case pc =>
      rintro rfl
      refine ⟨fun hp => conditional_refuse hc (dataProcessing_spsrCopy hp),
        fun hp hs => conditional_refuse hc (dataProcessing_noSpsr hp hs), fun hp hz h2 p hs => ?_⟩
      rw [conditional_ok hc (dataProcessing_return hp hs (.inl hz) h2), hw]
      rfl
  exact ⟨hends rfl rfl rfl, hends rfl rfl rfl, hends rfl rfl (aluCore_cmp.trans aluCore_sub),
    hends rfl rfl (aluCore_cmn.trans aluCore_add)⟩

end Sys2Proof.Proofs
end

section
/-! PROOFS. The transfers to and from the program status registers (41_arm_data_processing.md R280, R281). -/

namespace Sys2Proof.Proofs

open Sys2Proof.Machine Sys2Proof.Laws

/-! ### MRS -/

/-- R48: where a PSR's bits stand in its word. -/
theorem toWord_eq_iff {p : Psr} {reserved : BitVec 20} {w : Word} : p.toWord reserved = w ↔
    w.getLsbD 31 = p.flags.n ∧ w.getLsbD 30 = p.flags.z ∧ w.getLsbD 29 = p.flags.c ∧ w.getLsbD 28 = p.flags.v ∧
      field w 8 20 = reserved ∧ w.getLsbD 7 = p.irqDisable ∧ w.getLsbD 6 = p.fiqDisable ∧ w.getLsbD 5 = p.thumb ∧
      field w 0 5 = p.mode.code := by
  unfold Psr.toWord StatusFlags.bits
  repeat rw [append_eq_iff]
  simp only [field_field, field_one_eq_bit_iff, Nat.reduceLeDiff, Nat.reduceAdd, and_assoc,
    eq_comm (b := field w _ _)]

/-- The register write that MRS ends with. -/
theorem moveFromPsr_eq {s : State} {p : Bool} {rd : RegIdx} {sbz : BitVec 12} {q : Psr} (hp : s.profile = .arm7tdmi)
    (hq : if p then s.spsrNow = some q else q = s.cpsr) (hz : s.sbzCheck = false ∨ sbz = 0#12) :
    moveFromPsr p rd sbz s = .ok (s.draw.2.writeArm rd (q.toWord (s.draw.1.setWidth 20))) := by
  have hz' : s.sbzCheck = false ∨ (sbz != 0#12) = false := hz.imp_right bne_eq_false_iff_eq.2
  rw [moveFromPsr, refuseIf_bind (isReference_arm7tdmi hp)]
  cases p with
  | false =>
    subst hq
    exact checkSbz_bind_ok hz' _
  | true =>
    rw [needSpsr_eq hq]
    exact checkSbz_bind_ok hz' _

theorem moveFromPsr_noSpsr {s : State} {rd : RegIdx} {sbz : BitVec 12} (hp : s.profile = .arm7tdmi)
    (hs : s.spsrNow = none) : moveFromPsr true rd sbz s = .error (.refuse .noSpsr) := by
  rw [moveFromPsr, isReference_arm7tdmi hp, State.needSpsr, hs]
  rfl

/-- A register write after a draw ends as any other, but for the count of draws. -/
theorem draw_writeArm_ends (s : State) (rd : RegIdx) (v : Word) :
    let t := s.draw.2.writeArm rd v
    (if rd = 15#4 then t.pc = v else t.reg rd = v ∧ t.pc = s.pc + 4#32) ∧ t.flags = s.flags ∧
      Frame s t (bank s [rd]) ∧ SameBytes s t := by
  obtain ⟨t, ht, hrd, hfl, hframe, hbytes, -⟩ := endsArm_write s.draw.2 rd v s.flags
  cases ht
  exact ⟨hrd, hfl, hframe, hbytes⟩

/-- Settles O33: MRS ends by writing the PSR's word, whose bits stand where R48 puts them. -/
theorem mrsReadsThePsr : Obligations.MrsReadsThePsr := by
  intro s c i p rd sbz hc hp
  refine ⟨?refused, fun q hq hz => ?completes⟩
  case refused =>
    rintro rfl hs
    exact conditional_refuse hc (moveFromPsr_noSpsr hp hs)
  case completes =>
    obtain ⟨hrd, hfl, hframe, hbytes⟩ := draw_writeArm_ends s rd (q.toWord (s.draw.1.setWidth 20))
    obtain ⟨hN, hZ, hC, hV, -, hI, hF, hT, hM⟩ := toWord_eq_iff.1 (Eq.refl (q.toWord (s.draw.1.setWidth 20)))
    exact ⟨_, conditional_ok hc (moveFromPsr_eq hp hq hz), _, hrd, hN, hZ, hC, hV, hI, hF, hT, hM, hfl, hframe, hbytes⟩

/-! ### MSR -/

section Msr
variable {s : State} {p : Bool} {sbo : BitVec 4} {src : MsrSource} {v : Word}

theorem msrValue_of
    (h : match src with
      | .imm rot imm8 => v = (shifterImm imm8 rot s.flags.c).value ∧ (s.sbzCheck = false ∨ sbo = 0xF#4)
      | .reg sbz rm => v = s.reg rm ∧ rm ≠ 15#4 ∧ (s.sbzCheck = false ∨ (sbo = 0xF#4 ∧ sbz = 0#8))) :
    msrValue s src = .ok v ∧ (s.sbzCheck = false ∨ msrBadSbz sbo src = false) := by
  cases src with
  | imm rot imm8 =>
    obtain ⟨rfl, hz⟩ := h
    exact ⟨rfl, hz.imp_right fun h => by simp [msrBadSbz, h]⟩
  | reg sbz rm =>
    obtain ⟨rfl, hrm, hz⟩ := h
    exact ⟨if_neg hrm, hz.imp_right fun ⟨ho, hb⟩ => by simp [msrBadSbz, ho, hb]⟩

theorem moveToPsr_noSpsr (hp : s.profile = .arm7tdmi) (hs : s.spsrNow = none) :
    moveToPsr true sbo src s = .error (.refuse .noSpsr) := by
  rw [moveToPsr, isReference_arm7tdmi hp, hs]
  rfl

theorem moveToPsr_cpsr (hv : msrValue s src = .ok v) (hz : s.sbzCheck = false ∨ msrBadSbz sbo src = false) :
    moveToPsr false sbo src s = .ok (s.setFlags (flagsOf v)).nextArm := by
  rw [moveToPsr, refuseIf_bind (Bool.false_and _), refuseIf_bind (Bool.false_and _), checkSbz_bind_ok hz, hv]
  rfl

theorem moveToPsr_spsr {old : Psr} (hp : s.profile = .arm7tdmi) (hs : s.spsrNow = some old)
    (hv : msrValue s src = .ok v) (hz : s.sbzCheck = false ∨ msrBadSbz sbo src = false) :
    moveToPsr true sbo src s = .ok (s.setSpsr s.cpsr.mode { old with flags := flagsOf v }).nextArm := by
  have href : (true && s.isReference) = false := isReference_arm7tdmi hp
  have hspsr : (true && s.spsrNow.isNone) = false := by rw [hs]; rfl
  rw [moveToPsr, refuseIf_bind href, refuseIf_bind hspsr, checkSbz_bind_ok hz, hv, needSpsr_eq hs]
  rfl

end Msr

/-- In a mode that has an SPSR, the one written is the one read. -/
theorem spsrNow_setSpsr {s : State} {old : Psr} (h : s.spsrNow = some old) (q : Psr) :
    (s.setSpsr s.cpsr.mode q).spsrNow = some q := by
  obtain ⟨k, hk, -⟩ := Option.map_eq_some_iff.1 h
  rw [State.spsrNow, setSpsr_cpsr, hk, Option.map_some, spsr_setSpsr_get, if_pos hk]

/-- Settles O34: past its checks MSR is one write, of the CPSR's flags or of the current mode's SPSR. -/
theorem msrWritesTheFlags : Obligations.MsrWritesTheFlags := by
  intro s c p sbo src v hc hsrc fl
  obtain ⟨hv, hz⟩ := msrValue_of hsrc
  refine ⟨?cpsr, ?refused, ?spsr⟩
  case cpsr =>
    rintro rfl
    exact conditional_ok hc (moveToPsr_cpsr hv hz)
  case refused =>
    rintro rfl hp hs
    exact conditional_refuse hc (moveToPsr_noSpsr hp hs)
  case spsr =>
    rintro rfl hp old hs
    refine ⟨_, conditional_ok hc (moveToPsr_spsr hp hs hv hz), spsrNow_setSpsr hs _, fun k hk => ?_, ?_, ?_, ?_, ?_⟩
    · exact (spsr_setSpsr_get s _ _ k).trans (if_neg hk)
    · exact setSpsr_cpsr s _ _
    · exact setSpsr_regs s _ _
    · exact congrArg (· + 4#32) (setSpsr_pc s _ _)
    · intro a
      simp [State.byteAt]

end Sys2Proof.Proofs
end

section
/-! PROOFS. The multiplies, the swaps and the branch-exchange (42_arm_multiply_swap_bx.md R300 to R310; 45_thumb_alu.md
R425, R443). -/

namespace Sys2Proof.Proofs

open Sys2Proof.Machine Sys2Proof.Laws

theorem faultIf_bind {b : Bool} (hb : b = false) (e : Fault) {α : Type} (f : Unit → Except Stop α) :
    (faultIf b e >>= f) = f () := by
  rw [hb]
  rfl

/-! ### 32-bit multiplies -/

section Multiply
variable {s : State} {acc f : Bool} {rd rn rs rm : RegIdx}

/-- A multiply whose operands the rule allows is one register write, after its flags where they are set. -/
theorem multiply_eq (hz : s.sbzCheck = false ∨ (!acc && rn != 0#4) = false) (hd : rd ≠ 15#4) (hm : rm ≠ 15#4)
    (hs : rs ≠ 15#4) (hdm : rd ≠ rm) (hn : (acc && rn == 15#4) = false) :
    multiply acc f rd rn rs rm s =
      let r := s.reg rm * s.reg rs + (if acc then s.reg rn else 0#32)
      .ok ((if f then multiplyFlags s r else s).writeArm rd r) := by
  have hops : (rd == 15#4 || rm == 15#4 || rs == 15#4 || rd == rm || (acc && rn == 15#4)) = false := by
    simp [hd, hm, hs, hdm, hn]
  rw [multiply, checkSbz_bind_ok hz, faultIf_bind hops]
  simp only [State.writeArm, if_neg hd]
  rfl

/-- R300: a multiply ends by writing its result, whose flags, where they are set, take a carry that is drawn. -/
theorem multiply_ends (s : State) (f : Bool) (hd : rd ≠ 15#4) (r : Word) :
    let t := (if f then multiplyFlags s r else s).writeArm rd r
    t.reg rd = r ∧ t.pc = s.pc + 4#32 ∧ (if f then ∃ cy, t.flags = flagsFrom r cy s.flags.v else t.flags = s.flags) ∧
      Frame s t (bank s [rd]) ∧ SameBytes s t := by
  cases f with
  | false =>
    obtain ⟨t, ht, hrd, hfl, hframe, hbytes, -⟩ := endsArm_write s rd r s.flags
    cases ht
    rw [if_neg hd] at hrd
    exact ⟨hrd.1, hrd.2, hfl, hframe, hbytes⟩
  | true =>
    obtain ⟨t, ht, hrd, hfl, hframe, hbytes, -⟩ :=
      endsArm_write s.draw.2 rd r (flagsFrom r (s.draw.1.getLsbD 0) s.flags.v)
    cases ht
    rw [if_neg hd] at hrd
    exact ⟨hrd.1, hrd.2, ⟨_, hfl⟩, hframe, hbytes⟩

end Multiply

theorem thumbMultiply_eq {s : State} {rs rd : LowIdx} (h : rd ≠ rs) :
    thumbMultiply rs rd s =
      let r := s.reg (low rs) * s.reg (low rd)
      .ok ((multiplyFlags s r).writeLow rd r) := by
  rw [thumbMultiply, faultIf_bind (beq_false_of_ne h)]
  rfl

/-- Settles O35: past its checks a multiply writes its product, after the draw of a carry where flags are set. -/
theorem multiplyResults : Obligations.MultiplyResults := by
  intro s ends
  refine ⟨fun c f rd rn rs rm hc hd hm hs hdm => ⟨fun hz => ?mul, fun hn => ?mla⟩, fun rs rd h => ?thumb⟩
  case mul =>
    have hz' : s.sbzCheck = false ∨ (!false && rn != 0#4) = false := hz.imp_right bne_eq_false_iff_eq.2
    have hmul := multiply_eq (f := f) hz' hd hm hs hdm rfl
    rw [if_neg Bool.false_ne_true, BitVec.add_zero] at hmul
    exact ⟨_, conditional_ok hc hmul, multiply_ends s f hd _⟩
  case mla =>
    exact ⟨_, conditional_ok hc (multiply_eq (acc := true) (.inr rfl) hd hm hs hdm (beq_false_of_ne hn)),
      multiply_ends s f hd _⟩
  case thumb =>
    obtain ⟨t, ht, hrd, hpc, hfl, hframe, hbytes, -⟩ := endsThumb_write s.draw.2 rd
      (s.reg (low rs) * s.reg (low rd)) (flagsFrom _ (s.draw.1.getLsbD 0) s.flags.v)
    exact ⟨t, (congrArg finish (thumbMultiply_eq h)).trans ht, hrd, hpc, ⟨_, hfl⟩, hframe, hbytes⟩

/-! ### Long multiplies -/

/-- R302: a product of 64-bit operands is the product in integers. -/
theorem widen_unsigned_mul (x y : Word) :
    widen false x * widen false y = BitVec.ofNat 64 (x.toNat * y.toNat) := by
  rw [BitVec.ofNat_mul, BitVec.ofNat_toNat, BitVec.ofNat_toNat]
  rfl

/-- R304: the same for signed operands. -/
theorem widen_signed_mul (x y : Word) : widen true x * widen true y = BitVec.ofInt 64 (x.toInt * y.toInt) :=
  (BitVec.ofInt_mul x.toInt y.toInt).symm

/-- R303: the accumulator, RdHi above RdLo, as a number. -/
theorem append_eq_ofNat (hi lo : Word) : hi ++ lo = BitVec.ofNat 64 (hi.toNat * 2 ^ 32 + lo.toNat) := by
  have h : (hi ++ lo).toNat = hi.toNat * 2 ^ 32 + lo.toNat := by
    rw [BitVec.toNat_append, ← Nat.shiftLeft_add_eq_or_of_lt lo.isLt, Nat.shiftLeft_eq]
  rw [← h, BitVec.ofNat_toNat, BitVec.setWidth_eq]

/-- The state in which a long multiply with the 64-bit result `p` ends. -/
def longMultiplyEnd (s : State) (f : Bool) (hi lo : RegIdx) (p : BitVec 64) : State :=
  ((if f then longMultiplyFlags s p else s).setReg lo (p.setWidth 32)).writeArm hi ((p >>> 32).setWidth 32)

/-- A long multiply whose operands the rule allows writes both halves of its result. -/
theorem longMultiply_eq {s : State} {signed acc f : Bool} {hi lo rs rm : RegIdx} {p : BitVec 64} (hh : hi ≠ 15#4)
    (hl : lo ≠ 15#4) (hm : rm ≠ 15#4) (hs : rs ≠ 15#4) (hhl : hi ≠ lo) (hhm : hi ≠ rm) (hlm : lo ≠ rm)
    (hp : widen signed (s.reg rm) * widen signed (s.reg rs) + (if acc then s.reg hi ++ s.reg lo else 0#64) = p) :
    longMultiply signed acc f hi lo rs rm s = .ok (longMultiplyEnd s f hi lo p) := by
  have hops : (hi == 15#4 || lo == 15#4 || rm == 15#4 || rs == 15#4 || hi == lo || hi == rm || lo == rm) = false := by
    simp [hh, hl, hm, hs, hhl, hhm, hlm]
  rw [longMultiply, faultIf_bind hops, hp]
  simp only [longMultiplyEnd, State.writeArm, if_neg hh]
  rfl

/-- Two registers of the current bank written one after the other. -/
theorem setReg_writeArm_ends (s : State) (fl : StatusFlags) {hi lo : RegIdx} (hh : hi ≠ 15#4) (hl : lo ≠ 15#4)
    (hhl : hi ≠ lo) (a b : Word) :
    let t := ((s.setFlags fl).setReg lo a).writeArm hi b
    t.reg lo = a ∧ t.reg hi = b ∧ t.pc = s.pc + 4#32 ∧ t.flags = fl ∧ Frame s t (bank s [lo, hi]) ∧ SameBytes s t := by
  intro t
  have hlo : t.reg lo = a := by
    simp only [t, State.writeArm, if_neg hh]
    rw [reg_nextArm, reg_setReg _ _ hh hl, if_neg hhl, reg_setReg_self]
  have hframeLo : Frame s (s.setReg lo a) (bank s [lo]) :=
    frame_setReg (List.mem_singleton_self lo) hl rfl rfl rfl rfl rfl
  obtain ⟨_, ht, hrd, hfl, hframe, hbytes, -⟩ := endsArm_write (s.setReg lo a) hi b fl
  cases ht
  rw [if_neg hh] at hrd
  refine ⟨hlo, hrd.1, hrd.2, hfl, Frame.mono (Frame.trans hframeLo hframe) ?_, hbytes⟩
  rintro k (⟨i, hmem, h⟩ | ⟨i, hmem, h⟩)
  · exact ⟨i, List.mem_cons.2 (.inl (List.mem_singleton.1 hmem)), h⟩
  · exact ⟨i, List.mem_cons_of_mem _ hmem, h⟩

/-- R302: N and Z of a long multiply are of its 64 bits. -/
theorem longMultiplyEnd_ends (s : State) (f : Bool) {hi lo : RegIdx} (hh : hi ≠ 15#4) (hl : lo ≠ 15#4)
    (hhl : hi ≠ lo) (p : BitVec 64) :
    let t := longMultiplyEnd s f hi lo p
    t.reg lo = p.setWidth 32 ∧ t.reg hi = (p >>> 32).setWidth 32 ∧ t.pc = s.pc + 4#32 ∧
      (if f then t.flags.n = p.getLsbD 63 ∧ t.flags.z = decide (p = 0#64) else t.flags = s.flags) ∧
      Frame s t (bank s [lo, hi]) ∧ SameBytes s t := by
  cases f with
  | false => exact setReg_writeArm_ends s s.flags hh hl hhl _ _
  | true =>
    obtain ⟨hlo, hhi, hpc, hfl, hframe, hbytes⟩ := setReg_writeArm_ends s.draw.2.draw.2
      { n := p.msb, z := p == 0#64, c := s.draw.1.getLsbD 0, v := s.draw.2.draw.1.getLsbD 0 } hh hl hhl
      (p.setWidth 32) ((p >>> 32).setWidth 32)
    have hn : p.msb = p.getLsbD 63 := p.msb_eq_getLsbD_last
    exact ⟨hlo, hhi, hpc, ⟨(congrArg StatusFlags.n hfl).trans hn, congrArg StatusFlags.z hfl⟩, hframe, hbytes⟩

/-- Settles O36: the 64-bit product, with the accumulator where there is one, is the result in integers, and past its
checks the rule is the write of its two halves. -/
theorem longMultiplyResults : Obligations.LongMultiplyResults := by
  intro s c f hi lo rs rm hc hh hl hm hs hhl hhm hlm acc ends
  have hends {signed a : Bool} {p : BitVec 64} (hp : widen signed (s.reg rm) * widen signed (s.reg rs) +
      (if a then s.reg hi ++ s.reg lo else 0#64) = p) :
      ends (conditional c s (longMultiply signed a f hi lo rs rm s)) p :=
    ⟨_, conditional_ok hc (longMultiply_eq hh hl hm hs hhl hhm hlm hp), longMultiplyEnd_ends s f hh hl hhl p⟩
  have hacc : s.reg hi ++ s.reg lo = BitVec.ofNat 64 acc := append_eq_ofNat _ _
  refine ⟨hends ?umull, hends ?umlal, hends ?smull, hends ?smlal⟩
  case umull => exact (BitVec.add_zero _).trans (widen_unsigned_mul _ _)
  case umlal => rw [if_pos rfl, widen_unsigned_mul, hacc, ← BitVec.ofNat_add]
  case smull => exact (BitVec.add_zero _).trans (widen_signed_mul _ _)
  case smlal => rw [if_pos rfl, widen_signed_mul, hacc, ← BitVec.ofInt_natCast, ← BitVec.ofInt_add]

/-! ### Swaps -/

/-- Settles O37: an address that may be written lies outside IO, so the read answers memory's value and changes nothing;
the write and the register write follow it. -/
theorem swapResults : Obligations.SwapResults := by
  intro s c rn rd sbz rm hc hn hd hm hnd hnm hz a ends
  have hswap {w : Width} : ends (conditional c s (swap w rn rd sbz rm s)) w := by
    intro hw
    have hstore := store_writable s (v := s.reg rm) hw
    obtain ⟨r, hr, hio⟩ := store_region hstore
    let t : State := { s with mem := writeLe s.mem a (s.reg rm) w.bytes }
    have hbody : swap w rn rd sbz rm s = .ok (t.setReg rd (leValue s a.toNat w)).nextArm := by
      rw [swap_eq hz hn hd hm hnd hnm, load_memory hr hio hw.1]
      change (s.store a w (s.reg rm) >>= _) = _
      rw [hstore]
      rfl
    have hholds : Holds t a.toNat w.bytes (s.reg rm) := store_holds hstore
    have houtside : SameOutside s t a.toNat w.bytes := store_sameOutside hstore
    exact ⟨_, conditional_ok hc hbody, reg_setReg_self t rd _, hholds, houtside, rfl, rfl,
      frame_setReg (List.mem_singleton_self rd) hd rfl rfl rfl rfl rfl⟩
  exact ⟨hswap, hswap⟩

/-! ### Branch and exchange -/

/-- Settles O38: past its checks BX is the exchange, to a register or, for R15 in THUMB state, to pc + 4. -/
theorem branchExchangeResults : Obligations.BranchExchangeResults := by
  intro s ends
  refine ⟨fun c rn hc hn => ?arm, fun rs sbz hz => ?thumb⟩
  case arm => exact conditional_ok hc (faultIf_bind (beq_false_of_ne hn) _ _)
  case thumb =>
    have hz' : s.sbzCheck = false ∨ (sbz != 0#3) = false := hz.imp_right bne_eq_false_iff_eq.2
    exact congrArg finish (checkSbz_bind_ok hz' _)

end Sys2Proof.Proofs
end

section
/-! PROOFS. ARM loads and stores of one register: the single data transfers and the halfword transfers, where their
access may be made (43_arm_load_store.md R330 to R335, R340 to R344). -/

namespace Sys2Proof.Proofs

open Sys2Proof.Machine Sys2Proof.Laws

theorem writesBack_eq_true {p w : Bool} : writesBack p w = true ↔ p = false ∨ w = true := by
  simp [writesBack]

/-! ### The end of a transfer that passes its checks -/

section Single
variable {c : Cond} {width : Width} {p u w : Bool} {rn rd : RegIdx} {off : Offset} {s : State} {o : Word}
  (hc : evaluate c s.flags = true) (hT : p = true ∨ w = false ∨ s.profile = .arm7tdmi)
  (hwb : writesBack p w = true → rn ≠ 15#4 ∧ rn ≠ rd) (ho : offsetValue s off = .ok o)
include hc hT hwb ho

theorem endsLoad_singleTransfer (hr : Readable (transferAddress s p u rn o) width) :
    EndsLoad s (conditional c s (singleTransfer true width p u w rn rd off s)) (transferAddress s p u rn o) width false
      (writesBack p w) rn rd (effectiveAddress u (s.readReg 8#32 rn) o) := by
  rw [conditional_singleTransfer hc hT (hwb ∘ writesBack_eq_true.2) (.inl rfl) ho, ← conditional_pass _ hc]
  exact endsLoad_of s c hc _ _ _ _ _ _ _ _ hr hwb rfl

theorem endsStore_singleTransfer (hst : rd ≠ 15#4 ∨ s.profile = .arm7tdmi)
    (hw : Writable (transferAddress s p u rn o) width) :
    EndsStore s (conditional c s (singleTransfer false width p u w rn rd off s)) (transferAddress s p u rn o) width
      (writesBack p w) rn rd (effectiveAddress u (s.readReg 8#32 rn) o) := by
  rw [conditional_singleTransfer hc hT (hwb ∘ writesBack_eq_true.2) (.inr hst) ho, ← conditional_pass _ hc]
  exact endsStore_of s c hc _ _ _ _ _ _ _ hw (fun h => (hwb h).1) rfl

end Single

section Halfword
variable {c : Cond} {width : Width} {signed p u w : Bool} {rn rd : RegIdx} {off : HalfOffset} {s : State} {o : Word}
  (hc : evaluate c s.flags = true) (hT : p = true ∨ w = false)
  (hwb : writesBack p w = true → rn ≠ 15#4 ∧ rn ≠ rd)
  (ho : halfOffsetValue s off = .ok o ∧ (s.sbzCheck && halfOffsetBadSbz off) = false)
include hc hT hwb ho

theorem endsLoad_halfwordTransfer (hr : Readable (transferAddress s p u rn o) width) :
    EndsLoad s (conditional c s (halfwordTransfer true width signed p u w rn rd off s)) (transferAddress s p u rn o)
      width signed (writesBack p w) rn rd (effectiveAddress u (s.readReg 8#32 rn) o) := by
  rw [conditional_halfwordTransfer hc hT (hwb ∘ writesBack_eq_true.2) (.inl rfl) ho, ← conditional_pass _ hc]
  exact endsLoad_of s c hc _ _ _ _ _ _ _ _ hr hwb rfl

theorem endsStore_halfwordTransfer (hst : rd ≠ 15#4 ∨ s.profile = .arm7tdmi)
    (hw : Writable (transferAddress s p u rn o) width) :
    EndsStore s (conditional c s (halfwordTransfer false width signed p u w rn rd off s)) (transferAddress s p u rn o)
      width (writesBack p w) rn rd (effectiveAddress u (s.readReg 8#32 rn) o) := by
  rw [conditional_halfwordTransfer hc hT (hwb ∘ writesBack_eq_true.2) (.inr hst) ho, ← conditional_pass _ hc]
  exact endsStore_of s c hc _ _ _ _ _ _ _ hw (fun h => (hwb h).1) rfl

end Halfword

/-- R340: a halfword transfer with P = 0 and W = 1 is refused once its fixed field has passed. -/
theorem halfwordTransfer_postWriteBack {load : Bool} {width : Width} {signed u : Bool} {rn rd : RegIdx}
    {off : HalfOffset} {s : State} (hz : (s.sbzCheck && halfOffsetBadSbz off) = false) :
    halfwordTransfer load width signed false u true rn rd off s = .error (.refuse .halfwordPostWriteBack) := by
  rw [halfwordTransfer, State.checkSbz, refuseIf_bind hz]
  rfl

/-! ### The obligations -/

/-- Settles O39: each form is the load of its rule at the rule's address; a T form is the post-indexed one, whose
address is the base. -/
theorem armLoadResults : Obligations.ArmLoadResults := by
  intro s c p u w rn rd off o hc ho base ea a wb
  have ho := offsetValue_of ho
  refine ⟨fun hT hwb => ?plain, fun hp hn hd => ?tForm⟩
  case plain =>
    have hT := hT.imp_right (Or.inl (b := s.profile = .arm7tdmi))
    exact ⟨endsLoad_singleTransfer hc hT hwb ho, endsLoad_singleTransfer hc hT hwb ho⟩
  case tForm =>
    have hwb (_ : writesBack false true = true) : rn ≠ 15#4 ∧ rn ≠ rd := ⟨hn, hd⟩
    exact ⟨endsLoad_singleTransfer hc (.inr (.inr hp)) hwb ho, endsLoad_singleTransfer hc (.inr (.inr hp)) hwb ho⟩

/-- Settles O40: as for the loads, with the store of each rule. -/
theorem armStoreResults : Obligations.ArmStoreResults := by
  intro s c p u w rn rd off o hc hst ho base ea a wb
  have ho := offsetValue_of ho
  refine ⟨fun hT hwb => ?plain, fun hp hn hd => ?tForm⟩
  case plain =>
    have hT := hT.imp_right (Or.inl (b := s.profile = .arm7tdmi))
    exact ⟨endsStore_singleTransfer hc hT hwb ho hst, endsStore_singleTransfer hc hT hwb ho hst⟩
  case tForm =>
    have hwb (_ : writesBack false true = true) : rn ≠ 15#4 ∧ rn ≠ rd := ⟨hn, hd⟩
    exact ⟨endsStore_singleTransfer hc (.inr (.inr hp)) hwb ho hst,
      endsStore_singleTransfer hc (.inr (.inr hp)) hwb ho hst⟩

/-- Settles O41: P = 0 with W = 1 is refused in every form, and any other form is its load or store. -/
theorem halfwordTransferResults : Obligations.HalfwordTransferResults := by
  intro s c p u w rn rd off o hc ho base ea a wb
  have ho := halfOffsetValue_of ho
  refine ⟨?refused, fun hT hwb => ?completes⟩
  case refused =>
    rintro rfl rfl
    have hrefused {load : Bool} {width : Width} {signed : Bool} :
        conditional c s (halfwordTransfer load width signed false u true rn rd off s) =
          .refused .halfwordPostWriteBack :=
      conditional_refuse hc (halfwordTransfer_postWriteBack ho.2)
    exact ⟨hrefused, hrefused, hrefused, hrefused⟩
  case completes =>
    exact ⟨endsLoad_halfwordTransfer hc hT hwb ho, endsLoad_halfwordTransfer hc hT hwb ho,
      endsLoad_halfwordTransfer hc hT hwb ho, endsStore_halfwordTransfer hc hT hwb ho⟩

end Sys2Proof.Proofs
end

section
/-! PROOFS. ARM block transfers: LDM and STM in every addressing mode, from the User bank with S = 1, and LDM as an
exception return (43_arm_load_store.md R350 to R353). -/

namespace Sys2Proof.Proofs

open Sys2Proof.Machine Sys2Proof.Laws

theorem ne_zero_of_getLsbD {n i : Nat} {x : BitVec n} (h : x.getLsbD i = true) : x ≠ 0#n := by
  rintro rfl
  exact Bool.false_ne_true (BitVec.getLsbD_zero.symm.trans h)

/-! ### Whose registers a block transfer moves -/

theorem blockMode_load {s : State} {sb : Bool} {rl : BitVec 16} (h : sb = true → rl.getLsbD 15 = false) :
    blockMode s true sb rl = if sb then .user else s.cpsr.mode := by
  cases sb with
  | false => rfl
  | true =>
    rw [blockMode, h rfl]
    rfl

theorem blockMode_return {s : State} {rl : BitVec 16} (h : rl.getLsbD 15 = true) :
    blockMode s true true rl = s.cpsr.mode := by
  rw [blockMode, h]
  rfl

theorem blockMode_store (s : State) (sb : Bool) (rl : BitVec 16) :
    blockMode s false sb rl = if sb then .user else s.cpsr.mode := by
  cases sb <;> rfl

/-! ### The rules past their checks -/

/-- R351: the state after the reads, the register writes and the write-back of an LDM: each register of the list, in
mode `m`'s bank, has taken its word, from `start` on. -/
structure BlockLoaded (s x : State) (m : Mode) (w : Bool) (rn : RegIdx) (rl : BitVec 16) (start newBase : Word) :
    Prop where
  rest : ∃ regs pc draws, x = { s with regs := regs, pc := pc, draws := draws }
  listed : ∀ i : RegIdx, rl.getLsbD i.toNat = true → i ≠ 15#4 →
    MayRead s (slot start (rank rl i.toNat)) .word (x.regIn m i)
  pc : if rl.getLsbD 15 then MayRead s (slot start (rank rl 15)) .word x.pc else x.pc = s.pc
  base : w = true → x.regIn s.cpsr.mode rn = newBase
  unlisted : ∀ k, ¬((∃ i : RegIdx, rl.getLsbD i.toNat = true ∧ i ≠ 15#4 ∧ physIndex m i = k) ∨
    (w = true ∧ physIndex s.cpsr.mode rn = k)) → x.regs.get k = s.regs.get k

section Rules
variable {s : State} {p u sb w : Bool} {rn : RegIdx} {rl : BitVec 16} {start : Word}
  (ha : (s.reg rn).toNat % 4 = 0) (hstart : blockStart p u (s.reg rn) (rank rl 16) = start)
include ha hstart

/-- R351: an LDM that passes its checks, and whose words may be read, is an exception return with S = 1 and R15 in the
list, and without R15 goes on at the next instruction. -/
theorem loadMultiple_eq {m : Mode} (hmode : blockMode s true sb rl = m) (hm : m = .user ∨ m = s.cpsr.mode)
    (hn : rn ≠ 15#4) (hw : w = true → rl.getLsbD rn.toNat = false)
    (hb : blockChecks s true sb w rn rl = faultIf (!aligned (s.reg rn) .word) (.alignmentViolation (s.reg rn)))
    (hread : ∀ i < 16, rl.getLsbD i = true → Readable (slot start (rank rl i)) .word) :
    ∃ x, BlockLoaded s x m w rn rl start (blockNewBase u (s.reg rn) (rank rl 16)) ∧
      loadMultiple p u sb w rn rl s =
        if rl.getLsbD 15 then if sb then x.returnFromException x.pc else .ok x else .ok x.nextArm := by
  obtain ⟨vs, t, x, hr, hx, hrest, hlisted, hpc, hbase, hunlisted⟩ :=
    readMany_writeMany s m hm w rn rl start (blockNewBase u (s.reg rn) (rank rl 16)) hn hw (rank_all hread)
  refine ⟨x, ⟨⟨_, _, _, hrest⟩, hlisted, hpc, hbase, hunlisted⟩, ?_⟩
  rw [← hstart, ← regList_length] at hr
  rw [← regList_length] at hx
  rw [loadMultiple, hb, faultIf_misaligned, if_pos ha, hmode]
  change (s.readMany _ _ >>= _) = _
  rw [hr, ← hx]
  rfl

/-- R352: an STM that passes its checks is its run of stores, its write-back and the step to the next instruction. -/
theorem storeMultiple_eq {t : State}
    (hb : blockChecks s false sb w rn rl = faultIf (!aligned (s.reg rn) .word) (.alignmentViolation (s.reg rn)))
    (hs : s.storeMany (if sb then .user else s.cpsr.mode) start (regList rl) = .ok t) :
    storeMultiple p u sb w rn rl s =
      .ok (t.writeBack w rn (blockNewBase u (s.reg rn) (rank rl 16))).nextArm := by
  rw [← hstart, ← regList_length] at hs
  rw [← regList_length, storeMultiple, hb, faultIf_misaligned, if_pos ha, blockMode_store]
  change (s.storeMany _ _ _ >>= _) = _
  rw [hs]
  rfl

end Rules

/-! ### The obligations -/

/-- Settles O42: where R15 is in the list S = 0, so LDM ends in the state it loaded, or in that state at the next
instruction. -/
theorem blockLoadResults : Obligations.BlockLoadResults := by
  intro s c p u sb w rn rl hc hl hn hw hsb m n base size start slot ha hread
  have hno15 (h : sb = true) : rl.getLsbD 15 = false := (hsb h).2
  have hb : blockChecks s true sb w rn rl = _ := blockChecks_eq hl hn hw
    (fun h => (hsb (h.resolve_right fun h => Bool.false_ne_true h.1.symm)).1)
    (fun h _ h15 => absurd ((hno15 h).symm.trans h15) Bool.false_ne_true)
  have hm : m = .user ∨ m = s.cpsr.mode := by cases sb <;> simp [m]
  obtain ⟨x, hx, hrule⟩ := loadMultiple_eq ha (blockStart_eq p u base n) (blockMode_load hno15) hm hn hw hb hread
  obtain ⟨regs, pc, draws, rfl⟩ := hx.rest
  have hbody : loadMultiple p u sb w rn rl s =
      .ok { s with regs := regs, pc := if rl.getLsbD 15 then pc else pc + 4#32, draws := draws } := by
    rw [hrule]
    cases sb with
    | false => cases rl.getLsbD 15 <;> rfl
    | true =>
      rw [hno15 rfl]
      rfl
  refine ⟨_, conditional_ok hc hbody, hx.listed, ?_, hx.base, rfl, ⟨hx.unlisted, rfl, rfl, rfl, rfl⟩, fun _ => rfl⟩
  have hpc := hx.pc
  cases h15 : rl.getLsbD 15 <;> rw [h15] at hpc
  · exact congrArg (· + 4#32) hpc
  · exact hpc

/-- Settles O43: R15 in the list makes the registers the current bank's, and the SPSR the return takes is as before. -/
theorem blockLoadReturns : Obligations.BlockLoadReturns := by
  intro s c p u w rn rl q hc hn hw hp h15 hq n base size start slot ha hread
  have hb : blockChecks s true true w rn rl = _ := blockChecks_eq (ne_zero_of_getLsbD h15) hn hw (fun _ => hp)
    (fun _ _ _ => by rw [hq]; exact Option.some_ne_none q)
  obtain ⟨x, hx, hrule⟩ :=
    loadMultiple_eq ha (blockStart_eq p u base n) (blockMode_return h15) (.inr rfl) hn hw hb hread
  obtain ⟨regs, pc, draws, rfl⟩ := hx.rest
  have hspsr : State.spsrNow { s with regs := regs, pc := pc, draws := draws } = some q := hq
  rw [h15, if_pos rfl, if_pos rfl, returnFromException_eq hspsr] at hrule
  have hpc := hx.pc
  rw [h15] at hpc
  refine ⟨_, conditional_ok hc hrule, rfl, hpc, hx.listed, hx.base, fun k hlist hbase => hx.unlisted k ?_, rfl,
    fun _ => rfl⟩
  rintro (⟨i, hi, hi15, hk⟩ | ⟨hwt, hk⟩)
  · exact hlist i hi hi15 hk
  · exact hbase hwt hk

/-- Settles O44: the run of stores leaves the registers as they were, and the write-back and the step to the next
instruction leave memory so. -/
theorem blockStoreResults : Obligations.BlockStoreResults := by
  intro s c p u sb w rn rl hc hl hn hw hp m n base size start slot ha hwrite
  have hb := blockChecks_eq hl hn hw (fun h => hp (h.imp_right And.right)) fun _ h => absurd h Bool.false_ne_true
  have hwords : ∀ k < (regList rl).length, Writable (Laws.slot start k) .word := by
    rw [regList_length]
    exact rank_all hwrite
  obtain ⟨t, ht, hst, hholds, hout⟩ := storeMany_writable s m (Nat.le_succ_of_le (regList_le rl)) hwords
  rw [regList_length] at hout
  have hbody := storeMultiple_eq ha (blockStart_eq p u base n) hb ht
  generalize hnb : blockNewBase u (s.reg rn) (rank rl 16) = nb at hbody
  refine ⟨_, conditional_ok hc hbody, fun i hi h15 => ?_, ?_, ?_, ?_, ?_, ?_⟩
  · have := hholds _ i (regList_rank hi) h15
    cases w <;> exact this
  · have := hout (regList_ne_nil hl)
    cases w <;> exact this
  · rw [hst]; cases w <;> rfl
  · rintro rfl
    exact (reg_setReg_self t rn nb).trans hnb.symm
  · rw [hst]; cases w <;> rfl
  · rw [hst]
    cases w with
    | false => exact frame_same rfl rfl rfl rfl rfl
    | true => exact frame_setReg (List.mem_singleton_self rn) hn rfl rfl rfl rfl rfl

end Sys2Proof.Proofs
end

section
/-! PROOFS. Transfers that are refused whatever memory holds: empty register lists, the base in the list, and
write-back conflicts (43_arm_load_store.md R330, R340, R350; 46_thumb_load_store.md R480 to R483). -/

namespace Sys2Proof.Proofs

open Sys2Proof.Machine Sys2Proof.Laws

/-- A refusal whose test holds ends its rule. -/
theorem refuseIf_bind_error {b : Bool} (hb : b = true) (r : Refusal) {α : Type} (f : Unit → Except Stop α) :
    (refuseIf b r >>= f) = .error (.refuse r) := by
  rw [hb]
  rfl

/-! ### ARM block transfers -/

theorem blockChecks_emptyList (s : State) (load sb w : Bool) (rn : RegIdx) :
    blockChecks s load sb w rn 0#16 = .error (.refuse .emptyList) := rfl

/-- R350: past the checks before it, write-back with the base in the list is refused. -/
theorem blockChecks_baseInList {s : State} {load sb : Bool} {rn : RegIdx} {rl : BitVec 16} (hn : rn ≠ 15#4)
    (hin : rl.getLsbD rn.toNat = true) (hp : sb = true → s.profile = .arm7tdmi)
    (hs : sb = true → load = true → rl.getLsbD 15 = true → s.spsrNow ≠ none) :
    blockChecks s load sb true rn rl = .error (.refuse .baseInList) := by
  have href : (sb && s.isReference) = false := by
    cases sb with
    | false => rfl
    | true => exact isReference_arm7tdmi (hp rfl)
  have hspsr : (sb && load && rl.getLsbD 15 && s.spsrNow.isNone) = false := by
    cases hreturn : sb && load && rl.getLsbD 15 with
    | false => rfl
    | true =>
      rw [Bool.and_eq_true, Bool.and_eq_true] at hreturn
      obtain ⟨⟨hsb, hload⟩, h15⟩ := hreturn
      exact isNone_eq_false (hs hsb hload h15)
  rw [blockChecks, refuseIf_bind (beq_false_of_ne (ne_zero_of_getLsbD hin)), refuseIf_bind href, refuseIf_bind hspsr,
    faultIf_bind (beq_false_of_ne hn), Bool.true_and, refuseIf_bind_error hin]

section Block
variable {c : Cond} {s : State} {p u sb w : Bool} {rn : RegIdx} {rl : BitVec 16} {r : Refusal}
  (hc : evaluate c s.flags = true)
include hc

theorem armLdm_refused (h : blockChecks s true sb w rn rl = .error (.refuse r)) :
    exec (.armLdm c p u sb w rn rl) s = .refused r := by
  refine conditional_refuse hc ?_
  rw [loadMultiple, h]
  rfl

theorem armStm_refused (h : blockChecks s false sb w rn rl = .error (.refuse r)) :
    exec (.armStm c p u sb w rn rl) s = .refused r := by
  refine conditional_refuse hc ?_
  rw [storeMultiple, h]
  rfl

end Block

/-! ### THUMB block transfers -/

theorem thumbBlockChecks_emptyList (s : State) (rb : LowIdx) :
    thumbBlockChecks s rb 0#8 = .error (.refuse .emptyList) := rfl

theorem thumbBlockChecks_baseInList {s : State} {rb : LowIdx} {rl : BitVec 8} (hin : rl.getLsbD rb.toNat = true) :
    thumbBlockChecks s rb rl = .error (.refuse .baseInList) := by
  rw [thumbBlockChecks, refuseIf_bind (beq_false_of_ne (ne_zero_of_getLsbD hin)), refuseIf_bind_error hin]

theorem thumbBlock_refused {s : State} {rb : LowIdx} {rl : BitVec 8} {r : Refusal}
    (h : thumbBlockChecks s rb rl = .error (.refuse r)) :
    exec (.thumbStmia rb rl) s = .refused r ∧ exec (.thumbLdmia rb rl) s = .refused r := by
  constructor
  · refine finish_eq_refused.2 ?_
    rw [thumbStoreMultiple, h]
    rfl
  · refine finish_eq_refused.2 ?_
    rw [thumbLoadMultiple, h]
    rfl

/-! ### Write-back conflicts -/

section Conflict
variable {s : State} {load : Bool} {width : Width} {p u w : Bool} {rn rd : RegIdx} (hconflict : rn = 15#4 ∨ rn = rd)
include hconflict

theorem transferChecks_conflict : transferChecks s true load rn rd = .error (.refuse .writeBackConflict) := by
  refine refuseIf_bind_error ?_ _ _
  rcases hconflict with rfl | rfl
  · rfl
  · rw [beq_self_eq_true, Bool.or_true]
    rfl

theorem singleTransfer_conflict {off : Offset} (hT : (!p && w && s.isReference) = false) (hwb : writesBack p w = true) :
    singleTransfer load width p u w rn rd off s = .error (.refuse .writeBackConflict) := by
  rw [singleTransfer, refuseIf_bind hT, hwb]
  change (transferChecks s true load rn rd >>= _) = _
  rw [transferChecks_conflict hconflict]
  rfl

theorem halfwordTransfer_conflict {signed : Bool} {off : HalfOffset} (hz : (s.sbzCheck && halfOffsetBadSbz off) = false)
    (hT : (!p && w) = false) (hwb : writesBack p w = true) :
    halfwordTransfer load width signed p u w rn rd off s = .error (.refuse .writeBackConflict) := by
  rw [halfwordTransfer, State.checkSbz, refuseIf_bind hz, refuseIf_bind hT, hwb]
  change (transferChecks s true load rn rd >>= _) = _
  rw [transferChecks_conflict hconflict]
  rfl

end Conflict

/-- A halfword offset whose fixed field is right or unchecked passes its check (R182). -/
theorem halfOffset_unchecked {s : State} {off : HalfOffset}
    (h : match off with | .imm _ => True | .reg sbz _ => s.sbzCheck = false ∨ sbz = 0#4) :
    (s.sbzCheck && halfOffsetBadSbz off) = false := by
  cases off with
  | imm off8 => exact Bool.and_false _
  | reg sbz rm => rcases h with h | h <;> simp [h, halfOffsetBadSbz]

/-- Settles O55: each rule's refusal ends it, once the tests that stand before it have passed. -/
theorem transferRefusals : Obligations.TransferRefusals := by
  intro s c hc
  refine ⟨fun p u sb w rn => ?empty, fun p u sb rn rl hn hin hp => ⟨fun hs => ?ldmBase, ?stmBase⟩, rfl, rfl,
    fun rb => thumbBlock_refused (thumbBlockChecks_emptyList s rb),
    fun rb rl hin => thumbBlock_refused (thumbBlockChecks_baseInList hin),
    fun p u w rn rd hconflict => ⟨?plain, fun hp off => ?tForms⟩⟩
  case empty =>
    exact ⟨armLdm_refused hc (blockChecks_emptyList ..), armStm_refused hc (blockChecks_emptyList ..)⟩
  case ldmBase => exact armLdm_refused hc (blockChecks_baseInList hn hin hp fun h _ => hs h)
  case stmBase =>
    exact armStm_refused hc (blockChecks_baseInList hn hin hp fun _ h => absurd h Bool.false_ne_true)
  case plain =>
    rintro rfl
    have hT : (!p && p) = false := Bool.not_and_self p
    have hwb : writesBack p p = true := Bool.not_or_self p
    refine ⟨fun off => ?single, fun off hz => ?half⟩
    case single =>
      have hsingle {load : Bool} {width : Width} :
          conditional c s (singleTransfer load width p u p rn rd off s) = .refused .writeBackConflict :=
        conditional_refuse hc (singleTransfer_conflict hconflict (by rw [hT, Bool.false_and]) hwb)
      exact ⟨hsingle, hsingle, hsingle, hsingle⟩
    case half =>
      have hhalf {load : Bool} {width : Width} {signed : Bool} :
          conditional c s (halfwordTransfer load width signed p u p rn rd off s) = .refused .writeBackConflict :=
        conditional_refuse hc (halfwordTransfer_conflict hconflict (halfOffset_unchecked hz) hT hwb)
      exact ⟨hhalf, hhalf, hhalf, hhalf⟩
  case tForms =>
    have htForm {load : Bool} {width : Width} :
        conditional c s (singleTransfer load width false u true rn rd off s) = .refused .writeBackConflict :=
      conditional_refuse hc (singleTransfer_conflict hconflict (isReference_arm7tdmi hp) rfl)
    exact ⟨htForm, htForm, htForm, htForm⟩

end Sys2Proof.Proofs
end

section
/-! PROOFS. The ARM branches, and the words that are no instruction (44_arm_branch_swi_coproc.md R380, R381, R385,
R387; 45_thumb_alu.md R426). -/

namespace Sys2Proof.Proofs

open Sys2Proof.Machine Sys2Proof.Laws

/-! ### Invalid words -/

/-- Settles O16: the meaning of an Invalid form is its refusal alone, with no condition tested and no state read. -/
theorem invalidWordsAreRefused : Obligations.InvalidWordsAreRefused :=
  fun _ => ⟨fun _ => ⟨rfl, rfl, rfl, rfl⟩, fun _ => ⟨rfl, rfl, rfl, rfl⟩⟩

/-! ### B and BL -/

/-- R380: a B that is taken moves the pc to its target and nothing else. -/
theorem exec_armB_taken {s : State} {c : Cond} (hc : evaluate c s.flags = true) (offset : BitVec 24) :
    exec (.armB c offset) s = .next { s with pc := armBranchTarget s.pc offset } :=
  conditional_ok hc rfl

/-- R381: a BL that is taken writes the link before it moves the pc. -/
theorem exec_armBl_taken {s : State} {c : Cond} (hc : evaluate c s.flags = true) (offset : BitVec 24) :
    exec (.armBl c offset) s =
      .next { s.setReg 14#4 (s.pc + 4#32) with pc := armBranchTarget s.pc offset } :=
  conditional_ok hc rfl

/-- Settles O45: the target is the block's ARM target in the integers, and the link is BL's one register write. -/
theorem armBranchResults : Obligations.ArmBranchResults := by
  intro s c offset hc target
  have htarget : armBranchTarget s.pc offset = target := armBranchTarget_eq s.pc offset
  constructor
  case left => rw [exec_armB_taken hc, htarget]
  case right =>
    have hlink : (s.setReg 14#4 (s.pc + 4#32)).reg 14#4 = s.pc + 4#32 := reg_setReg_self s 14#4 _
    exact ⟨_, exec_armBl_taken hc offset, htarget, hlink, rfl,
      frame_setReg (List.mem_singleton_self _) (by decide) rfl rfl rfl rfl rfl, fun _ => rfl⟩

end Sys2Proof.Proofs
end

section
/-! PROOFS. The THUMB shifts, arithmetic, logic, high-register operations and address arithmetic (45_thumb_alu.md R411
to R424, R430 to R442, R444, R445, R450 to R452). -/

namespace Sys2Proof.Proofs

open Sys2Proof.Machine Sys2Proof.Laws

/-! ### The end of a flag-setting operation -/

section Operation
variable {s : State} {op : AluOp} {a b : Word} {sh : ShiftedOperand} {r : Word} {cy v : Bool}

/-- R410: an operation that has a result writes it to Rd and sets the flags of it. -/
theorem thumbAluWrite_endsThumb (rd : LowIdx) (hw : op.writes = true)
    (hcore : aluCore op a sh.value sh.carryOut s.flags = (r, cy, v)) :
    EndsThumb s (.next (thumbAluWrite s rd (alu op a sh s.flags true))) rd r (flagsFrom r cy v) := by
  rw [alu_eq hcore, thumbAluWrite, if_pos hw]
  exact endsThumb_write s rd r _

/-- R410: a compare sets the flags and writes no register. -/
theorem thumbAluWrite_endsFlags (rd : LowIdx) (hw : op.writes = false)
    (hcore : aluCore op a sh.value sh.carryOut s.flags = (r, cy, v)) :
    EndsFlags s (.next (thumbAluWrite s rd (alu op a sh s.flags true))) (s.pc + 2#32) (flagsFrom r cy v) := by
  rw [alu_eq hcore, thumbAluWrite, if_neg (Bool.eq_false_iff.1 hw)]
  exact endsFlags_thumb s _

theorem thumbAlu_endsThumb (rd : LowIdx) (hw : op.writes = true)
    (hcore : aluCore op a b s.flags.c s.flags = (r, cy, v)) :
    EndsThumb s (.next (thumbAlu op a b rd s)) rd r (flagsFrom r cy v) :=
  thumbAluWrite_endsThumb (sh := ⟨b, s.flags.c⟩) rd hw hcore

theorem thumbAlu_endsFlags (rd : LowIdx) (hw : op.writes = false)
    (hcore : aluCore op a b s.flags.c s.flags = (r, cy, v)) :
    EndsFlags s (.next (thumbAlu op a b rd s)) (s.pc + 2#32) (flagsFrom r cy v) :=
  thumbAluWrite_endsFlags (sh := ⟨b, s.flags.c⟩) rd hw hcore

end Operation

/-! ### Shifts -/

/-- R411, R432: MOV passes on the shifter's value and carry, and leaves V. -/
theorem thumbShift_endsThumb (s : State) (ty : ShiftType) (value : Word) (amount : ShiftAmount) (rd : LowIdx) :
    let sh := shifterReg value ty amount s.flags.c
    EndsThumb s (.next (thumbShift ty value amount rd s)) rd sh.value (flagsFrom sh.value sh.carryOut s.flags.v) :=
  thumbAluWrite_endsThumb rd rfl rfl

/-- Settles O46: every shift is the shifter followed by MOV, whose second operand is the shifter's answer. -/
theorem thumbShiftResults : Obligations.ThumbShiftResults := by
  intro s rs rd ends amount
  have himm (ty : ShiftType) (off5 : BitVec 5) :
      ends (.next (thumbShift ty (s.reg (low rs)) (.imm off5) rd s))
        (shifterReg (s.reg (low rs)) ty (.imm off5) s.flags.c) := thumbShift_endsThumb s ty _ _ rd
  have hreg (ty : ShiftType) :
      ends (.next (thumbShift ty (s.reg (low rd)) amount rd s)) (shifterReg (s.reg (low rd)) ty amount s.flags.c) :=
    thumbShift_endsThumb s ty _ _ rd
  exact ⟨fun off5 => ⟨himm .lsl off5, himm .lsr off5, himm .asr off5⟩, hreg .lsl, hreg .lsr, hreg .asr, hreg .ror⟩

/-! ### Additions, subtractions and compares -/

/-- ADD is the addition with a carry in of 0. -/
theorem add_carryWord_false (a b : Word) : a + b + carryWord false = a + b := BitVec.add_zero _

/-- SUB is the subtraction with a carry in of 1. -/
theorem sub_carryWord_true (a b : Word) : a - b + carryWord true - 1#32 = a - b := BitVec.add_sub_cancel _ _

/-- Settles O47: each operation's core as the statement writes it, ADD and SUB being ADC and SBC at a fixed carry in,
and NEG the reversed subtraction from 0. -/
theorem thumbArithmeticResults : Obligations.ThumbArithmeticResults := by
  intro s rn rs rd imm3 imm8 x y add sub compare
  have hadd (a b : Word) : add (.next (thumbAlu .add a b rd s)) a b false := by
    dsimp only [add]
    rw [add_carryWord_false]
    exact thumbAlu_endsThumb rd rfl aluCore_add
  have hsub {op : AluOp} {c d a b : Word} (hw : op.writes = true)
      (hcore : aluCore op c d s.flags.c s.flags = aluCore .sub a b s.flags.c s.flags) :
      sub (.next (thumbAlu op c d rd s)) a b true := by
    dsimp only [sub]
    rw [sub_carryWord_true]
    exact thumbAlu_endsThumb rd hw (hcore.trans aluCore_sub)
  have hadc : add (.next (thumbAlu .adc y x rd s)) y x s.flags.c := thumbAlu_endsThumb rd rfl aluCore_adc
  have hsbc : sub (.next (thumbAlu .sbc y x rd s)) y x s.flags.c := thumbAlu_endsThumb rd rfl aluCore_sbc
  have hcmp (b : Word) : compare (.next (thumbAlu .cmp y b rd s)) y b :=
    thumbAlu_endsFlags rd rfl (aluCore_cmp.trans aluCore_sub)
  exact ⟨hadd _ _, hadd _ _, hadd _ _, hadc, hsub rfl rfl, hsub rfl rfl, hsub rfl rfl, hsub rfl aluCore_rsb, hsbc,
    hcmp _, hcmp _, thumbAlu_endsFlags rd rfl (aluCore_cmn.trans aluCore_add)⟩

/-! ### Moves and logic -/

/-- Settles O48: the second operand has C as its carry out, so the core of each operation answers C and V as they
were. -/
theorem thumbLogicalResults : Obligations.ThumbLogicalResults := by
  intro s rs rd imm8 x y ends
  have hends {op : AluOp} {a b r : Word} (hw : op.writes = true)
      (hcore : aluCore op a b s.flags.c s.flags = (r, s.flags.c, s.flags.v)) :
      ends (.next (thumbAlu op a b rd s)) r := thumbAlu_endsThumb rd hw hcore
  exact ⟨hends rfl rfl, hends rfl rfl, hends rfl rfl, hends rfl rfl, hends rfl rfl, hends rfl rfl,
    thumbAlu_endsFlags rd rfl rfl⟩

/-! ### High registers -/

section WriteThumb
variable {s : State} {rd : RegIdx} {r : Word}

theorem reg_writeThumb_self (h : rd ≠ 15#4) : (s.writeThumb rd r).reg rd = r := by
  rw [State.writeThumb, if_neg h]
  exact reg_setReg_self s rd r

theorem frame_writeThumb : Frame s (s.writeThumb rd r) (bank s [rd]) := by
  rw [State.writeThumb]
  split
  case isTrue => exact frame_same rfl rfl rfl rfl rfl
  case isFalse h => exact frame_setReg (List.mem_singleton_self rd) h rfl rfl rfl rfl rfl

theorem sameBytes_writeThumb : SameBytes s (s.writeThumb rd r) := fun a => by simp [State.byteAt]

end WriteThumb

/-- Settles O49: an operand read is the model's own `readReg` with the pc 4 ahead, ADD and MOV end by writing Rd, and
CMP is the low registers' compare. -/
theorem highRegisterResults : Obligations.HighRegisterResults := by
  intro s rs rd x y ends
  have hends (r : Word) : ends (.next (s.writeThumb rd r)) r := by
    refine ⟨_, rfl, ?_, congrArg Psr.flags (writeThumb_cpsr s rd r), frame_writeThumb, sameBytes_writeThumb⟩
    split
    case isTrue h => exact (writeThumb_pc s rd r).trans (if_pos h)
    case isFalse h => exact ⟨reg_writeThumb_self h, (writeThumb_pc s rd r).trans (if_neg h)⟩
  exact ⟨hends (y + x), hends x, thumbAlu_endsFlags 0#3 rfl (aluCore_cmp.trans aluCore_sub)⟩

/-! ### Address arithmetic -/

/-- A THUMB rule that writes a low register and sets no flag. -/
theorem endsThumb_writeLow (s : State) (rd : LowIdx) (r : Word) : EndsThumb s (.next (s.writeLow rd r)) rd r s.flags :=
  endsThumb_write s rd r s.flags

/-- Settles O50: each is one register write, of a low register or of R13, and the pc's advance. -/
theorem thumbAddressResults : Obligations.ThumbAddressResults := by
  intro s
  refine ⟨fun rd off => endsThumb_writeLow s rd _, fun rd off => endsThumb_writeLow s rd _, fun sb m => ?adjustSp⟩
  exact ⟨_, rfl, reg_setReg_self s 13#4 _, rfl, rfl,
    frame_setReg (List.mem_singleton_self _) (by decide) rfl rfl rfl rfl rfl, fun _ => rfl⟩

end Sys2Proof.Proofs
end

section
/-! PROOFS. THUMB loads and stores: the transfers of one register, PUSH and POP, STMIA and LDMIA
(46_thumb_load_store.md R460 to R483). -/

namespace Sys2Proof.Proofs

open Sys2Proof.Machine Sys2Proof.Laws

/-! ### Lists of low registers -/

theorem rank_congr {a b : BitVec 16} {n : Nat} (h : ∀ j < n, a.getLsbD j = b.getLsbD j) : rank a n = rank b n :=
  congrArg List.length (List.filter_congr fun j hj => h j (List.mem_range.1 hj))

/-- A list is its registers below R15, then R15 if it names it. -/
theorem regList_eq_append (rl : BitVec 16) :
    regList rl = ((List.range 15).filter fun j => rl.getLsbD j).map (BitVec.ofNat 4) ++
      if rl.getLsbD 15 then [15#4] else [] := by
  rw [regList, List.range_succ, List.filter_append, List.map_append, List.filter_singleton]
  cases rl.getLsbD 15 <;> rfl

section LowList
variable {l : BitVec 8}

theorem lowList_above {j : Nat} (h : 8 ≤ j) : (l.setWidth 16).getLsbD j = false := by
  simp [BitVec.getLsbD_of_ge l j h]

theorem rank_lowList {n : Nat} (h : 8 ≤ n) : rank (l.setWidth 16) n = rank (l.setWidth 16) 8 := by
  induction n, h using Nat.le_induction with
  | base => rfl
  | succ n h ih =>
    rw [← ih, rank, List.range_succ, List.filter_append, List.filter_singleton, lowList_above h]
    exact congrArg List.length (List.append_nil _)

/-- The place of a listed low register is the number of listed registers below it. -/
theorem lowList_rank {i : LowIdx} (h : l.getLsbD i.toNat = true) :
    (regList (l.setWidth 16))[rank (l.setWidth 16) i.toNat]? = some (low i) := by
  rw [← low_toNat]
  exact regList_rank ((lowBit l i).trans h)

theorem lowList_ne_nil (h : l ≠ 0#8) : regList (l.setWidth 16) ≠ [] := by
  refine regList_ne_nil fun h0 => h ?_
  simpa using congrArg (BitVec.setWidth 8) h0

end LowList

/-- The registers PUSH stores, lowest first: the list's, then R14 when R = 1. -/
def pushList (r : Bool) (l : BitVec 8) : List RegIdx := regList (l.setWidth 16) ++ if r then [14#4] else []

section PushList
variable {r : Bool} {l : BitVec 8}

theorem pushList_length : (pushList r l).length = rank (l.setWidth 16) 8 + r.toNat := by
  rw [pushList, List.length_append, rank_regs]
  cases r <;> rfl

theorem pushList_length_le : (pushList r l).length ≤ 17 := by
  have hle := regList_le (l.setWidth 16)
  rw [rank_regs] at hle
  rw [pushList_length]
  exact Nat.add_le_add hle (Bool.toNat_le r)

theorem pushList_low {i : LowIdx} (h : l.getLsbD i.toNat = true) :
    (pushList r l)[rank (l.setWidth 16) i.toNat]? = some (low i) := by
  have hi := lowList_rank h
  rwa [pushList, List.getElem?_append_left (List.getElem?_eq_some_iff.1 hi).1]

theorem pushList_link : (pushList true l)[rank (l.setWidth 16) 8]? = some 14#4 := by
  rw [← rank_regs]
  exact List.getElem?_concat_length

end PushList

/-- The list of the LDM that loads what POP loads: the low registers', and R15 for the pc when R = 1. -/
def loadList (r : Bool) (l : BitVec 8) : BitVec 16 := l.setWidth 16 ||| if r then BitVec.twoPow 16 15 else 0#16

section LoadList
variable {r : Bool} {l : BitVec 8}

theorem loadList_false : loadList false l = l.setWidth 16 := BitVec.or_zero

theorem loadList_pc : (loadList r l).getLsbD 15 = r := by
  cases r <;> simp [loadList]

theorem loadList_below {j : Nat} (h : j < 15) : (loadList r l).getLsbD j = (l.setWidth 16).getLsbD j := by
  cases r <;> simp [loadList, h.ne']

theorem loadList_low (i : LowIdx) : (loadList r l).getLsbD (low i).toNat = l.getLsbD i.toNat := by
  have := i.isLt
  rw [loadList_below (by rw [low_toNat]; omega), lowBit]

theorem mem_loadList {i : RegIdx} (hi : (loadList r l).getLsbD i.toNat = true) (h15 : i ≠ 15#4) :
    ∃ j : LowIdx, i = low j ∧ l.getLsbD j.toNat = true := by
  have hne : i.toNat ≠ 15 := fun h => h15 (BitVec.eq_of_toNat_eq h)
  have hlt : i.toNat < 15 := Nat.lt_of_le_of_ne (Nat.le_of_lt_succ i.isLt) hne
  exact lowList (mem_regList.2 ((loadList_below hlt).symm.trans hi))

theorem regList_loadList : regList (loadList r l) = regList (l.setWidth 16) ++ if r then [15#4] else [] := by
  have hbelow : (List.range 15).filter (fun j => (loadList r l).getLsbD j) =
      (List.range 15).filter fun j => (l.setWidth 16).getLsbD j :=
    List.filter_congr fun j hj => loadList_below (List.mem_range.1 hj)
  rw [regList_eq_append, regList_eq_append (l.setWidth 16), loadList_pc, hbelow, lowList_above (by decide)]
  simp

theorem rank_loadList : rank (loadList r l) 16 = rank (l.setWidth 16) 8 + r.toNat := by
  rw [← regList_length, regList_loadList, List.length_append, rank_regs]
  cases r <;> rfl

theorem rank_loadList_below {n : Nat} (h : n ≤ 15) : rank (loadList r l) n = rank (l.setWidth 16) n :=
  rank_congr fun _ hj => loadList_below (Nat.lt_of_lt_of_le hj h)

end LoadList

/-! ### Blocks of stores and of reads -/

/-- R480, R482: the state after a block of stores, the write of the base and the step to the next instruction: the
registers of `is` stand at consecutive words from `start` on. -/
structure ThumbStored (s x : State) (is : List RegIdx) (rn : RegIdx) (start newBase : Word) : Prop where
  listed : ∀ k i, is[k]? = some i → i ≠ 15#4 → Holds x (slot start k).toNat 4 (s.reg i)
  outside : SameOutside s x start.toNat (4 * is.length)
  base : x.reg rn = newBase
  pc : x.pc = s.pc + 2#32
  flags : x.flags = s.flags
  frame : Frame s x (bank s [rn])

/-- A block of stores that are all allowed answers, and the writes that follow it leave memory as it left it. -/
theorem storeMany_thumbStored (s : State) {is : List RegIdx} {rn : RegIdx} {start : Word} (newBase : Word)
    (hrn : rn ≠ 15#4) (hne : is ≠ []) (hlen : is.length ≤ 17) (hw : ∀ k < is.length, Writable (slot start k) .word) :
    ∃ t, s.storeMany s.cpsr.mode start is = .ok t ∧
      ThumbStored s (t.setReg rn newBase).nextThumb is rn start newBase := by
  obtain ⟨t, ht, hrest, hholds, hout⟩ := storeMany_writable s s.cpsr.mode hlen hw
  refine ⟨t, ht, hholds, hout hne, reg_setReg_self t rn newBase, ?_, ?_, ?_⟩ <;> rw [hrest]
  · rfl
  · rfl
  · exact frame_setReg (List.mem_singleton_self rn) hrn rfl rfl rfl rfl rfl

/-- R481, R483: the state after a block of reads, the register writes and the write of the base: each register of the
list has taken its word, from `start` on, and with `r` the pc the next one. -/
structure ThumbLoaded (s x : State) (r : Bool) (l : BitVec 8) (rn : RegIdx) (start newBase : Word) : Prop where
  listed : ∀ i : LowIdx, l.getLsbD i.toNat = true →
    MayRead s (slot start (rank (l.setWidth 16) i.toNat)) .word (x.reg (low i))
  pc : if r then MayRead s (slot start (rank (l.setWidth 16) 8)) .word x.pc else x.pc = s.pc
  base : x.reg rn = newBase
  flags : x.flags = s.flags
  frame : Frame s x fun k => (∃ i : LowIdx, l.getLsbD i.toNat = true ∧ physIndex s.cpsr.mode (low i) = k) ∨
    physIndex s.cpsr.mode rn = k
  memory : SameBytes s x

/-- A block of reads that may be made answers; what follows it is an LDM's writes with write-back. -/
theorem readMany_thumbLoaded (s : State) (r : Bool) {l : BitVec 8} {rn : RegIdx} {start : Word} (newBase : Word)
    (hrn : rn ≠ 15#4) (hnotIn : (loadList r l).getLsbD rn.toNat = false)
    (hr : ∀ k < rank (l.setWidth 16) 8 + r.toNat, Readable (slot start k) .word) :
    ∃ vs t, s.readMany start (rank (l.setWidth 16) 8 + r.toNat) = .ok (vs, t) ∧
      ThumbLoaded s ((t.writeMany s.cpsr.mode ((regList (loadList r l)).zip vs)).setReg rn newBase) r l rn start
        newBase := by
  rw [← rank_loadList] at hr ⊢
  obtain ⟨vs, t, x, ht, hx, hrest, hlisted, hpc, hbase, hunlisted⟩ :=
    readMany_writeMany s s.cpsr.mode (.inr rfl) true rn (loadList r l) start newBase hrn (fun _ => hnotIn) hr
  change (t.writeMany _ _).setReg rn newBase = x at hx
  obtain ⟨regs, pc, draws, rfl⟩ : ∃ regs pc draws, x = { s with regs := regs, pc := pc, draws := draws } :=
    ⟨_, _, _, hrest⟩
  refine ⟨vs, t, ht, ?_⟩
  rw [hx]
  refine ⟨fun i hi => ?listed, ?pc, hbase rfl, rfl, ⟨fun k hk => hunlisted k ?unlisted, rfl, rfl, rfl, rfl⟩,
    fun _ => rfl⟩
  case listed =>
    have h := hlisted (low i) ((loadList_low i).trans hi) (low_ne_pc i)
    rwa [rank_loadList_below (Nat.le_of_lt_succ (low i).isLt), low_toNat] at h
  case pc => rwa [loadList_pc, rank_loadList_below le_rfl, rank_lowList (by decide)] at hpc
  case unlisted =>
    rintro (⟨i, hi, hi15, hik⟩ | ⟨-, hnk⟩)
    · obtain ⟨j, rfl, hj⟩ := mem_loadList hi hi15
      exact hk (.inl ⟨j, hj, hik⟩)
    · exact hk (.inr hnk)

theorem writeMany_append (s : State) (m : Mode) (xs ys : List (RegIdx × Word)) :
    s.writeMany m (xs ++ ys) = (s.writeMany m xs).writeMany m ys := by
  induction xs generalizing s with
  | nil => rfl
  | cons x xs ih => exact ih _

/-- A list with one register more is paired with one word more. -/
theorem zip_concat {is : List RegIdx} {vs : List Word} (i : RegIdx) (h : vs.length = is.length + 1) :
    (is ++ [i]).zip vs = is.zip vs ++ [(i, vs.getLastD 0#32)] := by
  obtain rfl | ⟨ws, v, rfl⟩ := vs.eq_nil_or_concat'
  case inl => cases h
  case inr =>
    have hws : is.length = ws.length := by simpa using h.symm
    have hzip : is.zip (ws ++ [v]) = is.zip ws := by simpa using List.zip_append (r₁ := []) (r₂ := [v]) hws
    rw [List.zip_append hws, hzip, List.getLastD_concat]
    rfl

/-- R15 at the list's end takes the last word: the low registers' writes, then the pc. -/
theorem writeMany_loadList_true (s : State) (m : Mode) {l : BitVec 8} {vs : List Word}
    (h : vs.length = (regList (l.setWidth 16)).length + 1) :
    s.writeMany m ((regList (loadList true l)).zip vs) =
      { s.writeMany m ((regList (l.setWidth 16)).zip vs) with pc := vs.getLastD 0#32 } := by
  rw [regList_loadList, if_pos rfl, zip_concat _ h, writeMany_append]
  rfl

/-! ### The rules past their checks -/

section StackRules
variable {s : State} {r : Bool} {l : BitVec 8} (ha : (s.reg 13#4).toNat % 4 = 0)
include ha

/-- R480: a PUSH that passes its checks is its run of stores, the new R13 and the step to the next instruction. -/
theorem push_eq (hne : pushList r l ≠ []) :
    push r l s = s.storeMany s.cpsr.mode (s.reg 13#4 - fourTimes (pushList r l).length) (pushList r l) >>= fun t =>
      .ok (t.setReg 13#4 (s.reg 13#4 - fourTimes (pushList r l).length)).nextThumb := by
  change (refuseIf (pushList r l).isEmpty .emptyList >>= _) = _
  rw [refuseIf_bind (List.isEmpty_eq_false_iff.2 hne)]
  exact (faultIf_misaligned _ _).trans (if_pos ha)

/-- R481: a POP that passes its checks is its run of reads, the register writes, the new R13 and the step to the next
instruction or, with R = 1, to the last word read. -/
theorem pop_eq {n : Nat} (hn : (regList (l.setWidth 16)).length + r.toNat = n) (h0 : n ≠ 0) :
    pop r l s = s.readMany (s.reg 13#4) n >>= fun p =>
      let x := (p.2.writeMany s.cpsr.mode ((regList (l.setWidth 16)).zip p.1)).setReg 13#4 (s.reg 13#4 + fourTimes n)
      .ok (if r then { x with pc := p.1.getLastD 0#32 &&& ~~~1#32 } else x.nextThumb) := by
  have hcount : (regList (l.setWidth 16)).length + (if r then 1 else 0) = n := by
    cases r <;> exact hn
  rw [pop, hcount, refuseIf_bind (beq_false_of_ne h0)]
  exact (faultIf_misaligned _ _).trans (if_pos ha)

end StackRules

section BlockRules
variable {s : State} {rb : LowIdx} {l : BitVec 8} (hl : l ≠ 0#8) (hb : l.getLsbD rb.toNat = false)
  (ha : (s.reg (low rb)).toNat % 4 = 0)
include hl hb ha

/-- R482: an STMIA that passes its checks is its run of stores, the new base and the step to the next instruction. -/
theorem thumbStoreMultiple_eq :
    thumbStoreMultiple rb l s = s.storeMany s.cpsr.mode (s.reg (low rb)) (regList (l.setWidth 16)) >>= fun t =>
      .ok (t.setReg (low rb) (s.reg (low rb) + fourTimes (rank (l.setWidth 16) 8))).nextThumb := by
  rw [thumbStoreMultiple, thumbBlockChecks_eq hl hb, ← rank_regs]
  exact (faultIf_misaligned _ _).trans (if_pos ha)

/-- R483: an LDMIA that passes its checks is its run of reads, the register writes, the new base and the step to the
next instruction. -/
theorem thumbLoadMultiple_eq :
    thumbLoadMultiple rb l s = s.readMany (s.reg (low rb)) (rank (l.setWidth 16) 8) >>= fun p =>
      .ok ((p.2.writeMany s.cpsr.mode ((regList (l.setWidth 16)).zip p.1)).setReg (low rb)
        (s.reg (low rb) + fourTimes (rank (l.setWidth 16) 8))).nextThumb := by
  rw [thumbLoadMultiple, thumbBlockChecks_eq hl hb, ← rank_regs]
  exact (faultIf_misaligned _ _).trans (if_pos ha)

end BlockRules

/-! ### The obligations -/

/-- Settles O51: each form is the one load or store of R460, at the address of its rule. -/
theorem thumbTransferResults : Obligations.ThumbTransferResults := by
  intro s ro rb rd pcBase b a loads stores
  have hload (x : Word) (w : Width) (signed : Bool) : loads (finish (thumbLoad w signed x rd s)) x w signed :=
    endsThumbLoad_of s signed rd
  have hstore (x : Word) (w : Width) : stores (finish (thumbStore w x rd s)) x w := endsThumbStore_of s rd
  exact ⟨fun off => ⟨hload _ .word false, hload _ .word false, hstore _ .word⟩,
    hload a .word false, hstore a .word, hload a .byte false, hstore a .byte, hload a .half false, hstore a .half,
    hload a .byte true, hload a .half true,
    fun off => ⟨hload _ .word false, hstore _ .word⟩, fun off => ⟨hload _ .byte false, hstore _ .byte⟩,
    fun off => ⟨hload _ .half false, hstore _ .half⟩⟩

/-- Settles O52: the list's registers and R14 are one run of stores, in which R14's place follows the list's. -/
theorem pushResult : Obligations.PushResult := by
  intro s r rl l n start slot hn ha hw
  have hlen : (pushList r rl).length = n := pushList_length
  have hne : pushList r rl ≠ [] := List.ne_nil_of_length_pos (hlen ▸ Nat.pos_of_ne_zero hn)
  have hpush := push_eq ha hne
  rw [← hlen] at hw
  obtain ⟨t, ht, hx⟩ := storeMany_thumbStored s start (by decide : (13#4 : RegIdx) ≠ 15#4) hne pushList_length_le hw
  rw [hlen] at hpush
  refine ⟨_, congrArg finish (hpush.trans (congrArg (· >>= _) ht)), fun i hi => ?_, ?_, hlen ▸ hx.outside, hx.base,
    hx.pc, hx.flags, hx.frame⟩
  · exact hx.listed _ _ (pushList_low hi) (low_ne_pc i)
  · rintro rfl
    exact hx.listed _ _ pushList_link (by decide)

/-- Settles O53: POP writes what an LDM of its list, with R15 for the pc, writes; with R = 1 bit 0 of the pc it loaded
is cleared, and else the pc moves on. -/
theorem popResult : Obligations.PopResult := by
  intro s r rl l n sp slot hn ha hr
  have hnotIn : (loadList r rl).getLsbD 13 = false := (loadList_below (by decide)).trans (lowList_above (by decide))
  obtain ⟨vs, t, ht, hx⟩ := readMany_thumbLoaded s r (rn := 13#4) (sp + fourTimes n) (by decide) hnotIn hr
  have hcount : (regList l).length + r.toNat = n := congrArg (· + r.toNat) (rank_regs rl)
  have hpop := congrArg finish ((pop_eq ha hcount hn).trans (congrArg (· >>= _) ht))
  cases r with
  | false =>
    rw [loadList_false] at hx
    exact ⟨_, hpop, hx.listed, congrArg (· + 2#32) hx.pc, hx.base, hx.flags, hx.frame, hx.memory⟩
  | true =>
    rw [writeMany_loadList_true t _ ((readMany_ok ht).2.trans hcount.symm)] at hx
    exact ⟨_, hpop, hx.listed, ⟨_, hx.pc, rfl⟩, hx.base, hx.flags, hx.frame, hx.memory⟩

/-- Settles O54: STMIA is the block of stores of its list, and LDMIA the block of reads that POP makes without the
pc, each from Rb up. -/
theorem thumbBlockResults : Obligations.ThumbBlockResults := by
  intro s rb rl l n b slot hl hb ha
  have hlen : (regList l).length = n := rank_regs rl
  refine ⟨fun hw => ?store, fun hr => ?load⟩
  case store =>
    rw [← hlen] at hw
    obtain ⟨t, ht, hx⟩ := storeMany_thumbStored s (b + fourTimes n) (low_ne_pc rb) (lowList_ne_nil hl)
      (Nat.le_succ_of_le (regList_le l)) hw
    exact ⟨_, congrArg finish ((thumbStoreMultiple_eq hl hb ha).trans (congrArg (· >>= _) ht)),
      fun i hi => hx.listed _ _ (lowList_rank hi) (low_ne_pc i), hlen ▸ hx.outside, hx.base, hx.pc, hx.flags,
      hx.frame⟩
  case load =>
    obtain ⟨vs, t, ht, hx⟩ :=
      readMany_thumbLoaded s false (b + fourTimes n) (low_ne_pc rb) ((loadList_low rb).trans hb) hr
    rw [loadList_false] at hx
    exact ⟨_, congrArg finish ((thumbLoadMultiple_eq hl hb ha).trans (congrArg (· >>= _) ht)),
      hx.listed, hx.base, congrArg (· + 2#32) hx.pc, hx.flags, hx.frame, hx.memory⟩

end Sys2Proof.Proofs
end

section
/-! PROOFS. The THUMB branches and the long branch with link (47_thumb_branch_swi.md R500, R503 to R506). -/

namespace Sys2Proof.Proofs

open Sys2Proof.Machine Sys2Proof.Laws

/-! ### The conditional branches -/

section Conditional
variable {s : State} {c : Cond}

/-- R500: a branch whose condition passes moves the pc to its target and nothing else. -/
theorem thumbBranchIf_taken (hc : evaluate c s.flags = true) (off : BitVec 9) :
    thumbBranchIf c off s = { s with pc := thumbBranchTarget s.pc off } := if_pos hc

/-- R500: a branch whose condition fails moves on to the next instruction. -/
theorem thumbBranchIf_skipped (hc : ¬evaluate c s.flags = true) (off : BitVec 9) :
    thumbBranchIf c off s = s.nextThumb := if_neg hc

end Conditional

/-- Settles O56: the fourteen are one rule, whose condition is the flags' formula by the truth table (O24). -/
theorem thumbConditionalBranches : Obligations.ThumbConditionalBranches := by
  intro s off ends f
  have hends {c : Cond} {pass : Prop} (h : evaluate c f = true ↔ pass) :
      ends (.next (thumbBranchIf c off s)) pass :=
    ⟨fun hp => congrArg Host.Outcome.next (thumbBranchIf_taken (h.2 hp) off),
      fun hp => congrArg Host.Outcome.next (thumbBranchIf_skipped (fun hc => hp (h.1 hc)) off)⟩
  obtain ⟨heq, hne, hcs, hcc, hmi, hpl, hvs, hvc, hhi, hls, hge, hlt, hgt, hle, -⟩ := conditionTruthTable f
  exact ⟨hends heq, hends hne, hends hcs, hends hcc, hends hmi, hends hpl, hends hvs, hends hvc, hends hhi, hends hls,
    hends hge, hends hlt, hends hgt, hends hle⟩

/-! ### B and the two halves of BL -/

/-- Settles O57: the target is the block's THUMB target in the integers, and a half of BL is one register write, of
R14, and a write of the pc. -/
theorem thumbBranchResults : Obligations.ThumbBranchResults := by
  intro s
  refine ⟨fun off => ?b, fun off => ?high, fun off => ?low⟩
  case b =>
    rw [← thumbBranchTarget_eq]
    rfl
  case high =>
    have hlink : (s.setReg 14#4 (thumbBranchTarget s.pc off)).nextThumb.reg 14#4 = thumbBranchTarget s.pc off :=
      reg_setReg_self s 14#4 _
    exact ⟨_, rfl, hlink.trans (thumbBranchTarget_eq s.pc off), rfl, rfl,
      frame_setReg (List.mem_singleton_self _) (by decide) rfl rfl rfl rfl rfl, fun _ => rfl⟩
  case low =>
    exact ⟨_, rfl, reg_setReg_self s 14#4 _, rfl, rfl,
      frame_setReg (List.mem_singleton_self _) (by decide) rfl rfl rfl rfl rfl, fun _ => rfl⟩

/-- A frame keeps the mode, so a list of registers has its places where it had them. -/
theorem Frame.bank_eq {s t : State} {W : Fin 30 → Prop} (h : Frame s t W) (is : List RegIdx) :
    bank t is = bank s is := by
  obtain ⟨-, hcpsr, -⟩ := h
  have hmode : t.cpsr.mode = s.cpsr.mode := by rw [hcpsr]
  unfold bank
  rw [hmode]

/-- Settles O58: the low half adds its offset to the link the high half left, and the second frame is the first's,
the mode being kept. -/
theorem branchLinkPair : Obligations.BranchLinkPair := by
  intro s hi lo
  obtain ⟨-, hhigh, -⟩ := thumbBranchResults s
  obtain ⟨t, ht, htLink, htPc, htFlags, htFrame, htBytes⟩ := hhigh hi
  obtain ⟨-, -, hlow⟩ := thumbBranchResults t
  obtain ⟨u, hu, huLink, huPc, huFlags, huFrame, huBytes⟩ := hlow lo
  have hpc : u.pc = s.pc + 4#32 + BitVec.ofInt 32 hi.toInt + BitVec.ofNat 32 lo.toNat := by
    rw [huPc, htLink, BitVec.ofNat_toNat]
  have hnext : t.pc + 2#32 = s.pc + 4#32 := by
    rw [htPc]
    exact BitVec.add_assoc s.pc 2#32 2#32
  have hframe : Frame s u (bank s [14#4]) := by
    rw [Frame.bank_eq htFrame] at huFrame
    exact Frame.mono (Frame.trans htFrame huFrame) fun k => or_self_iff.1
  exact ⟨t, ht, u, hu, hpc, hnext ▸ huLink, huFlags.trans htFlags, hframe,
    fun a => (huBytes a).trans (htBytes a)⟩

end Sys2Proof.Proofs
end

section
/-! PROOFS. What no step changes: the bytes of the BIOS, the ROM and IO (20_memory.md R75, R87; 70_reset_and_hazards.md
R653), and, in profile executorReference, the mode and what other modes keep (10_state.md R38, R49; 60_exceptions.md
R620). -/

namespace Sys2Proof.Proofs

open Sys2Proof.Machine Sys2Proof.Laws

/-! ### The bytes no instruction can write -/

theorem dataWrite_readOnly {m m' : List Host.Cell} (h : DataWrite m m') {a : Nat} (ha : unwritable a) :
    Memory.get m' a = Memory.get m a := by
  obtain ⟨addr, v, w, hal, hc, rfl⟩ := h
  let s : State := { State.reset with mem := m }
  have hs : s.store addr w v = .ok { s with mem := writeLe m addr v w.bytes } := by simp [State.store, hal, hc, s]
  exact store_readOnly hs a ha

theorem dataWrites_readOnly {m m' : List Host.Cell} (h : DataWrites m m') {a : Nat} (ha : unwritable a) :
    Memory.get m' a = Memory.get m a := by
  induction h with
  | refl => rfl
  | tail _ h ih => exact (dataWrite_readOnly h ha).trans ih

/-- Settles O9: a step makes allowed data writes alone, and none of them is allowed at a byte of these regions. -/
theorem stepNeverWritesReadOnly : Obligations.StepNeverWritesReadOnly := by
  intro s t h a ha
  have hget : Memory.get t.mem a = Memory.get s.mem a := dataWrites_readOnly (step_writesOnly s t h) ha
  rw [State.byteAt, State.byteAt, hget]

/-! ### What the current mode can reach -/

/-- The places of the registers that the current mode sees (R38). -/
def visible (s : State) : Fin 30 → Prop := fun k => ∃ i : RegIdx, i ≠ 15#4 ∧ physIndex s.cpsr.mode i = k

/-- A change that stays in the current mode and instruction set: no other register than those the mode sees, and of the
CPSR only the flags. -/
abbrev WithinMode (s t : State) : Prop := Frame s t (visible s)

theorem withinMode_of_bank {s t : State} {is : List RegIdx} (h : Frame s t (bank s is)) : WithinMode s t :=
  Frame.mono h fun _ ⟨i, _, hi, hk⟩ => ⟨i, hi, hk⟩

theorem withinMode_refl (s : State) : WithinMode s s := frame_same rfl rfl rfl rfl rfl

theorem withinMode_trans {s t u : State} (h : WithinMode s t) (h' : WithinMode t u) : WithinMode s u := by
  have ⟨_, hcpsr, _⟩ := h
  have hmode : t.cpsr.mode = s.cpsr.mode := by rw [hcpsr]
  have hvisible : visible t = visible s := by
    unfold visible
    rw [hmode]
  exact Frame.mono (Frame.trans h (hvisible ▸ h')) fun k => or_self_iff.1

/-! ### Writes -/

section Writes
variable (s : State)

theorem withinMode_nextArm : WithinMode s s.nextArm := frame_same rfl rfl rfl rfl rfl

theorem withinMode_nextThumb : WithinMode s s.nextThumb := frame_same rfl rfl rfl rfl rfl

theorem withinMode_pc (pc : Word) : WithinMode s { s with pc := pc } := frame_same rfl rfl rfl rfl rfl

theorem withinMode_setFlags (fl : StatusFlags) : WithinMode s (s.setFlags fl) :=
  frame_same rfl rfl rfl rfl rfl

theorem withinMode_setReg {i : RegIdx} (hi : i ≠ 15#4) (v : Word) : WithinMode s (s.setReg i v) :=
  withinMode_of_bank (is := [i]) (frame_setReg (List.mem_singleton_self i) hi rfl rfl rfl rfl rfl)

theorem withinMode_writeArm (i : RegIdx) (v : Word) : WithinMode s (s.writeArm i v) := by
  unfold State.writeArm
  split
  · exact withinMode_pc s v
  · next hi => exact withinMode_trans (withinMode_setReg s hi v) (withinMode_nextArm _)

theorem withinMode_writeThumb (i : RegIdx) (v : Word) : WithinMode s (s.writeThumb i v) :=
  withinMode_of_bank frame_writeThumb

theorem withinMode_writeLow (i : LowIdx) (v : Word) : WithinMode s (s.writeLow i v) :=
  withinMode_trans (withinMode_setReg s (low_ne_pc i) v) (withinMode_nextThumb _)

theorem withinMode_writeBack {wb : Bool} {i : RegIdx} (hi : wb = true → i ≠ 15#4) (v : Word) :
    WithinMode s (s.writeBack wb i v) := by
  cases wb with
  | false => exact withinMode_refl s
  | true => exact withinMode_setReg s (hi rfl) v

/-- A list of the current bank's registers, R15 in it being the pc. -/
theorem withinMode_writeMany {m : Mode} (hm : m = s.cpsr.mode) (l : List (RegIdx × Word)) :
    WithinMode s (s.writeMany m l) := by
  induction l generalizing s with
  | nil => exact withinMode_refl s
  | cons p rest ih =>
    obtain ⟨i, v⟩ := p
    subst hm
    rw [State.writeMany]
    split
    · exact withinMode_trans (withinMode_pc s v) (ih _ rfl)
    · next hi => exact withinMode_trans (withinMode_setReg s hi v) (ih _ rfl)

theorem withinMode_multiplyFlags (r : Word) : WithinMode s (multiplyFlags s r) :=
  frame_same rfl rfl rfl rfl rfl

theorem withinMode_longMultiplyFlags (p : BitVec 64) : WithinMode s (longMultiplyFlags s p) :=
  frame_same rfl rfl rfl rfl rfl

theorem withinMode_thumbAluWrite (rd : LowIdx) (r : AluResult) : WithinMode s (thumbAluWrite s rd r) := by
  have hflags := withinMode_setFlags s r.flags
  unfold thumbAluWrite
  split
  · exact withinMode_trans hflags (withinMode_writeLow _ rd r.result)
  · exact withinMode_trans hflags (withinMode_nextThumb _)

theorem withinMode_thumbBranchIf (c : Cond) (off : BitVec 9) : WithinMode s (thumbBranchIf c off s) := by
  unfold thumbBranchIf
  split
  · exact withinMode_pc s _
  · exact withinMode_nextThumb s

theorem withinMode_storeOperand (m : Mode) (i : RegIdx) : WithinMode s (s.storeOperand m i).2 := by
  rw [storeOperand_eq]
  exact frame_same rfl rfl rfl rfl rfl

end Writes

/-! ### Accesses to memory -/

theorem load_withinMode {s t : State} {a v : Word} {w : Width} (h : s.load a w = .ok (v, t)) : WithinMode s t := by
  rw [load_ok h]
  exact frame_same rfl rfl rfl rfl rfl

theorem readMany_withinMode {s t : State} {a : Word} {n : Nat} {vs : List Word} (h : s.readMany a n = .ok (vs, t)) :
    WithinMode s t := by
  rw [(readMany_ok h).1]
  exact frame_same rfl rfl rfl rfl rfl

theorem store_withinMode {s t : State} {a v : Word} {w : Width} (h : s.store a w v = .ok t) : WithinMode s t := by
  obtain ⟨-, -, rfl⟩ := store_ok h
  exact frame_same rfl rfl rfl rfl rfl

theorem storeMany_withinMode {s t : State} {m : Mode} {a : Word} {is : List RegIdx} (h : s.storeMany m a is = .ok t) :
    WithinMode s t := by
  rw [storeMany_ok h]
  exact frame_same rfl rfl rfl rfl rfl

/-! ### Rules that stay in the mode in either profile -/

/-- The multiplies set the flags only where S = 1. -/
theorem withinMode_ite {f : Bool} {s t : State} (h : WithinMode s t) : WithinMode s (if f then t else s) := by
  split
  · exact h
  · exact withinMode_refl s

theorem multiply_withinMode {acc f : Bool} {rd rn rs rm : RegIdx} {s t : State}
    (h : multiply acc f rd rn rs rm s = .ok t) : WithinMode s t := by
  obtain ⟨_, -, h⟩ := bind_ok h
  obtain ⟨_, hops, h⟩ := bind_ok h
  have hd : rd ≠ 15#4 := by
    rintro rfl
    cases faultIf_ok hops
  cases h
  exact withinMode_trans (withinMode_ite (withinMode_multiplyFlags s _))
    (withinMode_trans (withinMode_setReg _ hd _) (withinMode_nextArm _))

theorem longMultiply_withinMode {signed acc f : Bool} {hi lo rs rm : RegIdx} {s t : State}
    (h : longMultiply signed acc f hi lo rs rm s = .ok t) : WithinMode s t := by
  obtain ⟨_, hops, h⟩ := bind_ok h
  have hops := faultIf_ok hops
  simp only [Bool.or_eq_false_iff, beq_eq_false_iff_ne] at hops
  obtain ⟨⟨⟨⟨⟨⟨hhi, hlo⟩, -⟩, -⟩, -⟩, -⟩, -⟩ := hops
  cases h
  exact withinMode_trans (withinMode_ite (withinMode_longMultiplyFlags s _))
    (withinMode_trans (withinMode_setReg _ hlo _)
      (withinMode_trans (withinMode_setReg _ hhi _) (withinMode_nextArm _)))

theorem swap_withinMode {width : Width} {rn rd rm : RegIdx} {sbz : BitVec 4} {s t : State}
    (h : swap width rn rd sbz rm s = .ok t) : WithinMode s t := by
  obtain ⟨_, -, h⟩ := bind_ok h
  obtain ⟨_, hops, h⟩ := bind_ok h
  obtain ⟨⟨old, s1⟩, hload, h⟩ := bind_ok h
  obtain ⟨s2, hstore, h⟩ := bind_ok h
  have hops := faultIf_ok hops
  simp only [Bool.or_eq_false_iff, beq_eq_false_iff_ne] at hops
  obtain ⟨⟨⟨⟨-, hd⟩, -⟩, -⟩, -⟩ := hops
  cases h
  exact withinMode_trans (load_withinMode hload) (withinMode_trans (store_withinMode hstore)
    (withinMode_trans (withinMode_setReg _ hd _) (withinMode_nextArm _)))

theorem loadTransfer_withinMode {w : Width} {signed wb : Bool} {rn rd : RegIdx} {a ea : Word} {s t : State}
    (hn : wb = true → rn ≠ 15#4) (h : loadTransfer s w signed wb rn rd a ea = .ok t) : WithinMode s t := by
  obtain ⟨⟨v, s1⟩, hload, h⟩ := bind_ok h
  cases h
  exact withinMode_trans (load_withinMode hload)
    (withinMode_trans (withinMode_writeBack _ hn _) (withinMode_writeArm _ _ _))

theorem storeTransfer_withinMode {w : Width} {wb : Bool} {rn rd : RegIdx} {a ea : Word} {s t : State}
    (hn : wb = true → rn ≠ 15#4) (h : storeTransfer s w wb rn rd a ea = .ok t) : WithinMode s t := by
  rw [storeTransfer_eq] at h
  obtain ⟨s1, hstore, h⟩ := bind_ok h
  cases h
  exact withinMode_trans (withinMode_storeOperand s _ rd) (withinMode_trans (store_withinMode hstore)
    (withinMode_trans (withinMode_writeBack _ hn _) (withinMode_nextArm _)))

theorem transfer_withinMode {load : Bool} {w : Width} {signed wb : Bool} {rn rd : RegIdx} {a ea : Word} {s t : State}
    (hn : wb = true → rn ≠ 15#4)
    (h : (if load then loadTransfer s w signed wb rn rd a ea else storeTransfer s w wb rn rd a ea) = .ok t) :
    WithinMode s t := by
  split at h
  · exact loadTransfer_withinMode hn h
  · exact storeTransfer_withinMode hn h

/-- R330, R340: a base that is written back is not R15. -/
theorem transferChecks_ok {s : State} {wb load : Bool} {rn rd : RegIdx} {x : Unit}
    (h : transferChecks s wb load rn rd = .ok x) : wb = true → rn ≠ 15#4 := by
  obtain ⟨_, hconflict, -⟩ := bind_ok h
  rintro rfl rfl
  cases refuseIf_ok hconflict

theorem singleTransfer_withinMode {load : Bool} {width : Width} {p u w : Bool} {rn rd : RegIdx} {off : Offset}
    {s t : State} (h : singleTransfer load width p u w rn rd off s = .ok t) : WithinMode s t := by
  obtain ⟨_, -, h⟩ := bind_ok h
  obtain ⟨_, hchecks, h⟩ := bind_ok h
  obtain ⟨_, -, h⟩ := bind_ok h
  exact transfer_withinMode (transferChecks_ok hchecks) h

theorem halfwordTransfer_withinMode {load : Bool} {width : Width} {signed p u w : Bool} {rn rd : RegIdx}
    {off : HalfOffset} {s t : State} (h : halfwordTransfer load width signed p u w rn rd off s = .ok t) :
    WithinMode s t := by
  obtain ⟨_, -, h⟩ := bind_ok h
  obtain ⟨_, -, h⟩ := bind_ok h
  obtain ⟨_, hchecks, h⟩ := bind_ok h
  obtain ⟨_, -, h⟩ := bind_ok h
  exact transfer_withinMode (transferChecks_ok hchecks) h

theorem thumbMultiply_withinMode {rs rd : LowIdx} {s t : State} (h : thumbMultiply rs rd s = .ok t) :
    WithinMode s t := by
  obtain ⟨_, -, h⟩ := bind_ok h
  cases h
  exact withinMode_trans (withinMode_multiplyFlags s _) (withinMode_writeLow _ rd _)

theorem thumbLoad_withinMode {w : Width} {signed : Bool} {a : Word} {rd : LowIdx} {s t : State}
    (h : thumbLoad w signed a rd s = .ok t) : WithinMode s t := by
  obtain ⟨⟨v, s1⟩, hload, h⟩ := bind_ok h
  cases h
  exact withinMode_trans (load_withinMode hload) (withinMode_writeLow _ rd _)

theorem thumbStore_withinMode {w : Width} {a : Word} {rd : LowIdx} {s t : State} (h : thumbStore w a rd s = .ok t) :
    WithinMode s t := by
  obtain ⟨s1, hstore, h⟩ := bind_ok h
  cases h
  exact withinMode_trans (store_withinMode hstore) (withinMode_nextThumb _)

theorem push_withinMode {r : Bool} {rl : BitVec 8} {s t : State} (h : push r rl s = .ok t) : WithinMode s t := by
  obtain ⟨_, -, h⟩ := bind_ok h
  obtain ⟨_, -, h⟩ := bind_ok h
  obtain ⟨s1, hstores, h⟩ := bind_ok h
  cases h
  exact withinMode_trans (storeMany_withinMode hstores)
    (withinMode_trans (withinMode_setReg _ (by decide) _) (withinMode_nextThumb _))

/-- A run of reads keeps the mode, so the bank written after it is the current one. -/
theorem readMany_writeMany_withinMode {s s1 : State} {a : Word} {n : Nat} {vs : List Word}
    (h : s.readMany a n = .ok (vs, s1)) (is : List RegIdx) :
    WithinMode s (s1.writeMany s.cpsr.mode (is.zip vs)) := by
  have hmode : s.cpsr.mode = s1.cpsr.mode := by rw [(readMany_ok h).1]
  exact withinMode_trans (readMany_withinMode h) (withinMode_writeMany s1 hmode _)

theorem pop_withinMode {r : Bool} {rl : BitVec 8} {s t : State} (h : pop r rl s = .ok t) : WithinMode s t := by
  obtain ⟨_, -, h⟩ := bind_ok h
  obtain ⟨_, -, h⟩ := bind_ok h
  obtain ⟨⟨vs, s1⟩, hreads, h⟩ := bind_ok h
  have hloaded (v : Word) := withinMode_trans (readMany_writeMany_withinMode hreads (regList (rl.setWidth 16)))
    (withinMode_setReg _ (i := 13#4) (by decide) v)
  cases h
  cases r with
  | false => exact withinMode_trans (hloaded _) (withinMode_nextThumb _)
  | true => exact withinMode_trans (hloaded _) (withinMode_pc _ _)

theorem thumbStoreMultiple_withinMode {rb : LowIdx} {rl : BitVec 8} {s t : State}
    (h : thumbStoreMultiple rb rl s = .ok t) : WithinMode s t := by
  obtain ⟨_, -, h⟩ := bind_ok h
  obtain ⟨s1, hstores, h⟩ := bind_ok h
  cases h
  exact withinMode_trans (storeMany_withinMode hstores) (withinMode_writeLow _ rb _)

theorem thumbLoadMultiple_withinMode {rb : LowIdx} {rl : BitVec 8} {s t : State}
    (h : thumbLoadMultiple rb rl s = .ok t) : WithinMode s t := by
  obtain ⟨_, -, h⟩ := bind_ok h
  obtain ⟨⟨vs, s1⟩, hreads, h⟩ := bind_ok h
  cases h
  exact withinMode_trans (readMany_writeMany_withinMode hreads _) (withinMode_writeLow _ rb _)

/-! ### Rules that the executor reference refuses, or runs within the mode -/

section Reference
variable {s t : State} (hp : s.profile = .executorReference)
include hp

theorem softwareInterrupt_refused (width : Word) :
    softwareInterrupt width s = .error (.refuse .softwareInterrupt) :=
  refuseIf_bind_error (isReference_executorReference hp) _ _

theorem moveFromPsr_refused (p : Bool) (rd : RegIdx) (sbz : BitVec 12) :
    moveFromPsr p rd sbz s = .error (.refuse .mrs) :=
  refuseIf_bind_error (isReference_executorReference hp) _ _

theorem moveToPsr_refused (sbo : BitVec 4) (src : MsrSource) : moveToPsr true sbo src s = .error (.refuse .msrSpsr) :=
  refuseIf_bind_error (isReference_executorReference hp) _ _

theorem undefinedTrap_refused (r : Refusal) (width : Word) : undefinedTrap r width s = .refused r :=
  if_pos (isReference_executorReference hp)

/-- The MSR that is not refused writes the CPSR's flags. -/
theorem moveToPsr_withinMode {p : Bool} {sbo : BitVec 4} {src : MsrSource} (h : moveToPsr p sbo src s = .ok t) :
    WithinMode s t := by
  cases p with
  | true =>
    rw [moveToPsr_refused hp] at h
    cases h
  | false =>
    obtain ⟨_, -, h⟩ := bind_ok h
    obtain ⟨_, -, h⟩ := bind_ok h
    obtain ⟨_, -, h⟩ := bind_ok h
    obtain ⟨_, -, h⟩ := bind_ok h
    cases h
    exact withinMode_trans (withinMode_setFlags s _) (withinMode_nextArm _)

/-- The copy of an SPSR being refused, data processing writes the flags and Rd. -/
theorem dataProcessing_withinMode {op : AluOp} {f : Bool} {rn rd : RegIdx} {op2 : Operand2}
    (h : dataProcessing op f rn rd op2 s = .ok t) : WithinMode s t := by
  obtain ⟨_, hcopy, h⟩ := bind_ok h
  obtain ⟨_, -, h⟩ := bind_ok h
  obtain ⟨_, -, h⟩ := bind_ok h
  obtain ⟨sh, -, h⟩ := bind_ok h
  have hcopy := refuseIf_ok hcopy
  rw [isReference_executorReference hp, Bool.and_true, Bool.and_eq_false_iff, beq_eq_false_iff_ne] at hcopy
  rw [dpWrite_plain _ hcopy] at h
  cases h
  split
  · exact withinMode_trans (withinMode_setFlags s _) (withinMode_writeArm _ _ _)
  · exact withinMode_trans (withinMode_setFlags s _) (withinMode_nextArm _)

/-- S = 1 is refused, and R15 is no base of a block transfer. -/
theorem blockChecks_reference {load sb w : Bool} {rn : RegIdx} {rl : BitVec 16} {x : Unit}
    (h : blockChecks s load sb w rn rl = .ok x) : sb = false ∧ rn ≠ 15#4 := by
  obtain ⟨_, -, h⟩ := bind_ok h
  obtain ⟨_, huser, h⟩ := bind_ok h
  obtain ⟨_, -, h⟩ := bind_ok h
  obtain ⟨_, hbase, -⟩ := bind_ok h
  have huser := refuseIf_ok huser
  rw [isReference_executorReference hp, Bool.and_true] at huser
  exact ⟨huser, beq_eq_false_iff_ne.1 (faultIf_ok hbase)⟩

theorem loadMultiple_withinMode {p u sb w : Bool} {rn : RegIdx} {rl : BitVec 16}
    (h : loadMultiple p u sb w rn rl s = .ok t) : WithinMode s t := by
  obtain ⟨_, hchecks, h⟩ := bind_ok h
  obtain ⟨⟨vs, s1⟩, hreads, h⟩ := bind_ok h
  obtain ⟨rfl, hn⟩ := blockChecks_reference hp hchecks
  have hloaded := withinMode_trans (readMany_writeMany_withinMode hreads (regList rl))
    (withinMode_writeBack _ (wb := w) (fun _ => hn) (blockNewBase u (s.reg rn) (regList rl).length))
  dsimp only at h
  split at h
  · cases h
    exact hloaded
  · cases h
    exact withinMode_trans hloaded (withinMode_nextArm _)

theorem storeMultiple_withinMode {p u sb w : Bool} {rn : RegIdx} {rl : BitVec 16}
    (h : storeMultiple p u sb w rn rl s = .ok t) : WithinMode s t := by
  obtain ⟨_, hchecks, h⟩ := bind_ok h
  obtain ⟨s1, hstores, h⟩ := bind_ok h
  obtain ⟨-, hn⟩ := blockChecks_reference hp hchecks
  cases h
  exact withinMode_trans (storeMany_withinMode hstores)
    (withinMode_trans (withinMode_writeBack _ (fun _ => hn) _) (withinMode_nextArm _))

end Reference

/-! ### Every instruction -/

/-- An instruction that answers a state has stayed in the mode. -/
def StaysWithin (s : State) (o : Out) : Prop := ∀ t, o = .next t → WithinMode s t

theorem staysWithin_refused (s : State) (r : Refusal) : StaysWithin s (.refused r) := by
  rintro t ⟨⟩

theorem staysWithin_next {s t : State} (h : WithinMode s t) : StaysWithin s (.next t) := by
  rintro _ ⟨⟩
  exact h

theorem staysWithin_finish {s : State} {x : Except Stop State} (h : ∀ t, x = .ok t → WithinMode s t) :
    StaysWithin s (finish x) := fun t ht => h t (finish_next ht)

theorem staysWithin_conditional {c : Cond} {s : State} {x : Except Stop State}
    (h : ∀ t, x = .ok t → WithinMode s t) : StaysWithin s (conditional c s x) := by
  intro t ht
  obtain ⟨-, hx⟩ | ⟨-, rfl⟩ := conditional_next ht
  · exact h t hx
  · exact withinMode_nextArm s

/-- An Undefined or coprocessor word is refused. -/
theorem staysWithin_undefinedTrap {s : State} (hp : s.profile = .executorReference) (r : Refusal) (width : Word) :
    StaysWithin s (undefinedTrap r width s) := by
  rw [undefinedTrap_refused hp]
  exact staysWithin_refused s r

/-- BX, the one instruction that can change T (R49). -/
def IsBx (i : Instr) : Prop := (∃ c rn, i = .armBx c rn) ∨ ∃ rs sbz, i = .thumbBx rs sbz

/-- In profile executorReference every instruction but BX stays in the mode and the instruction set. -/
theorem exec_staysWithin {s : State} (hp : s.profile = .executorReference) {i : Instr} (hbx : ¬IsBx i) :
    StaysWithin s (exec i s) := by
  cases i with
  | armInvalidNvCondition | armInvalidSignedStore | armInvalidMsrFull | armInvalidPsrType | thumbInvalidHiAdd
  | thumbInvalidHiCmp | thumbInvalidHiMov | thumbInvalidBxH1 => exact staysWithin_refused s _
  | armUndefinedMultiply | armUndefinedSwap | armUndefinedTransfer | armUnsupportedDataTransfer
  | armUnsupportedOperation | thumbUndefined1011 | thumbUndefinedCond14 | thumbUndefined11101 =>
    exact staysWithin_undefinedTrap hp _ _
  | armAnd | armEor | armSub | armRsb | armAdd | armAdc | armSbc | armRsc | armTst | armTeq | armCmp | armCmn | armOrr
  | armMov | armBic | armMvn => exact staysWithin_conditional fun t => dataProcessing_withinMode hp
  | armMul | armMla => exact staysWithin_conditional fun t => multiply_withinMode
  | armUmull | armUmlal | armSmull | armSmlal => exact staysWithin_conditional fun t => longMultiply_withinMode
  | armBx c rn => exact absurd (.inl ⟨c, rn, rfl⟩) hbx
  | armMrs => exact staysWithin_conditional fun t h => by cases (moveFromPsr_refused hp _ _ _).symm.trans h
  | armMsr => exact staysWithin_conditional fun t => moveToPsr_withinMode hp
  | armB =>
    refine staysWithin_conditional fun t h => ?_
    cases h
    exact withinMode_pc s _
  | armBl =>
    refine staysWithin_conditional fun t h => ?_
    cases h
    exact withinMode_trans (withinMode_setReg s (by decide) _) (withinMode_pc _ _)
  | armSwi => exact staysWithin_conditional fun t h => by cases (softwareInterrupt_refused hp _).symm.trans h
  | armLdm => exact staysWithin_conditional fun t => loadMultiple_withinMode hp
  | armStm => exact staysWithin_conditional fun t => storeMultiple_withinMode hp
  | armSwp | armSwpb => exact staysWithin_conditional fun t => swap_withinMode
  | armStrh | armLdrh | armLdrsb | armLdrsh => exact staysWithin_conditional fun t => halfwordTransfer_withinMode
  | armStrt | armLdrt | armStrbt | armLdrbt | armStr | armLdr | armStrb | armLdrb =>
    exact staysWithin_conditional fun t => singleTransfer_withinMode
  | thumbLslImm | thumbLsrImm | thumbAsrImm | thumbAddReg | thumbSubReg | thumbAddImm3 | thumbSubImm3 | thumbMovImm8
  | thumbCmpImm8 | thumbAddImm8 | thumbSubImm8 | thumbAnd | thumbEor | thumbLslReg | thumbLsrReg | thumbAsrReg
  | thumbAdc | thumbSbc | thumbRorReg | thumbTst | thumbNeg | thumbCmpReg | thumbCmn | thumbOrr | thumbBic | thumbMvn
  | thumbCmpHi => exact staysWithin_next (withinMode_thumbAluWrite s _ _)
  | thumbAddHi | thumbMovHi => exact staysWithin_next (withinMode_writeThumb s _ _)
  | thumbAddPc | thumbAddSp => exact staysWithin_next (withinMode_writeLow s _ _)
  | thumbAdjustSp | thumbBlHigh =>
    exact staysWithin_next (withinMode_trans (withinMode_setReg s (by decide) _) (withinMode_nextThumb _))
  | thumbBlLow => exact staysWithin_next (withinMode_trans (withinMode_setReg s (by decide) _) (withinMode_pc _ _))
  | thumbB => exact staysWithin_next (withinMode_pc s _)
  | thumbBeq | thumbBne | thumbBcs | thumbBcc | thumbBmi | thumbBpl | thumbBvs | thumbBvc | thumbBhi | thumbBls
  | thumbBge | thumbBlt | thumbBgt | thumbBle => exact staysWithin_next (withinMode_thumbBranchIf s _ _)
  | thumbMul => exact staysWithin_finish fun t => thumbMultiply_withinMode
  | thumbBx rs sbz => exact absurd (.inr ⟨rs, sbz, rfl⟩) hbx
  | thumbSwi => exact staysWithin_finish fun t h => by cases (softwareInterrupt_refused hp _).symm.trans h
  | thumbLdrPc | thumbLdrReg | thumbLdrbReg | thumbLdrhReg | thumbLdsbReg | thumbLdshReg | thumbLdrImm | thumbLdrbImm
  | thumbLdrhImm | thumbLdrSp => exact staysWithin_finish fun t => thumbLoad_withinMode
  | thumbPop => exact staysWithin_finish fun t => pop_withinMode
  | thumbLdmia => exact staysWithin_finish fun t => thumbLoadMultiple_withinMode
  | thumbStrReg | thumbStrbReg | thumbStrhReg | thumbStrImm | thumbStrbImm | thumbStrhImm | thumbStrSp =>
    exact staysWithin_finish fun t => thumbStore_withinMode
  | thumbPush => exact staysWithin_finish fun t => push_withinMode
  | thumbStmia => exact staysWithin_finish fun t => thumbStoreMultiple_withinMode

/-- BX exchanges, or moves on when its condition fails. -/
theorem exec_bx {i : Instr} (hbx : IsBx i) {s t : State} (h : exec i s = .next t) :
    t = s.nextArm ∨ ∃ target, t = s.exchange target := by
  obtain ⟨c, rn, rfl⟩ | ⟨rs, sbz, rfl⟩ := hbx
  · obtain ⟨-, hx⟩ | ⟨-, rfl⟩ := conditional_next h
    · obtain ⟨_, -, hx⟩ := bind_ok hx
      cases hx
      exact .inr ⟨_, rfl⟩
    · exact .inl rfl
  · obtain ⟨_, -, hx⟩ := bind_ok (finish_next h)
    cases hx
    exact .inr ⟨_, rfl⟩

/-- Settles O10: a step whose instruction is no BX stays in the mode and the instruction set, and an exchange writes T
and the pc alone. -/
theorem referenceHasOneMode : Obligations.ReferenceHasOneMode := by
  intro s t hp h
  obtain ⟨i, hi, hexec⟩ := step_next h
  by_cases hbx : IsBx i
  case neg =>
    obtain ⟨hregs, hcpsr, hspsr, -, -⟩ := exec_staysWithin hp hbx t hexec
    have hunseen (k : Fin 30) (hk : ∀ r : RegIdx, r ≠ 15#4 → physIndex s.cpsr.mode r ≠ k) :
        t.regs.get k = s.regs.get k := hregs k fun ⟨r, hr, hrk⟩ => hk r hr hrk
    rw [hcpsr]
    exact ⟨rfl, rfl, rfl, hspsr, hunseen, .inl rfl⟩
  case pos =>
    obtain rfl | ⟨target, rfl⟩ := exec_bx hbx hexec
    · exact ⟨rfl, rfl, rfl, rfl, fun _ _ => rfl, .inl rfl⟩
    · exact ⟨rfl, rfl, rfl, rfl, fun _ _ => rfl, .inr ⟨i, hi, hbx⟩⟩

end Sys2Proof.Proofs
end

section
/-! PROOFS. Fetches that fault, exceptions and the returns from them (20_memory.md R78, R79; 60_exceptions.md R606, R611
to R615, R621). -/

namespace Sys2Proof.Proofs

open Sys2Proof.Machine Sys2Proof.Laws

/-! ### Fetches that fault -/

theorem fetchAt_misaligned (s : State) {t : Bool} {a : Word} (h : a.toNat % (if t then 2 else 4) ≠ 0) :
    s.fetchAt t a = .error (.fault (.alignmentViolation a)) := by
  cases t <;> exact if_neg (mt beq_iff_eq.1 h)

/-- An aligned fetch lies in the ROM window with all its bytes or with none. -/
theorem fetchAt_outside (s : State) {t : Bool} {a : Word} (ha : a.toNat % (if t then 2 else 4) = 0)
    (hout : a.toNat < 0x08000000 ∨ 0x09FFFFFF < a.toNat) : s.fetchAt t a = .error (.fault (.outOfRange a)) := by
  have hwindow (n : Nat) (hn : 0 < n) : inRomWindow a.toNat n = false := by
    simp only [inRomWindow, Bool.and_eq_false_iff, decide_eq_false_iff_not]
    omega
  cases t with
  | false => exact (if_pos (beq_iff_eq.2 ha)).trans (if_neg (Bool.eq_false_iff.1 (hwindow 4 (by decide))))
  | true => exact (if_pos (beq_iff_eq.2 ha)).trans (if_neg (Bool.eq_false_iff.1 (hwindow 2 (by decide))))

theorem step_of_fetchAt_fault {s : State} {f : Fault} (h : s.fetchAt s.cpsr.thumb s.pc = .error (.fault f)) :
    step s = .fault f := by
  rw [step, State.fetch, h]
  rfl

/-- Settles O6: the fetch tests the pc's alignment, then the window, and a fetch that faults is the step's outcome. -/
theorem fetchErrorsInOrder : Obligations.FetchErrorsInOrder :=
  ⟨fun s h => step_of_fetchAt_fault (fetchAt_misaligned s h),
    fun s ha hout => step_of_fetchAt_fault (fetchAt_outside s ha hout)⟩

/-! ### Taking an exception -/

section Entry
variable (s : State) (e : ExceptionKind) (link : Word)

theorem takeException_link : (s.takeException e link).regIn e.mode 14#4 = link := by
  rw [State.regIn, takeException_regs_get, if_pos rfl]

/-- In the mode entered R14 is the link. -/
theorem takeException_reg_link : (s.takeException e link).reg 14#4 = link := takeException_link s e link

theorem takeException_cpsr :
    (s.takeException e link).cpsr =
      { s.cpsr with mode := e.mode, thumb := false, irqDisable := true,
                    fiqDisable := s.cpsr.fiqDisable || decide (e = .fiq) } := by
  have hfiq : (if e = .fiq then true else s.cpsr.fiqDisable) = (s.cpsr.fiqDisable || decide (e = .fiq)) := by
    by_cases h : e = .fiq <;> simp [h]
  rw [← hfiq]
  rfl

theorem takeException_sameBytes : SameBytes s (s.takeException e link) := by
  intro a
  rw [State.byteAt, takeException_mem]
  rfl

end Entry

/-! ### Banks and SPSRs -/

/-- The registers of its own that a mode has (R38, R621). -/
def banked (m : Mode) (i : RegIdx) : Bool :=
  match m with
  | .user | .system => false
  | .fiq => decide (8 ≤ i.toNat)
  | .irq | .supervisor | .abort | .undefined => decide (13 ≤ i.toNat)

/-- Whose register a place holds, of the mode that banks it or of all that share it, and which: the inverse of
`physIndex`. -/
def placeOwner (k : Fin 30) : Option Mode × RegIdx :=
  if k < 15 then (none, BitVec.ofNat 4 k)
  else if k < 22 then (some .fiq, BitVec.ofNat 4 (k - 7))
  else if k < 24 then (some .irq, BitVec.ofNat 4 (k - 9))
  else if k < 26 then (some .supervisor, BitVec.ofNat 4 (k - 11))
  else if k < 28 then (some .abort, BitVec.ofNat 4 (k - 13))
  else (some .undefined, BitVec.ofNat 4 (k - 15))

theorem placeOwner_physIndex {m : Mode} {i : RegIdx} (hi : i ≠ 15#4) :
    placeOwner (physIndex m i) = (if banked m i then some m else none, i) := by
  revert i
  cases m <;> decide

theorem physIndex_of_not_banked {m : Mode} {i : RegIdx} (h : ¬banked m i) : physIndex m i = physIndex .user i := by
  revert i
  cases m <;> decide

/-- R38, R621: two registers share a place when they are one register that both modes share or that is one mode's. -/
theorem physIndex_eq_iff {m m' : Mode} {i j : RegIdx} (hi : i ≠ 15#4) (hj : j ≠ 15#4) :
    physIndex m i = physIndex m' j ↔ i = j ∧ (m = m' ∨ (¬banked m i ∧ ¬banked m' i)) := by
  constructor
  case mp =>
    intro h
    have howner := congrArg placeOwner h
    rw [placeOwner_physIndex hi, placeOwner_physIndex hj] at howner
    obtain ⟨hmode, rfl⟩ := Prod.mk.inj howner
    refine ⟨rfl, ?_⟩
    by_cases hm : banked m i <;> by_cases hm' : banked m' i <;> simp_all
  case mpr =>
    rintro ⟨rfl, rfl | ⟨hm, hm'⟩⟩
    · rfl
    · rw [physIndex_of_not_banked hm, physIndex_of_not_banked hm']

/-- Two modes with one SPSR are one mode (R48). -/
theorem spsrIndex_inj {m m' : Mode} {k : Fin 5} (h : spsrIndex m = some k) (h' : spsrIndex m' = some k) : m = m' := by
  revert k
  cases m <;> cases m' <;> decide

theorem spsrNow_eq_none_iff {s : State} : s.spsrNow = none ↔ s.cpsr.mode = .user ∨ s.cpsr.mode = .system := by
  rw [State.spsrNow, Option.map_eq_none_iff]
  cases s.cpsr.mode <;> simp [spsrIndex]

/-- A write of one mode's SPSR is read in that mode alone. -/
theorem spsrNow_setSpsr_eq {s : State} (h : s.spsrNow ≠ none) (m : Mode) (p : Psr) :
    (s.setSpsr m p).spsrNow = if m = s.cpsr.mode then some p else s.spsrNow := by
  obtain ⟨q, hq⟩ := Option.ne_none_iff_exists'.1 h
  split
  case isTrue hm => exact hm ▸ spsrNow_setSpsr hq p
  case isFalse hm =>
    obtain ⟨k, hk, -⟩ := Option.map_eq_some_iff.1 hq
    have hne : spsrIndex m ≠ some k := fun hm' => hm (spsrIndex_inj hm' hk)
    rw [State.spsrNow, State.spsrNow, setSpsr_cpsr, hk, Option.map_some, Option.map_some, spsr_setSpsr_get, if_neg hne]

/-- Settles O11: the entry writes one register, one SPSR, the CPSR and the pc, the tables are the model's definitions,
and two modes see one place exactly where `physIndex` gives them one. -/
theorem exceptionEntryEffect : Obligations.ExceptionEntryEffect := by
  refine ⟨fun s e link => ?entry, fun e instr next => ?table, ?modes⟩
  case entry =>
    exact ⟨takeException_link s e link, fun k hk => (takeException_spsr_get s e link k).trans (if_pos hk),
      fun k hk => (takeException_spsr_get s e link k).trans (if_neg hk), takeException_cpsr s e link,
      takeException_pc s e link, fun k hk => (takeException_regs_get s e link k).trans (if_neg hk),
      takeException_sameBytes s e link, takeException_draws s e link⟩
  case table => cases e <;> rfl
  case modes =>
    intro banks
    refine ⟨fun s m m' i j v hi hj => ?bank, fun s m p => ⟨spsrNow_eq_none_iff, fun h => spsrNow_setSpsr_eq h m p⟩⟩
    have hbanks (m : Mode) : banks m i ↔ banked m i := by cases m <;> simp [banks, banked]
    rw [hbanks, hbanks, ← physIndex_eq_iff hi hj]
    have hsame (h : physIndex m i = physIndex m' j) : (s.setRegIn m i v).regIn m' j = v :=
      (congrArg (s.setRegIn m i v).regs.get h.symm).trans (regIn_setRegIn_same s m i v)
    exact ⟨hsame, regIn_setRegIn_ne s m m' i j v⟩

/-- Settles O12: the mode entered has an SPSR, which holds the CPSR from before, and its R14 is the link. -/
theorem returnUndoesEntry : Obligations.ReturnUndoesEntry := by
  intro s e link t
  exact ⟨_, returnFromException_eq (takeException_spsrNow s e link) _, rfl, takeException_reg_link s e link, rfl,
    takeException_sameBytes s e link⟩

/-! ### The instructions that take one -/

theorem undefinedTrap_arm7tdmi {s : State} (hp : s.profile = .arm7tdmi) (r : Refusal) (width : Word) :
    undefinedTrap r width s = .next (s.takeException .undefinedInstruction (s.pc + width)) :=
  if_neg (Bool.eq_false_iff.1 (isReference_arm7tdmi hp))

/-- Settles O14: every Undefined or coprocessor word is the one trap, by the profile taken or refused. -/
theorem undefinedWordsTrap : Obligations.UndefinedWordsTrap := by
  intro s ends
  have htrap (r : Refusal) (width : Word) : ends (undefinedTrap r width s) width r :=
    ⟨fun hp => undefinedTrap_arm7tdmi hp r width, fun hp => undefinedTrap_refused hp r width⟩
  exact ⟨fun _ => ⟨htrap _ _, htrap _ _, htrap _ _, htrap _ _, htrap _ _⟩, fun _ => ⟨htrap _ _, htrap _ _, htrap _ _⟩⟩

theorem softwareInterrupt_arm7tdmi {s : State} (hp : s.profile = .arm7tdmi) (width : Word) :
    softwareInterrupt width s = .ok (s.takeException .softwareInterrupt (s.pc + width)) :=
  refuseIf_bind (isReference_arm7tdmi hp) _ _

/-- Settles O15: past its refusal SWI is the entry of its exception, whose link is the next instruction's address. -/
theorem softwareInterruptsTrap : Obligations.SoftwareInterruptsTrap := by
  intro s ends
  have hends {o : Out} {width : Word} (ho : o = finish (softwareInterrupt width s)) : ends o width := by
    subst ho
    constructor
    case left =>
      intro hp
      obtain ⟨hentry, -⟩ := exceptionEntryEffect
      obtain ⟨hlink, -, hspsr, hcpsr, hpc, hregs, hbytes, hdraws⟩ := hentry s .softwareInterrupt (s.pc + width)
      refine ⟨_, congrArg finish (softwareInterrupt_arm7tdmi hp width), hpc, rfl, rfl, rfl, rfl, rfl, hlink,
        takeException_spsrNow s _ _, hspsr, hregs, hbytes, hdraws, takeException_profile s _ _,
        takeException_sbzCheck s _ _⟩
    case right =>
      intro hp
      exact congrArg finish (softwareInterrupt_refused hp width)
  exact ⟨fun c imm24 hc => hends (conditional_pass _ hc), fun imm8 => hends rfl⟩

end Sys2Proof.Proofs
end

section
/-! PROOFS. The renderer's end-to-end scenarios, and the end of a run (48_renderer.md R575; 60_exceptions.md R603;
70_reset_and_hazards.md R665). -/

namespace Sys2Proof.Proofs

open Sys2Proof.Machine

/-- Settles O59: the words are closed, and each is decoded and rendered by evaluation. -/
theorem sourceScenariosRender : Obligations.SourceScenariosRender := by
  refine ⟨rfl, rfl, rfl, rfl, rfl, ?_, ?_, ?_, ?_, ?_⟩
  all_goals decide

/-- R665: the test of END_PC precedes every step. -/
theorem run_endPc {endPc : Word} {s : State} (h : s.pc = endPc) (n : Nat) : run endPc n s = .done s := by
  cases n <;> exact if_pos h

/-- R603, R665: short of END_PC a run is a step, which ends it or after which it goes on. -/
theorem run_succ {endPc : Word} {s : State} (h : s.pc ≠ endPc) (n : Nat) :
    run endPc (n + 1) s =
      match step s with
      | .next t => run endPc n t
      | .fault f => .fault f s
      | .refused r => .refused r s := if_neg h

/-- Settles O60: a run by the two laws above, for each outcome of the step. -/
theorem runEndsAtEndPcOrStop : Obligations.RunEndsAtEndPcOrStop := by
  refine fun endPc n s => ⟨fun h => run_endPc h n, fun h => ⟨fun f hs => ?_, fun r hs => ?_, fun t hs => ?_⟩⟩
  all_goals rw [run_succ h, hs]

end Sys2Proof.Proofs
end

section
/-! PROOFS. Data processing as an exception return, the forms that profile executorReference refuses, and the operand
combinations that are unpredictable (60_exceptions.md R603, R611, R615; 41 to 45). -/

namespace Sys2Proof.Proofs

open Sys2Proof.Machine Sys2Proof.Laws

/-! ### Data processing that returns -/

/-- Settles O13: the copy of the SPSR is refused by the profile, then for want of an SPSR, and else the pc takes the
result, each operation's core being as the statement writes it. -/
theorem flagSettingPcWritesReturn : Obligations.FlagSettingPcWritesReturn := by
  intro s c rn op2 sh hc hz a ends
  have hop1 {op : AluOp} (h : op.readsRn = true) : dpOp1 s op rn op2 = a := dpOp1_of_readsRn h
  have hends {op : AluOp} {r : Word} {cy v : Bool} (hw : op.writes = true)
      (hcore : aluCore op (dpOp1 s op rn op2) sh.value sh.carryOut s.flags = (r, cy, v)) :
      ends (conditional c s (dataProcessing op true rn 15#4 op2 s)) r := by
    refine ⟨fun hp => conditional_refuse hc (dataProcessing_spsrCopy hp),
      fun hp hs => conditional_refuse hc (dataProcessing_noSpsr hp hs), fun hp h2 p hs => ?_⟩
    rw [conditional_ok hc (dataProcessing_return hp hs (.inl hz) h2), alu_eq hcore, hw]
    rfl
  have hreads {op : AluOp} {r : Word} {cy v : Bool} (hw : op.writes = true) (hr : op.readsRn = true)
      (hcore : aluCore op a sh.value sh.carryOut s.flags = (r, cy, v)) :
      ends (conditional c s (dataProcessing op true rn 15#4 op2 s)) r := hends hw (hop1 hr ▸ hcore)
  exact ⟨hreads rfl rfl rfl, hreads rfl rfl rfl, hreads rfl rfl aluCore_sub,
    hreads rfl rfl (aluCore_rsb.trans aluCore_sub), hreads rfl rfl aluCore_add, hreads rfl rfl aluCore_adc,
    hreads rfl rfl aluCore_sbc, hreads rfl rfl (aluCore_rsc.trans aluCore_sbc), hreads rfl rfl rfl, hends rfl rfl,
    hreads rfl rfl rfl, hends rfl rfl⟩

/-! ### Checks that pass -/

theorem postWriteBack_allowed {p w : Bool} (h : p = true ∨ w = false) : (!p && w) = false := by
  rcases h with h | h <;> simp [h]

theorem userAccess_allowed {p w : Bool} {s : State} (h : p = true ∨ w = false ∨ s.profile = .arm7tdmi) :
    (!p && w && s.isReference) = false := by
  rcases h with h | h | h
  · simp [h]
  · simp [h]
  · simp [isReference_arm7tdmi h]

/-- R330, R340: a transfer whose base may be written back, and whose register may be stored, passes. -/
theorem transferChecks_pass {s : State} {load p w : Bool} {rn rd : RegIdx}
    (hwb : p = false ∨ w = true → rn ≠ 15#4 ∧ rn ≠ rd) (hst : load = true ∨ rd ≠ 15#4 ∨ s.profile = .arm7tdmi) :
    transferChecks s (writesBack p w) load rn rd = .ok () := by
  rw [transferChecks, refuseIf_bind (writeBack_allowed hwb), storePc_allowed hst]
  rfl

/-- A rule that copies or writes the SPSR passes both its checks in profile arm7tdmi when there is one. -/
theorem spsrChecks_pass {b : Bool} {s : State} (h : b = true → s.profile = .arm7tdmi ∧ s.spsrNow ≠ none) :
    (b && s.isReference) = false ∧ (b && s.spsrNow.isNone) = false := by
  cases b with
  | false => exact ⟨rfl, rfl⟩
  | true =>
    obtain ⟨hp, hs⟩ := h rfl
    exact ⟨isReference_arm7tdmi hp, isNone_eq_false hs⟩

/-! ### What the executor reference refuses -/

section Reference
variable {s : State} (hp : s.profile = .executorReference)
include hp

theorem singleTransfer_userAccess (load : Bool) (width : Width) (u : Bool) (rn rd : RegIdx) (off : Offset) :
    singleTransfer load width false u true rn rd off s = .error (.refuse .userAccess) :=
  refuseIf_bind_error (isReference_executorReference hp) _ _

section StorePc
variable {p w : Bool} {rn : RegIdx} (hT : p = true ∨ w = false) (hn : p = false ∨ w = true → rn ≠ 15#4)

include hn in
theorem transferChecks_storePc : transferChecks s (writesBack p w) false rn 15#4 = .error (.refuse .storePc) := by
  rw [transferChecks, refuseIf_bind (writeBack_allowed fun h => ⟨hn h, hn h⟩)]
  exact congrArg (refuseIf · .storePc) (isReference_executorReference hp)

include hT hn

theorem singleTransfer_storePc (width : Width) (u : Bool) (off : Offset) :
    singleTransfer false width p u w rn 15#4 off s = .error (.refuse .storePc) := by
  rw [singleTransfer, refuseIf_bind (userAccess_allowed (hT.imp_right .inl))]
  exact congrArg (· >>= _) (transferChecks_storePc hp hn)

theorem halfwordTransfer_storePc {width : Width} {signed u : Bool} {off : HalfOffset}
    (hz : (s.sbzCheck && halfOffsetBadSbz off) = false) :
    halfwordTransfer false width signed p u w rn 15#4 off s = .error (.refuse .storePc) := by
  rw [halfwordTransfer, State.checkSbz, refuseIf_bind hz, refuseIf_bind (postWriteBack_allowed hT)]
  exact congrArg (· >>= _) (transferChecks_storePc hp hn)

end StorePc

theorem blockChecks_userBank {load w : Bool} {rn : RegIdx} {rl : BitVec 16} (hl : rl ≠ 0#16) :
    blockChecks s load true w rn rl = .error (.refuse .userBankTransfer) := by
  rw [blockChecks, refuseIf_bind (beq_false_of_ne hl)]
  exact refuseIf_bind_error (isReference_executorReference hp) _ _

theorem blockChecks_storePc {w : Bool} {rn : RegIdx} {rl : BitVec 16} (hn : rn ≠ 15#4) (h15 : rl.getLsbD 15 = true)
    (hw : w = true → rl.getLsbD rn.toNat = false) :
    blockChecks s false false w rn rl = .error (.refuse .storePc) := by
  have hbase : (w && rl.getLsbD rn.toNat) = false := Bool.and_eq_false_imp.2 hw
  have hreturn : (false && false && rl.getLsbD 15 && s.spsrNow.isNone) = false := rfl
  have hstore : (!false && rl.getLsbD 15 && s.isReference) = true := by
    rw [h15, isReference_executorReference hp]
    rfl
  rw [blockChecks, refuseIf_bind (beq_false_of_ne (ne_zero_of_getLsbD h15)), refuseIf_bind (Bool.false_and _),
    refuseIf_bind hreturn, faultIf_bind (beq_false_of_ne hn), refuseIf_bind hbase, refuseIf_bind_error hstore]

end Reference

/-- Settles O18: each rule's refusal ends it, once the tests that stand before it have passed. -/
theorem referenceRefusesModeForms : Obligations.ReferenceRefusesModeForms := by
  intro s c hp hc
  refine ⟨fun i p rd sbz => conditional_refuse hc (moveFromPsr_refused hp p rd sbz),
    fun sbo src => conditional_refuse hc (moveToPsr_refused hp sbo src), fun u rn rd off => ?tForms,
    fun p u w rn hT hn => ⟨fun off => ?single, fun off8 => ?halfImm, fun sbz rm hz => ?halfReg⟩,
    fun p u w rn rl hn h15 hw => armStm_refused hc (blockChecks_storePc hp hn h15 hw),
    fun p u w rn rl hl =>
      ⟨armLdm_refused hc (blockChecks_userBank hp hl), armStm_refused hc (blockChecks_userBank hp hl)⟩⟩
  case tForms =>
    have htForm {load : Bool} {width : Width} :
        conditional c s (singleTransfer load width false u true rn rd off s) = .refused .userAccess :=
      conditional_refuse hc (singleTransfer_userAccess hp ..)
    exact ⟨htForm, htForm, htForm, htForm⟩
  case single =>
    exact ⟨conditional_refuse hc (singleTransfer_storePc hp hT hn ..),
      conditional_refuse hc (singleTransfer_storePc hp hT hn ..)⟩
  case halfImm => exact conditional_refuse hc (halfwordTransfer_storePc hp hT hn (halfOffset_unchecked trivial))
  case halfReg => exact conditional_refuse hc (halfwordTransfer_storePc hp hT hn (halfOffset_unchecked hz))

/-! ### Unpredictable operands -/

/-- A fault whose test holds ends its rule. -/
theorem faultIf_bind_error {b : Bool} (hb : b = true) (f : Fault) {α : Type} (g : Unit → Except Stop α) :
    (faultIf b f >>= g) = .error (.fault f) := by
  rw [hb]
  rfl

/-- A condition that passes leaves a rule's fault as the instruction's. -/
theorem conditional_fault {c : Cond} {s : State} {body : Except Stop State} {f : Fault}
    (hc : evaluate c s.flags = true) (h : body = .error (.fault f)) : conditional c s body = .fault f := by
  rw [conditional_pass body hc, h]
  rfl

section Unpredictable
variable {s : State}

theorem multiply_unpredictable {acc f : Bool} {rd rn rs rm : RegIdx}
    (hz : s.sbzCheck = false ∨ (!acc && rn != 0#4) = false)
    (h : rd = 15#4 ∨ rm = 15#4 ∨ rs = 15#4 ∨ (acc = true ∧ rn = 15#4) ∨ rd = rm) :
    multiply acc f rd rn rs rm s = .error (.fault (.unpredictable .mulOperands)) := by
  have hops : (rd == 15#4 || rm == 15#4 || rs == 15#4 || rd == rm || (acc && rn == 15#4)) = true := by
    simp only [Bool.or_eq_true, Bool.and_eq_true, beq_iff_eq]
    tauto
  rw [multiply, checkSbz_bind_ok hz, faultIf_bind_error hops]

theorem longMultiply_unpredictable {signed acc f : Bool} {hi lo rs rm : RegIdx}
    (h : hi = 15#4 ∨ lo = 15#4 ∨ rm = 15#4 ∨ rs = 15#4 ∨ hi = lo ∨ hi = rm ∨ lo = rm) :
    longMultiply signed acc f hi lo rs rm s = .error (.fault (.unpredictable .longMulOperands)) := by
  refine faultIf_bind_error ?_ _ _
  simpa only [Bool.or_eq_true, beq_iff_eq, or_assoc] using h

theorem swap_unpredictable {width : Width} {rn rd rm : RegIdx} {sbz : BitVec 4} (hz : s.sbzCheck = false ∨ sbz = 0#4)
    (h : rn = 15#4 ∨ rd = 15#4 ∨ rm = 15#4 ∨ rn = rd ∨ rn = rm) :
    swap width rn rd sbz rm s = .error (.fault (.unpredictable .swapOperands)) := by
  have hops : (rn == 15#4 || rd == 15#4 || rm == 15#4 || rn == rd || rn == rm) = true := by
    simpa only [Bool.or_eq_true, beq_iff_eq, or_assoc] using h
  rw [swap, checkSbz_bind_ok (hz.imp_right bne_eq_false_iff_eq.2), faultIf_bind_error hops]

/-- R281: past its checks an MSR of R15 faults. -/
theorem moveToPsr_unpredictable {p : Bool} {sbo : BitVec 4} {sbz : BitVec 8}
    (hz : s.sbzCheck = false ∨ (sbo = 0xF#4 ∧ sbz = 0#8))
    (hspsr : p = true → s.profile = .arm7tdmi ∧ s.spsrNow ≠ none) :
    moveToPsr p sbo (.reg sbz 15#4) s = .error (.fault (.unpredictable .msrFromPc)) := by
  obtain ⟨href, hnone⟩ := spsrChecks_pass hspsr
  have hbad : s.sbzCheck = false ∨ msrBadSbz sbo (.reg sbz 15#4) = false :=
    hz.imp_right fun ⟨ho, hb⟩ => by simp [msrBadSbz, ho, hb]
  rw [moveToPsr, refuseIf_bind href, refuseIf_bind hnone, checkSbz_bind_ok hbad]
  rfl

/-- R261: past its checks a shift by R15 faults. -/
theorem dataProcessing_unpredictable {op : AluOp} {f : Bool} {rn rd rm : RegIdx} {ty : ShiftType}
    (hspsr : f = true → rd = 15#4 → s.profile = .arm7tdmi ∧ s.spsrNow ≠ none)
    (hz : s.sbzCheck = false ∨ dpBadSbz op rn rd = false) :
    dataProcessing op f rn rd (.regReg rm ty 15#4) s = .error (.fault (.unpredictable .shiftByPc)) := by
  have hcopy (h : (f && rd == 15#4) = true) : s.profile = .arm7tdmi ∧ s.spsrNow ≠ none := by
    rw [Bool.and_eq_true, beq_iff_eq] at h
    obtain ⟨hf, hd⟩ := h
    exact hspsr hf hd
  obtain ⟨href, hnone⟩ := spsrChecks_pass hcopy
  rw [dataProcessing, refuseIf_bind href, refuseIf_bind hnone, checkSbz_bind_ok hz]
  rfl

/-- R330: past its checks a transfer with R15 as its offset faults. -/
theorem singleTransfer_unpredictable {load : Bool} {width : Width} {p u w : Bool} {rn rd : RegIdx} {ty : ShiftType}
    {n : BitVec 5} (hT : p = true ∨ w = false ∨ s.profile = .arm7tdmi)
    (hwb : p = false ∨ w = true → rn ≠ 15#4 ∧ rn ≠ rd) (hst : load = true ∨ rd ≠ 15#4 ∨ s.profile = .arm7tdmi) :
    singleTransfer load width p u w rn rd (.reg 15#4 ty n) s = .error (.fault (.unpredictable .offsetPc)) := by
  rw [singleTransfer, refuseIf_bind (userAccess_allowed hT)]
  exact congrArg (· >>= _) (transferChecks_pass hwb hst)

/-- R340: past its checks a halfword transfer with R15 as its offset faults. -/
theorem halfwordTransfer_unpredictable {load : Bool} {width : Width} {signed p u w : Bool} {rn rd : RegIdx}
    {sbz : BitVec 4} (hz : s.sbzCheck = false ∨ sbz = 0#4) (hT : p = true ∨ w = false)
    (hwb : p = false ∨ w = true → rn ≠ 15#4 ∧ rn ≠ rd) (hst : load = true ∨ rd ≠ 15#4 ∨ s.profile = .arm7tdmi) :
    halfwordTransfer load width signed p u w rn rd (.reg sbz 15#4) s =
      .error (.fault (.unpredictable .offsetPc)) := by
  rw [halfwordTransfer, State.checkSbz, refuseIf_bind (halfOffset_unchecked hz),
    refuseIf_bind (postWriteBack_allowed hT)]
  exact congrArg (· >>= _) (transferChecks_pass hwb hst)

/-- R350: past the checks before it R15 as the base of a block transfer faults. -/
theorem blockChecks_unpredictable {load sb w : Bool} {rl : BitVec 16} (hl : rl ≠ 0#16)
    (hp : sb = true → s.profile = .arm7tdmi)
    (hs : sb = true → load = true → rl.getLsbD 15 = true → s.spsrNow ≠ none) :
    blockChecks s load sb w 15#4 rl = .error (.fault (.unpredictable .blockBasePc)) := by
  have href : (sb && s.isReference) = false := Bool.and_eq_false_imp.2 fun h => isReference_arm7tdmi (hp h)
  have hspsr : (sb && load && rl.getLsbD 15 && s.spsrNow.isNone) = false := by
    refine Bool.and_eq_false_imp.2 fun hreturn => ?_
    rw [Bool.and_eq_true, Bool.and_eq_true] at hreturn
    obtain ⟨⟨hsb, hload⟩, h15⟩ := hreturn
    exact isNone_eq_false (hs hsb hload h15)
  rw [blockChecks, refuseIf_bind (beq_false_of_ne hl), refuseIf_bind href, refuseIf_bind hspsr,
    faultIf_bind_error (beq_self_eq_true _)]

end Unpredictable

/-- Settles O19: each rule's fault ends it, once the refusals that stand before it have passed. -/
theorem unpredictableOperandsFault : Obligations.UnpredictableOperandsFault := by
  intro s c hc
  refine ⟨fun f rd rn rs rm => ⟨fun hz h => ?mul, fun h => ?mla⟩, fun f hi lo rs rm h => ?long,
    fun rn rd sbz rm hz h => ?swap, conditional_fault hc rfl, fun p sbo sbz hz hspsr => ?msr,
    fun rd => congrArg finish (faultIf_bind_error (beq_self_eq_true rd) _ _), ?shift, ?transfer,
    fun p u sb w rl hl hp => ?block⟩
  case mul =>
    exact conditional_fault hc (multiply_unpredictable (hz.imp_right bne_eq_false_iff_eq.2) (by tauto))
  case mla => exact conditional_fault hc (multiply_unpredictable (.inr rfl) (by tauto))
  case long =>
    have hlong {signed acc : Bool} :
        conditional c s (longMultiply signed acc f hi lo rs rm s) = .fault (.unpredictable .longMulOperands) :=
      conditional_fault hc (longMultiply_unpredictable h)
    exact ⟨hlong, hlong, hlong, hlong⟩
  case swap =>
    exact ⟨conditional_fault hc (swap_unpredictable hz h), conditional_fault hc (swap_unpredictable hz h)⟩
  case msr => exact conditional_fault hc (moveToPsr_unpredictable hz hspsr)
  case shift =>
    intro f rn rd rm ty op2 stop
    have hshift {op : AluOp} {g : Bool} (hspsr : g = true → rd = 15#4 → s.profile = .arm7tdmi ∧ s.spsrNow ≠ none)
        (hz : s.sbzCheck = false ∨ dpBadSbz op rn rd = false) :
        conditional c s (dataProcessing op g rn rd op2 s) = stop :=
      conditional_fault hc (dataProcessing_unpredictable hspsr hz)
    refine ⟨fun hspsr => ?writes, fun hspsr hz => ?compares⟩
    case writes =>
      have hboth {op : AluOp} (hb : dpBadSbz op rn rd = false) :
          conditional c s (dataProcessing op f rn rd op2 s) = stop := hshift hspsr (.inr hb)
      refine ⟨hboth rfl, hboth rfl, hboth rfl, hboth rfl, hboth rfl, hboth rfl, hboth rfl, hboth rfl, hboth rfl,
        hboth rfl, fun hz => ?_⟩
      have hmov {op : AluOp} (hw : op.writes = true) : s.sbzCheck = false ∨ dpBadSbz op rn rd = false :=
        hz.imp_right fun h => by simp [dpBadSbz, h, hw]
      exact ⟨hshift hspsr (hmov rfl), hshift hspsr (hmov rfl)⟩
    case compares =>
      have hcmp {op : AluOp} (hr : op.readsRn = true) : conditional c s (dataProcessing op true rn rd op2 s) = stop :=
        hshift (fun _ => hspsr) (hz.imp_right fun h => by simp [dpBadSbz, h, hr])
      exact ⟨hcmp rfl, hcmp rfl, hcmp rfl, hcmp rfl⟩
  case transfer =>
    intro p u w rn rd stop
    refine ⟨fun hT hwb => ⟨fun ty n => ?single, fun sbz hz => ?half⟩, fun hp hn hd ty n => ?tForms⟩
    case single =>
      intro off
      have hsingle {load : Bool} {width : Width} (hst : load = true ∨ rd ≠ 15#4 ∨ s.profile = .arm7tdmi) :
          conditional c s (singleTransfer load width p u w rn rd off s) = stop :=
        conditional_fault hc (singleTransfer_unpredictable (hT.imp_right .inl) hwb hst)
      exact ⟨hsingle (.inl rfl), hsingle (.inl rfl), fun hst => ⟨hsingle (.inr hst), hsingle (.inr hst)⟩⟩
    case half =>
      intro off
      have hhalf {load : Bool} {width : Width} {signed : Bool} (hst : load = true ∨ rd ≠ 15#4 ∨ s.profile = .arm7tdmi) :
          conditional c s (halfwordTransfer load width signed p u w rn rd off s) = stop :=
        conditional_fault hc (halfwordTransfer_unpredictable hz hT hwb hst)
      exact ⟨hhalf (.inl rfl), hhalf (.inl rfl), hhalf (.inl rfl), fun hst => hhalf (.inr hst)⟩
    case tForms =>
      intro off
      have htForm {load : Bool} {width : Width} :
          conditional c s (singleTransfer load width false u true rn rd off s) = stop :=
        conditional_fault hc (singleTransfer_unpredictable (.inr (.inr hp)) (fun _ => ⟨hn, hd⟩) (.inr (.inr hp)))
      exact ⟨htForm, htForm, htForm, htForm⟩
  case block =>
    have hchecks {load : Bool} (hs : sb = true → load = true → rl.getLsbD 15 = true → s.spsrNow ≠ none) :
        blockChecks s load sb w 15#4 rl = .error (.fault (.unpredictable .blockBasePc)) :=
      blockChecks_unpredictable hl hp hs
    refine ⟨fun hs => conditional_fault hc ?ldm, conditional_fault hc ?stm⟩
    case ldm =>
      rw [loadMultiple, hchecks fun h _ => hs h]
      rfl
    case stm =>
      rw [storeMultiple, hchecks fun _ h => absurd h Bool.false_ne_true]
      rfl

end Sys2Proof.Proofs
end
